-- ==== Sys2Proof/Word.lean ====
section
/-! DEFINITION. The words of the Z720 (R4): bytes, 32-bit register words, 64-bit addresses and messages, and the
type of the sparse, key-ordered tables that the state is made of. -/

namespace Sys2Proof

/-- One byte. -/
abbrev Byte := BitVec 8

/-- One 32-bit register word (R13). -/
abbrev Word := BitVec 32

/-- One 64-bit word: addresses, PCs and port messages. -/
abbrev Dword := BitVec 64

/-- A sparse table from natural keys to values. In canonical form the keys rise strictly; a key that is not
listed holds the value that the table's use names. -/
abbrev NMap (α : Type) := List (Nat × α)

/-- A byte string. -/
abbrev Bytes := List Byte

end Sys2Proof
end

