-- ==== Sys2Proof/Syntax.lean ====
section
/-! DEFINITION. The syntax of the Z720: one constructor of `Instr` for every row of spec/opcode_table.json. The first part
(NOP to KEYSET) is the instruction set of R59, in the table's order; the second part (LINE_WAIT_RELEASE onwards) is the
table's device, host and board events, whose arguments say what happened or which choice the device took. -/

namespace Sys2Proof

/-! ### Header and operands -/

/-- The completion field CF of the header (R33, R34): no flag, or the line's flag A or B. -/
inductive Cf where
  | none | a | b
  deriving DecidableEq, Repr

/-- The instruction header of R33: guard predicate (7 names pt), its negation, and the completion field. -/
structure Hdr where
  g  : BitVec 3
  gn : Bool
  cf : Cf
  deriving DecidableEq, Repr

/-- An operand specifier (R38). The reserved values 0xC8 to 0xDF have no constructor. -/
inductive Spec where
  | v (n : BitVec 7)
  | s (n : BitVec 6)
  | zero | lane | grp | role | first | count
  | argpLo | argpHi
  | small (k : Fin 31)
  | imm
  deriving DecidableEq, Repr

/-- A source operand with its kill bit (R42). -/
structure Src where
  spec : Spec
  kill : Bool
  deriving DecidableEq, Repr

/-- A predicate source in predicate form (R51): 0 to 6 name p0 to p6, 7 names pt. -/
structure PSrc where
  neg : Bool
  pn  : BitVec 3
  deriving DecidableEq, Repr

/-- Format A with one source. -/
structure Op1 where
  h   : Hdr
  d   : Spec
  a   : Src
  imm : Word
  deriving DecidableEq, Repr

/-- Format A with two sources. -/
structure Op2 where
  h   : Hdr
  d   : Spec
  a   : Src
  b   : Src
  imm : Word
  deriving DecidableEq, Repr

/-- Format A with three sources. -/
structure Op3 where
  h   : Hdr
  d   : Spec
  a   : Src
  b   : Src
  c   : Src
  imm : Word
  deriving DecidableEq, Repr

/-- Format A comparison into a predicate (R78, R108): destination predicate, two sources, and a predicate source that
takes part when the combining operation is not `none`. -/
structure OpCmp where
  h   : Hdr
  pd  : BitVec 3
  a   : Src
  b   : Src
  pc  : Option PSrc
  imm : Word
  deriving DecidableEq, Repr

/-! ### Modifiers -/

/-- The saturation modifiers of IADD and ISUB (R76). -/
inductive Sat where
  | wrap | signed | unsigned
  deriving DecidableEq, Repr

/-- The integer relations (R78). -/
inductive ICmp where
  | eq | ne | lt | le | gt | ge
  deriving DecidableEq, Repr

/-- The combination of a comparison with a predicate source (R78, R104). -/
inductive BOp where
  | and | or | xor
  deriving DecidableEq, Repr

/-- The float relations (R104, R108). -/
inductive FCmp where
  | eq | ne | lt | le | gt | ge | num | nan
  deriving DecidableEq, Repr

/-- The rounding directions (R101). -/
inductive Rnd where
  | rn | rz | ru | rd
  deriving DecidableEq, Repr

/-- The float formats (R98), in the coding of the conversions (R114). -/
inductive FFmt where
  | f32 | f64 | f16 | bf16
  deriving DecidableEq, Repr

/-- The integer types of the conversions (R114). -/
inductive ITy where
  | s32 | u32 | s64 | u64 | s16 | u16 | s8 | u8
  deriving DecidableEq, Repr

/-- The functions of FSPEC (R104). -/
inductive FFn where
  | rcp | rsq | sqrt | ex2 | lg2 | sin | cos | tanh
  deriving DecidableEq, Repr

/-- The modifier fields of R104 that change operands or results. A field that an opcode does not use is false. -/
structure FMod where
  rnd : Rnd
  na  : Bool
  nb  : Bool
  nc  : Bool
  aa  : Bool
  ab  : Bool
  ac  : Bool
  sat : Bool
  bf  : Bool
  deriving DecidableEq, Repr

/-- The shared-exponent formats (R164). -/
inductive SxFmt where
  | sx7 | sx4 | sx2
  deriving DecidableEq, Repr

/-- The kinds of a compander table (R167). -/
inductive CmpKind where
  | lin | sx7 | sx4
  deriving DecidableEq, Repr

/-- A compander selector (R174, R300): the table `cmpsel` names, or a table by number. -/
inductive CtSel where
  | cmpsel
  | table (t : BitVec 3)
  deriving DecidableEq, Repr

/-- The spaces of Format L (R57). -/
inductive Space where
  | glb | scr | loc
  deriving DecidableEq, Repr

/-- The widths of Format L (R57, R117). -/
inductive Width where
  | b8 | b16 | b32 | b64 | b128 | s8 | s16
  deriving DecidableEq, Repr

/-- The orders of Format L (R57). -/
inductive Order where
  | weak | acq | rel | ar
  deriving DecidableEq, Repr

/-- The scopes of Format L (R57, R237). -/
inductive Scope where
  | grp | core | clu | stk | dev | sys
  deriving DecidableEq, Repr

/-- The fields of a Format L instruction (R57). -/
structure MemOp where
  h     : Hdr
  space : Space
  width : Width
  order : Order
  scope : Scope
  inv   : Bool
  fe    : Bool
  cache : BitVec 2
  scale : BitVec 2
  off   : BitVec 24
  d     : Spec
  adr   : Src
  idx   : Src
  x     : Src
  deriving DecidableEq, Repr

/-- The forms of VOTE (R144, R145). -/
inductive VoteForm where
  | all (pd : BitVec 3)
  | any (pd : BitVec 3)
  | eq (pd : BitVec 3)
  | ballot (d : Spec) (b : Src) (imm : Word)
  deriving DecidableEq, Repr

/-- The modes of XLANE (R144). -/
inductive XMode where
  | at | back | fwd | xor
  deriving DecidableEq, Repr

/-- The operations of GFOLD and SCAN (R144). -/
inductive FoldOp where
  | add | min | max | and | or | xor
  deriving DecidableEq, Repr

/-- The types of GFOLD and SCAN (R144), and of a collective (R284). -/
inductive FoldTy where
  | s32 | u32 | f32
  deriving DecidableEq, Repr

/-- The IMM fields of a copy command (R283): its completion port, when it has one, and its tensor record. -/
structure CpyImm where
  pv   : Bool
  port : BitVec 16
  recN : BitVec 6
  deriving DecidableEq, Repr

/-- The operands of a copy command (R284). `tag` is read. -/
structure CpyOp where
  h   : Hdr
  tag : Spec
  a   : Src
  b   : Src
  c   : Src
  im  : CpyImm
  deriving DecidableEq, Repr

/-- The destination of CPY and CPYG, and the source of CPYS (R284). -/
inductive CpyKind where
  | scr | slot | acc
  deriving DecidableEq, Repr

/-- The operations of COLL (R284). -/
inductive CollOp where
  | sum | min | max | gather | rscat | bcast
  deriving DecidableEq, Repr

/-- The formats of an operand slot (R298). -/
inductive SlotFmt where
  | sx7 | sx4 | sx2 | bf16
  deriving DecidableEq, Repr

/-- The operands of MMA and MMAS (R300). -/
structure MmaOp where
  h     : Hdr
  a     : Src
  b     : Src
  bsel  : BitVec 2
  asel  : BitVec 2
  bslot : BitVec 8
  aslot : BitVec 8
  acc   : BitVec 6
  deriving DecidableEq, Repr

/-- The filters of TEX and TEXQ (R386). -/
inductive TexFlt where
  | pt | bil | tri | ani
  deriving DecidableEq, Repr

/-- The LOD modes (R385). -/
inductive LodMode where
  | grad | quad | foot | level
  deriving DecidableEq, Repr

/-- The operands of TEX, TEXG and TEXQ (R392). -/
structure TexOp where
  h : Hdr
  d : Spec
  a : Src
  b : Src
  c : Src
  deriving DecidableEq, Repr

/-- The port of a join instruction (R333): in IMM, or a port word read from field B. -/
inductive PortRef where
  | imm (rmt : Bool) (dev : BitVec 3) (port : BitVec 16)
  | reg (b : Src)
  deriving DecidableEq, Repr

/-- The ports of WAIT (R332, R333): one port in IMM, or a uniform list with its count. -/
inductive WaitPorts where
  | imm (port : BitVec 16)
  | list (a : Src) (b : Src)
  deriving DecidableEq, Repr

/-! ### The instruction set and the events -/

/-- Every row of spec/opcode_table.json. -/
inductive Instr where
  -- control, Format B
  | nop (h : Hdr)
  | bra (h : Hdr) (loff : BitVec 29) (tslot : BitVec 3)
  | brx (h : Hdr) (t : Src)
  | call (h : Hdr) (loff : BitVec 29) (tslot : BitVec 3)
  | callx (h : Hdr) (t : Src)
  | ret (h : Hdr)
  | exit (h : Hdr)
  | conv (h : Hdr)
  | yield (h : Hdr)
  | rep (h : Hdr) (n : Src) (stride : BitVec 3) (mask : BitVec 4)
  | trap (h : Hdr) (code : BitVec 16)
  | bkpt (h : Hdr)
  -- integer, Format A
  | iadd (sat : Sat) (o : Op2)
  | isub (sat : Sat) (o : Op2)
  | iaddc (po : BitVec 3) (h : Hdr) (d : Spec) (a b : Src) (pi : PSrc) (imm : Word)
  | imul (o : Op2)
  | imulh (u : Bool) (o : Op2)
  | imad (o : Op3)
  | imadw (u : Bool) (o : Op3)
  | imin (u : Bool) (o : Op2)
  | imax (u : Bool) (o : Op2)
  | iabs (sat : Bool) (o : Op1)
  | tern (lut : BitVec 8) (o : Op3)
  | shl (w : Bool) (o : Op2)
  | shr (w : Bool) (o : Op2)
  | sar (w : Bool) (o : Op2)
  | shf (l w : Bool) (o : Op3)
  | bfe (sg : Bool) (o : Op2)
  | bfi (o : Op3)
  | popc (o : Op1)
  | clz (o : Op1)
  | brev (o : Op1)
  | byperm (o : Op3)
  | iset (u : Bool) (cmp : ICmp) (bop : BOp) (o : OpCmp)
  | isetv (u : Bool) (cmp : ICmp) (o : Op2)
  | iadd64 (o : Op2)
  | isub64 (o : Op2)
  | lea (k : BitVec 5) (o : Op2)
  | lea64 (u : Bool) (k : BitVec 5) (o : Op2)
  | idp4 (sat ua ub : Bool) (o : Op3)
  | isad (u : Bool) (o : Op3)
  | shl64 (o : Op2)
  | shr64 (ar : Bool) (o : Op2)
  | mov (p : Bool) (o : Op1)
  | sel (h : Hdr) (d : Spec) (a b : Src) (pc : PSrc) (imm : Word)
  -- predicates, Format A
  | ptern (lut : BitVec 8) (h : Hdr) (pd : BitVec 3) (pa pb pc : PSrc)
  | p2v (h : Hdr) (d : Spec)
  | v2p (h : Hdr) (a b : Src) (imm : Word)
  -- floating point, Format A
  | fadd (m : FMod) (o : Op2)
  | fmul (m : FMod) (o : Op2)
  | ffma (m : FMod) (o : Op3)
  | fmin (m : FMod) (o : Op2)
  | fmax (m : FMod) (o : Op2)
  | fset (cmp : FCmp) (bop : BOp) (m : FMod) (o : OpCmp)
  | fsetv (cmp : FCmp) (m : FMod) (o : Op2)
  | frnd (m : FMod) (o : Op1)
  | fclass (fmt : FFmt) (o : Op1)
  | fspec (fn : FFn) (m : FMod) (o : Op1)
  | fscale (m : FMod) (o : Op2)
  | hadd2 (m : FMod) (o : Op2)
  | hmul2 (m : FMod) (o : Op2)
  | hfma2 (m : FMod) (o : Op3)
  | hmin2 (m : FMod) (o : Op2)
  | hmax2 (m : FMod) (o : Op2)
  | hset2 (cmp : FCmp) (m : FMod) (o : Op2)
  | hdot2 (m : FMod) (o : Op3)
  | dadd (m : FMod) (o : Op2)
  | dmul (m : FMod) (o : Op2)
  | dfma (m : FMod) (o : Op3)
  | dmin (m : FMod) (o : Op2)
  | dmax (m : FMod) (o : Op2)
  | dset (cmp : FCmp) (bop : BOp) (m : FMod) (o : OpCmp)
  | f2i (rnd : Rnd) (sf : FFmt) (dt : ITy) (hi : Bool) (o : Op1)
  | i2f (rnd : Rnd) (st : ITy) (df : FFmt) (o : Op1)
  | f2f (rnd : Rnd) (sf df : FFmt) (hi : Bool) (o : Op1)
  | i2i (st dt : ITy) (sat : Bool) (o : Op1)
  -- block formats, Format A
  | qpack (fmt : SxFmt) (sr pk : Bool) (ct : CtSel) (o : Op1)
  | qunpk (fmt : SxFmt) (ct : CtSel) (o : Op3)
  | qscal (mu : Bool) (sel : BitVec 2) (o : Op2)
  | cmpld (kind : CmpKind) (tbl : BitVec 3) (h : Hdr) (a b : Src)
  -- memory, Format L
  | ld (m : MemOp)
  | st (m : MemOp)
  | atom (m : MemOp)
  | atomf (m : MemOp)
  | cas (m : MemOp)
  | red (m : MemOp)
  | fence (m : MemOp)
  | pref (m : MemOp)
  | fewait (m : MemOp)
  | feset (m : MemOp)
  | cctlL1 (m : MemOp)
  | cctlL1all (m : MemOp)
  | cctlIc (m : MemOp)
  | cctlMap (m : MemOp)
  | lodld (m : MemOp)
  -- group, Format A
  | vote (f : VoteForm) (h : Hdr) (pa : PSrc)
  | xlane (mode : XMode) (seg : Fin 7) (o : Op2)
  | qdiff (rnd : Rnd) (y crs : Bool) (o : Op1)
  | gfold (op : FoldOp) (ty : FoldTy) (o : Op1)
  | scan (op : FoldOp) (ty : FoldTy) (exc : Bool) (o : Op1)
  | rdlane (o : Op2)
  | matchLanes (cnt w : Bool) (o : Op1)
  | elect (h : Hdr) (pd : BitVec 3)
  | barSync (h : Hdr) (a b : Src) (imm : Word)
  | barArrive (h : Hdr) (a b : Src) (imm : Word)
  | barWait (h : Hdr) (a : Src) (imm : Word)
  -- copy and collective engines, Format E
  | trset (h : Hdr) (d : Spec) (a : Src) (recN : BitVec 6)
  | cpy (kind : CpyKind) (tr : Fin 3) (side : Bool) (o : CpyOp)
  | cpys (kind : CpyKind) (tr : Fin 3) (side : Bool) (o : CpyOp)
  | cpyg (kind : CpyKind) (o : CpyOp)
  | coll (op : CollOp) (ty : FoldTy) (o : CpyOp)
  | fillScr (o : CpyOp)
  | fillMem (o : CpyOp)
  -- matrix engine, Format E
  | tclaim (acc : Bool) (h : Hdr) (pd : BitVec 3) (first : BitVec 8) (n : BitVec 9)
  | trel (acc : Bool) (h : Hdr) (first : BitVec 8) (n : BitVec 9)
  | mslot (fmt : SlotFmt) (sp : Bool) (ct : CtSel) (h : Hdr) (a : Src) (slot : BitVec 8)
  | mma (o : MmaOp)
  | mmas (o : MmaOp)
  | mzero (h : Hdr) (acc : BitVec 6)
  | mrd (h : Hdr) (d : Spec) (b : Src) (acc : BitVec 6)
  | mwr (h : Hdr) (a b : Src) (acc : BitVec 6)
  -- beam engine, Format E
  | bnew (h : Hdr) (d : Spec) (a : Src)
  | btrace (h : Hdr) (d : Spec) (a b c : Src) (mask : BitVec 8)
  | bfree (h : Hdr) (d : Spec) (a : Src)
  -- rays and textures, Format E
  | rtrace (first : Bool) (mask : BitVec 8) (h : Hdr) (d : Spec) (a b c : Src) (root : BitVec 8)
  | rresume (sh cm : Bool) (h : Hdr) (d : Spec) (a b c : Src)
  | tex (flt : TexFlt) (lodm : LodMode) (st : Bool) (o : TexOp)
  | texg (comp : BitVec 2) (lodm : LodMode) (st : Bool) (o : TexOp)
  | texq (flt : TexFlt) (lodm : LodMode) (o : TexOp)
  -- join unit, Format E
  | post (h : Hdr) (a : Src) (port : PortRef)
  | postn (h : Hdr) (d : Spec) (a : Src) (port : PortRef)
  | wait (pri : BitVec 3) (h : Hdr) (ports : WaitPorts)
  | take (h : Hdr) (d : Spec) (pc : BitVec 3) (port : PortRef)
  | patset (h : Hdr) (d : Spec) (a b c : Src)
  | patclr (h : Hdr) (d : Spec) (a : Src)
  | portcfg (h : Hdr) (d : Spec) (a : Src) (port : PortRef) (c : Src)
  -- launches and faults, Format E
  | launchCard (h : Hdr) (d : Spec) (a : Src)
  | launchArm (h : Hdr) (d : Spec) (a b c : Src)
  | launchSeal (h : Hdr) (d : Spec) (a : Src)
  | cancel (cnt kill : Bool) (h : Hdr) (d : Spec) (a : Src)
  | cntrd (cnt : Bool) (h : Hdr) (d : Spec) (a : Src)
  | resumeRec (h : Hdr) (d : Spec) (a : Src)
  | resumeLaunch (h : Hdr) (d : Spec) (a : Src)
  -- system, Format S
  | mfs (h : Hdr) (d : Spec) (num : BitVec 16)
  | mts (h : Hdr) (a : Src) (num : BitVec 16)
  | regclaim (h : Hdr) (n : BitVec 16)
  | reggive (h : Hdr) (n : BitVec 16)
  | keyset (h : Hdr) (a : Src) (k : BitVec 5)
  -- events of groups, packets and registers
  | lineWaitRelease (uid grp lane : Nat)
  | longLatencyComplete (uid grp k : Nat)
  | claimWaitServed (quad : Nat)
  | registerShortage (quad : Nat)
  | teamSaveComplete (uid : Nat)
  | teamRestore (uid cluster : Nat)
  | convParklimit (uid grp lane : Nat)
  | barParklimit (uid grp : Nat)
  | fullEmptyParklimit (uid grp lane : Nat)
  | postParklimit (uid grp lane : Nat)
  | waitParklimit (uid grp : Nat)
  | fullEmptySetServed (uid grp lane : Nat)
  | postRetry (uid grp lane : Nat)
  -- events of launches
  | chunkDeal (stack : Nat)
  | launchBlocking (stack launch : Nat)
  | declaredOperandWalk (launch : Nat)
  | levelCompletion (cnt : Bool) (id : Nat)
  -- events of the copy and collective engines
  | copyLineArrival (cmd line : Nat)
  | copyPageFault (cmd : Nat)
  | copyComplete (cmd : Nat)
  | collectiveStart (ctx cid : Nat)
  | collectiveTimeout (ctx cid : Nat)
  | collectiveComplete (cmd : Nat)
  -- events of the matrix engine
  | matrixEntryGrant (cluster : Nat)
  | matrixEntryAged (entry : Nat)
  | matrixEntryEnd (cluster : Nat)
  | governorWindow (cluster : Nat)
  | governorAllowanceReached (cluster : Nat)
  -- events of the beam and ray engines and of the texture units
  | beamRingLineWrite (trace : Nat)
  | beamTraceEnd (trace : Nat)
  | beamTracePagef (trace : Nat)
  | beamRingTimeout (trace : Nat)
  | rayTraversalEnd (trav : Nat)
  | rayTraversalPagef (trav : Nat)
  | mapLineExpiry (line : Nat)
  -- events of the join units, the host and the peers
  | portArrival (k : Nat)
  | hostPortWrite (off size : Nat) (data : Dword)
  | hostPortRead (off size : Nat)
  | peerPostArrival (ctx : Nat) (port : BitVec 16) (msg : Dword)
  | hostBar4Read (off n : Nat)
  | hostBar4Write (off : Nat) (data : Bytes)
  | peerMemoryAccess (write : Bool) (pa n : Nat) (data : Bytes)
  -- events of the BAR0 registers
  | vsplitWrite (data : Word)
  | vsplitResizeComplete
  | mgovWrite (data : Word)
  | mgovClearStalls (data : Word)
  | pwstatClear (data : Word)
  | tlbShootdownPage (data : Word)
  | tlbShootdownRange (data : Word)
  | tlbShootdownContext (data : Word)
  | tlbShootdownAll (data : Word)
  | tlbShootdownComplete
  | hostResumeRec (data : Word)
  | hostResumeLaunch (data : Word)
  | contextCreate (data : Word)
  | contextDestroy (data : Word)
  | channelPreempt (chan : Nat) (data : Word)
  | preemptArrivalAtStack (chan stack : Nat)
  | drainLimitExpiry (chan stack : Nat)
  | channelRelease (chan : Nat) (data : Word)
  | feedbackClearDrops (ring : Nat) (data : Word)
  | headEnable (head : Nat) (data : Word)
  | headLinkTrained (head : Nat)
  | hbaseWrite (head : Nat) (data : Dword)
  | verticalBlank (head : Nat)
  | hstatClear (head : Nat) (data : Word)
  | cntclrGddr
  | cntclrCore
  | cntclrInteg
  | vfPointWrite (domain point : Nat) (data : Word)
  | soundingClear (unit : Nat) (data : Word)
  | soundingRun (unit : Nat) (data : Word)
  | soundingSample (unit : Nat) (x : Word)
  | registerWrite (off size : Nat) (data : Dword)
  -- events of start-up, trust and the board
  | powerOnReset
  | attestationRequest (nonce : Bytes)
  | doeDiscovery (index : Nat)
  | hostLinkTraining (cxl : Bool) (width rate : Nat)
  | sensorRefresh (sensor : Nat) (value : BitVec 16)
  | supplyDroop
  | powerGovernorUpdate (points : List Nat) (pcap power : Nat)
  | zwilerFlitCrcFail (link : Nat) (retrained : Bool)
  | gddrTransferRetry (dev chan : Nat) (write : Bool) (failed : Option Nat)
  | unassignedOpcodeIssue (h : Hdr) (op : BitVec 9)
  | commandAddressParityError (dev chan : Nat) (retrain : Bool)
  | scanOutRead (head x y : Nat) (late : Bool)
  | hostManagedMemoryAccess (write : Bool) (pa n : Nat) (data : Bytes)
  | contextDestroyComplete
  | droopPassed
  deriving DecidableEq, Repr

end Sys2Proof
end

