-- ==== Sys2Proof/Machine/Shape.lean ====
section
/-! DEFINITION. What the encoding of an instruction says about it before it runs: its class (R59, R60), whether it is
long-latency (R34) or group-collective (R131), its operand shapes (R16, R38 to R41), and the two kinds of encoding fault
that its fields can hold (R61): ILLOP (`legal`) and ILLOPD (`shapeOk`). -/

namespace Sys2Proof

/-- The pairing classes of R59; `event` marks the table's rows that are no instruction. -/
inductive OpClass where
  | control | alu | memory | group | engine | system | event
  deriving DecidableEq, Repr

/-- R59: the class of each instruction. UNASSIGNED_OPCODE_ISSUE stands for a slot with no assigned opcode. -/
def Instr.cls : Instr → OpClass
  | .nop .. | .bra .. | .brx .. | .call .. | .callx .. | .ret .. | .exit .. | .conv .. | .yield .. | .rep .. | .trap ..
  | .bkpt .. => .control
  | .iadd .. | .isub .. | .iaddc .. | .imul .. | .imulh .. | .imad .. | .imadw .. | .imin .. | .imax .. | .iabs ..
  | .tern .. | .shl .. | .shr .. | .sar .. | .shf .. | .bfe .. | .bfi .. | .popc .. | .clz .. | .brev .. | .byperm ..
  | .iset .. | .isetv .. | .iadd64 .. | .isub64 .. | .lea .. | .lea64 .. | .idp4 .. | .isad .. | .shl64 .. | .shr64 ..
  | .mov .. | .sel .. | .ptern .. | .p2v .. | .v2p .. | .fadd .. | .fmul .. | .ffma .. | .fmin .. | .fmax .. | .fset ..
  | .fsetv .. | .frnd .. | .fclass .. | .fspec .. | .fscale .. | .hadd2 .. | .hmul2 .. | .hfma2 .. | .hmin2 ..
  | .hmax2 .. | .hset2 .. | .hdot2 .. | .dadd .. | .dmul .. | .dfma .. | .dmin .. | .dmax .. | .dset .. | .f2i ..
  | .i2f .. | .f2f .. | .i2i .. | .qunpk .. | .cmpld .. => .alu
  | .qpack .. | .qscal .. | .vote .. | .xlane .. | .qdiff .. | .gfold .. | .scan .. | .rdlane .. | .matchLanes ..
  | .elect .. | .barSync .. | .barArrive .. | .barWait .. => .group
  | .ld .. | .st .. | .atom .. | .atomf .. | .cas .. | .red .. | .fence .. | .pref .. | .fewait .. | .feset ..
  | .cctlL1 .. | .cctlL1all .. | .cctlIc .. | .cctlMap .. | .lodld .. => .memory
  | .trset .. | .cpy .. | .cpys .. | .cpyg .. | .coll .. | .fillScr .. | .fillMem .. | .tclaim .. | .trel .. | .mslot ..
  | .mma .. | .mmas .. | .mzero .. | .mrd .. | .mwr .. | .bnew .. | .btrace .. | .bfree .. | .rtrace .. | .rresume ..
  | .tex .. | .texg .. | .texq .. | .post .. | .postn .. | .wait .. | .take .. | .patset .. | .patclr .. | .portcfg ..
  | .launchCard .. | .launchArm .. | .launchSeal .. | .cancel .. | .cntrd .. | .resumeRec .. | .resumeLaunch .. => .engine
  | .mfs .. | .mts .. | .regclaim .. | .reggive .. | .keyset .. => .system
  | _ => .event

/-- R34, R60: every memory-class and every engine-class instruction, together with FSPEC. -/
def Instr.longLatency (i : Instr) : Bool :=
  match i with
  | .fspec .. => true
  | _ => i.cls == .memory || i.cls == .engine

/-- The header of an instruction; an event has none. -/
def Instr.hdr : Instr → Option Hdr
  | .nop h | .bra h .. | .brx h .. | .call h .. | .callx h .. | .ret h | .exit h | .conv h | .yield h | .rep h ..
  | .trap h .. | .bkpt h => some h
  | .iadd _ o | .isub _ o | .imul o | .imulh _ o | .imin _ o | .imax _ o | .shl _ o | .shr _ o | .sar _ o | .bfe _ o
  | .isetv _ _ o | .iadd64 o | .isub64 o | .lea _ o | .lea64 _ _ o | .shl64 o | .shr64 _ o => some o.h
  | .imad o | .imadw _ o | .tern _ o | .shf _ _ o | .bfi o | .byperm o | .idp4 _ _ _ o | .isad _ o => some o.h
  | .iabs _ o | .popc o | .clz o | .brev o | .mov _ o => some o.h
  | .iaddc _ h .. | .sel h .. | .ptern _ h .. | .p2v h .. | .v2p h .. => some h
  | .iset _ _ _ o => some o.h
  | .fadd _ o | .fmul _ o | .fmin _ o | .fmax _ o | .fsetv _ _ o | .fscale _ o | .hadd2 _ o | .hmul2 _ o | .hmin2 _ o
  | .hmax2 _ o | .hset2 _ _ o | .dadd _ o | .dmul _ o | .dmin _ o | .dmax _ o => some o.h
  | .ffma _ o | .hfma2 _ o | .hdot2 _ o | .dfma _ o => some o.h
  | .fset _ _ _ o | .dset _ _ _ o => some o.h
  | .frnd _ o | .fclass _ o | .fspec _ _ o | .f2i _ _ _ _ o | .i2f _ _ _ o | .f2f _ _ _ _ o | .i2i _ _ _ o => some o.h
  | .qpack _ _ _ _ o => some o.h
  | .qunpk _ _ o => some o.h
  | .qscal _ _ o => some o.h
  | .cmpld _ _ h .. => some h
  | .ld m | .st m | .atom m | .atomf m | .cas m | .red m | .fence m | .pref m | .fewait m | .feset m | .cctlL1 m
  | .cctlL1all m | .cctlIc m | .cctlMap m | .lodld m => some m.h
  | .vote _ h _ => some h
  | .xlane _ _ o | .rdlane o => some o.h
  | .qdiff _ _ _ o | .gfold _ _ o | .scan _ _ _ o | .matchLanes _ _ o => some o.h
  | .elect h _ | .barSync h .. | .barArrive h .. | .barWait h .. => some h
  | .trset h .. => some h
  | .cpy _ _ _ o | .cpys _ _ _ o | .cpyg _ o | .coll _ _ o | .fillScr o | .fillMem o => some o.h
  | .tclaim _ h .. | .trel _ h .. | .mslot _ _ _ h .. => some h
  | .mma o | .mmas o => some o.h
  | .mzero h _ | .mrd h .. | .mwr h .. => some h
  | .bnew h .. | .btrace h .. | .bfree h .. | .rtrace _ _ h .. | .rresume _ _ h .. => some h
  | .tex _ _ _ o | .texg _ _ _ o | .texq _ _ o => some o.h
  | .post h .. | .postn h .. | .wait _ h _ | .take h .. | .patset h .. | .patclr h .. | .portcfg h .. => some h
  | .launchCard h .. | .launchArm h .. | .launchSeal h .. | .cancel _ _ h .. | .cntrd _ h .. | .resumeRec h ..
  | .resumeLaunch h .. => some h
  | .mfs h .. | .mts h .. | .regclaim h .. | .reggive h .. | .keyset h .. => some h
  | .unassignedOpcodeIssue h _ => some h
  | _ => none

/-! ### Operand shapes -/

/-- A source operand with the number of registers it reads (1, 2, 4) and whether it must be uniform. -/
structure SrcShape where
  src : Src
  w   : Nat
  uni : Bool
  deriving DecidableEq, Repr

/-- A destination operand with the number of registers it names. `vOnly`: an s-register there raises ILLOPD. -/
structure DstShape where
  spec  : Spec
  w     : Nat
  vOnly : Bool
  deriving DecidableEq, Repr

/-- The operands of an instruction. `imm`: the format has an IMM field that 0xFF reads (Format A only). -/
structure Shape where
  dst  : Option DstShape
  srcs : List SrcShape
  imm  : Bool
  deriving DecidableEq, Repr

def Src.r32 (a : Src) : SrcShape := ⟨a, 1, false⟩
def Src.r64 (a : Src) : SrcShape := ⟨a, 2, false⟩
def Src.r128 (a : Src) : SrcShape := ⟨a, 4, false⟩
def Src.u32 (a : Src) : SrcShape := ⟨a, 1, true⟩
def Src.u64 (a : Src) : SrcShape := ⟨a, 2, true⟩
def Src.u128 (a : Src) : SrcShape := ⟨a, 4, true⟩

def Op1.shape (o : Op1) (wd wa : Nat) : Shape := ⟨some ⟨o.d, wd, false⟩, [⟨o.a, wa, false⟩], true⟩
def Op2.shape (o : Op2) (wd wa wb : Nat) : Shape :=
  ⟨some ⟨o.d, wd, false⟩, [⟨o.a, wa, false⟩, ⟨o.b, wb, false⟩], true⟩
def Op3.shape (o : Op3) (wd wa wb wc : Nat) : Shape :=
  ⟨some ⟨o.d, wd, false⟩, [⟨o.a, wa, false⟩, ⟨o.b, wb, false⟩, ⟨o.c, wc, false⟩], true⟩
def OpCmp.shape (o : OpCmp) (w : Nat) : Shape := ⟨none, [⟨o.a, w, false⟩, ⟨o.b, w, false⟩], true⟩

/-- R117: registers that a width names. -/
def Width.regs : Width → Nat
  | .b64 => 2
  | .b128 => 4
  | _ => 1

/-- R117: bytes that a width moves. -/
def Width.bytes : Width → Nat
  | .b8 => 1
  | .b16 => 2
  | .b32 => 4
  | .b64 => 8
  | .b128 => 16
  | .s8 => 1
  | .s16 => 2

/-- R58: ADR is a 64-bit source in the global space and a 32-bit one elsewhere; IDX is a 32-bit source. -/
def MemOp.addrSrcs (m : MemOp) : List SrcShape :=
  [⟨m.adr, if m.space == .glb then 2 else 1, false⟩, ⟨m.idx, 1, false⟩]

def FFmt.regs : FFmt → Nat
  | .f64 => 2
  | _ => 1

def ITy.regs : ITy → Nat
  | .s64 | .u64 => 2
  | _ => 1

def PortRef.srcs : PortRef → List SrcShape
  | .imm .. => []
  | .reg b => [b.r32]

def PortRef.usrcs : PortRef → List SrcShape
  | .imm .. => []
  | .reg b => [b.u32]

/-- The special registers of R93 with 64 bits (a pair) and with 128 bits (a quad). -/
def sregWidth (num : BitVec 16) : Nat :=
  if num == 0x0C || num == 0x12 then 2 else if num == 0x15 then 4 else 1

/-- R93: the numbers of the special-register table. -/
def sregKnown (num : BitVec 16) : Bool :=
  num.toNat ≤ 0x0C || (0x10 ≤ num.toNat && num.toNat ≤ 0x18)

/-- R93: the registers that MTS may write. -/
def sregWritable (num : BitVec 16) : Bool := num == 0x10 || num == 0x11 || num == 0x18

/-- R95: `lane` and `rdepth` are held per lane. -/
def sregPerLane (num : BitVec 16) : Bool := num == 0x00 || num == 0x17

/-- The operand shapes of each instruction, from the field tables of its home chapter. -/
def Instr.shape : Instr → Shape
  | .brx _ t | .callx _ t => ⟨none, [t.r64], false⟩
  | .rep _ n .. => ⟨none, [n.r32], false⟩
  | .iadd _ o | .isub _ o | .imul o | .imulh _ o | .imin _ o | .imax _ o | .shl _ o | .shr _ o | .sar _ o | .bfe _ o
  | .isetv _ _ o | .lea _ o => o.shape 1 1 1
  | .iaddc _ _ d a b _ _ => ⟨some ⟨d, 1, false⟩, [a.r32, b.r32], true⟩
  | .imad o | .tern _ o | .shf _ _ o | .bfi o | .byperm o | .idp4 _ _ _ o | .isad _ o => o.shape 1 1 1 1
  | .imadw _ o => o.shape 2 1 1 2
  | .iabs _ o | .popc o | .clz o | .brev o => o.shape 1 1
  | .iset _ _ _ o => o.shape 1
  | .iadd64 o | .isub64 o => o.shape 2 2 2
  | .lea64 _ _ o | .shl64 o | .shr64 _ o => o.shape 2 2 1
  | .mov p o => if p then o.shape 2 2 else o.shape 1 1
  | .sel _ d a b _ _ => ⟨some ⟨d, 1, false⟩, [a.r32, b.r32], true⟩
  | .p2v _ d => ⟨some ⟨d, 1, false⟩, [], true⟩
  | .v2p _ a b _ => ⟨none, [a.r32, b.r32], true⟩
  | .fadd _ o | .fmul _ o | .fmin _ o | .fmax _ o | .fsetv _ _ o | .fscale _ o | .hadd2 _ o | .hmul2 _ o | .hmin2 _ o
  | .hmax2 _ o | .hset2 _ _ o => o.shape 1 1 1
  | .ffma _ o | .hfma2 _ o | .hdot2 _ o => o.shape 1 1 1 1
  | .fset _ _ _ o => o.shape 1
  | .dset _ _ _ o => o.shape 2
  | .frnd _ o | .fspec _ _ o => o.shape 1 1
  | .fclass f o => o.shape 1 f.regs
  | .dadd _ o | .dmul _ o | .dmin _ o | .dmax _ o => o.shape 2 2 2
  | .dfma _ o => o.shape 2 2 2 2
  | .f2i _ sf dt _ o => o.shape dt.regs sf.regs
  | .i2f _ sty df o => o.shape df.regs sty.regs
  | .f2f _ sf df _ o => o.shape df.regs sf.regs
  | .i2i sty dt _ o => o.shape dt.regs sty.regs
  | .qpack _ _ _ _ o => ⟨some ⟨o.d, 1, true⟩, [o.a.r32], true⟩
  | .qunpk _ _ o => o.shape 1 1 1 1
  | .qscal _ _ o => ⟨some ⟨o.d, 1, true⟩, [o.a.r32, o.b.u32], true⟩
  | .cmpld _ _ _ a b => ⟨none, [a.u128, b.u128], false⟩
  | .ld m => ⟨some ⟨m.d, m.width.regs, true⟩, m.addrSrcs, false⟩
  | .st m => ⟨none, ⟨⟨m.d, false⟩, m.width.regs, false⟩ :: m.addrSrcs, false⟩
  | .atom m | .atomf m => ⟨some ⟨m.d, m.width.regs, true⟩, ⟨m.x, m.width.regs, false⟩ :: m.addrSrcs, false⟩
  | .cas m =>
    ⟨some ⟨m.d, m.width.regs, true⟩,
      ⟨m.x, m.width.regs, false⟩ :: ⟨⟨m.d, false⟩, m.width.regs, false⟩ :: m.addrSrcs, false⟩
  | .red m => ⟨none, ⟨⟨m.d, false⟩, m.width.regs, false⟩ :: m.addrSrcs, false⟩
  | .fence m | .pref m | .fewait m | .feset m | .cctlL1 m | .cctlL1all m | .cctlIc m | .cctlMap m =>
    ⟨none, m.addrSrcs, false⟩
  | .lodld m => ⟨some ⟨m.d, 4, true⟩, [m.adr.r64, m.idx.r32, m.x.r32], false⟩
  | .vote (.ballot d b _) _ _ => ⟨some ⟨d, 1, false⟩, [b.r32], true⟩
  | .xlane _ _ o => o.shape 1 1 1
  | .rdlane o => ⟨some ⟨o.d, 1, false⟩, [o.a.r32, o.b.u32], true⟩
  | .qdiff _ _ _ o | .gfold _ _ o | .scan _ _ _ o => o.shape 1 1
  | .matchLanes _ w o => o.shape 1 (if w then 2 else 1)
  | .barSync _ a b _ | .barArrive _ a b _ => ⟨none, [a.u32, b.u32], true⟩
  | .barWait _ a _ => ⟨none, [a.u32], true⟩
  | .trset _ d a _ => ⟨some ⟨d, 1, true⟩, [a.u64], false⟩
  | .cpy _ _ _ o | .cpys _ _ _ o => ⟨none, [⟨⟨o.tag, false⟩, 1, true⟩, o.a.u128, o.b.u32, o.c.u32], false⟩
  | .cpyg _ o | .fillScr o => ⟨none, [⟨⟨o.tag, false⟩, 1, true⟩, o.a.u32, o.b.u32, o.c.u32], false⟩
  | .fillMem o => ⟨none, [⟨⟨o.tag, false⟩, 1, true⟩, o.a.u128, o.b.u32], false⟩
  | .coll _ _ o => ⟨none, [⟨⟨o.tag, false⟩, 1, true⟩, o.a.u64], false⟩
  | .mslot _ _ _ _ a _ => ⟨none, [a.u32], false⟩
  | .mma o | .mmas o => ⟨none, [o.a.r32, o.b.r32], false⟩
  | .mrd _ d b _ => ⟨some ⟨d, 4, true⟩, [b.u32], false⟩
  | .mwr _ a b _ => ⟨none, [a.r128, b.u32], false⟩
  | .bnew _ d a => ⟨some ⟨d, 1, true⟩, [a.r64], false⟩
  | .btrace _ d a b c _ => ⟨some ⟨d, 1, true⟩, [a.r32, b.r32, c.r32], false⟩
  | .bfree _ d a => ⟨some ⟨d, 1, true⟩, [a.r32], false⟩
  | .rtrace _ _ _ d a b c _ => ⟨some ⟨d, 8, true⟩, [a.r128, b.r128, c.r32], false⟩
  | .rresume _ _ _ d a b c => ⟨some ⟨d, 8, true⟩, [a.r32, b.r64, c.r32], false⟩
  | .tex _ _ stat o | .texg _ _ stat o =>
    ⟨some ⟨o.d, if stat then 8 else 4, true⟩, [o.a.r128, o.b.r64, o.c.r128], false⟩
  | .texq _ _ o => ⟨some ⟨o.d, 4, true⟩, [o.a.r128, o.b.r64, o.c.r128], false⟩
  | .post _ a p => ⟨none, a.r64 :: p.srcs, false⟩
  | .postn _ d a p => ⟨some ⟨d, 1, false⟩, a.r64 :: p.srcs, false⟩
  | .wait _ _ (.list a b) => ⟨none, [a.u64, b.u32], false⟩
  | .take _ d _ p => ⟨some ⟨d, 2, true⟩, p.srcs, false⟩
  | .patset _ d a b c => ⟨some ⟨d, 1, false⟩, [a.u64, b.u32, c.u64], false⟩
  | .patclr _ d a => ⟨some ⟨d, 1, false⟩, [a.u32], false⟩
  | .portcfg _ d a p c => ⟨some ⟨d, 1, false⟩, a.u32 :: c.u64 :: p.usrcs, false⟩
  | .launchCard _ d a => ⟨some ⟨d, 1, true⟩, [a.r64], false⟩
  | .launchArm _ d a b c => ⟨some ⟨d, 1, true⟩, [a.r32, b.r32, c.r32], false⟩
  | .launchSeal _ d a | .cancel _ _ _ d a | .resumeLaunch _ d a => ⟨some ⟨d, 1, true⟩, [a.r32], false⟩
  | .cntrd _ _ d a => ⟨some ⟨d, 2, true⟩, [a.r32], false⟩
  | .resumeRec _ d a => ⟨some ⟨d, 1, true⟩, [a.r64], false⟩
  | .mfs _ d num => ⟨some ⟨d, sregWidth num, sregPerLane num⟩, [], false⟩
  | .mts _ a _ => ⟨none, [a.u32], false⟩
  | .keyset _ a _ => ⟨none, [a.u32], false⟩
  | _ => ⟨none, [], false⟩

/-- R16, R38, R39: may a specifier stand as a source of w registers? -/
def Spec.srcOk (sp : Spec) (w : Nat) : Bool :=
  match sp with
  | .v n => n.toNat % w == 0
  | .s n => n.toNat % w == 0
  | .zero => true
  | .argpHi => w == 1
  | _ => w ≤ 2

/-- R16, R40: may a specifier stand as a destination of w registers? -/
def Spec.dstOk (sp : Spec) (w : Nat) (vOnly : Bool) : Bool :=
  match sp with
  | .v n => n.toNat % w == 0
  | .s n => !vOnly && n.toNat % w == 0
  | .zero => true
  | _ => false

def Spec.isV : Spec → Bool
  | .v _ => true
  | _ => false

def Spec.isS : Spec → Bool
  | .s _ => true
  | _ => false

/-- R41, R95: the destination is an s-register, so the instruction runs once on the scalar path. -/
def Instr.scalarDst (i : Instr) : Bool :=
  match i.shape.dst with
  | some d => d.spec.isS
  | none => false

/-- R131: the instructions that issue only for the whole group. WAIT is among them because it writes s-registers (R332). -/
def Instr.collective (i : Instr) : Bool :=
  match i with
  | .mma .. | .mmas .. | .mzero .. | .mrd .. | .mwr .. | .tclaim .. | .trel .. | .mslot .. | .gfold .. | .scan ..
  | .barSync .. | .barArrive .. | .barWait .. | .qpack .. | .qscal .. | .regclaim .. | .reggive .. | .wait .. => true
  | _ => i.scalarDst

/-- R61: the ILLOPD faults that the operand specifiers alone decide. -/
def Instr.shapeOk (i : Instr) : Bool :=
  let sh := i.shape
  let srcs := sh.srcs.all fun s =>
    s.src.spec.srcOk s.w && !(s.uni && s.src.spec.isV) && (sh.imm || s.src.spec != .imm)
  let dst := match i, sh.dst with
    -- R373: the place of the eight registers is checked lane by lane
    | .rtrace .., some d | .rresume .., some d => d.spec.isV
    | _, some d => d.spec.dstOk d.w d.vOnly
    | _, none => true
  -- R41: on the scalar path no source is a v-register
  let scalar := !i.scalarDst || sh.srcs.all fun s => !s.src.spec.isV
  let own := match i with
    | .brx _ t | .callx _ t =>
      match t.spec with
      | .v _ | .s _ | .argpLo | .zero => true
      | _ => false
    | .cmpld _ _ _ a b =>
      (a.spec.isS || a.spec == .zero) && (b.spec.isS || b.spec == .zero)
    | .mwr _ a _ _ => a.spec.isV
    | .mrd _ d _ _ => d.isV
    | .rtrace _ _ _ _ _ _ _ root => root == 0xC6 || (root.toNat % 2 == 0 && 0x80 ≤ root.toNat && root.toNat ≤ 0xBE)
    -- R284: an s-register pair or `argp`
    | .coll _ _ o => o.a.spec.isS || o.a.spec == .argpLo
    -- R306: a scale base is a v-register, and 0xC0 for BF16
    | .mma o | .mmas o => [o.a, o.b].all fun x => x.spec.isV || x.spec == .zero
    | _ => true
  srcs && dst && scalar && own

/-! ### The ILLOP faults of the fields -/

def FMod.none : FMod := ⟨.rn, false, false, false, false, false, false, false, false⟩

/-- R104: the fields used are within the given set: rounding, negations and absolutes of B and C, saturation and BF. -/
def FMod.within (m : FMod) (rnd b c sat bf : Bool) : Bool :=
  (rnd || m.rnd == .rn) && (b || (!m.nb && !m.ab)) && (c || (!m.nc && !m.ac)) && (sat || !m.sat) && (bf || !m.bf)

/-- R49: IMM is zero unless some operand field reads it. -/
def immRead (imm : Word) (specs : List Spec) : Bool := imm == 0 || specs.any (· == .imm)

def Instr.immOk : Instr → Bool
  | .iadd _ o | .isub _ o | .imul o | .imulh _ o | .imin _ o | .imax _ o | .shl _ o | .shr _ o | .sar _ o | .bfe _ o
  | .isetv _ _ o | .iadd64 o | .isub64 o | .lea _ o | .lea64 _ _ o | .shl64 o | .shr64 _ o => immRead o.imm [o.d, o.a.spec, o.b.spec]
  | .imad o | .imadw _ o | .tern _ o | .shf _ _ o | .bfi o | .byperm o | .idp4 _ _ _ o | .isad _ o =>
    immRead o.imm [o.d, o.a.spec, o.b.spec, o.c.spec]
  | .iabs _ o | .popc o | .clz o | .brev o | .mov _ o => immRead o.imm [o.d, o.a.spec]
  | .iaddc _ _ d a b _ imm | .sel _ d a b _ imm => immRead imm [d, a.spec, b.spec]
  | .v2p _ a b imm => immRead imm [a.spec, b.spec]
  | .iset _ _ _ o | .fset _ _ _ o | .dset _ _ _ o => immRead o.imm [o.a.spec, o.b.spec]
  | .fadd _ o | .fmul _ o | .fmin _ o | .fmax _ o | .fsetv _ _ o | .fscale _ o | .hadd2 _ o | .hmul2 _ o | .hmin2 _ o
  | .hmax2 _ o | .hset2 _ _ o | .dadd _ o | .dmul _ o | .dmin _ o | .dmax _ o => immRead o.imm [o.d, o.a.spec, o.b.spec]
  | .ffma _ o | .hfma2 _ o | .hdot2 _ o | .dfma _ o => immRead o.imm [o.d, o.a.spec, o.b.spec, o.c.spec]
  | .frnd _ o | .fclass _ o | .fspec _ _ o | .f2i _ _ _ _ o | .i2f _ _ _ o | .f2f _ _ _ _ o | .i2i _ _ _ o
  | .qpack _ _ _ _ o | .qdiff _ _ _ o | .gfold _ _ o | .scan _ _ _ o | .matchLanes _ _ o => immRead o.imm [o.d, o.a.spec]
  | .qunpk _ _ o => immRead o.imm [o.d, o.a.spec, o.b.spec, o.c.spec]
  | .qscal _ _ o | .xlane _ _ o | .rdlane o => immRead o.imm [o.d, o.a.spec, o.b.spec]
  | .vote (.ballot d b imm) _ _ => immRead imm [d, b.spec]
  | .barSync _ a b imm | .barArrive _ a b imm => immRead imm [a.spec, b.spec]
  | .barWait _ a imm => immRead imm [a.spec]
  | _ => true

def Src.isUnused (a : Src) : Bool := a.spec == .zero && !a.kill

/-- R254, R255, R270 to R273: the field values each Format L opcode accepts. -/
def MemOp.ldOk (m : MemOp) : Bool :=
  (m.order == .weak || m.order == .acq)
  && (!m.inv || (m.order == .weak && !m.fe))
  && (!m.fe || (m.order == .weak && m.space == .scr))
  && (m.order == .weak || m.width != .b128)
  && (m.space != .scr || m.cache == 0)
  && m.x.isUnused

def MemOp.stOk (m : MemOp) : Bool :=
  (m.order == .weak || m.order == .rel)
  && !m.inv
  && (!m.fe || (m.order == .weak && m.space == .scr))
  && (m.order == .weak || m.width != .b128)
  && (m.width != .s8 && m.width != .s16)
  && (m.space != .scr || m.cache == 0)
  && m.x.isUnused

/-- R255: AOP = CACHE × 2 + INV. -/
def MemOp.aop (m : MemOp) : Nat := m.cache.toNat * 2 + m.inv.toNat

def MemOp.atomOk (m : MemOp) : Bool :=
  m.space != .loc && (m.width == .b32 || m.width == .b64) && !m.fe

/-- The plain form of R254: b32, weak, not invariant, no data operands. -/
def MemOp.bare (m : MemOp) : Bool :=
  m.width == .b32 && m.order == .weak && !m.inv && m.d == .zero && m.x.isUnused

def MemOp.cctlOk (m : MemOp) (op : BitVec 2) : Bool := m.bare && m.space == .glb && !m.fe && m.cache == op

/-- R61: the ILLOP faults that remain once the fields are read. -/
def Instr.legal (i : Instr) : Bool :=
  (match i.hdr with
   | some h => h.cf == .none || i.longLatency
   | none => true)
  && i.immOk
  && match i with
    | .rep _ _ stride _ => stride != 0
    | .fadd m _ | .fmul m _ | .dadd m _ | .dmul m _ => m.within true true false true false
    | .ffma m _ | .dfma m _ => m.within true true true true false
    | .fmin m _ | .fmax m _ | .fsetv _ m _ | .dmin m _ | .dmax m _ => m.within false true false false false
    | .fset _ _ m _ | .dset _ _ m _ => m.within false true false false false
    | .frnd m _ => m.within true false false false false
    | .fspec fn m _ => m.within (fn == .sqrt) false false false false
    | .fscale m _ => m.within true false false true false
    | .hadd2 m _ | .hmul2 m _ => m.within true true false true true
    | .hfma2 m _ | .hdot2 m _ => m.within true true true true true
    | .hmin2 m _ | .hmax2 m _ | .hset2 _ m _ => m.within false true false false true
    | .f2i _ sf _ hi _ | .f2f _ sf _ hi _ => !hi || sf == .f16 || sf == .bf16
    | .cmpld k _ _ a b => k != .lin || (a.isUnused && b.isUnused)
    | .ld m => m.ldOk
    | .st m => m.stOk
    | .atom m => m.atomOk
    | .red m => m.atomOk && m.x.isUnused
    | .atomf m => m.atomOk && m.aop ≤ 4 && (m.width == .b32 || m.aop ≤ 2)
    | .cas m => m.atomOk && !m.inv && m.cache == 0
    | .fence m => m.bare && m.space == .glb && !m.fe && m.cache == 0 && m.scale == 0 && m.off == 0
        && m.adr.isUnused && m.idx.isUnused
    | .pref m => m.bare && m.space != .scr && !m.fe && m.cache != 3
    | .fewait m | .feset m => m.bare && m.space == .scr && m.cache == 0
    | .cctlL1 m => m.cctlOk 0
    | .cctlL1all m => m.cctlOk 1 && m.adr.isUnused && m.idx.isUnused && m.off == 0
    | .cctlIc m => m.cctlOk 2
    | .cctlMap m => m.cctlOk 3 && (m.scope == .dev || m.scope == .sys)
    | .lodld m => m.space == .glb && m.order == .weak && !m.inv && !m.fe && m.scale == 0 && m.off == 0 && m.width != .b128
    | .gfold op ty _ | .scan op ty _ _ => ty != .f32 || op == .add || op == .min || op == .max
    | .cpy k tr side o => k != .acc && (!side || k == .slot) && (o.im.pv || o.im.port == 0) && tr.val < 3
    | .cpys k _ side o => (!side || k == .slot) && (o.im.pv || o.im.port == 0)
    | .cpyg k o => k != .acc && (o.im.pv || o.im.port == 0)
    | .coll _ _ o => (o.im.pv || o.im.port == 0) && o.im.recN == 0 && o.b.isUnused && o.c.isUnused
    | .fillScr o => (o.im.pv || o.im.port == 0) && o.im.recN == 0
    | .fillMem o => (o.im.pv || o.im.port == 0) && o.c.isUnused
    | .tclaim acc _ _ f n | .trel acc _ f n => n != 0 && f.toNat + n.toNat ≤ (if acc then 64 else 256)
    | .rresume sh cm _ _ a _ _ => sh || cm || a.isUnused
    | .tex _ lod _ o | .texg _ lod _ o | .texq _ lod o =>
      if lod == .grad || lod == .foot then o.c.spec != .zero else o.c.isUnused
    | .post _ _ (.imm r dev _) | .postn _ _ _ (.imm r dev _) => r || dev == 0
    | .take _ _ _ (.imm r dev _) | .portcfg _ _ _ (.imm r dev _) _ => !r && dev == 0
    | .mfs _ _ num => sregKnown num
    | .mts _ _ num => sregWritable num
    | .unassignedOpcodeIssue .. => false
    | _ => true

/-- What the words do not hold stands at its one value: a comparison without a predicate source combines nothing (R78, R104). -/
def Instr.plain : Instr → Bool
  | .iset _ _ bop o | .fset _ bop _ o | .dset _ bop _ o => o.pc.isSome || bop == .and
  | _ => true

end Sys2Proof
end

