-- ==== Sys2Proof/WellFormed.lean ====
section
/-! DEFINITION. When an instruction of `Instr` is one that the encoding rules allow: no ILLOP and no ILLOPD fault of R61
lies in its fields. An event is no instruction and is not well formed as one. -/

namespace Sys2Proof

/-- R61: the fields hold no encoding fault, and the term holds nothing that its word does not. -/
def Instr.wellFormed (i : Instr) : Bool := i.cls != .event && i.legal && i.shapeOk && i.plain

end Sys2Proof
end

