-- ==== Sys2Proof/Decode.lean ====
section
/-! DEFINITION. The encoding of instructions (R19, R33, R48 to R59): the fields of a 96-bit slot, the decoder, which is
total and answers an instruction or the encoding fault of R61 by name, and the encoder, written from the same tables. -/

namespace Sys2Proof

/-- The encoding faults (R61). -/
inductive EncFault where
  | illop | illopd
  deriving DecidableEq, Repr

/-- The fields of a slot (R33, R48). Formats B, E, L and S divide `m` and `imm` further. -/
structure Raw where
  imm : BitVec 32
  m   : BitVec 13
  kc  : Bool
  kb  : Bool
  ka  : Bool
  c   : BitVec 8
  b   : BitVec 8
  a   : BitVec 8
  d   : BitVec 8
  top : Bool
  cf  : BitVec 2
  gn  : Bool
  g   : BitVec 3
  op  : BitVec 9
  deriving DecidableEq, Repr

def bit1 (b : Bool) : BitVec 1 := BitVec.ofBool b

/-- The bits hi to lo of a word. -/
def bitsOf {w : Nat} (x : BitVec w) (lo len : Nat) : BitVec len := x.extractLsb' lo len

/-- R48: a slot from its fields. -/
def Raw.pack (r : Raw) : BitVec 96 :=
  r.imm ++ (r.m ++ (bit1 r.kc ++ (bit1 r.kb ++ (bit1 r.ka ++ (r.c ++ (r.b ++ (r.a ++ (r.d ++
    (bit1 r.top ++ (r.cf ++ (bit1 r.gn ++ (r.g ++ r.op))))))))))))

/-- R48: the fields of a slot. -/
def Raw.unpack (w : BitVec 96) : Raw where
  imm := bitsOf w 64 32
  m   := bitsOf w 51 13
  kc  := w.getLsbD 50
  kb  := w.getLsbD 49
  ka  := w.getLsbD 48
  c   := bitsOf w 40 8
  b   := bitsOf w 32 8
  a   := bitsOf w 24 8
  d   := bitsOf w 16 8
  top := w.getLsbD 15
  cf  := bitsOf w 13 2
  gn  := w.getLsbD 12
  g   := bitsOf w 9 3
  op  := bitsOf w 0 9

/-! ### Field codes -/

/-- R38: a specifier's code. -/
def Spec.enc : Spec → BitVec 8
  | .v n => 0#1 ++ n
  | .s n => 2#2 ++ n
  | .zero => 0xC0
  | .lane => 0xC1
  | .grp => 0xC2
  | .role => 0xC3
  | .first => 0xC4
  | .count => 0xC5
  | .argpLo => 0xC6
  | .argpHi => 0xC7
  | .small k => BitVec.ofNat 8 (0xE0 + k.val)
  | .imm => 0xFF

/-- R38: the specifier of a code; the reserved codes 0xC8 to 0xDF have none. -/
def Spec.dec (x : BitVec 8) : Option Spec :=
  if x.toNat < 0x80 then some (.v (x.setWidth 7))
  else if x.toNat < 0xC0 then some (.s (x.setWidth 6))
  else if x == 0xC0 then some .zero
  else if x == 0xC1 then some .lane
  else if x == 0xC2 then some .grp
  else if x == 0xC3 then some .role
  else if x == 0xC4 then some .first
  else if x == 0xC5 then some .count
  else if x == 0xC6 then some .argpLo
  else if x == 0xC7 then some .argpHi
  else if x == 0xFF then some .imm
  else if h : 0xE0 ≤ x.toNat ∧ x.toNat - 0xE0 < 31 then some (.small ⟨x.toNat - 0xE0, h.2⟩)
  else none

def Cf.enc : Cf → BitVec 2
  | .none => 0
  | .a => 1
  | .b => 2

/-- R33: CF = 11 raises ILLOP. -/
def Cf.dec (x : BitVec 2) : Option Cf :=
  if x == 0 then some .none else if x == 1 then some .a else if x == 2 then some .b else Option.none

/-- R51: predicate form. -/
def PSrc.enc (p : PSrc) : BitVec 8 := 0#4 ++ (bit1 p.neg ++ p.pn)

def PSrc.dec (x : BitVec 8) : Option PSrc :=
  if bitsOf x 4 4 == 0 then some ⟨x.getLsbD 3, bitsOf x 0 3⟩ else none

/-- R51: a predicate destination; a negated one raises ILLOP. -/
def pdEnc (p : BitVec 3) : BitVec 8 := 0#5 ++ p

def pdDec (x : BitVec 8) : Option (BitVec 3) := if bitsOf x 3 5 == 0 then some (bitsOf x 0 3) else none

def ICmp.enc : ICmp → BitVec 3
  | .eq => 0 | .ne => 1 | .lt => 2 | .le => 3 | .gt => 4 | .ge => 5

def ICmp.dec (x : BitVec 3) : Option ICmp :=
  match x.toNat with
  | 0 => some .eq | 1 => some .ne | 2 => some .lt | 3 => some .le | 4 => some .gt | 5 => some .ge
  | _ => none

def FCmp.enc : FCmp → BitVec 3
  | .eq => 0 | .ne => 1 | .lt => 2 | .le => 3 | .gt => 4 | .ge => 5 | .num => 6 | .nan => 7

def FCmp.dec (x : BitVec 3) : FCmp :=
  match x.toNat with
  | 0 => .eq | 1 => .ne | 2 => .lt | 3 => .le | 4 => .gt | 5 => .ge | 6 => .num | _ => .nan

def FFn.enc : FFn → BitVec 3
  | .rcp => 0 | .rsq => 1 | .sqrt => 2 | .ex2 => 3 | .lg2 => 4 | .sin => 5 | .cos => 6 | .tanh => 7

def FFn.dec (x : BitVec 3) : FFn :=
  match x.toNat with
  | 0 => .rcp | 1 => .rsq | 2 => .sqrt | 3 => .ex2 | 4 => .lg2 | 5 => .sin | 6 => .cos | _ => .tanh

def Rnd.enc : Rnd → BitVec 2
  | .rn => 0 | .rz => 1 | .ru => 2 | .rd => 3

def Rnd.dec (x : BitVec 2) : Rnd :=
  match x.toNat with
  | 0 => .rn | 1 => .rz | 2 => .ru | _ => .rd

def FFmt.enc : FFmt → BitVec 2
  | .f32 => 0 | .f64 => 1 | .f16 => 2 | .bf16 => 3

def FFmt.dec (x : BitVec 2) : FFmt :=
  match x.toNat with
  | 0 => .f32 | 1 => .f64 | 2 => .f16 | _ => .bf16

def ITy.enc : ITy → BitVec 3
  | .s32 => 0 | .u32 => 1 | .s64 => 2 | .u64 => 3 | .s16 => 4 | .u16 => 5 | .s8 => 6 | .u8 => 7

def ITy.dec (x : BitVec 3) : ITy :=
  match x.toNat with
  | 0 => .s32 | 1 => .u32 | 2 => .s64 | 3 => .u64 | 4 => .s16 | 5 => .u16 | 6 => .s8 | _ => .u8

/-- R78, R104: BOP 0 combines nothing; its predicate source is absent. -/
def BOp.enc : BOp → BitVec 2
  | .and => 1 | .or => 2 | .xor => 3

def BOp.dec (x : BitVec 2) : BOp :=
  match x.toNat with
  | 2 => .or | 3 => .xor | _ => .and

def SxFmt.enc : SxFmt → BitVec 2
  | .sx7 => 0 | .sx4 => 1 | .sx2 => 2

def SxFmt.dec (x : BitVec 2) : Option SxFmt :=
  match x.toNat with
  | 0 => some .sx7 | 1 => some .sx4 | 2 => some .sx2 | _ => none

def SlotFmt.enc : SlotFmt → BitVec 2
  | .sx7 => 0 | .sx4 => 1 | .sx2 => 2 | .bf16 => 3

def SlotFmt.dec (x : BitVec 2) : SlotFmt :=
  match x.toNat with
  | 0 => .sx7 | 1 => .sx4 | 2 => .sx2 | _ => .bf16

def CmpKind.enc : CmpKind → BitVec 2
  | .lin => 0 | .sx7 => 1 | .sx4 => 2

def CmpKind.dec (x : BitVec 2) : Option CmpKind :=
  match x.toNat with
  | 0 => some .lin | 1 => some .sx7 | 2 => some .sx4 | _ => none

/-- R174, R300: CT = 0 is the table of `cmpsel`, 1 to 8 are tables 0 to 7. -/
def CtSel.enc : CtSel → BitVec 4
  | .cmpsel => 0
  | .table t => BitVec.ofNat 4 (t.toNat + 1)

def CtSel.dec (x : BitVec 4) : Option CtSel :=
  if x == 0 then some .cmpsel else if x.toNat ≤ 8 then some (.table (BitVec.ofNat 3 (x.toNat - 1))) else none

def Space.enc : Space → BitVec 3
  | .glb => 0 | .scr => 1 | .loc => 2

def Space.dec (x : BitVec 3) : Option Space :=
  match x.toNat with
  | 0 => some .glb | 1 => some .scr | 2 => some .loc | _ => none

def Width.enc : Width → BitVec 3
  | .b8 => 0 | .b16 => 1 | .b32 => 2 | .b64 => 3 | .b128 => 4 | .s8 => 5 | .s16 => 6

def Width.dec (x : BitVec 3) : Option Width :=
  match x.toNat with
  | 0 => some .b8 | 1 => some .b16 | 2 => some .b32 | 3 => some .b64 | 4 => some .b128 | 5 => some .s8 | 6 => some .s16
  | _ => none

def Order.enc : Order → BitVec 2
  | .weak => 0 | .acq => 1 | .rel => 2 | .ar => 3

def Order.dec (x : BitVec 2) : Order :=
  match x.toNat with
  | 0 => .weak | 1 => .acq | 2 => .rel | _ => .ar

def Scope.enc : Scope → BitVec 3
  | .grp => 0 | .core => 1 | .clu => 2 | .stk => 3 | .dev => 4 | .sys => 5

def Scope.dec (x : BitVec 3) : Option Scope :=
  match x.toNat with
  | 0 => some .grp | 1 => some .core | 2 => some .clu | 3 => some .stk | 4 => some .dev | 5 => some .sys | _ => none

def XMode.enc : XMode → BitVec 2
  | .at => 0 | .back => 1 | .fwd => 2 | .xor => 3

def XMode.dec (x : BitVec 2) : XMode :=
  match x.toNat with
  | 0 => .at | 1 => .back | 2 => .fwd | _ => .xor

def FoldOp.enc : FoldOp → BitVec 3
  | .add => 0 | .min => 1 | .max => 2 | .and => 3 | .or => 4 | .xor => 5

def FoldOp.dec (x : BitVec 3) : Option FoldOp :=
  match x.toNat with
  | 0 => some .add | 1 => some .min | 2 => some .max | 3 => some .and | 4 => some .or | 5 => some .xor | _ => none

def FoldTy.enc : FoldTy → BitVec 2
  | .s32 => 0 | .u32 => 1 | .f32 => 2

def FoldTy.dec (x : BitVec 2) : Option FoldTy :=
  match x.toNat with
  | 0 => some .s32 | 1 => some .u32 | 2 => some .f32 | _ => none

/-- R284: the TY of COLL has its own codes. -/
def collTyEnc : FoldTy → BitVec 2
  | .f32 => 0 | .s32 => 1 | .u32 => 2

def collTyDec (x : BitVec 2) : Option FoldTy :=
  match x.toNat with
  | 0 => some .f32 | 1 => some .s32 | 2 => some .u32 | _ => none

def CollOp.enc : CollOp → BitVec 3
  | .sum => 0 | .min => 1 | .max => 2 | .gather => 3 | .rscat => 4 | .bcast => 5

def CollOp.dec (x : BitVec 3) : Option CollOp :=
  match x.toNat with
  | 0 => some .sum | 1 => some .min | 2 => some .max | 3 => some .gather | 4 => some .rscat | 5 => some .bcast | _ => none

def CpyKind.enc : CpyKind → BitVec 2
  | .scr => 0 | .slot => 1 | .acc => 2

def CpyKind.dec (x : BitVec 2) : Option CpyKind :=
  match x.toNat with
  | 0 => some .scr | 1 => some .slot | 2 => some .acc | _ => none

def TexFlt.enc : TexFlt → BitVec 2
  | .pt => 0 | .bil => 1 | .tri => 2 | .ani => 3

def TexFlt.dec (x : BitVec 2) : TexFlt :=
  match x.toNat with
  | 0 => .pt | 1 => .bil | 2 => .tri | _ => .ani

def LodMode.enc : LodMode → BitVec 2
  | .grad => 0 | .quad => 1 | .foot => 2 | .level => 3

def LodMode.dec (x : BitVec 2) : LodMode :=
  match x.toNat with
  | 0 => .grad | 1 => .quad | 2 => .foot | _ => .level

/-- R144: SEG 0 to 6. -/
def segDec (x : BitVec 3) : Option (Fin 7) := if h : x.toNat < 7 then some ⟨x.toNat, h⟩ else none

/-- R284: TR 0 to 2. -/
def trDec (x : BitVec 2) : Option (Fin 3) := if h : x.toNat < 3 then some ⟨x.toNat, h⟩ else none

/-- R75, R76: SAT in bit 51 and U in bit 52; U without SAT is illegal. -/
def Sat.enc : Sat → BitVec 2
  | .wrap => 0 | .signed => 1 | .unsigned => 3

def Sat.dec (x : BitVec 2) : Option Sat :=
  match x.toNat with
  | 0 => some .wrap | 1 => some .signed | 3 => some .unsigned | _ => none

/-- R104: the modifier fields of a float instruction, with CMP or FN in bits 62:60 given apart. -/
def FMod.enc (f : FMod) (sub : BitVec 3) : BitVec 13 :=
  bit1 f.bf ++ (sub ++ (bit1 f.sat ++ (bit1 f.ac ++ (bit1 f.ab ++ (bit1 f.aa ++ (bit1 f.nc ++ (bit1 f.nb ++
    (bit1 f.na ++ f.rnd.enc))))))))

def FMod.dec (m : BitVec 13) : FMod where
  rnd := Rnd.dec (bitsOf m 0 2)
  na  := m.getLsbD 2
  nb  := m.getLsbD 3
  nc  := m.getLsbD 4
  aa  := m.getLsbD 5
  ab  := m.getLsbD 6
  ac  := m.getLsbD 7
  sat := m.getLsbD 8
  bf  := m.getLsbD 12

/-! ### The opcode map (R59) -/

/-- The OP of an instruction; an event has none. -/
def Instr.opcode : Instr → Option (BitVec 9)
  | .nop .. => some 0x000 | .bra .. => some 0x001 | .brx .. => some 0x002 | .call .. => some 0x003
  | .callx .. => some 0x004 | .ret .. => some 0x005 | .exit .. => some 0x006 | .conv .. => some 0x007
  | .yield .. => some 0x008 | .rep .. => some 0x009 | .trap .. => some 0x00A | .bkpt .. => some 0x00B
  | .iadd .. => some 0x020 | .isub .. => some 0x021 | .iaddc .. => some 0x022 | .imul .. => some 0x023
  | .imulh .. => some 0x024 | .imad .. => some 0x025 | .imadw .. => some 0x026 | .imin .. => some 0x027
  | .imax .. => some 0x028 | .iabs .. => some 0x029 | .tern .. => some 0x02A | .shl .. => some 0x02B
  | .shr .. => some 0x02C | .sar .. => some 0x02D | .shf .. => some 0x02E | .bfe .. => some 0x02F
  | .bfi .. => some 0x030 | .popc .. => some 0x031 | .clz .. => some 0x032 | .brev .. => some 0x033
  | .byperm .. => some 0x034 | .iset .. => some 0x035 | .isetv .. => some 0x036 | .iadd64 .. => some 0x037
  | .isub64 .. => some 0x038 | .lea .. => some 0x039 | .lea64 .. => some 0x03A | .idp4 .. => some 0x03B
  | .isad .. => some 0x03C | .shl64 .. => some 0x03D | .shr64 .. => some 0x03E | .mov .. => some 0x03F
  | .sel .. => some 0x040 | .ptern .. => some 0x060 | .p2v .. => some 0x061 | .v2p .. => some 0x062
  | .fadd .. => some 0x080 | .fmul .. => some 0x081 | .ffma .. => some 0x082 | .fmin .. => some 0x083
  | .fmax .. => some 0x084 | .fset .. => some 0x085 | .fsetv .. => some 0x086 | .frnd .. => some 0x087
  | .fclass .. => some 0x088 | .fspec .. => some 0x089 | .fscale .. => some 0x08A
  | .hadd2 .. => some 0x090 | .hmul2 .. => some 0x091 | .hfma2 .. => some 0x092 | .hmin2 .. => some 0x093
  | .hmax2 .. => some 0x094 | .hset2 .. => some 0x095 | .hdot2 .. => some 0x096
  | .dadd .. => some 0x0C0 | .dmul .. => some 0x0C1 | .dfma .. => some 0x0C2 | .dmin .. => some 0x0C3
  | .dmax .. => some 0x0C4 | .dset .. => some 0x0C5 | .f2i .. => some 0x0C8 | .i2f .. => some 0x0C9
  | .f2f .. => some 0x0CA | .i2i .. => some 0x0CB
  | .qpack .. => some 0x0E0 | .qunpk .. => some 0x0E1 | .qscal .. => some 0x0E2 | .cmpld .. => some 0x0E3
  | .ld .. => some 0x100 | .st .. => some 0x101 | .atom .. => some 0x102 | .atomf .. => some 0x103
  | .cas .. => some 0x104 | .red .. => some 0x105 | .fence .. => some 0x106 | .pref .. => some 0x107
  | .fewait .. => some 0x108 | .feset .. => some 0x109
  | .cctlL1 .. | .cctlL1all .. | .cctlIc .. | .cctlMap .. => some 0x10A
  | .lodld .. => some 0x10B
  | .vote .. => some 0x140 | .xlane .. => some 0x141 | .qdiff .. => some 0x142 | .gfold .. => some 0x143
  | .scan .. => some 0x144 | .rdlane .. => some 0x145 | .matchLanes .. => some 0x146 | .elect .. => some 0x147
  | .barSync .. | .barArrive .. | .barWait .. => some 0x148
  | .trset .. => some 0x160 | .cpy .. => some 0x161 | .cpys .. => some 0x162 | .cpyg .. => some 0x163
  | .coll .. => some 0x164 | .fillScr .. | .fillMem .. => some 0x165
  | .tclaim .. => some 0x180 | .trel .. => some 0x181 | .mslot .. => some 0x182 | .mma .. => some 0x183
  | .mmas .. => some 0x184 | .mzero .. => some 0x185 | .mrd .. => some 0x186 | .mwr .. => some 0x187
  | .bnew .. => some 0x1A0 | .btrace .. => some 0x1A1 | .bfree .. => some 0x1A3
  | .rtrace .. => some 0x1A8 | .rresume .. => some 0x1A9 | .tex .. => some 0x1B0 | .texg .. => some 0x1B1
  | .texq .. => some 0x1B2
  | .post .. => some 0x1C0 | .postn .. => some 0x1C1 | .wait .. => some 0x1C2 | .take .. => some 0x1C3
  | .patset .. => some 0x1C4 | .patclr .. => some 0x1C5 | .portcfg .. => some 0x1C6
  | .launchCard .. | .launchArm .. | .launchSeal .. => some 0x1C8
  | .cancel .. => some 0x1C9 | .cntrd .. => some 0x1CA | .resumeRec .. | .resumeLaunch .. => some 0x1CB
  | .mfs .. => some 0x1E0 | .mts .. => some 0x1E1 | .regclaim .. => some 0x1E2 | .reggive .. => some 0x1E3
  | .keyset .. => some 0x1E4
  | .unassignedOpcodeIssue _ op => some op
  | _ => none

/-! ### The encoder -/

/-- A slot whose operand fields are all unused (R49). -/
def Raw.base (h : Hdr) (op : BitVec 9) : Raw where
  imm := 0
  m := 0
  kc := false
  kb := false
  ka := false
  c := 0xC0
  b := 0xC0
  a := 0xC0
  d := 0xC0
  top := false
  cf := h.cf.enc
  gn := h.gn
  g := h.g
  op := op

/-- R54, R55: a Format B slot without operands. Bits 47:32 are 0 there, not `zero` specifiers. -/
def Raw.baseB (h : Hdr) (op : BitVec 9) : Raw := { Raw.base h op with c := 0, b := 0 }

def Raw.setA (r : Raw) (x : Src) : Raw := { r with a := x.spec.enc, ka := x.kill }
def Raw.setB (r : Raw) (x : Src) : Raw := { r with b := x.spec.enc, kb := x.kill }
def Raw.setC (r : Raw) (x : Src) : Raw := { r with c := x.spec.enc, kc := x.kill }
def Raw.setD (r : Raw) (x : Spec) : Raw := { r with d := x.enc }

def Op1.raw (o : Op1) (op : BitVec 9) (m : BitVec 13) : Raw :=
  { ((Raw.base o.h op).setD o.d).setA o.a with m := m, imm := o.imm }
def Op2.raw (o : Op2) (op : BitVec 9) (m : BitVec 13) : Raw :=
  { (((Raw.base o.h op).setD o.d).setA o.a).setB o.b with m := m, imm := o.imm }
def Op3.raw (o : Op3) (op : BitVec 9) (m : BitVec 13) : Raw :=
  { ((((Raw.base o.h op).setD o.d).setA o.a).setB o.b).setC o.c with m := m, imm := o.imm }
def OpCmp.raw (o : OpCmp) (op : BitVec 9) (m : BitVec 13) : Raw :=
  { ((Raw.base o.h op).setA o.a).setB o.b with
    d := pdEnc o.pd, c := (match o.pc with | some p => p.enc | none => 0xC0), m := m, imm := o.imm }

/-- The BOP code of a comparison: 0 when there is no predicate source. -/
def OpCmp.bopBits (o : OpCmp) (bop : BOp) : BitVec 2 := if o.pc.isSome then bop.enc else 0

def MemOp.raw (x : MemOp) (op : BitVec 9) : Raw :=
  { ((((Raw.base x.h op).setD x.d).setA x.adr).setB x.idx).setC x.x with
    m := x.scale ++ (x.scope.enc ++ (x.order.enc ++ (x.width.enc ++ x.space.enc)))
    imm := 0#3 ++ (x.cache ++ (0#1 ++ (bit1 x.fe ++ (bit1 x.inv ++ x.off)))) }

/-- R283: the IMM of a copy command. -/
def CpyImm.enc (c : CpyImm) : BitVec 32 := 0#7 ++ (bit1 c.pv ++ (c.port ++ (0#2 ++ c.recN)))

def CpyOp.raw (o : CpyOp) (op : BitVec 9) (m : BitVec 13) : Raw :=
  { ((((Raw.base o.h op).setD o.tag).setA o.a).setB o.b).setC o.c with m := m, imm := o.im.enc }

/-- R333: the IMM of a port, with the bits from 64 up. -/
def portImm (rmt : Bool) (dev : BitVec 3) (port : BitVec 16) : BitVec 32 :=
  0#11 ++ (1#1 ++ (bit1 rmt ++ (dev ++ port)))

def Raw.setPort (r : Raw) : PortRef → Raw
  | .imm rmt dev port => { r with imm := portImm rmt dev port }
  | .reg b => r.setB b

def MmaOp.raw (o : MmaOp) (op : BitVec 9) : Raw :=
  { ((Raw.base o.h op).setA o.a).setB o.b with
    imm := 0#4 ++ (o.bsel ++ (o.asel ++ (o.bslot ++ (o.aslot ++ (0#2 ++ o.acc))))) }

def TexOp.raw (o : TexOp) (op : BitVec 9) (m : BitVec 13) : Raw :=
  { ((((Raw.base o.h op).setD o.d).setA o.a).setB o.b).setC o.c with m := m }

/-- The first modifier bits (from bit 51 up) of a small field, the rest zero. -/
def mLow {w : Nat} (x : BitVec w) : BitVec 13 := x.setWidth 13

/-- A one-bit modifier at bit 51 + k. -/
def mBit (b : Bool) (k : Nat) : BitVec 13 := if b then BitVec.twoPow 13 k else 0

/-- A modifier field at bit 51 + k. -/
def mAt {w : Nat} (x : BitVec w) (k : Nat) : BitVec 13 := (x.setWidth 13) <<< k

/-- The fields of an instruction's slot; none for an event. -/
def Instr.raw (i : Instr) : Option Raw :=
  match i.opcode with
  | none => none
  | some op =>
    match i with
    | .nop h | .ret h | .exit h | .conv h | .yield h | .bkpt h => some (Raw.baseB h op)
    | .bra h l t | .call h l t => some { Raw.baseB h op with imm := l ++ t }
    | .brx h t | .callx h t => some { Raw.baseB h op with d := t.spec.enc, ka := t.kill }
    | .rep h n s mask =>
      some { Raw.baseB h op with a := n.spec.enc, kb := n.kill, m := mLow s ||| mAt mask 3 }
    | .trap h code => some { Raw.baseB h op with imm := code.setWidth 32 }
    | .iadd s o | .isub s o => some (o.raw op (mLow s.enc))
    | .iaddc po h d a b pi imm =>
      some { (((Raw.base h op).setD d).setA a).setB b with c := pi.enc, m := mLow po, imm := imm }
    | .imul o | .iadd64 o | .isub64 o | .shl64 o => some (o.raw op 0)
    | .imulh u o | .imin u o | .imax u o => some (o.raw op (mBit u 1))
    | .imad o | .bfi o | .byperm o => some (o.raw op 0)
    | .imadw u o | .isad u o => some (o.raw op (mBit u 1))
    | .iabs s o => some (o.raw op (mBit s 0))
    | .tern lut o => some (o.raw op (mLow lut))
    | .shl w o | .shr w o | .sar w o => some (o.raw op (mBit w 2))
    | .shf l w o => some (o.raw op (mBit w 2 ||| mBit l 3))
    | .bfe s o => some (o.raw op (mBit s 3))
    | .popc o | .clz o | .brev o => some (o.raw op 0)
    | .iset u cmp bop o => some (o.raw op (mBit u 1 ||| mAt cmp.enc 4 ||| mAt (o.bopBits bop) 7))
    | .isetv u cmp o => some (o.raw op (mBit u 1 ||| mAt cmp.enc 4))
    | .lea k o => some (o.raw op (mAt k 8))
    | .lea64 u k o => some (o.raw op (mBit u 1 ||| mAt k 8))
    | .idp4 s ua ub o => some (o.raw op (mBit s 0 ||| mBit ua 2 ||| mBit ub 3))
    | .shr64 ar o => some (o.raw op (mBit ar 4))
    | .mov p o => some (o.raw op (mBit p 5))
    | .sel h d a b pc imm => some { (((Raw.base h op).setD d).setA a).setB b with c := pc.enc, imm := imm }
    | .ptern lut h pd pa pb pc =>
      some { Raw.base h op with d := pdEnc pd, a := pa.enc, b := pb.enc, c := pc.enc, m := mLow lut }
    | .p2v h d => some ((Raw.base h op).setD d)
    | .v2p h a b imm => some { ((Raw.base h op).setA a).setB b with imm := imm }
    | .fadd m o | .fmul m o | .fmin m o | .fmax m o | .fscale m o | .hadd2 m o | .hmul2 m o | .hmin2 m o | .hmax2 m o
    | .dadd m o | .dmul m o | .dmin m o | .dmax m o => some (o.raw op (m.enc 0))
    | .ffma m o | .hfma2 m o | .hdot2 m o | .dfma m o => some (o.raw op (m.enc 0))
    | .fset cmp bop m o | .dset cmp bop m o => some (o.raw op (m.enc cmp.enc ||| mLow (o.bopBits bop)))
    | .fsetv cmp m o | .hset2 cmp m o => some (o.raw op (m.enc cmp.enc))
    | .frnd m o => some (o.raw op (m.enc 0))
    | .fclass f o => some (o.raw op (mLow f.enc))
    | .fspec fn m o => some (o.raw op (m.enc fn.enc))
    | .f2i r sf dt hi o => some (o.raw op (mLow r.enc ||| mAt sf.enc 2 ||| mAt dt.enc 4 ||| mBit hi 9))
    | .i2f r sty df o => some (o.raw op (mLow r.enc ||| mAt sty.enc 2 ||| mAt df.enc 5))
    | .f2f r sf df hi o => some (o.raw op (mLow r.enc ||| mAt sf.enc 2 ||| mAt df.enc 4 ||| mBit hi 9))
    | .i2i sty dt sat o => some (o.raw op (mAt sty.enc 2 ||| mAt dt.enc 5 ||| mBit sat 8))
    | .qpack f sr pk ct o => some (o.raw op (mLow f.enc ||| mBit sr 2 ||| mBit pk 3 ||| mAt ct.enc 4))
    | .qunpk f ct o => some (o.raw op (mLow f.enc ||| mAt ct.enc 4))
    | .qscal mu k o => some (o.raw op (mBit mu 0 ||| mAt k 1))
    | .cmpld k t h a b => some { ((Raw.base h op).setA a).setB b with m := mLow k.enc ||| mAt t 2 }
    | .ld m | .st m | .atom m | .atomf m | .cas m | .red m | .fence m | .pref m | .fewait m | .feset m | .cctlL1 m
    | .cctlL1all m | .cctlIc m | .cctlMap m | .lodld m => some (m.raw op)
    | .vote f h pa =>
      let r := { Raw.base h op with a := pa.enc }
      match f with
      | .all pd => some { r with d := pdEnc pd, m := 0 }
      | .any pd => some { r with d := pdEnc pd, m := 1 }
      | .eq pd => some { r with d := pdEnc pd, m := 2 }
      | .ballot d b imm => some { (r.setD d).setB b with m := 3, imm := imm }
    | .xlane mode k o => some (o.raw op (mLow mode.enc ||| mAt (BitVec.ofNat 3 k.val) 2))
    | .qdiff r y crs o => some (o.raw op (mLow r.enc ||| mBit y 2 ||| mBit crs 3))
    | .gfold f ty o => some (o.raw op (mLow f.enc ||| mAt ty.enc 3))
    | .scan f ty exc o => some (o.raw op (mLow f.enc ||| mAt ty.enc 3 ||| mBit exc 5))
    | .rdlane o => some (o.raw op 0)
    | .matchLanes cnt w o => some (o.raw op (mBit cnt 0 ||| mBit w 1))
    | .elect h pd => some { Raw.base h op with d := pdEnc pd }
    | .barSync h a b imm => some { ((Raw.base h op).setA a).setB b with m := 0, imm := imm }
    | .barArrive h a b imm => some { ((Raw.base h op).setA a).setB b with m := 1, imm := imm }
    | .barWait h a imm => some { (Raw.base h op).setA a with m := 2, imm := imm }
    | .trset h d a n => some { ((Raw.base h op).setD d).setA a with imm := n.setWidth 32 }
    | .cpy k tr side o | .cpys k tr side o =>
      some (o.raw op (mLow k.enc ||| mAt (BitVec.ofNat 2 tr.val) 2 ||| mBit side 4))
    | .cpyg k o => some (o.raw op (mLow k.enc))
    | .coll f ty o => some (o.raw op (mLow f.enc ||| mAt (collTyEnc ty) 3))
    | .fillScr o => some (o.raw op 0)
    | .fillMem o => some (o.raw op 2)
    | .tclaim acc h pd first n =>
      some { Raw.base h op with d := pdEnc pd, m := mBit acc 0, imm := 0#15 ++ (n ++ first) }
    | .trel acc h first n => some { Raw.base h op with m := mBit acc 0, imm := 0#15 ++ (n ++ first) }
    | .mslot f sp ct h a k =>
      some { (Raw.base h op).setA a with m := mLow f.enc ||| mBit sp 2 ||| mAt ct.enc 3, imm := k.setWidth 32 }
    | .mma o | .mmas o => some (o.raw op)
    | .mzero h acc => some { Raw.base h op with imm := acc.setWidth 32 }
    | .mrd h d b acc => some { ((Raw.base h op).setD d).setB b with imm := acc.setWidth 32 }
    | .mwr h a b acc => some { ((Raw.base h op).setA a).setB b with imm := acc.setWidth 32 }
    | .bnew h d a | .bfree h d a => some (((Raw.base h op).setD d).setA a)
    | .btrace h d a b c mask =>
      some { ((((Raw.base h op).setD d).setA a).setB b).setC c with imm := mask.setWidth 32 }
    | .rtrace first mask h d a b c root =>
      some { ((((Raw.base h op).setD d).setA a).setB b).setC c with
        m := mLow mask ||| mBit first 8, imm := root.setWidth 32 }
    | .rresume sh cm h d a b c =>
      some { ((((Raw.base h op).setD d).setA a).setB b).setC c with m := mBit sh 0 ||| mBit cm 1 }
    | .tex flt lod stat o => some (o.raw op (mLow flt.enc ||| mAt lod.enc 2 ||| mBit stat 4))
    | .texg comp lod stat o => some (o.raw op (mAt lod.enc 2 ||| mBit stat 4 ||| mAt comp 5))
    | .texq flt lod o => some (o.raw op (mLow flt.enc ||| mAt lod.enc 2))
    | .post h a p => some (((Raw.base h op).setA a).setPort p)
    | .postn h d a p => some ((((Raw.base h op).setD d).setA a).setPort p)
    | .wait pri h p =>
      let r := { Raw.base h op with m := mLow pri }
      match p with
      | .imm port => some { r with imm := portImm false 0 port }
      | .list a b => some ((r.setA a).setB b)
    | .take h d pc p => some { ((Raw.base h op).setD d).setPort p with c := pdEnc pc }
    | .patset h d a b c => some ((((Raw.base h op).setD d).setA a).setB b |>.setC c)
    | .patclr h d a => some (((Raw.base h op).setD d).setA a)
    | .portcfg h d a p c => some (((((Raw.base h op).setD d).setA a).setPort p).setC c)
    | .launchCard h d a => some { ((Raw.base h op).setD d).setA a with m := 0 }
    | .launchArm h d a b c => some { ((((Raw.base h op).setD d).setA a).setB b).setC c with m := 1 }
    | .launchSeal h d a => some { ((Raw.base h op).setD d).setA a with m := 2 }
    | .cancel cnt kill h d a => some { ((Raw.base h op).setD d).setA a with m := mBit cnt 0 ||| mBit kill 1 }
    | .cntrd cnt h d a => some { ((Raw.base h op).setD d).setA a with m := mBit cnt 0 }
    | .resumeRec h d a => some { ((Raw.base h op).setD d).setA a with m := 0 }
    | .resumeLaunch h d a => some { ((Raw.base h op).setD d).setA a with m := 1 }
    | .mfs h d num => some { (Raw.base h op).setD d with imm := num.setWidth 32 }
    | .mts h a num => some { (Raw.base h op).setA a with imm := num.setWidth 32 }
    | .regclaim h n | .reggive h n => some { Raw.base h op with imm := n.setWidth 32 }
    | .keyset h a k => some { (Raw.base h op).setA a with imm := k.setWidth 32 }
    | .unassignedOpcodeIssue h _ => some (Raw.base h op)
    | _ => none

/-- The 96-bit word of a well-formed instruction (R19); an event has none. -/
def encode (i : Instr) : Option (BitVec 96) := i.raw.map Raw.pack

/-! ### The decoder -/

/-- R33: the header; a set bit 15 or CF = 11 raises ILLOP. -/
def Raw.hdr (r : Raw) : Option Hdr :=
  if r.top then none
  else match Cf.dec r.cf with
    | some cf => some ⟨r.g, r.gn, cf⟩
    | none => none

def Raw.srcA (r : Raw) : Option Src := (Spec.dec r.a).map (⟨·, r.ka⟩)
def Raw.srcB (r : Raw) : Option Src := (Spec.dec r.b).map (⟨·, r.kb⟩)
def Raw.srcC (r : Raw) : Option Src := (Spec.dec r.c).map (⟨·, r.kc⟩)
def Raw.dst (r : Raw) : Option Spec := Spec.dec r.d

/-- R49: a field that the opcode does not use holds 0xC0 and its kill bit is 0. -/
def Raw.noA (r : Raw) : Bool := r.a == 0xC0 && !r.ka
def Raw.noB (r : Raw) : Bool := r.b == 0xC0 && !r.kb
def Raw.noC (r : Raw) : Bool := r.c == 0xC0 && !r.kc
def Raw.noD (r : Raw) : Bool := r.d == 0xC0

/-- R49: the modifier bits outside a mask are 0. -/
def Raw.mOnly (r : Raw) (mask : BitVec 13) : Bool := r.m &&& ~~~mask == 0

def Raw.psrcA (r : Raw) : Option PSrc := if r.ka then none else PSrc.dec r.a
def Raw.psrcB (r : Raw) : Option PSrc := if r.kb then none else PSrc.dec r.b
def Raw.psrcC (r : Raw) : Option PSrc := if r.kc then none else PSrc.dec r.c

def Raw.op1 (r : Raw) : Option Op1 := do
  let h ← r.hdr
  let d ← r.dst
  let a ← r.srcA
  if r.noB && r.noC then some ⟨h, d, a, r.imm⟩ else none

def Raw.op2 (r : Raw) : Option Op2 := do
  let h ← r.hdr
  let d ← r.dst
  let a ← r.srcA
  let b ← r.srcB
  if r.noC then some ⟨h, d, a, b, r.imm⟩ else none

def Raw.op3 (r : Raw) : Option Op3 := do
  let h ← r.hdr
  let d ← r.dst
  let a ← r.srcA
  let b ← r.srcB
  let c ← r.srcC
  some ⟨h, d, a, b, c, r.imm⟩

/-- R78: with BOP = 0 the field C is unused, else it is a predicate source. -/
def Raw.opCmp (r : Raw) (bop : BitVec 2) : Option OpCmp := do
  let h ← r.hdr
  let pd ← pdDec r.d
  let a ← r.srcA
  let b ← r.srcB
  if bop == 0 then (if r.noC then some ⟨h, pd, a, b, none, r.imm⟩ else none)
  else do
    let pc ← r.psrcC
    some ⟨h, pd, a, b, some pc, r.imm⟩

def Raw.memOp (r : Raw) : Option MemOp := do
  let h ← r.hdr
  let d ← r.dst
  let adr ← r.srcA
  let idx ← r.srcB
  let x ← r.srcC
  let space ← Space.dec (bitsOf r.m 0 3)
  let width ← Width.dec (bitsOf r.m 3 3)
  let scope ← Scope.dec (bitsOf r.m 8 3)
  if bitsOf r.imm 29 3 == 0 && !r.imm.getLsbD 26 then
    some ⟨h, space, width, Order.dec (bitsOf r.m 6 2), scope, r.imm.getLsbD 24, r.imm.getLsbD 25,
      bitsOf r.imm 27 2, bitsOf r.m 11 2, bitsOf r.imm 0 24, d, adr, idx, x⟩
  else none

def Raw.cpyOp (r : Raw) : Option CpyOp := do
  let h ← r.hdr
  let tag ← r.dst
  let a ← r.srcA
  let b ← r.srcB
  let c ← r.srcC
  if bitsOf r.imm 25 7 == 0 && bitsOf r.imm 6 2 == 0 then
    some ⟨h, tag, a, b, c, ⟨r.imm.getLsbD 24, bitsOf r.imm 8 16, bitsOf r.imm 0 6⟩⟩
  else none

def Raw.mmaOp (r : Raw) : Option MmaOp := do
  let h ← r.hdr
  let a ← r.srcA
  let b ← r.srcB
  if r.noC && r.noD && r.m == 0 && bitsOf r.imm 28 4 == 0 && bitsOf r.imm 6 2 == 0 then
    some ⟨h, a, b, bitsOf r.imm 26 2, bitsOf r.imm 24 2, bitsOf r.imm 16 8, bitsOf r.imm 8 8, bitsOf r.imm 0 6⟩
  else none

def Raw.texOp (r : Raw) : Option TexOp := do
  let h ← r.hdr
  let d ← r.dst
  let a ← r.srcA
  let b ← r.srcB
  let c ← r.srcC
  if r.imm == 0 then some ⟨h, d, a, b, c⟩ else none

/-- R333: the port field of a join instruction. -/
def Raw.portRef (r : Raw) : Option PortRef :=
  if bitsOf r.imm 21 11 != 0 then none
  else if r.imm.getLsbD 20 then
    if r.noB then some (.imm (r.imm.getLsbD 19) (bitsOf r.imm 16 3) (bitsOf r.imm 0 16)) else none
  else if bitsOf r.imm 0 20 == 0 then r.srcB.map .reg
  else none

/-- R54: bits 47:32 and the kill bit 50 of a Format B slot are 0. -/
def Raw.fmtB (r : Raw) : Bool := r.b == 0 && r.c == 0 && !r.kc

/-- R55: T and N are `zero`, without kill bits. -/
def Raw.noTN (r : Raw) : Bool := r.noD && r.a == 0xC0 && !r.ka && !r.kb && r.fmtB

/-- R55: the fields of a Format B instruction without operands. -/
def Raw.bare (r : Raw) (f : Hdr → Instr) : Option Instr := do
  let h ← r.hdr
  if r.noTN && r.m == 0 && r.imm == 0 then some (f h) else none

/-- The decoder of a slot's fields up to the ILLOP faults that `Instr.legal` states; none is ILLOP. -/
def Raw.parse (r : Raw) : Option Instr :=
  let m (lo len : Nat) := bitsOf r.m lo len
  let mb (k : Nat) := r.m.getLsbD k
  let fm := FMod.dec r.m
  let imm0 := r.imm == 0
  match r.op.toNat with
  | 0x000 => r.bare .nop
  | 0x001 => do
    let h ← r.hdr
    if r.noTN && r.m == 0 then some (.bra h (bitsOf r.imm 3 29) (bitsOf r.imm 0 3)) else none
  | 0x002 => do
    let h ← r.hdr
    let t ← r.dst
    if r.a == 0xC0 && !r.kb && r.fmtB && r.m == 0 && imm0 then some (.brx h ⟨t, r.ka⟩) else none
  | 0x003 => do
    let h ← r.hdr
    if r.noTN && r.m == 0 then some (.call h (bitsOf r.imm 3 29) (bitsOf r.imm 0 3)) else none
  | 0x004 => do
    let h ← r.hdr
    let t ← r.dst
    if r.a == 0xC0 && !r.kb && r.fmtB && r.m == 0 && imm0 then some (.callx h ⟨t, r.ka⟩) else none
  | 0x005 => r.bare .ret
  | 0x006 => r.bare .exit
  | 0x007 => r.bare .conv
  | 0x008 => r.bare .yield
  | 0x009 => do
    let h ← r.hdr
    let n ← Spec.dec r.a
    if r.noD && !r.ka && r.fmtB && r.mOnly 0x7F && imm0 then
      some (.rep h ⟨n, r.kb⟩ (m 0 3) (m 3 4)) else none
  | 0x00A => do
    let h ← r.hdr
    if r.noTN && r.m == 0 && bitsOf r.imm 16 16 == 0 then
      some (.trap h (bitsOf r.imm 0 16)) else none
  | 0x00B => r.bare .bkpt
  | 0x020 => do
    let o ← r.op2
    let s ← Sat.dec (m 0 2)
    if r.mOnly 3 then some (.iadd s o) else none
  | 0x021 => do
    let o ← r.op2
    let s ← Sat.dec (m 0 2)
    if r.mOnly 3 then some (.isub s o) else none
  | 0x022 => do
    let h ← r.hdr
    let d ← r.dst
    let a ← r.srcA
    let b ← r.srcB
    let p ← r.psrcC
    if r.mOnly 7 then some (.iaddc (m 0 3) h d a b p r.imm) else none
  | 0x023 => do
    let o ← r.op2
    if r.m == 0 then some (.imul o) else none
  | 0x024 => do
    let o ← r.op2
    if r.mOnly 2 then some (.imulh (mb 1) o) else none
  | 0x025 => do
    let o ← r.op3
    if r.m == 0 then some (.imad o) else none
  | 0x026 => do
    let o ← r.op3
    if r.mOnly 2 then some (.imadw (mb 1) o) else none
  | 0x027 => do
    let o ← r.op2
    if r.mOnly 2 then some (.imin (mb 1) o) else none
  | 0x028 => do
    let o ← r.op2
    if r.mOnly 2 then some (.imax (mb 1) o) else none
  | 0x029 => do
    let o ← r.op1
    if r.mOnly 1 then some (.iabs (mb 0) o) else none
  | 0x02A => do
    let o ← r.op3
    if r.mOnly 0xFF then some (.tern (m 0 8) o) else none
  | 0x02B => do
    let o ← r.op2
    if r.mOnly 4 then some (.shl (mb 2) o) else none
  | 0x02C => do
    let o ← r.op2
    if r.mOnly 4 then some (.shr (mb 2) o) else none
  | 0x02D => do
    let o ← r.op2
    if r.mOnly 4 then some (.sar (mb 2) o) else none
  | 0x02E => do
    let o ← r.op3
    if r.mOnly 0xC then some (.shf (mb 3) (mb 2) o) else none
  | 0x02F => do
    let o ← r.op2
    if r.mOnly 8 then some (.bfe (mb 3) o) else none
  | 0x030 => do
    let o ← r.op3
    if r.m == 0 then some (.bfi o) else none
  | 0x031 => do
    let o ← r.op1
    if r.m == 0 then some (.popc o) else none
  | 0x032 => do
    let o ← r.op1
    if r.m == 0 then some (.clz o) else none
  | 0x033 => do
    let o ← r.op1
    if r.m == 0 then some (.brev o) else none
  | 0x034 => do
    let o ← r.op3
    if r.m == 0 then some (.byperm o) else none
  | 0x035 => do
    let o ← r.opCmp (m 7 2)
    let cmp ← ICmp.dec (m 4 3)
    if r.mOnly 0x1F2 then some (.iset (mb 1) cmp (BOp.dec (m 7 2)) o) else none
  | 0x036 => do
    let o ← r.op2
    let cmp ← ICmp.dec (m 4 3)
    if r.mOnly 0x72 then some (.isetv (mb 1) cmp o) else none
  | 0x037 => do
    let o ← r.op2
    if r.m == 0 then some (.iadd64 o) else none
  | 0x038 => do
    let o ← r.op2
    if r.m == 0 then some (.isub64 o) else none
  | 0x039 => do
    let o ← r.op2
    if r.mOnly 0x1F00 then some (.lea (m 8 5) o) else none
  | 0x03A => do
    let o ← r.op2
    if r.mOnly 0x1F02 then some (.lea64 (mb 1) (m 8 5) o) else none
  | 0x03B => do
    let o ← r.op3
    if r.mOnly 0xD then some (.idp4 (mb 0) (mb 2) (mb 3) o) else none
  | 0x03C => do
    let o ← r.op3
    if r.mOnly 2 then some (.isad (mb 1) o) else none
  | 0x03D => do
    let o ← r.op2
    if r.m == 0 then some (.shl64 o) else none
  | 0x03E => do
    let o ← r.op2
    if r.mOnly 0x10 then some (.shr64 (mb 4) o) else none
  | 0x03F => do
    let o ← r.op1
    if r.mOnly 0x20 then some (.mov (mb 5) o) else none
  | 0x040 => do
    let h ← r.hdr
    let d ← r.dst
    let a ← r.srcA
    let b ← r.srcB
    let p ← r.psrcC
    if r.m == 0 then some (.sel h d a b p r.imm) else none
  | 0x060 => do
    let h ← r.hdr
    let pd ← pdDec r.d
    let pa ← r.psrcA
    let pb ← r.psrcB
    let pc ← r.psrcC
    if r.mOnly 0xFF && imm0 then some (.ptern (m 0 8) h pd pa pb pc) else none
  | 0x061 => do
    let h ← r.hdr
    let d ← r.dst
    if r.noA && r.noB && r.noC && r.m == 0 && (imm0 || r.d == 0xFF) then some (.p2v h d) else none
  | 0x062 => do
    let h ← r.hdr
    let a ← r.srcA
    let b ← r.srcB
    if r.noD && r.noC && r.m == 0 then some (.v2p h a b r.imm) else none
  | 0x080 => do
    let o ← r.op2
    if m 9 3 == 0 then some (.fadd fm o) else none
  | 0x081 => do
    let o ← r.op2
    if m 9 3 == 0 then some (.fmul fm o) else none
  | 0x082 => do
    let o ← r.op3
    if m 9 3 == 0 then some (.ffma fm o) else none
  | 0x083 => do
    let o ← r.op2
    if m 9 3 == 0 then some (.fmin fm o) else none
  | 0x084 => do
    let o ← r.op2
    if m 9 3 == 0 then some (.fmax fm o) else none
  | 0x085 => do
    let o ← r.opCmp (m 0 2)
    some (.fset (FCmp.dec (m 9 3)) (BOp.dec (m 0 2)) { fm with rnd := .rn } o)
  | 0x086 => do
    let o ← r.op2
    some (.fsetv (FCmp.dec (m 9 3)) fm o)
  | 0x087 => do
    let o ← r.op1
    if m 9 3 == 0 then some (.frnd fm o) else none
  | 0x088 => do
    let o ← r.op1
    if r.mOnly 3 then some (.fclass (FFmt.dec (m 0 2)) o) else none
  | 0x089 => do
    let o ← r.op1
    some (.fspec (FFn.dec (m 9 3)) fm o)
  | 0x08A => do
    let o ← r.op2
    if m 9 3 == 0 then some (.fscale fm o) else none
  | 0x090 => do
    let o ← r.op2
    if m 9 3 == 0 then some (.hadd2 fm o) else none
  | 0x091 => do
    let o ← r.op2
    if m 9 3 == 0 then some (.hmul2 fm o) else none
  | 0x092 => do
    let o ← r.op3
    if m 9 3 == 0 then some (.hfma2 fm o) else none
  | 0x093 => do
    let o ← r.op2
    if m 9 3 == 0 then some (.hmin2 fm o) else none
  | 0x094 => do
    let o ← r.op2
    if m 9 3 == 0 then some (.hmax2 fm o) else none
  | 0x095 => do
    let o ← r.op2
    some (.hset2 (FCmp.dec (m 9 3)) fm o)
  | 0x096 => do
    let o ← r.op3
    if m 9 3 == 0 then some (.hdot2 fm o) else none
  | 0x0C0 => do
    let o ← r.op2
    if m 9 3 == 0 then some (.dadd fm o) else none
  | 0x0C1 => do
    let o ← r.op2
    if m 9 3 == 0 then some (.dmul fm o) else none
  | 0x0C2 => do
    let o ← r.op3
    if m 9 3 == 0 then some (.dfma fm o) else none
  | 0x0C3 => do
    let o ← r.op2
    if m 9 3 == 0 then some (.dmin fm o) else none
  | 0x0C4 => do
    let o ← r.op2
    if m 9 3 == 0 then some (.dmax fm o) else none
  | 0x0C5 => do
    let o ← r.opCmp (m 0 2)
    some (.dset (FCmp.dec (m 9 3)) (BOp.dec (m 0 2)) { fm with rnd := .rn } o)
  | 0x0C8 => do
    let o ← r.op1
    if r.mOnly 0x27F then some (.f2i (Rnd.dec (m 0 2)) (FFmt.dec (m 2 2)) (ITy.dec (m 4 3)) (mb 9) o) else none
  | 0x0C9 => do
    let o ← r.op1
    if r.mOnly 0x7F then some (.i2f (Rnd.dec (m 0 2)) (ITy.dec (m 2 3)) (FFmt.dec (m 5 2)) o) else none
  | 0x0CA => do
    let o ← r.op1
    if r.mOnly 0x23F then some (.f2f (Rnd.dec (m 0 2)) (FFmt.dec (m 2 2)) (FFmt.dec (m 4 2)) (mb 9) o) else none
  | 0x0CB => do
    let o ← r.op1
    if r.mOnly 0x1FC then some (.i2i (ITy.dec (m 2 3)) (ITy.dec (m 5 3)) (mb 8) o) else none
  | 0x0E0 => do
    let o ← r.op1
    let f ← SxFmt.dec (m 0 2)
    let ct ← CtSel.dec (m 4 4)
    if r.mOnly 0xFF then some (.qpack f (mb 2) (mb 3) ct o) else none
  | 0x0E1 => do
    let o ← r.op3
    let f ← SxFmt.dec (m 0 2)
    let ct ← CtSel.dec (m 4 4)
    if r.mOnly 0xF3 then some (.qunpk f ct o) else none
  | 0x0E2 => do
    let o ← r.op2
    if r.mOnly 7 then some (.qscal (mb 0) (m 1 2) o) else none
  | 0x0E3 => do
    let h ← r.hdr
    let a ← r.srcA
    let b ← r.srcB
    let k ← CmpKind.dec (m 0 2)
    if r.noD && r.noC && r.mOnly 0x1F && (imm0 || r.a == 0xFF || r.b == 0xFF) then some (.cmpld k (m 2 3) h a b) else none
  | 0x100 => r.memOp.map .ld
  | 0x101 => r.memOp.map .st
  | 0x102 => r.memOp.map .atom
  | 0x103 => r.memOp.map .atomf
  | 0x104 => r.memOp.map .cas
  | 0x105 => r.memOp.map .red
  | 0x106 => r.memOp.map .fence
  | 0x107 => r.memOp.map .pref
  | 0x108 => r.memOp.map .fewait
  | 0x109 => r.memOp.map .feset
  | 0x10A => do
    let o ← r.memOp
    match o.cache.toNat with
    | 0 => some (.cctlL1 o)
    | 1 => some (.cctlL1all o)
    | 2 => some (.cctlIc o)
    | _ => some (.cctlMap o)
  | 0x10B => r.memOp.map .lodld
  | 0x140 => do
    let h ← r.hdr
    let pa ← r.psrcA
    if !(r.noC && r.mOnly 3) then none
    else if m 0 2 == 3 then do
      let d ← r.dst
      let b ← r.srcB
      some (.vote (.ballot d b r.imm) h pa)
    else do
      let pd ← pdDec r.d
      if !(r.noB && imm0) then none
      else if m 0 2 == 0 then some (.vote (.all pd) h pa)
      else if m 0 2 == 1 then some (.vote (.any pd) h pa)
      else some (.vote (.eq pd) h pa)
  | 0x141 => do
    let o ← r.op2
    let k ← segDec (m 2 3)
    if r.mOnly 0x1F then some (.xlane (XMode.dec (m 0 2)) k o) else none
  | 0x142 => do
    let o ← r.op1
    if r.mOnly 0xF then some (.qdiff (Rnd.dec (m 0 2)) (mb 2) (mb 3) o) else none
  | 0x143 => do
    let o ← r.op1
    let f ← FoldOp.dec (m 0 3)
    let ty ← FoldTy.dec (m 3 2)
    if r.mOnly 0x1F then some (.gfold f ty o) else none
  | 0x144 => do
    let o ← r.op1
    let f ← FoldOp.dec (m 0 3)
    let ty ← FoldTy.dec (m 3 2)
    if r.mOnly 0x3F then some (.scan f ty (mb 5) o) else none
  | 0x145 => do
    let o ← r.op2
    if r.m == 0 then some (.rdlane o) else none
  | 0x146 => do
    let o ← r.op1
    if r.mOnly 3 then some (.matchLanes (mb 0) (mb 1) o) else none
  | 0x147 => do
    let h ← r.hdr
    let pd ← pdDec r.d
    if r.noA && r.noB && r.noC && r.m == 0 && imm0 then some (.elect h pd) else none
  | 0x148 => do
    let h ← r.hdr
    let a ← r.srcA
    if !(r.noD && r.noC && r.mOnly 3) then none
    else if m 0 2 == 2 then (if r.noB then some (.barWait h a r.imm) else none)
    else do
      let b ← r.srcB
      if m 0 2 == 0 then some (.barSync h a b r.imm)
      else if m 0 2 == 1 then some (.barArrive h a b r.imm)
      else none
  | 0x160 => do
    let h ← r.hdr
    let d ← r.dst
    let a ← r.srcA
    if r.noB && r.noC && r.m == 0 && bitsOf r.imm 6 26 == 0 then some (.trset h d a (bitsOf r.imm 0 6)) else none
  | 0x161 => do
    let o ← r.cpyOp
    let k ← CpyKind.dec (m 0 2)
    let tr ← trDec (m 2 2)
    if r.mOnly 0x1F then some (.cpy k tr (mb 4) o) else none
  | 0x162 => do
    let o ← r.cpyOp
    let k ← CpyKind.dec (m 0 2)
    let tr ← trDec (m 2 2)
    if r.mOnly 0x1F then some (.cpys k tr (mb 4) o) else none
  | 0x163 => do
    let o ← r.cpyOp
    let k ← CpyKind.dec (m 0 2)
    if r.mOnly 3 then some (.cpyg k o) else none
  | 0x164 => do
    let o ← r.cpyOp
    let f ← CollOp.dec (m 0 3)
    let ty ← collTyDec (m 3 2)
    if r.mOnly 0x1F then some (.coll f ty o) else none
  | 0x165 => do
    let o ← r.cpyOp
    if r.m == 0 then some (.fillScr o) else if r.m == 2 then some (.fillMem o) else none
  | 0x180 => do
    let h ← r.hdr
    let pd ← pdDec r.d
    if r.noA && r.noB && r.noC && r.mOnly 1 && bitsOf r.imm 17 15 == 0 then
      some (.tclaim (mb 0) h pd (bitsOf r.imm 0 8) (bitsOf r.imm 8 9)) else none
  | 0x181 => do
    let h ← r.hdr
    if r.noD && r.noA && r.noB && r.noC && r.mOnly 1 && bitsOf r.imm 17 15 == 0 then
      some (.trel (mb 0) h (bitsOf r.imm 0 8) (bitsOf r.imm 8 9)) else none
  | 0x182 => do
    let h ← r.hdr
    let a ← r.srcA
    let ct ← CtSel.dec (m 3 4)
    if r.noD && r.noB && r.noC && r.mOnly 0x7F && bitsOf r.imm 8 24 == 0 then
      some (.mslot (SlotFmt.dec (m 0 2)) (mb 2) ct h a (bitsOf r.imm 0 8)) else none
  | 0x183 => r.mmaOp.map .mma
  | 0x184 => r.mmaOp.map .mmas
  | 0x185 => do
    let h ← r.hdr
    if r.noD && r.noA && r.noB && r.noC && r.m == 0 && bitsOf r.imm 6 26 == 0 then
      some (.mzero h (bitsOf r.imm 0 6)) else none
  | 0x186 => do
    let h ← r.hdr
    let d ← r.dst
    let b ← r.srcB
    if r.noA && r.noC && r.m == 0 && bitsOf r.imm 6 26 == 0 then some (.mrd h d b (bitsOf r.imm 0 6)) else none
  | 0x187 => do
    let h ← r.hdr
    let a ← r.srcA
    let b ← r.srcB
    if r.noD && r.noC && r.m == 0 && bitsOf r.imm 6 26 == 0 then some (.mwr h a b (bitsOf r.imm 0 6)) else none
  | 0x1A0 => do
    let h ← r.hdr
    let d ← r.dst
    let a ← r.srcA
    if r.noB && r.noC && r.m == 0 && imm0 then some (.bnew h d a) else none
  | 0x1A1 => do
    let h ← r.hdr
    let d ← r.dst
    let a ← r.srcA
    let b ← r.srcB
    let c ← r.srcC
    if r.m == 0 && bitsOf r.imm 8 24 == 0 then some (.btrace h d a b c (bitsOf r.imm 0 8)) else none
  | 0x1A3 => do
    let h ← r.hdr
    let d ← r.dst
    let a ← r.srcA
    if r.noB && r.noC && r.m == 0 && imm0 then some (.bfree h d a) else none
  | 0x1A8 => do
    let h ← r.hdr
    let d ← r.dst
    let a ← r.srcA
    let b ← r.srcB
    let c ← r.srcC
    if r.mOnly 0x1FF && bitsOf r.imm 8 24 == 0 then
      some (.rtrace (mb 8) (m 0 8) h d a b c (bitsOf r.imm 0 8)) else none
  | 0x1A9 => do
    let h ← r.hdr
    let d ← r.dst
    let a ← r.srcA
    let b ← r.srcB
    let c ← r.srcC
    if r.mOnly 3 && imm0 then some (.rresume (mb 0) (mb 1) h d a b c) else none
  | 0x1B0 => do
    let o ← r.texOp
    if r.mOnly 0x1F then some (.tex (TexFlt.dec (m 0 2)) (LodMode.dec (m 2 2)) (mb 4) o) else none
  | 0x1B1 => do
    let o ← r.texOp
    if r.mOnly 0x7C then some (.texg (m 5 2) (LodMode.dec (m 2 2)) (mb 4) o) else none
  | 0x1B2 => do
    let o ← r.texOp
    if r.mOnly 0xF then some (.texq (TexFlt.dec (m 0 2)) (LodMode.dec (m 2 2)) o) else none
  | 0x1C0 => do
    let h ← r.hdr
    let a ← r.srcA
    let p ← r.portRef
    if r.noD && r.noC && r.m == 0 then some (.post h a p) else none
  | 0x1C1 => do
    let h ← r.hdr
    let d ← r.dst
    let a ← r.srcA
    let p ← r.portRef
    if r.noC && r.m == 0 then some (.postn h d a p) else none
  | 0x1C2 => do
    let h ← r.hdr
    if !(r.noD && r.noC && r.mOnly 7 && bitsOf r.imm 16 4 == 0 && bitsOf r.imm 21 11 == 0) then none
    else if r.imm.getLsbD 20 then
      (if r.noA && r.noB then some (.wait (m 0 3) h (.imm (bitsOf r.imm 0 16))) else none)
    else if imm0 then do
      let a ← r.srcA
      let b ← r.srcB
      some (.wait (m 0 3) h (.list a b))
    else none
  | 0x1C3 => do
    let h ← r.hdr
    let d ← r.dst
    let p ← r.portRef
    let pc ← pdDec r.c
    if r.noA && !r.kc && r.m == 0 then some (.take h d pc p) else none
  | 0x1C4 => do
    let h ← r.hdr
    let d ← r.dst
    let a ← r.srcA
    let b ← r.srcB
    let c ← r.srcC
    if r.m == 0 && imm0 then some (.patset h d a b c) else none
  | 0x1C5 => do
    let h ← r.hdr
    let d ← r.dst
    let a ← r.srcA
    if r.noB && r.noC && r.m == 0 && imm0 then some (.patclr h d a) else none
  | 0x1C6 => do
    let h ← r.hdr
    let d ← r.dst
    let a ← r.srcA
    let p ← r.portRef
    let c ← r.srcC
    if r.m == 0 then some (.portcfg h d a p c) else none
  | 0x1C8 => do
    let h ← r.hdr
    let d ← r.dst
    let a ← r.srcA
    if !(r.mOnly 3 && imm0) then none
    else if m 0 2 == 0 then (if r.noB && r.noC then some (.launchCard h d a) else none)
    else if m 0 2 == 1 then do
      let b ← r.srcB
      let c ← r.srcC
      some (.launchArm h d a b c)
    else if m 0 2 == 2 then (if r.noB && r.noC then some (.launchSeal h d a) else none)
    else none
  | 0x1C9 => do
    let h ← r.hdr
    let d ← r.dst
    let a ← r.srcA
    if r.noB && r.noC && r.mOnly 3 && imm0 then some (.cancel (mb 0) (mb 1) h d a) else none
  | 0x1CA => do
    let h ← r.hdr
    let d ← r.dst
    let a ← r.srcA
    if r.noB && r.noC && r.mOnly 1 && imm0 then some (.cntrd (mb 0) h d a) else none
  | 0x1CB => do
    let h ← r.hdr
    let d ← r.dst
    let a ← r.srcA
    if !(r.noB && r.noC && r.mOnly 3 && imm0) then none
    else if m 0 2 == 0 then some (.resumeRec h d a)
    else if m 0 2 == 1 then some (.resumeLaunch h d a)
    else none
  | 0x1E0 => do
    let h ← r.hdr
    let d ← r.dst
    if r.noA && r.noB && r.noC && r.m == 0 && bitsOf r.imm 16 16 == 0 then some (.mfs h d (bitsOf r.imm 0 16)) else none
  | 0x1E1 => do
    let h ← r.hdr
    let a ← r.srcA
    if r.noD && r.noB && r.noC && r.m == 0 && bitsOf r.imm 16 16 == 0 then some (.mts h a (bitsOf r.imm 0 16)) else none
  | 0x1E2 => do
    let h ← r.hdr
    if r.noD && r.noA && r.noB && r.noC && r.m == 0 && bitsOf r.imm 16 16 == 0 then
      some (.regclaim h (bitsOf r.imm 0 16)) else none
  | 0x1E3 => do
    let h ← r.hdr
    if r.noD && r.noA && r.noB && r.noC && r.m == 0 && bitsOf r.imm 16 16 == 0 then
      some (.reggive h (bitsOf r.imm 0 16)) else none
  | 0x1E4 => do
    let h ← r.hdr
    let a ← r.srcA
    if r.noD && r.noB && r.noC && r.m == 0 && bitsOf r.imm 5 27 == 0 then some (.keyset h a (bitsOf r.imm 0 5)) else none
  | _ => r.hdr.map (.unassignedOpcodeIssue · r.op)

/-- R61: the instruction of a slot, or the encoding fault that the slot raises at issue. An ILLOP comes before an ILLOPD
(R45). A slot whose OP is unassigned answers UNASSIGNED_OPCODE_ISSUE, whose meaning raises ILLOP. -/
def decode (w : BitVec 96) : Except EncFault Instr :=
  match (Raw.unpack w).parse with
  | none => .error .illop
  | some (.unassignedOpcodeIssue h op) => .ok (.unassignedOpcodeIssue h op)
  | some i => if !i.legal then .error .illop else if i.shapeOk then .ok i else .error .illopd

/-- The instruction of a word numbered as spec/opcode_table.json numbers its bits: a slot is one 96-bit little-endian
instruction (R19), so its bits count as the table counts them, and the bits above nbits are 0. -/
def decodeTableWord (nbits w : Nat) : Option Instr :=
  match decode (BitVec.ofNat 96 (w % 2 ^ nbits)) with
  | .ok i => some i
  | .error _ => none

end Sys2Proof
end

