-- ==== Sys2Proof/Machine/State.lean ====
section
/-! DEFINITION. The state of the whole device as plain data: cores and resident teams, memory with its check marks, the
copy, matrix, beam, ray, texture and join engines, launches and counters, contexts, the BAR0 registers, and what
Binnacle and the board hold. Tables are sparse lists in rising key order; a key that is not listed holds the value named
at the table. `State.reset` is the device right after power-on, before Binnacle's start-up has run. -/

namespace Sys2Proof.Machine

/-! ### Lanes and groups -/

/-- The state of a line entry of a lane (R26 to R30). `transfer`: made by a non-sequential transfer, so a repetition
checks TGT. -/
inductive Entry where
  /-- no entry in progress: the first instruction of the entry has issued -/
  | none
  /-- the checks of R26 steps 1 to 4 are still to be made -/
  | fresh (transfer : Bool)
  /-- steps 1 to 4 have passed; the WAIT flags have not -/
  | waiting (transfer : Bool)
  /-- WAIT has passed; the first instruction has not issued -/
  | passed (transfer : Bool)
  deriving DecidableEq, Repr

/-- Why a lane is parked (R125), with the arithmetic cycle at which the wait began. -/
inductive Park where
  | conv
  /-- at barrier i; `again`: an arrival that waits for the completion before it can count (R157) -/
  | bar (i : Nat) (again : Bool)
  | fullEmpty
  | post
  | wait
  | traversal
  deriving DecidableEq, Repr

/-- One non-exited lane (R13, R122). -/
structure Lane where
  idx : Nat
  pc : Dword
  /-- mapped v-registers; a name that is not listed is unmapped and reads 0 (R15) -/
  v : NMap Word := []
  /-- p0 to p6 -/
  preds : BitVec 7 := 0
  /-- on-chip return entries, newest first, at most four (R18) -/
  rstack : List Dword := []
  /-- spilled return entries (R84) -/
  spilled : Nat := 0
  /-- REP iteration counter (R90) -/
  rep : Nat := 0
  /-- the count that the REP in progress read at its first issue; lost at a save (R92) -/
  repN : Option Nat := .none
  helper : Bool := false
  /-- the wait count W of R128 -/
  w : Nat := 0
  entry : Entry := .fresh false
  /-- the content of the lane's line, which its entry fetched; the lane issues from it until it leaves the line (R24, R27) -/
  line : Option (BitVec 512) := .none
  park : Option (Park × Nat) := .none
  /-- trap cause kept for the frame (R418) -/
  cause : Nat := 0
  deriving DecidableEq, Repr

/-- The place of one piece of an access: its physical address, its memory type and whether the page is poisoned. -/
structure Place where
  pa : Nat
  mt : Nat
  poi : Bool
  deriving DecidableEq, Repr

/-- Where an access goes: pieces of global memory with their lengths and virtual addresses, or scratch bytes by key. -/
inductive Loc where
  | mem (ps : List (Place × Nat × Dword))
  | scr (key n : Nat)
  deriving DecidableEq, Repr

/-- The key of a feedback record (R390). -/
structure FbKey where
  rid : Word
  level : Nat
  tx : Nat
  ty : Nat
  layer : Nat
  deriving DecidableEq, Repr

/-- What a lookup makes of its texels: a weighted sum of each component, one component of each texel, the texel's own bytes (LODLD), or
words that are settled already. -/
inductive LookOut where
  | rgba
  | gather (comp : Nat)
  | raw (w : Width)
  | fixed (v : Nat)
  deriving DecidableEq, Repr

/-- A lookup whose checks are made and whose texels are still to be read (R389, R393): the format, the border's components, its taps
with their weights (true: a texel, the next of the place; false: the border), the words after its colours, the value that it
delivers when a texel is poisoned, and the feedback that it makes otherwise (R390). -/
structure Look where
  out : LookOut
  fmt : Nat := 0
  border : List Nat := []
  taps : List (Rat × Bool) := []
  tail : List Nat := []
  sick : Nat := 0
  feed : Option (Nat × FbKey) := .none
  deriving DecidableEq, Repr

/-- The access of one lane that has issued, with its checks made, and is still to be performed (R235, R236): the instruction,
its place, and the values of its X and D operands. Of a PORTCFG: its configuration and port word as X, its ring base as D. -/
structure Late where
  instr : Instr
  lane : Nat
  loc : Loc
  x : Nat := 0
  d : Nat := 0
  /-- the first register that its value goes to, and how many bytes it accesses -/
  reg : Nat := 0
  bytes : Nat := 0
  /-- which 8-byte half of a b128 access it is (R235) -/
  part : Nat := 0
  /-- of a strong access: what happened before its issue, itself included (R238, R243) -/
  was : Option (NMap Nat) := .none
  /-- of a lookup: what it makes of the texels at its place -/
  look : Option Look := .none
  deriving DecidableEq, Repr

/-- A long-latency result that is not yet delivered: register words, predicates, and the flag to lower (R34, R35). -/
structure Pending where
  regs : List (Nat × Nat × Word)
  preds : List (Nat × Nat × Bool)
  flag : Option Nat
  /-- the engine operation that will give the registers their values (the listed words stand for nothing yet) -/
  owner : Option Nat := .none
  /-- the packet that the results belong to, when it is served in parts: its flag falls with the last of them (R35); 0: they
  are a packet's only ones -/
  pkt : Nat := 0
  /-- the access that is performed when the result comes (the listed words stand for nothing yet) -/
  late : Option Late := .none
  /-- the lanes of the packet that were not active: they read the named registers after every lane's result (R125) -/
  idle : List Nat := []
  /-- the bytes that the packet's stores cover together: pieces of memory or of scratch (R120) -/
  cover : List (Nat × Nat) := []
  /-- the order of issue, the residency-map lines that the result's lookups have read, and the lines that a CCTL.map drops:
  it completes after every earlier lookup of them (R275) -/
  seq : Nat := 0
  mapRead : List Nat := []
  mapDrop : List Nat := []
  /-- the lanes that receive their results together; a lane in none of the lists receives its result by itself (R399) -/
  sets : List (List Nat) := []
  deriving DecidableEq, Repr

/-- The packet that an instruction issues for (R126), with the line word's flags (R25). -/
structure Issue where
  uid : Nat
  grp : Nat
  pc : Dword
  lanes : List Nat
  /-- the runnable lanes outside the packet, whose W grows (R128) -/
  others : List Nat := []
  fa : BitVec 4 := 15
  fb : BitVec 4 := 15
  /-- the slots of the line from this one on, for REP -/
  next : Option (BitVec 96) := none
  /-- the governing REP: its PC and whether it is one (R90) -/
  rep : Option Dword := none
  /-- the v-name that the REP's kill bit unmaps after the last iteration (R91) -/
  repKill : List Nat := []
  deriving DecidableEq, Repr

/-- Lanes of one packet that wait on full/empty bits (R221): the packet, its instruction, per lane its scratch key and
store data, and the flag that falls when the last of them is served. -/
structure FeWait where
  iss : Issue
  instr : Instr
  lanes : List (Nat × Nat × Nat)
  flag : Option Nat
  /-- the packet's number, for the results of its parts -/
  pkt : Nat := 0
  deriving DecidableEq, Repr

/-- A wait of a group's instruction for register capacity (R137): its rank among all waits, the instruction's place (a PC
and a REP counter), the capacity that it needs, and the capacity that a served wait holds until its instruction issues. -/
structure ClaimWait where
  rank : Nat
  place : Dword × Nat
  need : Nat
  grant : Nat := 0
  deriving DecidableEq, Repr

/-- A compander table (R167). -/
structure Compander where
  kind : CmpKind := .lin
  words : List Word := []
  deriving DecidableEq, Repr

/-- An older content of a compander table, which a group may see until it acquires a release that the issuing group made
after the CMPLD: the table, its content, and the threads of that group with the regions that they were in (R179). -/
structure OldTable where
  tbl : Nat
  old : Compander
  after : List (Nat × Nat)
  /-- the group has issued the CMPLD itself: only its matrix passes may still see the content -/
  passes : Bool := false
  deriving DecidableEq, Repr

/-- One group of a resident, saved or ended team (R122). -/
structure Group where
  idx : Nat
  role : Nat := 0
  core : Nat := 0
  quad : Nat := 0
  slot : Nat := 0
  /-- s0 to s63; a register that is not listed holds 0 -/
  s : NMap Word := []
  /-- f0 to f11; a flag that is not listed is 0 (R35) -/
  flags : NMap Nat := []
  fpst : BitVec 5 := 0
  cmpsel : BitVec 3 := 0
  floor : Nat := 1
  /-- the non-exited lanes in rising order -/
  lanes : List Lane := []
  inflight : List Pending := []
  fes : List FeWait := []
  /-- lanes that were active in a YIELD that was the group's last issue (R155) -/
  yielded : List Nat := []
  /-- the PC and the lanes of the group's last issue (R31) -/
  lastPc : Dword := 0
  lastLanes : List Nat := []
  /-- the waits for register capacity, in the order of their beginning (R137) -/
  waits : List ClaimWait := []
  /-- older values of the context's `keys` that may still apply to the group (R228) -/
  keyOlds : List Dword := []
  /-- the group has exited in a unit that was terminated or killed, which keeps its places until it is COMPLETE (R196) -/
  held : Bool := false
  /-- older contents of compander tables that the group may still see (R179) -/
  tabOlds : List OldTable := []
  deriving DecidableEq, Repr

/-! ### Launches, units and counters -/

/-- The launch card of R181. -/
structure Card where
  entry : Dword := 0
  argBase : Dword := 0
  argStride : Word := 0
  argCount : Nat := 0
  chunkMin : Nat := 1
  chunkDiv : Nat := 1
  groups : Nat := 1
  regPeak : Nat := 1
  regFloor : Nat := 1
  scratch : Nat := 0
  scrCols : BitVec 4 := 0
  beamRec : Nat := 0
  helperMode : Nat := 0
  roles : List Nat := [0, 0, 0]
  producer : Nat := 0
  client : Nat := 0
  prio : Nat := 0
  stackMask : BitVec 4 := 1
  parent : Option Nat := .none
  donePort : Nat := 0xFFFF
  doneDev : Nat := 0
  recTab : Dword := 0
  decl : List Nat := []
  rsBase : Dword := 0
  rsSize : Word := 0
  rsTeams : Word := 0
  lBase : Dword := 0
  lSize : Word := 0
  lTeams : Word := 0
  keys : Dword := 0
  deriving DecidableEq, Repr

inductive LaunchState where
  | waitOp | ready | running | cancelling
  deriving DecidableEq, Repr

/-- A launch table entry (R195). -/
structure Launch where
  id : Nat
  ctx : Nat
  card : Card
  state : LaunchState
  /-- per stack: next record and end of the range still undealt (R187) -/
  ranges : NMap (Nat × Nat) := []
  /-- the order in which the launch became ready (R190) -/
  readySeq : Nat := 0
  /-- per stack: the service cycle since which the launch has been passed over, and whether it is blocking (R190) -/
  passed : NMap (Nat × Bool) := []
  cancelled : Bool := false
  terminated : Bool := false
  /-- messages that a firing START pattern placed (R331) -/
  msgs : List Dword := []
  /-- the declared-operand walk is still to be made (R194) -/
  walkDue : Bool := false
  /-- HANDLE of the WAITOP record, when one waits for RESUME -/
  handle : Nat := 0
  deriving DecidableEq, Repr

inductive CntState where
  | idle | opened | sealed | cancelling
  deriving DecidableEq, Repr

/-- A completion counter (R184). -/
structure Counter where
  state : CntState := .idle
  owner : Nat := 0
  level : Nat := 0
  pending : Nat := 0
  /-- 0 DONE, 1 TERMINATED, 2 CANCELLED -/
  status : Nat := 0
  parent : Option Nat := .none
  donePort : Nat := 0xFFFF
  doneDev : Nat := 0
  deriving DecidableEq, Repr

/-- A barrier of a team (R156). -/
structure Barrier where
  gen : Nat := 0
  arr : Nat := 0
  cnt : Nat := 0
  /-- the groups with PEND = 1 -/
  pend : List Nat := []
  deriving DecidableEq, Repr

/-- The scratch windows of a team (R210, R211). Keys are COL x 2^23 + OFF for bytes; lines and sectors are numbered by
that key divided by 128 and 32. A byte that is not listed reads 0. -/
structure Scratch where
  bytes : List Host.Cell := []
  emptyLines : List Nat := []
  poison : List Nat := []
  /-- sectors whose check value is neither right nor the poison form (R230): the stored value XOR the right one -/
  flaw : NMap Nat := []
  /-- 8-byte units that an invariant load has read, with the values that later writes took out of them (R249) -/
  invs : List (Nat × List Nat) := []
  deriving DecidableEq, Repr

/-- A claimed operand slot (R298), or, with only its first two fields used, an accumulator slot (R299). Operand bytes
0 to 16383 are the element area and 16384 to 20479 the side area. -/
structure Slot where
  bytes : List Host.Cell := []
  poison : List Nat := []
  /-- sectors whose check value is neither right nor the poison form (R230, R299): the stored value XOR the right one -/
  flaw : NMap Nat := []
  fmt : SlotFmt := .sx7
  tbl : Nat := 0
  sp : Bool := false
  seed : Word := 0
  /-- the claim that the slot belongs to: a number of its own -/
  gid : Nat := 0
  deriving DecidableEq, Repr

/-- The kinds of a matrix entry (R313), with what the entry took at issue (R311). `read`: the destination's first register,
if it is no `zero`, the lanes that receive elements, and, once granted, the values. -/
inductive MatKind where
  | mma (sparse : Bool) (aslot bslot acc : Nat) (fmt : SlotFmt) (tblA tblB tblB2 : Nat) (seed : Word)
      (scaleA scaleB : List Byte)
  | zero (acc : Nat)
  | read (acc band : Nat) (d : Option Nat) (lanes : List Nat) (vals : List (Nat × Nat × Word))
  | write (acc band : Nat) (vals : List (Nat × Nat × Word))
  deriving DecidableEq, Repr

/-- An entry of a cluster's reservation table (R313), waiting or granted. -/
structure MatEntry where
  id : Nat
  uid : Nat
  grp : Nat
  lane : Nat
  pc : Dword
  flag : Option Nat
  kind : MatKind
  /-- service cycle at which the entry was posted (R314) -/
  posted : Nat
  granted : Bool := false
  aged : Bool := false
  /-- array cycles still to run (R316) -/
  left : Nat := 0
  deriving DecidableEq, Repr

/-- The governor of a cluster's matrix engine (R316): array-active cycles of the window, its allowance, its number, the
stalls counted, whether the window has stalled, whether STALLS has grown in it, and the engine cycle up to which its passes are
accounted. -/
structure Gov where
  u : Nat := 0
  e : Nat := 64
  win : Nat := 0
  stalls : Nat := 0
  stalled : Bool := false
  grew : Bool := false
  mark : Nat := 0
  deriving DecidableEq, Repr

/-- A point or vector of space. -/
structure V3 where
  x : Rat
  y : Rat
  z : Rat
  deriving DecidableEq, Repr

/-- A line of R350. -/
structure BLine where
  a : Int
  b : Int
  c : Int
  deriving DecidableEq, Repr

/-- A point of the measure plane, in 1/256 pixel. -/
abbrev Pt := Rat × Rat

/-- A world-to-object transform: three rows with their offsets. -/
structure Xform where
  r0 : V3
  r1 : V3
  r2 : V3
  t : V3
  deriving DecidableEq, Repr

/-- R357: the key plane of a snapped triangle, each coefficient rounded to binary32. -/
structure KPlane where
  a : Nat
  b : Nat
  c : Nat
  deriving DecidableEq, Repr

/-- A triangle that a cell may have as its nearest. -/
structure Near where
  prim : Nat
  inst : Nat
  plane : KPlane
  deriving DecidableEq, Repr

/-- A cell (R355). -/
structure BCell where
  poly : List Pt
  lines : List BLine
  near : Option Near
  deriving DecidableEq, Repr

/-- A candidate of samples (R359). -/
inductive Cand where
  | snapped (e0 e1 e2 : BLine) (n : Near)
  | tri (v0 v1 v2 : V3) (prim inst : Nat)
  | box (lo hi : V3) (n : Option Xform) (prim inst : Nat)
  deriving DecidableEq, Repr

/-- A trace's geometry: its cells, its candidates, its ray pixels, and the pool records that are free. -/
structure BWork where
  cells : List BCell := []
  cands : List Cand := []
  ray : List (Nat × Nat) := []
  free : Nat := 0
  deriving DecidableEq, Repr

/-- A node that a walk has still to visit (R353): its type, the triangles of a leaf, its address, the instance that it lies below
with its id, and how many nodes its path may still take. -/
structure BTask where
  ty : Nat
  cnt : Nat
  va : Nat
  n : Option Xform
  inst : Nat
  depth : Nat
  deriving DecidableEq, Repr

/-- A beam trace in progress (R362 to R370). -/
structure Trace where
  id : Nat
  uid : Nat
  grp : Nat
  lane : Nat
  pc : Dword
  d : Option Nat
  flag : Option Nat
  /-- the packet that issued it: the flag falls with the last operation of a packet -/
  pkt : Nat
  recIdx : Nat
  ring : Nat
  n : Nat
  mask : Nat
  keys : Dword
  /-- ring lines written so far -/
  lines : Nat := 0
  /-- the walk, once begun: the geometry so far and the nodes still to be visited (R368, R370) -/
  walk : Option (BWork × List BTask) := .none
  /-- the records of the team's pool that its cells hold (R355) -/
  held : List Nat := []
  /-- fragments computed and not yet written, once the scene walk has ended -/
  out : Option (List (BitVec 128)) := .none
  /-- service cycle at which the trace began to wait for its next ring line -/
  waitSince : Nat := 0
  parked : Option Nat := .none
  ended : Bool := false
  deriving DecidableEq, Repr

/-- A record of a team's beam pool (R213, R346): its image, or one of the pool's free records. -/
structure BeamRec where
  image : Bytes
  traced : Bool := false
  /-- freed by BFREE while its trace runs (R367) -/
  freed : Bool := false
  deriving DecidableEq, Repr

/-- What a traversal holds between two nodes, as R378 lays it out: the world ray and the object ray (origin, TMIN, direction,
TMAX as binary32 patterns), the committed hit (t, b1, b2, primitive id, INST word, FLAGS), the root address, the candidate,
INSTREF, DROPPED, INACT and the node entries, oldest first. -/
structure RayState where
  world : List Nat
  object : List Nat
  com : List Nat
  root : Nat
  cand : List Nat
  instref : Nat := 0
  dropped : Bool := false
  inact : Bool := false
  stack : List Nat
  deriving DecidableEq, Repr

/-- A ray traversal in progress (R373 to R381). -/
structure Traversal where
  id : Nat
  uid : Nat
  grp : Nat
  lane : Nat
  pc : Dword
  d : Option Nat
  flag : Option Nat
  /-- the packet that issued it -/
  pkt : Nat
  area : Nat
  ray : RayState
  keys : Dword
  /-- RST of the status word (R377) -/
  rst : Bool := false
  /-- the status with which the traversal ends before its next node (R374, R379) -/
  early : Option Nat := .none
  /-- the state area is to be read again: the team was saved or parked (R380, R381) -/
  reload : Bool := false
  parked : Bool := false
  deriving DecidableEq, Repr

inductive UnitState where
  | running | saving | parked | saved | exited | complete
  deriving DecidableEq, Repr

/-- Why a frame is made (R424). -/
inductive Reason where
  | trap | traversal | forced | drain
  deriving DecidableEq, Repr

/-- The frame of a saved team (R424): its place in the pool, its size and its state byte as the device holds them. -/
structure Frame where
  handle : Nat
  va : Dword
  size : Nat
  /-- the 64 KiB units that the frame has been given (R425) -/
  units : Nat := 1
  reason : Reason
  /-- FSTATE: 1 SAVING, 2 PARKED, 3 READY, 4 RESTORING, 5 DISCARDED -/
  fstate : Nat := 1
  /-- the order in which saves began (R440) -/
  seq : Nat := 0
  /-- RESUME came while SAVING (R428) -/
  resumed : Bool := false
  /-- the forwarding entry that the save made for the team's copies (R436, R437) -/
  entry : Option Nat := .none
  deriving DecidableEq, Repr

/-- One unit with its team (R134, R196). -/
structure Team where
  uid : Nat
  ctx : Nat
  launch : Nat
  /-- team instance id (R82) -/
  team : Nat
  card : Card
  state : UnitState := .running
  stack : Nat := 0
  cluster : Nat := 0
  /-- the k cores of the team, as core numbers of R93, in rising order -/
  cores : List Nat := [0]
  first : Nat := 0
  count : Nat := 1
  argp : Dword := 0
  cancelBit : Bool := false
  /-- every lane exits at its next issue (R196, R419) -/
  kill : Bool := false
  terminated : Bool := false
  groups : List Group := []
  /-- VALID tensor records (R279) -/
  recs : NMap Bytes := []
  bars : NMap Barrier := []
  ops : NMap Slot := []
  accs : NMap Slot := []
  /-- slots released while entries or copies still use them: (accumulator?, team slot number, users, slot) (R302) -/
  zombies : List (Bool × Nat × List Nat × Slot) := []
  scr : Scratch := {}
  /-- credit C per core position x 4 + quadrant (R161) -/
  credit : NMap Nat := []
  beams : NMap BeamRec := []
  /-- the check marks of the pool's sectors (R213, R230), by 8 x record + sector: those of the poison form, and for the others that
  are not right the stored value XOR the right one -/
  poolPoison : List Nat := []
  poolFlaw : NMap Nat := []
  frame : Option Frame := .none
  /-- order of admission; restores count (R139) -/
  admitSeq : Nat := 0
  deriving DecidableEq, Repr

/-! ### Copy and collective engines -/

inductive CmdKind where
  | cpy (k : CpyKind) (tr : Nat) (side : Bool) (c : List Int) (dst : Nat)
  | cpys (k : CpyKind) (tr : Nat) (side : Bool) (c : List Int) (src : Nat)
  | cpyg (k : CpyKind) (list n dst : Nat)
  | fillScr (pat : Word) (bytes dst : Nat)
  | fillMem (c : List Int)
  | coll (op : CollOp) (ty : FoldTy) (desc : Bytes)
  deriving DecidableEq, Repr

inductive CmdState where
  | queued | parked | collWait | ended
  deriving DecidableEq, Repr

/-- A copy, fill or collective command (R283 to R296). -/
structure Cmd where
  id : Nat
  uid : Nat
  grp : Nat
  lane : Nat
  pc : Dword
  core : Nat
  kind : CmdKind
  desc : Bytes := []
  flag : Option Nat := .none
  port : Option Nat := .none
  tag : Word := 0
  keys : Dword := 0
  state : CmdState := .queued
  /-- the engine has started the command (R293) -/
  started : Bool := false
  /-- destination lines (scratch) or pieces already moved -/
  done : List Nat := []
  /-- how many pages of the memory side have been walked ahead (R295) -/
  ahead : Nat := 0
  status : BitVec 7 := 0
  /-- HANDLE of the record, while parked (R295) -/
  handle : Nat := 0
  /-- service cycle at which a collective was handed over (R289) -/
  since : Nat := 0
  /-- the forwarding entries that cover the command (R436) -/
  forwarded : List Nat := []
  /-- what the command still has to read of its team's scratch or slot, taken when the team was saved: bytes, each with its
  poison (R436). Of a collective whose other participants lie on other devices: what its source held when the collective
  started (R288) -/
  cap : Option (List (Byte × Bool)) := .none
  /-- collective: what this participant's destination receives, bytes with their poison, once the collective has started
  (R288) -/
  result : Option (List (Byte × Bool)) := .none
  deriving DecidableEq, Repr

/-- A participant of a collective on another device (R288): announced when it has reached its engine; its source follows once
the collective has started. -/
structure RemoteColl where
  ctx : Nat
  op : CollOp
  ty : FoldTy
  desc : Bytes
  data : Option (List (Byte × Bool))
  deriving DecidableEq, Repr

/-! ### Join units -/

inductive PortAct where
  | stall | spill | fault
  deriving DecidableEq, Repr

/-- A thread: a lane of a team, or an engine thread with the team and group that issued it (R237, R239). -/
inductive Tid where
  | lane (uid grp lane : Nat)
  | engine (id uid grp : Nat)
  deriving DecidableEq, Repr

/-- The clock of R238: for each thread, how much of it happens before. -/
abbrev Clock := NMap Nat

/-- A held message, with what its post released (R330), and when it arrived (R481). -/
structure Msg where
  val : Dword
  clk : Clock := []
  at_ : Nat := 0
  deriving DecidableEq, Repr

/-- The spill ring of a port (R323): base, log2 of its entries, index of the oldest entry, and the messages' clocks, each with
whether it is the notice of a fault record (R325); the message words themselves stand in memory. -/
structure Ring where
  base : Dword
  logN : Nat
  head : Nat := 0
  clks : List (Clock × Bool) := []
  deriving DecidableEq, Repr

/-- A non-stalling post on its way to a port (R324). -/
structure PostReq where
  ctx : Nat
  port : Nat
  val : Dword
  clk : Clock := []
  /-- the post of a fault record: it may use the reserve, and a drop counts in LOST (R325) -/
  fault : Bool := false
  /-- the engine thread whose completion the message shows: its region closes with the arrival (R244) -/
  ends : Option Tid := .none
  /-- the launch named in the PORTOVF record of a dropped post (R417) -/
  launch : Nat := 0
  deriving DecidableEq, Repr

/-- An OPEN port (R321). -/
structure Port where
  depth : Nat
  act : PortAct := .stall
  hvis : Bool := false
  ring : Option Ring := .none
  msgs : List Msg := []
  /-- LAST(p) of R329, as the number of list places before the next search start -/
  last : Nat := 0
  /-- the patterns that name the port, in installation order -/
  pats : List Nat := []
  deriving DecidableEq, Repr

inductive PatKind where
  | start (card : Card)
  | wake (uid grp : Nat)
  deriving DecidableEq, Repr

/-- An installed pattern (R326). -/
structure Pattern where
  id : Nat
  ctx : Nat
  stack : Nat
  num : Nat
  ports : List Nat
  prio : Nat
  rpt : Bool
  kind : PatKind
  spilled : Bool := false
  deriving DecidableEq, Repr

/-! ### Caches -/

/-- A valid sector in a core's L1 (R217). `old`: an acquire has invalidated it, and only invariant loads may still be served
from it (R257, R258). `ext`: the bytes that the host or a peer has written at home since (R248). `flaw`: its check value XOR the
right one; 0xFFFF is the poison form, and any other value but 0 fails the check (R230, R231). -/
structure L1Copy where
  bytes : Bytes
  old : Bool := false
  ext : List Nat := []
  flaw : Nat := 0
  deriving DecidableEq, Repr

/-- An 8-byte unit of memory (PA / 8) that an invariant load of a launch has read, with the values that later writes took out
of it (R249). -/
structure InvUnit where
  launch : Nat
  unit : Nat
  olds : List Nat := []
  deriving DecidableEq, Repr

/-- A cached page-table entry (R227): the cache that holds it, its context, its level, the virtual page that it
translates (VA >> (12 + 9 * level)), and the entry. -/
structure TlbE where
  user : Nat
  ctx : Nat
  level : Nat
  tag : Nat
  leaf : Bool
  ent : Dword
  deriving DecidableEq, Repr

/-! ### Race detection (R243 to R247) -/

/-- A word that detection covers (R248): an aligned 4-byte word of this device's memory, of a team's scratch, or of a
team's slot. -/
inductive RWord where
  | mem (w : Nat)
  | scr (uid w : Nat)
  /-- the words lo to hi - 1 of a claimed slot -/
  | slot (gid lo hi : Nat)
  deriving DecidableEq, Repr

/-- The groups inside a scope at a moment; none stands for every thread of the device. -/
abbrev Holds := Option (List (Nat × Nat))

/-- A remembered access. `strong` holds the placement of a strong access's scope. -/
structure Acc where
  word : RWord
  tid : Tid
  num : Nat
  region : Nat
  write : Bool
  strong : Option Holds
  deriving DecidableEq, Repr

/-- What a release left in a byte (R238): the byte's place (word and byte number), who released, its scope, its clock. -/
structure Rel where
  word : RWord
  byte : Nat
  tid : Tid
  holds : Holds
  clk : Clock
  deriving DecidableEq, Repr

/-- The thread numbers, clocks and regions of every thread that has made an access. -/
structure Thread where
  tid : Tid
  num : Nat
  region : Nat := 1
  clk : Clock := []
  /-- boundaries performed, newest first for one scope: the threads held and the region that the boundary ended -/
  bounds : List (Holds × Nat) := []
  deriving DecidableEq, Repr

structure Race where
  threads : List Thread := []
  nextNum : Nat := 1
  log : List Acc := []
  rels : List Rel := []
  /-- clocks of scratch-line operations by (uid, line) (R238), barriers by (uid, barrier), flags by (uid, grp, flag),
  launches by id, counters by index, resumes by handle -/
  lineClk : List ((Nat × Nat) × Clock) := []
  /-- the engine threads whose arrivals set a scratch line's full bit, by (uid, line), until it is next cleared (R240) -/
  lineEng : List ((Nat × Nat) × Tid) := []
  /-- engine threads that have ended under a flag that other operations still hold up, by (uid, grp, flag) (R244) -/
  ended : List ((Nat × Nat × Nat) × Tid) := []
  barClk : List ((Nat × Nat) × Clock) := []
  flagClk : List ((Nat × Nat × Nat) × Clock) := []
  launchClk : NMap Clock := []
  /-- by launch id: what has happened in the threads and engines of its units that have ended (R185, R239) -/
  doneClk : NMap Clock := []
  cntClk : NMap Clock := []
  deriving DecidableEq, Repr

/-! ### Contexts and BAR0 -/

/-- A live context (R416, R454). DISPMASK, PARKLIM and IRQV are read from the descriptor in memory when they are used. -/
structure Context where
  desc : Nat
  root : Nat
  frBase : Dword
  fpBase : Dword
  psBase : Dword
  fpSize : Nat
  psSize : Nat
  faultPort : Nat
  fpDepth : Nat
  frLog2n : Nat
  lost : Nat := 0
  seq : Nat := 0
  /-- what the device has acquired at the fault ring's CONS (R416) -/
  ringClk : Clock := []
  /-- the 64-bit `keys` (R93) -/
  keys : Dword := 0
  tables : NMap Compander := []
  /-- older contents of the tables, which a group that starts may still see (R179) -/
  tabOlds : List OldTable := []
  deriving DecidableEq, Repr

/-- A client channel (R191, R430). -/
structure Channel where
  rt : Bool := false
  prioCap : Nat := 7
  rsvMask : NMap Word := []
  /-- 1 after a GO that no REL has followed (R430, R432) -/
  pre : Nat := 0
  drainLim : Nat := 0x1000
  /-- per stack that GO has reached: the service cycle of its arrival -/
  arrived : NMap Nat := []
  /-- stacks whose limit has passed -/
  saving : List Nat := []
  deriving DecidableEq, Repr

/-- A display head (R465). -/
structure Head where
  en : Bool := false
  err : Bool := false
  fmt : Nat := 0
  rate : Nat := 0
  lanes : Nat := 2
  base : Nat := 0
  /-- the base that scan-out uses until the next vertical blank (R464) -/
  active : Nat := 0
  pitch : Word := 0
  hact : Word := 0
  htot : Word := 0
  hsync : Word := 0
  vsync : Word := 0
  pclk : Word := 0
  link : Bool := false
  flip : Bool := false
  under : Bool := false
  poisonPx : Nat := 0
  deriving DecidableEq, Repr

/-- A feedback ring (R391). -/
structure FbRing where
  en : Bool := false
  ctx : Nat := 0
  log2n : Nat := 6
  base : Dword := 0
  ovf : Bool := false
  drops : Nat := 0
  /-- what the device has acquired at CONS -/
  clk : Clock := []
  deriving DecidableEq, Repr

/-- A residency-map line in the cache of a core's texture units: PA / 128, the service cycle of its fill, its bytes (R389). -/
structure MapLine where
  core : Nat
  line : Nat
  since : Nat
  bytes : Bytes
  deriving DecidableEq, Repr

/-- A sounding unit (R480). -/
structure Sounding where
  src : Nat := 0
  sel : Nat := 0
  shift : Nat := 0
  run : Bool := false
  lo : Word := 0
  smin : Word := 0x7FFFFFFF
  smax : Word := 0x80000000
  count : Nat := 0
  bins : NMap Nat := []
  deriving DecidableEq, Repr

/-- The BAR0 registers that are not kept with their owners (R452, R453, R466). -/
structure Bar0 where
  scr : Nat := 12
  beam : Nat := 4
  vsBusy : Bool := false
  vsErr : Bool := false
  /-- a resize in progress: the new split (R209) -/
  vsPend : Option (Nat × Nat) := none
  govAllow : Nat := 256
  govErr : Bool := false
  noCtx : Nat := 0
  badSize : Nat := 0
  cxl : Bool := true
  linkWidth : Nat := 16
  linkRate : Nat := 64
  zdown : BitVec 8 := 0
  tlbiAddr : Dword := 0
  /-- the shoot-down in progress: kind, context, first page's address, pages (R229) -/
  tlbiOp : Option (Nat × Nat × Nat × Nat) := none
  tlbiKind : Nat := 0
  tlbiCtx : Nat := 0
  tlbiCount : Nat := 0
  resAddr : Dword := 0
  resKind : Nat := 0
  resCtx : Nat := 0
  resStat : Word := 0
  ctxBase : Dword := 0
  ctxOp : Nat := 0
  ctxCtx : Nat := 0
  ctxStatus : Nat := 0
  /-- the context of a destroy in progress (R455) -/
  ctxBusy : Option Nat := none
  devNum : Nat := 0
  peerMap : BitVec 8 := 0
  peerBase : NMap Dword := []
  bar4Win : Nat := 0
  /-- the size of BAR4 that the host has set in the Resizable BAR capability: 256 MiB x 2^n (R456, R457) -/
  bar4Step : Fin 10 := 0
  hdmSize : Nat := 0
  /-- the staged low words of 64-bit registers, by offset (R452) -/
  stage : NMap Word := []
  /-- V-F points by 16 * domain + point: MHz, mV, EN (R474) -/
  vf : NMap (Nat × Nat × Bool) := []
  vfErr : Bool := false
  /-- point in force per domain (R475) -/
  vfCur : NMap Nat := []
  pwrLim : Nat := 0
  /-- the former values of PWRLIM, each with the service cycle at which it ended (R476) -/
  pwrHist : List (Nat × Nat) := []
  throt : Bool := false
  therm : Bool := false
  /-- the thermal limit acts now (R477) -/
  hot : Bool := false
  droop : Bool := false
  /-- the supply is drooping now (R476) -/
  drooping : Bool := false
  pcap : Nat := 256
  power : Nat := 0
  /-- sensor values by number, once refreshed (R477) -/
  temps : NMap (BitVec 16) := []
  /-- error counters by BAR0 offset (R478) -/
  counters : NMap Nat := []
  deriving DecidableEq, Repr

/-- DEVSTAT (R468). -/
structure DevStat where
  ready : Bool := false
  fail : Bool := false
  code : Nat := 0
  stage : Nat := 0
  /-- the arithmetic cycle at which READY rose -/
  readyAt : Nat := 0
  /-- the service cycle at which READY rose (R450) -/
  readySvc : Nat := 0
  deriving DecidableEq, Repr

/-- What the board and the part give Binnacle (R467 to R474): inputs of the machine. -/
structure Board where
  firmware : Bytes := []
  firmwareSig : Bytes := []
  /-- the configuration record, 0x172 bytes (R470) -/
  record : Bytes := []
  puf : Nat := 0
  helper : Nat := 0
  identityOk : Bool := true
  pllOk : Bool := true
  zwilerOk : Bool := true
  gddrOk : Bool := true
  sramOk : Bool := true
  /-- the vendor id of the configuration space (R473) -/
  vendor : Nat := 0
  deriving DecidableEq, Repr

/-! ### The schedule -/

/-- What acts next: a quadrant's issue opportunity, an event of the opcode table, the device's freedom to drop or fetch a cached
copy, cycles that one counter counts apart from the others (R6), or nothing. -/
inductive Act where
  | issue (quad : Nat)
  | event (i : Instr)
  | dropL1 (core sector : Nat)
  | dropIc (core line : Nat)
  | dropTlb (k : Nat)
  | fillIc (core line : Nat)
  | dropMap (k : Nat)
  | runAhead (counter n : Nat)
  | runAheadSvc (stack n : Nat)
  /-- the accesses of the next packet of a load, store or atomic, the event of the next PORTCFG, or the handing over of the next
  COLL, come after its issue (R236, R289, R332; log entry 15) -/
  | putOff
  /-- the COLL that stands first in the copy queue of a core is handed to its engine (R289, R293) -/
  | handColl (core : Nat)
  /-- a copy engine walks the page tables ahead of a command, for the next page of it (R227, R295) -/
  | walkAhead (cmd : Nat)
  /-- a bit error changes the check value of a sector of memory, of a team's scratch, of a core's L1 copy, of a slot, or of a
  team's beam pool (R231) -/
  | upset (pa pattern : Nat)
  | upsetScr (uid sector pattern : Nat)
  | upsetL1 (core sector pattern : Nat)
  | upsetSlot (uid : Nat) (acc : Bool) (slot sector pattern : Nat)
  | upsetBeam (uid sector pattern : Nat)
  /-- a channel of a GDDR 7 device retrains (R478) -/
  | retrain (dev chan : Nat)
  /-- the host sets the size of BAR4 in the Resizable BAR capability: 256 MiB x 2^n (R456, R457) -/
  | resizeBar4 (n : Fin 10)
  /-- the host's caches write a line of host-managed memory back and hold it modified no longer (R459) -/
  | hostClean (line : Nat)
  /-- ECC corrects an error of a core: 0 in its vault column, 1 in its registers, 2 in its L1 (R231, R478) -/
  | corrected (core kind : Nat)
  /-- the host or a peer writes its own memory -/
  | ownStore (pa : Nat) (data : Bytes)
  /-- the host writes a line of host-managed memory that its own caches hold (R459) -/
  | hostCache (line : Nat) (data : Bytes)
  /-- the host reads a register of BAR0 (R452) -/
  | readReg (off size : Nat)
  /-- another device's participant of a collective announces itself (R288) -/
  | announce (c : RemoteColl)
  | idle
  deriving DecidableEq, Repr

/-- One move of the schedule: the arithmetic and service cycles that pass, then an act. -/
structure Move where
  arith : Nat := 1
  svc : Nat := 1
  act : Act
  deriving DecidableEq, Repr

/-- The paths of the device's requests to host memory (R458). -/
inductive HostPath where
  | cxlCache | cxlIo | pcie
  deriving DecidableEq, Repr

/-- What a request to host memory asks for: a read, a write, a PCIe AtomicOp, or a line to be held exclusively for an atomic (R268). -/
inductive HostOp where
  | read | write | fetchAdd | swap | cas | own
  deriving DecidableEq, Repr

/-- Is it an atomic's request? -/
def HostOp.atomic : HostOp → Bool
  | .read | .write => false
  | .fetchAdd | .swap | .cas | .own => true

/-- What leaves the device. -/
inductive Out where
  /-- an access to host memory (R456, R458) -/
  | hostReq (path : HostPath) (op : HostOp) (pa n : Nat)
  /-- data of a host or peer read; `poison`: with the poison indication (R232) -/
  | read (data : Bytes) (poison : Bool)
  | msix (vector : Nat)
  | remotePost (dev ctx port : Nat) (msg : Dword)
  /-- an answer of the DOE mailbox (R473) -/
  | doe (data : Bytes)
  /-- a pixel component word sent by a display head (R464) -/
  | pixel (head x y : Nat) (data : List Nat)
  /-- a participant of a collective is announced to the peers, and later its source is sent to them (R288) -/
  | collective (ctx : Nat) (op : CollOp) (ty : FoldTy) (desc : Bytes) (data : Option (List (Byte × Bool)))
  deriving DecidableEq, Repr

/-- The state of the device. -/
structure State where
  /-- the arithmetic and the service cycles that every counter of its clock has counted (R5) -/
  arith : Nat := 0
  svc : Nat := 0
  /-- what a counter has counted beyond them (R6): by core, and by 128 + cluster for matrix engines; by stack -/
  aheadArith : NMap Nat := []
  aheadSvc : NMap Nat := []
  /-- the moves that the outside and the device's freedoms have laid down; when none is left the default order runs -/
  agenda : List Move := []
  /-- the packet that the executing instruction acts for -/
  cur : Option Issue := none
  /-- the governed instruction that a REP has left to issue next (R90) -/
  repNext : Option (Issue × Instr) := none
  /-- steps taken in the default order, which takes the enabled acts in turn -/
  turn : Nat := 0
  /-- the number of choices and free values taken so far -/
  choices : Nat := 0
  /-- device and host memory by physical address (R214), and peers' memory by 2^64 + its fabric address (R461); a byte that is not
  listed reads 0 -/
  mem : List Host.Cell := []
  /-- poisoned sectors of memory (R230), by PA / 32 -/
  poison : List Nat := []
  /-- sectors whose check value is neither right nor the poison form (R230): the stored value XOR the right one -/
  flaw : NMap Nat := []
  /-- what the invariant loads of launches have read (R249) -/
  invs : List InvUnit := []
  /-- lines of host-managed memory (PA / 128) that the host's caches hold modified (R459) -/
  hostLines : NMap Bytes := []
  /-- the next load, store or atomic performs its accesses, or the next PORTCFG its event, after its issue (R236, R332) -/
  putOff : Bool := false
  units : List Team := []
  launches : List Launch := []
  counters : NMap Counter := []
  cmds : List Cmd := []
  /-- per cluster: the core, of its four, whose queue the copy engine takes next (R293) -/
  copyTurn : NMap Nat := []
  /-- participants of collectives on other devices (R288) -/
  remoteColl : List RemoteColl := []
  matrix : List MatEntry := []
  govs : NMap Gov := []
  traces : List Trace := []
  traversals : List Traversal := []
  /-- residency-map caches (R389) -/
  mapLines : List MapLine := []
  /-- feedback filters: per core the keys written, newest first (R390) -/
  filters : NMap (List FbKey) := []
  ports : NMap Port := []
  patterns : List Pattern := []
  /-- posts on their way, in the order of their making -/
  joinQ : List PostReq := []
  /-- forwarding entries in use (R437): cluster and number -/
  forwards : List (Nat × Nat) := []
  /-- L1 sectors by core * 2^64 + PA / 32 (R217) -/
  l1 : NMap L1Copy := []
  /-- instruction-cache lines by core * 2^64 + PA / 64 (R24) -/
  icache : NMap (BitVec 512) := []
  tlb : List TlbE := []
  /-- generator state per quadrant (R171); a quadrant that is not listed holds 1 -/
  seeds : NMap Word := []
  /-- slot of the last issue per quadrant (R130) -/
  lastSlot : NMap Nat := []
  /-- arithmetic cycle of the last issue per quadrant (R31, R130, R139) -/
  issuedAt : NMap Nat := []
  race : Race := {}
  ctxs : NMap Context := []
  chans : NMap Channel := []
  heads : NMap Head := []
  fbRings : NMap FbRing := []
  soundings : NMap Sounding := []
  dev : DevStat := {}
  bar0 : Bar0 := {}
  board : Board := {}
  /-- running numbers: units, launches, engine threads, handles, waits, patterns, readiness, saves -/
  nextUid : Nat := 1
  nextLaunch : Nat := 1
  nextId : Nat := 1
  /-- the contexts of the handles that the device has assigned (R417) -/
  handles : NMap Nat := []
  nextSeq : Nat := 1
  /-- what has left the device, newest first -/
  out : List Out := []
  deriving DecidableEq, Repr

/-- Why a step stops with a fault. -/
inductive Fault where
  /-- An instruction of the instruction set is executed while no packet issues: the model's own interface broken, which
  `step` never does. Safe. -/
  | noPacket
  deriving DecidableEq, Repr

/-- Why a step is refused. -/
inductive Refusal where
  /-- The instruction has no meaning in the model yet. Safe. -/
  | notModelled (mnemonic : String)
  deriving DecidableEq, Repr

/-- The answer of a meaning. -/
abbrev Answer := Host.Outcome State Fault Refusal

/-- The device right after power-on, before start-up (R467): every register at its reset value, READY = 0. -/
def State.reset : State := {}

end Sys2Proof.Machine
end

