-- ==== Sys2Proof/Machine/Sparse.lean ====
section
/-! DEFINITION. The operations on the sparse tables and byte memories that the state is made of. Each keeps the canonical
form: keys rise strictly, and no listed entry equals what an unlisted key reads as. -/

namespace Sys2Proof.Machine

/-! ### Tables -/

/-- The value of a key, when it is listed. -/
def tget {α : Type} (m : NMap α) (k : Nat) : Option α :=
  match m with
  | [] => none
  | (k', v) :: r => if k == k' then some v else tget r k

/-- The value of a key, or the table's value for unlisted keys. -/
def tgetD {α : Type} (m : NMap α) (k : Nat) (d : α) : α := (tget m k).getD d

/-- Lists a key with a value, in key order. -/
def tset {α : Type} (m : NMap α) (k : Nat) (v : α) : NMap α :=
  match m with
  | [] => [(k, v)]
  | (k', v') :: r => if k < k' then (k, v) :: (k', v') :: r else if k == k' then (k, v) :: r else (k', v') :: tset r k v

/-- Takes a key off the list. -/
def tdel {α : Type} (m : NMap α) (k : Nat) : NMap α :=
  match m with
  | [] => []
  | (k', v') :: r => if k == k' then tdel r k else (k', v') :: tdel r k

/-- Gives a key a value in a table whose unlisted keys hold d. -/
def tput {α : Type} [DecidableEq α] (m : NMap α) (k : Nat) (v d : α) : NMap α :=
  if v = d then tdel m k else tset m k v

/-! ### Byte memories -/

/-- The byte at an address; an unlisted address reads 0 (R467 step 4 for device memory, R211 for scratch; log entry 1). -/
def mread (m : List Host.Cell) (a : Nat) : Byte := tgetD m a 0

/-- Writes one byte. -/
def mwrite (m : List Host.Cell) (a : Nat) (b : Byte) : List Host.Cell := tput m a b 0

/-- The bytes a to a + n - 1, lowest first. -/
def mreadN (m : List Host.Cell) (a : Nat) : Nat → Bytes
  | 0 => []
  | n + 1 => mread m a :: mreadN m (a + 1) n

/-- Writes a byte string from an address up. -/
def mwriteN (m : List Host.Cell) (a : Nat) : Bytes → List Host.Cell
  | [] => m
  | b :: r => mwriteN (mwrite m a b) (a + 1) r

/-- Takes every listed byte of a range off the list, so that it reads 0. -/
def mclear (m : List Host.Cell) (lo n : Nat) : List Host.Cell := m.filter fun c => c.1 < lo || lo + n ≤ c.1

/-- The keys of a list rise strictly from a bound up, and no entry equals d. -/
def wfFrom {α : Type} [DecidableEq α] (d : α) (lo : Nat) : NMap α → Bool
  | [] => true
  | (k, v) :: r => decide (lo ≤ k) && decide (v ≠ d) && wfFrom d (k + 1) r

/-- The canonical form of a byte memory: addresses rise strictly and no entry is 0. -/
def memWf (m : List Host.Cell) : Bool := wfFrom (0 : Byte) 0 m

/-- The keys of a table rise strictly from a bound up. -/
def sortedFrom {α : Type} (lo : Nat) : NMap α → Bool
  | [] => true
  | (k, _) :: r => decide (lo ≤ k) && sortedFrom (k + 1) r

/-! ### Sets of numbers as rising lists -/

/-- Adds a number to a rising list. -/
def sins (l : List Nat) (n : Nat) : List Nat :=
  match l with
  | [] => [n]
  | h :: t => if n < h then n :: h :: t else if n == h then h :: t else h :: sins t n

/-- Removes a number. -/
def sdel (l : List Nat) (n : Nat) : List Nat := l.filter (· != n)

/-! ### Little-endian words (R4) -/

/-- The value of a byte string, least significant byte first. -/
def leNat : Bytes → Nat
  | [] => 0
  | b :: r => b.toNat + 256 * leNat r

/-- The n bytes of a value, least significant first. -/
def leBytes (v : Nat) : Nat → Bytes
  | 0 => []
  | n + 1 => BitVec.ofNat 8 v :: leBytes (v / 256) n

/-- n bytes of a byte string from an offset on, as a value; bytes beyond its end count as 0. -/
def leAt (b : Bytes) (off n : Nat) : Nat := leNat ((b.drop off).take n)

/-- Replaces the bytes of a byte string from an offset on. -/
def putAt (b : Bytes) (off : Nat) (v : Bytes) : Bytes := b.take off ++ v ++ b.drop (off + v.length)

def word (n : Nat) : Word := BitVec.ofNat 32 n
def dword (n : Nat) : Dword := BitVec.ofNat 64 n

/-- The two registers of a pair as one 64-bit value (R16). -/
def join64 (lo hi : Word) : Dword := hi ++ lo

def lo32 (d : Dword) : Word := d.setWidth 32
def hi32 (d : Dword) : Word := (d >>> 32).setWidth 32

/-- Bits hi down to lo of a natural number (R10). -/
def nbits (x hi lo : Nat) : Nat := x / 2 ^ lo % 2 ^ (hi + 1 - lo)

/-- R43: a canonical 64-bit address has bits 63:57 equal to bit 56. -/
def canonical (va : Dword) : Bool := va.toNat / 2 ^ 56 == 0 || va.toNat / 2 ^ 56 == 255

/-- The first n natural numbers from a start. -/
def rangeFrom (a : Nat) : Nat → List Nat
  | 0 => []
  | n + 1 => a :: rangeFrom (a + 1) n

/-- Applies an update to the first element that satisfies a test. -/
def updFirst {α : Type} (p : α → Bool) (f : α → α) : List α → List α
  | [] => []
  | h :: t => if p h then f h :: t else h :: updFirst p f t

/-- Ceiling division. -/
def cdiv (a b : Nat) : Nat := (a + b - 1) / b

end Sys2Proof.Machine
end

