-- ==== Sys2Proof/Machine/Look.lean ====
section
/-! DEFINITION. Where the parts of the state are found and how one of them is replaced: teams, groups, lanes, launches,
contexts, and the numbering of cores, quadrants and stacks (R93, R134, R448). -/

namespace Sys2Proof.Machine

/-- R469: the device is in service: start-up has completed and nothing has failed. -/
def State.up (s : State) : Bool := s.dev.ready && !s.dev.fail

def State.team? (s : State) (uid : Nat) : Option Team := s.units.find? (·.uid == uid)

def State.updTeam (s : State) (uid : Nat) (f : Team → Team) : State :=
  { s with units := updFirst (·.uid == uid) f s.units }

def Team.group? (t : Team) (g : Nat) : Option Group := t.groups.find? (·.idx == g)

def Team.updGroup (t : Team) (g : Nat) (f : Group → Group) : Team :=
  { t with groups := updFirst (·.idx == g) f t.groups }

def State.group? (s : State) (uid g : Nat) : Option Group := (s.team? uid).bind (·.group? g)

def State.updGroup (s : State) (uid g : Nat) (f : Group → Group) : State := s.updTeam uid (·.updGroup g f)

def Group.lane? (g : Group) (l : Nat) : Option Lane := g.lanes.find? (·.idx == l)

def Group.updLane (g : Group) (l : Nat) (f : Lane → Lane) : Group :=
  { g with lanes := updFirst (·.idx == l) f g.lanes }

/-- Applies an update to every lane of a group that stands in a list. -/
def Group.updLanes (g : Group) (ls : List Nat) (f : Lane → Lane) : Group :=
  { g with lanes := g.lanes.map fun l => if ls.contains l.idx then f l else l }

def State.lane? (s : State) (uid g l : Nat) : Option Lane := (s.group? uid g).bind (·.lane? l)

def State.updLane (s : State) (uid g l : Nat) (f : Lane → Lane) : State := s.updGroup uid g (·.updLane l f)

def State.launch? (s : State) (id : Nat) : Option Launch := s.launches.find? (·.id == id)

def State.updLaunch (s : State) (id : Nat) (f : Launch → Launch) : State :=
  { s with launches := updFirst (·.id == id) f s.launches }

def State.cmd? (s : State) (id : Nat) : Option Cmd := s.cmds.find? (·.id == id)

def State.updCmd (s : State) (id : Nat) (f : Cmd → Cmd) : State :=
  { s with cmds := updFirst (·.id == id) f s.cmds }

def State.ctx? (s : State) (c : Nat) : Option Context := tget s.ctxs c

def State.updCtx (s : State) (c : Nat) (f : Context → Context) : State :=
  match tget s.ctxs c with
  | some x => { s with ctxs := tset s.ctxs c (f x) }
  | none => s

/-- The `keys` of a context (R93). -/
def State.keysOf (s : State) (ctx : Nat) : Dword := ((s.ctx? ctx).map (·.keys)).getD 0

/-- A counter; one that is not listed is IDLE (R184). -/
def State.counter (s : State) (i : Nat) : Counter := tgetD s.counters i {}

def State.setCounter (s : State) (i : Nat) (c : Counter) : State := { s with counters := tput s.counters i c {} }

def State.chan (s : State) (c : Nat) : Channel := tgetD s.chans c {}

def State.setChan (s : State) (c : Nat) (x : Channel) : State := { s with chans := tput s.chans c x {} }

/-- The s-register of a group; an unlisted one holds 0 (R13). -/
def Group.sreg (g : Group) (n : Nat) : Word := tgetD g.s n 0

def Group.setSreg (g : Group) (n : Nat) (w : Word) : Group := { g with s := tput g.s n w 0 }

/-- The context of a unit. -/
def State.ctxOf (s : State) (uid : Nat) : Nat := ((s.team? uid).map (·.ctx)).getD 0

/-- The keys of cached copies: a core's own begin at its number times this. -/
def coreSpan : Nat := 2 ^ 64

/-- R93: the stack and the cluster of a core. -/
def stackOf (core : Nat) : Nat := core / 32
def clusterOf (core : Nat) : Nat := core / 4

/-- A quadrant's number in the device: 4 x core + quadrant. -/
def Group.quadNo (g : Group) : Nat := 4 * g.core + g.quad

/-- R171: the generator of a quadrant holds 1 after reset. -/
def State.seed (s : State) (q : Nat) : Word := tgetD s.seeds q 1

/-- R5, R6: the arithmetic cycles that a core's own counter has counted. No counter can be compared with another's. -/
def State.coreCyc (s : State) (core : Nat) : Nat := s.arith + tgetD s.aheadArith core 0

/-- The count of the core on which a group stands. -/
def State.grpCyc (s : State) (uid grp : Nat) : Nat := s.coreCyc (((s.group? uid grp).map (·.core)).getD 0)

/-- The same of a cluster's matrix engine. -/
def State.engineCyc (s : State) (cluster : Nat) : Nat := s.arith + tgetD s.aheadArith (128 + cluster) 0

/-- R5, R6: the service cycles that a stack's own counter has counted. -/
def State.stackCyc (s : State) (stack : Nat) : Nat := s.svc + tgetD s.aheadSvc stack 0

/-- The count of the stack on which a unit stands, or stood last. -/
def State.unitCyc (s : State) (uid : Nat) : Nat := s.stackCyc (((s.team? uid).map (·.stack)).getD 0)

/-- A team that holds its places: its groups may issue and its lanes have placements. -/
def Team.resident (t : Team) : Bool := t.state == .running || t.state == .saving || t.state == .exited

/-- The engine threads, matrix entries, traces and traversals that a team still has (R196). -/
def State.enginesOf (s : State) (uid : Nat) : Nat :=
  (s.cmds.filter fun c => c.uid == uid && c.state != .ended).length
    + (s.matrix.filter (·.uid == uid)).length
    + (s.traces.filter fun t => t.uid == uid && !t.ended).length
    + (s.traversals.filter (·.uid == uid)).length

/-- R275: has a team a CCTL.map that is still to complete? -/
def Team.dropsMaps (t : Team) : Bool := t.groups.any fun g => g.inflight.any fun q => !q.mapDrop.isEmpty

/-- R196: a unit whose groups have all exited, whose engine operations have all ended, and whose cache control is done (R275), is
COMPLETE: nothing of it is held any more. -/
def State.complete (s : State) (t : Team) : Bool := t.state == .exited && s.enginesOf t.uid == 0 && !t.dropsMaps

/-- Takes the units that are COMPLETE off the list. -/
def State.reap (s : State) : State := { s with units := s.units.filter fun t => !s.complete t }

end Sys2Proof.Machine
end

