-- ==== Sys2Proof/Machine/Sounding.lean ====
section
/-! DEFINITION. The sounding units of Binnacle: how a sample is taken (R480 to R482). -/

namespace Sys2Proof.Machine

def State.sounding (s : State) (u : Nat) : Sounding := tgetD s.soundings u {}

def State.setSounding (s : State) (u : Nat) (x : Sounding) : State := { s with soundings := tput s.soundings u x {} }

/-- R481: the bin of a sample. -/
def Sounding.binOf (u : Sounding) (x : Int) : Nat := min ((x - u.lo.toInt) / 2 ^ u.shift).toNat 15

/-- R481: n equal samples, one after the other. -/
def Sounding.sample (u : Sounding) (x : Int) (n : Nat := 1) : Sounding :=
  let b := u.binOf x
  { u with
    smin := if x < u.smin.toInt then BitVec.ofInt 32 x else u.smin
    smax := if x > u.smax.toInt then BitVec.ofInt 32 x else u.smax
    count := min 0xFFFFFFFF (u.count + n)
    bins := tput u.bins b (min 0xFFFFFFFF (tgetD u.bins b 0 + n)) 0 }

/-- R481: every unit that samples a source takes the samples. -/
def State.sampleAll (s : State) (src sel : Nat) (x : Int) (n : Nat := 1) : State :=
  if n == 0 then s else
    (List.range 32).foldl (fun (s : State) u =>
      let k := s.sounding u
      if k.run && k.src == src && k.sel == sel then s.setSounding u (k.sample x n) else s) s

end Sys2Proof.Machine
end

