-- ==== Sys2Proof/Machine/Governor.lean ====
section
/-! DEFINITION. The issue-budget governor of a cluster's matrix engine (R316 to R318): its windows, their allowances, what the
granted entry runs in them, and the windows that stall. -/

namespace Sys2Proof.Machine

/-- The slots that a matrix entry names: accumulator or not, and number. -/
def MatKind.names : MatKind → List (Bool × Nat)
  | .mma sp a b c .. => [(false, a), (false, b)] ++ (if sp then [(false, b + 1)] else []) ++ [(true, c)]
  | .zero c | .read c .. | .write c .. => [(true, c)]

/-- The engine counter of a cluster (R316). -/
def State.matClock (s : State) (c : Nat) : Nat := s.engineCyc c - s.dev.readyAt

def State.gov (s : State) (c : Nat) : Gov := tgetD s.govs c {}

def State.setGov (s : State) (c : Nat) (g : Gov) : State := { s with govs := tput s.govs c g {} }

/-- R316: the allowance of the window after one with u array-active cycles. -/
def State.allowance (s : State) (u : Nat) : Nat := min (min s.bar0.govAllow s.bar0.pcap) (u + 64)

/-- The next window of a cluster (R316). -/
def State.nextWindow (s : State) (g : Gov) : Gov :=
  { g with u := 0, e := s.allowance g.u, win := g.win + 1, stalled := false, grew := false, mark := max g.mark (256 * (g.win + 1)) }

/-- R316: STALLS counts a window once; it stops at its greatest value. -/
def Gov.stall (g : Gov) : Gov :=
  if g.stalled then g
  else { g with stalled := true, grew := g.stalls < 0x7FFFFF, stalls := min 0x7FFFFF (g.stalls + 1) }

/-- The granted entry of a cluster. -/
def State.granted (s : State) (c : Nat) : Option MatEntry :=
  s.matrix.find? fun e => e.granted && (match s.team? e.uid with
    | some t => t.cluster == c
    | none => false)

def MatKind.isPass : MatKind → Bool
  | .mma .. => true
  | _ => false

def State.updEntry (s : State) (id : Nat) (f : MatEntry → MatEntry) : State :=
  { s with matrix := updFirst (·.id == id) f s.matrix }

/-- R314: may an entry be granted: no older entry of its team names one of its accumulators. -/
def State.eligible (s : State) (e : MatEntry) : Bool :=
  let accs := (e.kind.names.filter (·.1)).map (·.2)
  !(s.matrix.takeWhile (·.id != e.id)).any fun o =>
    o.uid == e.uid && o.kind.names.any fun n => n.1 && accs.contains n.2

/-- The entries in a cluster's table that have not been granted, oldest first. -/
def State.tabled (s : State) (c : Nat) : List MatEntry :=
  s.matrix.filter fun e => !e.granted && (match s.team? e.uid with
    | some t => t.cluster == c && t.resident
    | none => false)

/-- The entries of a cluster that wait for a grant: those of a team that is being saved leave with it (R318). -/
def State.waiting (s : State) (c : Nat) : List MatEntry :=
  (s.tabled c).filter fun e => match s.team? e.uid with
    | some t => t.state != .saving
    | none => false

/-- R316: does an eligible pass wait? -/
def State.passWaits (s : State) (c : Nat) : Bool := (s.tabled c).any fun e => s.eligible e && e.kind.isPass

/-- R318: is a team being saved? The governor does not pause its granted entry. -/
def State.draining (s : State) (uid : Nat) : Bool := ((s.team? uid).map fun t => t.state == .saving).getD false

/-- Accounts the engine's cycles up to now, or to the end of the window (R316): a granted pass advances while the window's
count is below the allowance, one of a team that is being saved without a pause (R318), and another entry's time simply passes.
The window has stalled when a pass paused in one of these cycles, or when an eligible pass was held back in one. -/
def State.govRun (s : State) (c : Nat) : State :=
  let g := s.gov c
  let upto := max g.mark (min (s.matClock c) (256 * (g.win + 1)))
  let d := upto - g.mark
  let run := s.granted c
  let left := ((run.filter (·.kind.isPass)).map (·.left)).getD 0
  let free := (run.map fun e => s.draining e.uid).getD false
  let a := min d (if free then left else min left (g.e - g.u))
  let g := { g with mark := upto, u := g.u + a }
  let s := match run with
    | some e => s.updEntry e.id fun e => { e with left := e.left - (if e.kind.isPass then a else d) }
    | none => s
  s.setGov c (if a < d && (a < left || (g.e ≤ g.u && s.passWaits c)) then g.stall else g)

/-- The end of a window: the soundings sample whether STALLS grew in it (R481), and the next window begins. -/
def State.govNext (s : State) (c : Nat) : State :=
  let g := s.gov c
  (s.setGov c (s.nextWindow g)).sampleAll 5 c (if g.grew then 1 else 0)

/-- The windows that have passed, at most n of them. -/
def govWindows (c : Nat) : Nat → State → State
  | 0, s => s.govRun c
  | n + 1, s =>
    let s := s.govRun c
    if 256 * ((s.gov c).win + 1) ≤ s.matClock c then govWindows c n (s.govNext c) else s

/-- Brings a cluster's governor up to now. A granted pass ends within 256 cycles of the array, at least 64 of them in a window; the
windows that follow leave the array idle. -/
def State.govSync (s : State) (c : Nat) : State :=
  let s := govWindows c 8 s
  let g := s.gov c
  let k := s.matClock c / 256 - g.win
  if k == 0 then s
  else (s.setGov c { g with u := 0, e := s.allowance 0, win := g.win + k, stalled := false, grew := false, mark := s.matClock c }).sampleAll 5 c 0 k

/-- The same for every cluster: before a change of what the next allowance is made of (R316, R317). -/
def State.govSyncAll (s : State) : State := (List.range 32).foldl State.govSync s

/-- Brings the governor of a team's cluster up to now, before entries of the team come or go. -/
def State.govSyncOf (s : State) (uid : Nat) : State :=
  match s.team? uid with
  | some t => if s.matrix.any (·.uid == uid) then s.govSync t.cluster else s
  | none => s

/-- R318: does the engine still run a granted entry of a team? -/
def State.granting (s : State) (uid : Nat) : Bool :=
  (s.govSyncOf uid).matrix.any fun e => e.uid == uid && e.granted && e.left > 0

end Sys2Proof.Machine
end

