-- ==== Sys2Proof/Config.lean ====
section
/-! DEFINITION. What the manual leaves to the device: values without a published rule. Every constant here is opaque, so
nothing proved about the model can depend on a particular value (log entries 2, 3, 6 and 7). -/

namespace Sys2Proof

/-- R112: the fixed approximation of the Z720 for a function of FSPEC (by its FN code) on the bits of a. The bits
are not published. Log entry 2. -/
opaque Config.fspecBits (fn : Nat) (a : Word) : Word

/-- R8: a device freedom. The n-th choice the device makes, as a number that the use reduces to one of its options.
Log entry 3. -/
opaque Config.choice (n : Nat) : Nat

/-- R467, R471, R473: the SHAKE256 digest (512 bits) of a byte string. The manual names the function and does not
define it. Log entry 6. -/
opaque Config.shake256 (data : Bytes) : BitVec 512

/-- R467, R470: does an Ed448 signature (a byte string) verify over a message under the Heholt public key in mask
ROM? Log entry 6. -/
opaque Config.heholtVerify (message signature : Bytes) : Bool

/-- R470: the VERSION values of a configuration record that Binnacle knows. Log entry 6. -/
opaque Config.versionKnown (version : Nat) : Bool

/-- R472: the Ed448 identity public key (57 bytes) that Binnacle derives from the part's physically-unclonable function
and the helper data. Log entry 6. -/
opaque Config.identityKey (puf helper : Nat) : BitVec 456

/-- R473: the Ed448 signature (114 bytes) by the identity key over a byte string. Log entry 6. -/
opaque Config.identitySign (puf helper : Nat) (message : Bytes) : BitVec 912

/-- R93, R378: a value that the manual does not give, taken by number. Log entry 7. -/
opaque Config.freeWord (n : Nat) : Dword

end Sys2Proof
end

