-- ==== Sys2Proof/Machine/Race.lean ====
section
/-! DEFINITION. Happens-before, regions and conflicts (R237 to R247): for every thread a clock of what happens before it,
the region it is in, and the boundaries it has performed; for every covered word the accesses whose regions may still be
open; for every byte the releases whose values stand in it. -/

namespace Sys2Proof.Machine

/-- The greater of two clocks, thread by thread. -/
def clkJoin (a b : Clock) : Clock := b.foldl (fun m e => tset m e.1 (max e.2 (tgetD m e.1 0))) a

def tidUid : Tid → Nat
  | .lane u _ _ => u
  | .engine _ u _ => u

def tidGrp : Tid → Nat
  | .lane _ g _ => g
  | .engine _ _ g => g

/-- R237: the groups inside a scope of a group; none for device and system scope, which hold every thread of the device.
-/
def scopeHolds (s : State) (uid grp : Nat) (sc : Scope) : Holds :=
  match sc with
  | .dev | .sys => none
  | .grp => some [(uid, grp)]
  | _ =>
    match s.group? uid grp with
    | none => some [(uid, grp)]
    | some g =>
      let near (c : Nat) : Bool :=
        match sc with
        | .core => c == g.core
        | .clu => clusterOf c == clusterOf g.core
        | _ => stackOf c == stackOf g.core
      some <| s.units.flatMap fun t =>
        if t.resident then (t.groups.filter fun x => near x.core).map fun x => (t.uid, x.idx) else []

def inHolds (h : Holds) (t : Tid) : Bool :=
  match h with
  | none => true
  | some l => l.contains (tidUid t, tidGrp t)

/-- The record of a thread; a thread not seen before starts with what its launch's acceptance released (R200, R238). -/
def Race.thread (r : Race) (t : Tid) : Thread :=
  match r.threads.find? (·.tid == t) with
  | some x => x
  | none => { tid := t, num := r.nextNum }

/-- Puts a thread's record back, numbering a new thread. -/
def Race.setThread (r : Race) (x : Thread) : Race :=
  if r.threads.any (·.tid == x.tid) then { r with threads := updFirst (·.tid == x.tid) (fun _ => x) r.threads }
  else { r with threads := x :: r.threads, nextNum := r.nextNum + 1 }

/-- Opens a thread with a clock of what happens before its start. -/
def Race.start (r : Race) (t : Tid) (c : Clock) : Race :=
  let x := r.thread t
  r.setThread { x with clk := clkJoin x.clk c }

/-- The clock that a release of the thread publishes: all that happens before it, itself included. -/
def Race.relClk (r : Race) (t : Tid) : Clock :=
  let x := r.thread t
  tset x.clk x.num x.region

/-- An acquire: what the clock holds happens before the thread's later accesses. -/
def Race.acquire (r : Race) (t : Tid) (c : Clock) : Race :=
  if c.isEmpty then r
  else
    let x := r.thread t
    r.setThread { x with clk := clkJoin x.clk c }

/-- A boundary performed at a scope (R243, R244): the region ends; with every thread held, the thread's accesses up to
here can complete no conflict any more. `reg`: the region that it ends, of a boundary that was issued before others of the thread's
accesses; the thread is in a later one then. -/
def Race.boundary (r : Race) (t : Tid) (h : Holds) (reg : Option Nat := none) : Race :=
  let x := r.thread t
  let k := reg.getD x.region
  let bounds := match h with
    | none => [(none, k)]
    | some _ => (h, k) :: x.bounds.filter (·.1 != h)
  let r := r.setThread { x with region := max x.region (k + 1), bounds := bounds }
  match h with
  | none => { r with log := r.log.filter fun a => a.num != x.num || a.region > k }
  | some _ => r

/-- What a thread has done counts to the completion of its launch (R185, R239). -/
def Race.fold (r : Race) (launch : Nat) (t : Tid) : Race :=
  if r.threads.any (·.tid == t) then
    { r with doneClk := tset r.doneClk launch (clkJoin (tgetD r.doneClk launch []) (r.relClk t)) }
  else r

/-- EXIT, or the end of an engine operation: the thread's region has been performed at system scope. -/
def Race.finish (r : Race) (t : Tid) : Race :=
  { r with threads := r.threads.filter (·.tid != t), log := r.log.filter (·.tid != t) }

/-- R244: the thread of an operation ends. Its region closes when its completion object can be observed: at once; or, under a
flag that other operations of its packet still hold up, with the last of them; or, where a message alone shows it, at the
message's arrival. -/
def Race.endEngine (r : Race) (t : Tid) (key : Nat × Nat × Nat) (last msg : Bool) : Race :=
  if msg then r
  else if !last then { r with ended := (key, t) :: r.ended }
  else
    let mine := r.ended.filter fun e => key.2.2 != 0 && e.1 == key
    { mine.foldl (fun r e => r.finish e.2) (r.finish t) with ended := r.ended.filter fun e => !mine.contains e }

/-- R244, R243: is the region that holds an access still open with respect to a thread? -/
def Race.openTo (r : Race) (a : Acc) (b : Tid) : Bool :=
  let reg := match a.strong with
    | some h => if inHolds h b then a.region else a.region + 1
    | none => a.region
  match r.threads.find? (·.tid == a.tid) with
  | none => false
  | some x => !x.bounds.any fun e => e.2 ≥ reg && inHolds e.1 b

/-- Do two words, or ranges of words, meet? -/
def rwHit (a b : RWord) : Bool :=
  match a, b with
  | .slot g lo hi, .slot g' lo' hi' => g == g' && lo < hi' && lo' < hi
  | a, b => a == b

/-- R245: does an access by a thread complete a conflict with a remembered one? `eng`: the access is a load that observes its
scratch line full, so the writes of the engine threads that set the full bit happen before it (R240). -/
def Race.conflictsWith (r : Race) (w : RWord) (t : Tid) (write : Bool) (strong : Option Holds) (eng : List Tid) (a : Acc) :
    Bool :=
  rwHit a.word w && a.tid != t && (a.write || write)
    && !(match a.strong, strong with
        | some ha, some hb => inHolds ha t && inHolds hb a.tid
        | _, _ => false)
    && decide (tgetD (r.thread t).clk a.num 0 < a.region)
    && r.openTo a t
    && !eng.contains a.tid

/-- A remembered access with which an access completes a conflict. -/
def Race.conflicts (r : Race) (w : RWord) (t : Tid) (write : Bool) (strong : Option Holds) (eng : List Tid) : Option Acc :=
  r.log.find? (r.conflictsWith w t write strong eng)

/-- Remembers an access. -/
def Race.note (r : Race) (w : RWord) (t : Tid) (write : Bool) (strong : Option Holds) : Race :=
  let x := r.thread t
  let r := r.setThread x
  let a : Acc := ⟨w, t, x.num, x.region, write, strong⟩
  if r.log.contains a then r else { r with log := a :: r.log }

/-- The bytes of an access as words with byte numbers. -/
abbrev RBytes := List (RWord × Nat)

/-- The words of an access, each once. -/
def rwords (b : RBytes) : List RWord := (b.map (·.1)).eraseDups

/-- A store that is no read-modify-write takes the earlier releases out of its bytes (R238). -/
def Race.overwrite (r : Race) (b : RBytes) : Race :=
  { r with rels := r.rels.filter fun e => !b.contains (e.word, e.byte) }

/-- The bytes of a range of memory, and of a range of a team's scratch. -/
def memBytes (pa n : Nat) : RBytes := (List.range n).map fun i => (.mem ((pa + i) / 4), (pa + i) % 4)

def scrBytes (uid k n : Nat) : RBytes := (List.range n).map fun i => (.scr uid ((k + i) / 4), (k + i) % 4)

/-- R238: bytes that an engine, the host or a peer writes hold no release any more. -/
def Race.landed (r : Race) (b : RBytes) : Race := if r.rels.isEmpty then r else r.overwrite b

/-- A release leaves its clock in the bytes that it writes. -/
def Race.publish (r : Race) (b : RBytes) (t : Tid) (h : Holds) (c : Clock) : Race :=
  { r with rels := (b.map fun e => (⟨e.1, e.2, t, h, c⟩ : Rel)) ++ r.rels }

/-- What an acquire by a thread with a scope reads in bytes (R238). -/
def Race.observe (r : Race) (b : RBytes) (t : Tid) (h : Holds) : Clock :=
  r.rels.foldl (fun c e => if b.contains (e.word, e.byte) && inHolds e.holds t && inHolds h e.tid then clkJoin c e.clk
    else c) []

/-- The words of an access that complete a conflict, lowest first. -/
def Race.check (r : Race) (ws : List RWord) (t : Tid) (write : Bool) (strong : Option Holds) (eng : List Tid) :
    Option (RWord × Acc) :=
  ws.findSome? fun w => (r.conflicts w t write strong eng).map fun a => (w, a)

/-- The kinds of a thread's access: what it does to its bytes, and, when it is strong, its scope and what its ORDER makes it.
`rmw`: a read-modify-write keeps the release chain of its bytes. -/
structure AccKind where
  read : Bool
  write : Bool
  rmw : Bool := false
  strong : Option Holds := none
  acq : Bool := false
  rel : Bool := false
  deriving DecidableEq, Repr

/-- R245: an access is checked when it issues, with what it would acquire if it were performed now, and remembered. -/
def Race.admitted (r : Race) (b covered : RBytes) (t : Tid) (k : AccKind) (eng : List Tid) : Except (RWord × Acc) Race :=
  let seen := match k.strong with
    | some h => if k.acq && k.read then r.acquire t (r.observe b t h) else r
    | none => r
  match seen.check (rwords covered) t k.write k.strong eng with
  | some e => .error e
  | none => .ok ((rwords covered).foldl (fun r w => r.note w t k.write k.strong) r)

/-- An access is performed: a store takes the earlier releases out of its bytes (R238); a strong access (R234) acquires,
releases, and ends its thread's region. `was`: of a strong access that was put off, what happened before its issue, itself included: it
releases that, with what it acquires, and ends the region in which it was issued. -/
def Race.performed (r : Race) (b : RBytes) (t : Tid) (k : AccKind) (was : Option Clock := none) : Race :=
  match k.strong with
  | none => if k.write then r.overwrite b else r
  | some h =>
    let seen := if k.acq && k.read then r.observe b t h else []
    let r := r.acquire t seen
    let r := if k.write && !k.rmw then r.overwrite b else r
    let c := match was with
      | some c => clkJoin c seen
      | none => r.relClk t
    let r := if k.rel && k.write then r.publish b t h c else r
    r.boundary t h (was.map fun c => tgetD c (r.thread t).num 0)

/-- The words of two ranges that both hold, each by itself. -/
def rwMeet (a b : RWord) : List RWord :=
  match a, b with
  | .slot g lo hi, .slot _ lo' hi' => (rangeFrom (max lo lo') (min hi hi' - max lo lo')).map fun k => .slot g k (k + 1)
  | a, _ => [a]

/-- R247: accesses of an engine thread take effect, conflict or not: the conflicts that they complete, one for each word and
other thread, and the remembered accesses. -/
def Race.engine (r : Race) (ws : List RWord) (t : Tid) (write : Bool) : Race × List (RWord × Acc) :=
  let hits := ws.flatMap fun w => (r.log.filter (r.conflictsWith w t write none [])).flatMap fun a =>
    (rwMeet w a.word).map fun x => (x, a)
  let hits := hits.foldl (fun l e => if l.any fun x => x.1 == e.1 && x.2.tid == e.2.tid then l else l ++ [e]) []
  (ws.foldl (fun r w => r.note w t write none) r, hits)

/-- R239: what a thread has done up to now, for the fork of an engine thread, or for a strong access that is put off. Its later accesses
of the same region come after: they stand in a region of their own number, which the next boundary ends with the rest. -/
def Race.forked (r : Race) (t : Tid) : Race × Clock :=
  let x := r.thread t
  (r.setThread { x with region := x.region + 1 }, tset x.clk x.num x.region)

/-- The clock left at a pair key. -/
def clkAt {α : Type} [BEq α] (l : List (α × Clock)) (k : α) : Clock := ((l.find? (·.1 == k)).map (·.2)).getD []

/-- Joins a clock into the one left at a key. -/
def clkPut {α : Type} [BEq α] (l : List (α × Clock)) (k : α) (c : Clock) : List (α × Clock) :=
  (k, clkJoin (clkAt l k) c) :: l.filter (!·.1 == k)

end Sys2Proof.Machine
end

