-- ==== Sys2Proof/Machine/Access.lean ====
section
/-! DEFINITION. Memory below the instructions: physical addresses and their targets (R214), poison (R230 to R232), page-table
walks and the translation caches (R223 to R229), the L1 copies (R217), and the device's own reads and writes through a
context's translation. -/

namespace Sys2Proof.Machine

/-! ### Physical memory -/

/-- The bytes of this device's memory (R214): 120 GiB. -/
def devBytes : Nat := 0x1E00000000

/-- R461: the address under which a byte of a peer's memory is kept: its fabric address, above every physical address. -/
def fabricKey (s : State) (d off : Nat) : Nat := 2 ^ 64 + ((tgetD s.bar0.peerBase d 0).toNat + off) % 2 ^ 64

/-- R214: the address under which a physical address is kept; none when the range is reserved. The peer range of this
device's own number names its own memory; another peer's is reached at its fabric address (R461). The table of R214 has no row for
an address of a peer range at or above 120 GiB: DESIGN CHOICE, it is reserved, and an access to it raises PROT (log entry 66). -/
def paKey (s : State) (pa : Nat) : Option Nat :=
  let p := pa % 2 ^ 52
  if p / 2 ^ 51 == 1 then some p
  else
    let sel := p / 2 ^ 47
    let off := p % 2 ^ 47
    if off ≥ devBytes then none
    else if sel == 0 then some off
    else if sel < 8 then none
    else if sel - 8 == s.bar0.devNum then some off
    else some (fabricKey s (sel - 8) off)

/-- R248: the addresses of this device's memory. -/
def paLocal (pa : Nat) : Bool := pa < devBytes

def paHost (pa : Nat) : Bool := pa / 2 ^ 51 == 1

/-- R214: does a physical address name this device's memory? -/
def ownPa (s : State) (pa : Nat) : Bool := ((paKey s pa).map paLocal).getD false

/-- R461, R460: may the device reach a peer's memory? -/
def peerReach (s : State) (d : Nat) : Bool := s.bar0.cxl && d != s.bar0.devNum && s.bar0.peerMap.getLsbD d

/-- R461: does a physical address, as a page-table entry gives it, name a peer that the device cannot reach? -/
def paUnreach (s : State) (pa : Nat) : Bool :=
  let sel := pa % 2 ^ 52 / 2 ^ 47
  8 ≤ sel && sel < 16 && sel - 8 != s.bar0.devNum && !peerReach s (sel - 8)

/-- R215: the home column of a line of this device's memory, as a core number of R93. -/
def homeColumn (pa : Nat) : Nat := nbits pa 13 12 * 32 + (nbits pa 11 7 ^^^ nbits pa 18 14)

def State.readPa (s : State) (pa n : Nat) : Bytes := mreadN s.mem pa n

/-- R248, R250: L1 copies when a range of this device's memory is written at home: a copy shows the bytes that the host or a
peer has written as it holds them, and every other byte as home serves it. -/
def l1Noted (l : NMap L1Copy) (pa n : Nat) (outside : Bool) : NMap L1Copy :=
  l.map fun e =>
    let a := e.1 % coreSpan * 32
    if a < pa + n && pa < a + 32 then
      let offs := (List.range 32).filter fun i => decide (pa ≤ a + i ∧ a + i < pa + n)
      let rest := e.2.ext.filter fun i => !offs.contains i
      (e.1, { e.2 with ext := if outside then rest ++ offs else rest })
    else e

/-- R249: an 8-byte unit that an invariant load has read keeps the values that writes take out of it. -/
def invOlds (before after : List Host.Cell) (unit : Nat) (olds : List Nat) : List Nat :=
  let o := leNat (mreadN before (8 * unit) 8)
  if o == leNat (mreadN after (8 * unit) 8) || olds.contains o then olds else olds ++ [o]

/-- Writes bytes; a sector covered as a whole is poisoned no longer (R120, R232) and has a right check value (R231). -/
def State.writePa (s : State) (pa : Nat) (b : Bytes) : State :=
  let lo := cdiv pa 32
  let hi := (pa + b.length) / 32
  let mem := mwriteN s.mem pa b
  { s with mem := mem
           poison := if lo < hi then s.poison.filter fun k => k < lo || hi ≤ k else s.poison
           flaw := s.flaw.filter fun e => e.1 < lo || hi ≤ e.1
           invs := s.invs.map fun e =>
             if 8 * e.unit < pa + b.length && pa < 8 * e.unit + 8 then { e with olds := invOlds s.mem mem e.unit e.olds } else e
           l1 := l1Noted s.l1 pa b.length false }

/-- Is any byte of a range in a poisoned sector? -/
def poisoned (l : List Nat) (a n : Nat) : Bool := l.any fun k => k * 32 < a + n && a < (k + 1) * 32

/-- A sector whose check fails reads as the poison form that the check gives it (R231). -/
def State.poisonedPa (s : State) (pa n : Nat) : Bool := poisoned s.poison pa n || poisoned (s.flaw.map (·.1)) pa n

/-- Do pieces cover every byte of a sector together? -/
def coversSector (ps : List (Nat × Nat)) (k : Nat) : Bool :=
  (List.range 32).all fun i => ps.any fun e => decide (e.1 ≤ 32 * k + i ∧ 32 * k + i < e.1 + e.2)

/-- R120: what one store writes, piece by piece, takes the poison from the sectors that its pieces cover together. -/
def State.sweep (s : State) (ps : List (Nat × Nat)) : State :=
  if s.poison.isEmpty then s else { s with poison := s.poison.filter fun k => !coversSector ps k }

/-! ### Check values (R230, R231) -/

/-- One bit of the CRC-16 with the generator polynomial 0x1021. -/
def crcBit (c : Nat) : Nat := if c < 32768 then c * 2 else (c * 2 % 65536) ^^^ 0x1021

/-- R230: one byte, most significant bit first. -/
def crcByte (c : Nat) (b : Byte) : Nat :=
  crcBit (crcBit (crcBit (crcBit (crcBit (crcBit (crcBit (crcBit (c ^^^ (b.toNat * 256)))))))))

/-- R230: CRC-16 with initial value 0xFFFF, no reflection and no final XOR. -/
def crc16 (b : Bytes) : Nat := b.foldl crcByte 0xFFFF

/-- R230: the stored check value of a sector of memory. A sector fails its check when this is neither its CRC nor the CRC
XOR 0xFFFF. -/
def State.checkValue (s : State) (k : Nat) : Nat :=
  crc16 (s.readPa (32 * k) 32) ^^^ (if s.poison.contains k then 0xFFFF else tgetD s.flaw k 0)

/-- R478: counts an event of a BAR0 counter, which stops at 2^32 - 1. -/
def State.countAt (s : State) (off : Nat) : State :=
  { s with bar0 := { s.bar0 with counters := tput s.bar0.counters off (min 0xFFFFFFFF (tgetD s.bar0.counters off 0 + 1)) 0 } }

/-- R231, R478: counts one integrity event of a stack. -/
def State.countInteg (s : State) (stack : Nat) : State := s.countAt (0x3800 + 4 * stack)

/-- Gives the sectors of a range the poison form. -/
def State.poisonPa (s : State) (pa n : Nat) : State :=
  { s with poison := (rangeFrom (pa / 32) (cdiv (pa + n) 32 - pa / 32)).foldl sins s.poison }

/-- R231: a failed check rewrites the sector at its home with the poison form and counts one event of its stack. -/
def State.integFail (s : State) (pa : Nat) : State :=
  ({ s.poisonPa (pa / 32 * 32) 32 with flaw := tdel s.flaw (pa / 32) } : State).countInteg (homeColumn pa / 32)

/-- R231: the check of a sector at a read, a fill or a write-back. -/
def State.verify (s : State) (pa : Nat) : State :=
  if (tget s.flaw (pa / 32)).isSome then s.integFail pa else s

/-- The checks of every sector of a range. -/
def State.verifyN (s : State) (pa n : Nat) : State :=
  if s.flaw.isEmpty then s else (rangeFrom (pa / 32) (cdiv (pa + n) 32 - pa / 32)).foldl (fun s k => s.verify (32 * k)) s

/-- R459: before an access through a page with MT 3 reaches a line of host-managed memory, the host's own copy of it goes back
to its home. R238: the releases that stood in the line's bytes are overwritten with it (log entry 71). -/
def State.backInval (s : State) (pa : Nat) : State :=
  match tget s.hostLines (pa / 128) with
  | some b =>
    let a := pa / 128 * 128
    { s.writePa a b with hostLines := tdel s.hostLines (pa / 128), race := s.race.landed (memBytes a b.length) }
  | none => s

/-- A field of a context's descriptor in memory (R454). -/
def State.descField (s : State) (c off n : Nat) : Nat :=
  match s.ctx? c with
  | some x => leNat (s.readPa (x.desc + off) n)
  | none => 0

/-- R231: the check of the sector of a context's descriptor that holds DISPMASK, PARKLIM, LOST and IRQV. -/
def State.descSeen (s : State) (c : Nat) : State :=
  match s.ctx? c with
  | some x => s.verifyN (x.desc + 0x20) 32
  | none => s

def State.dispMask (s : State) (c : Nat) : Nat := s.descField c 0x28 4
def State.parkLim (s : State) (c : Nat) : Nat := s.descField c 0x2C 4
/-- R416: has a wait passed the park limit? A limit of 0 is none. -/
def State.pastLimit (s : State) (c waited : Nat) : Bool := s.parkLim c != 0 && waited > s.parkLim c
def State.irqv (s : State) (c : Nat) : Nat := s.descField c 0x38 1 % 32

/-! ### Device freedoms -/

/-- R8: the device's next choice among n options. -/
def State.choose (s : State) (n : Nat) : State × Nat :=
  ({ s with choices := s.choices + 1 }, Config.choice s.choices % n)

/-! ### Page tables -/

/-- The kinds of access. `rmwOnly`: an atomic that PCIe has no operation for (R268). -/
inductive AKind where
  | load | store | rmw | rmwOnly | fetch
  deriving DecidableEq, Repr

def AKind.writes : AKind → Bool
  | .store | .rmw | .rmwOnly => true
  | _ => false

def AKind.reads : AKind → Bool
  | .load | .rmw | .rmwOnly => true
  | _ => false

/-- What a walk found: a leaf with its level, or V = 0 (with NR of a level-0 to level-2 entry), or PROT. -/
inductive Walk where
  | leaf (ent : Nat) (level : Nat)
  | absent (nr : Bool)
  | prot
  deriving DecidableEq, Repr

def ptV (e : Nat) : Bool := e.testBit 0
def ptW (e : Nat) : Bool := e.testBit 1
def ptX (e : Nat) : Bool := e.testBit 2
def ptA (e : Nat) : Bool := e.testBit 3
def ptD (e : Nat) : Bool := e.testBit 4
def ptMT (e : Nat) : Nat := nbits e 6 5
def ptL (e : Nat) : Bool := e.testBit 7
def ptNR (e : Nat) : Bool := e.testBit 8
def ptPPN (e : Nat) : Nat := nbits e 51 12
def ptKey (e : Nat) : Nat := nbits e 56 52
def ptG (e : Nat) : Bool := e.testBit 57
def ptPOI (e : Nat) : Bool := e.testBit 63

/-- R225 step 2: a leaf without a set reserved bit whose frame is aligned to its page. -/
def leafOk (e level : Nat) : Bool :=
  nbits e 62 58 == 0 && nbits e 11 9 == 0 && ptPPN e % 2 ^ (9 * level) == 0

/-- The index of a virtual address at a level (R223). -/
def vaIndex (va level : Nat) : Nat := va / 2 ^ (12 + 9 * level) % 512

/-- The virtual page of an address at a level. -/
def vaTag (va level : Nat) : Nat := va % 2 ^ 57 / 2 ^ (12 + 9 * level)

/-- R226: sets A, and D for a store's leaf, at an entry's home. -/
def setAD (s : State) (pa e : Nat) (d : Bool) : State :=
  let e' := e ||| 8 ||| (if d then 16 else 0)
  if e' == e then s else s.writePa pa (leBytes e' 8)

/-- The units of a core that have a translation cache of their own (R227). -/
inductive TlbUnit where
  | beam | ray | texture
  deriving DecidableEq, Repr

def TlbUnit.num : TlbUnit → Nat
  | .beam => 0
  | .ray => 1
  | .texture => 2

/-- The users of translation caches (R227): cores by their numbers, copy engines by 1000 + cluster, the beam, ray and texture
units of a core by 2000 + core, each from a base of its own. -/
def copyTlb (cluster : Nat) : Nat := 1000 + cluster
def unitTlb (u : TlbUnit) (core : Nat) : Nat := 2000 + 1000 * u.num + core

/-- R227: the walk cache that serves a user: its core's, or its copy engine's. -/
def walkUser (u : Nat) : Nat := if u ≥ 2000 then u % 1000 else u

/-- R227: how many entries a user's cache of leaves, or walk cache, holds. -/
def tlbSize (u : Nat) (leaf : Bool) : Nat := if !leaf then 64 else if u ≥ 2000 then 256 else if u ≥ 1000 then 512 else 2048

/-- Keeps the first n entries of one cache. -/
def tlbKeep (u : Nat) (leaf : Bool) : Nat → List TlbE → List TlbE
  | _, [] => []
  | n, e :: r =>
    if e.user == u && e.leaf == leaf then (match n with
      | 0 => tlbKeep u leaf 0 r
      | n + 1 => e :: tlbKeep u leaf n r)
    else e :: tlbKeep u leaf n r

/-- Caches an entry (R227); a cache keeps its most recent entries. -/
def State.cacheEnt (s : State) (user : Option Nat) (ctx level va e : Nat) (leaf : Bool) : State :=
  match user with
  | none => s
  | some u =>
    let u := if leaf then u else walkUser u
    let x : TlbE := ⟨u, ctx, level, vaTag va level, leaf, dword e⟩
    let old := s.tlb.filter fun y => !(y.user == u && y.ctx == ctx && y.level == level && y.tag == x.tag && y.leaf == leaf)
    { s with tlb := tlbKeep u leaf (tlbSize u leaf) (x :: old) }

/-- What one entry of a walk decides: the walk's end, or the next table. -/
inductive WalkStep where
  | done (w : Walk)
  | table (t : Nat)
  deriving DecidableEq, Repr

/-- R224, R225: the entry at a level. -/
def walkEntry (s : State) (e level : Nat) : WalkStep :=
  if !ptV e then .done (.absent (ptNR e))
  else if level == 0 || (ptL e && level ≤ 2) then
    if (level == 0 && ptL e) || !leafOk e level then .done .prot else .done (.leaf e level)
  else if ptL e then .done .prot
  else
    match paKey s (ptPPN e * 4096) with
    | some t => if paLocal t then .table t else .done .prot
    | none => .done .prot

/-- R226, R227: an entry that a walk has used gets A, a store's leaf gets D, and the caches may hold it. Both bits are set by
the walk, before the permission and key checks of R225 step 4 are made: the rules do not say whether an access that fails one of
them sets them (log entry 59). -/
def walkUse (s : State) (user : Option Nat) (ctx va : Nat) (store mark : Bool) (ea e level : Nat) (leaf : Bool) : State :=
  let d := store && leaf && ptW e
  let s := if mark then setAD s ea e d else s
  s.cacheEnt (if mark then user else none) ctx level va (e ||| 8 ||| (if d then 16 else 0)) leaf

/-- R223 to R226: the walk from a table at a level down. Each entry's sector is checked (R231); no rule stops a walk at an entry of
a poisoned sector, whose bytes are used as they stand (log entry 59). -/
def walkFrom (s : State) (user : Option Nat) (ctx va : Nat) (store mark : Bool) (table : Nat) : Nat → State × Walk
  | 0 =>
    let ea := table + 8 * vaIndex va 0
    let s := s.verify ea
    let e := leNat (s.readPa ea 8)
    match walkEntry s e 0 with
    | .done (.leaf e l) => (walkUse s user ctx va store mark ea e 0 true, .leaf e l)
    | .done w => (s, w)
    | .table _ => (s, .prot)
  | l + 1 =>
    let ea := table + 8 * vaIndex va (l + 1)
    let s := s.verify ea
    let e := leNat (s.readPa ea 8)
    match walkEntry s e (l + 1) with
    | .done (.leaf e' l') => (walkUse s user ctx va store mark ea e (l + 1) true, .leaf e' l')
    | .done w => (s, w)
    | .table t => walkFrom (walkUse s user ctx va store mark ea e (l + 1) false) user ctx va store mark t l

/-- R223: the walk from a context's root, without the translation caches. R225 and R454 name no check of the root itself: DESIGN
CHOICE, a root outside this device's memory makes every walk PROT, as such an entry does (log entry 66). -/
def walkRoot (s : State) (user : Option Nat) (ctx : Nat) (va : Nat) (store mark : Bool) : State × Walk :=
  match s.ctx? ctx with
  | some c =>
    match paKey s c.root with
    | some t => if paLocal t then walkFrom s user ctx va store mark t 4 else (s, .prot)
    | none => (s, .prot)
  | none => (s, .absent false)

/-- A cached leaf for an address (R227): one of the context, or a global one. -/
def State.tlbLeaf (s : State) (user ctx va : Nat) : Option (Nat × Nat) :=
  (s.tlb.find? fun e => e.user == user && e.leaf && (e.ctx == ctx || ptG e.ent.toNat) && e.tag == vaTag va e.level).map
    fun e => (e.ent.toNat, e.level)

/-- The lowest table that a walk cache names for an address (R227); a table lies in this device's memory (R223). -/
def State.tlbTable (s : State) (user ctx va level : Nat) : Option Nat :=
  (s.tlb.find? fun e => e.user == walkUser user && !e.leaf && e.ctx == ctx && e.level == level && e.tag == vaTag va level).bind
    fun e => (paKey s (ptPPN e.ent.toNat * 4096)).filter paLocal

/-- The leaf for an address, through the caches of a user: a cached leaf, else a walk from the lowest cached table. A store
that finds D = 0 walks from the root (R226). -/
def translate (s : State) (user : Option Nat) (ctx : Nat) (va : Nat) (store : Bool) : State × Walk :=
  match user with
  | none => walkRoot s none ctx va store true
  | some u =>
    match s.tlbLeaf u ctx va with
    | some (e, l) => if store && ptW e && !ptD e then walkRoot s user ctx va store true else (s, .leaf e l)
    | none =>
      match s.tlbTable u ctx va 1 with
      | some t => walkFrom s user ctx va store true t 0
      | none =>
        match s.tlbTable u ctx va 2 with
        | some t => walkFrom s user ctx va store true t 1
        | none =>
          match s.tlbTable u ctx va 3 with
          | some t => walkFrom s user ctx va store true t 2
          | none =>
            match s.tlbTable u ctx va 4 with
            | some t => walkFrom s user ctx va store true t 3
            | none => walkRoot s user ctx va store true

/-- The physical address that a leaf gives to a virtual address (R224). -/
def leafPa (e level va : Nat) : Nat := ptPPN e * 4096 + va % 2 ^ (12 + 9 * level)

/-- R228: deny bits of a page's key. -/
def keyDenies (keys : Dword) (key : Nat) (k : AKind) : Bool :=
  (k.reads && keys.getLsbD (2 * key)) || (k.writes && keys.getLsbD (2 * key + 1))

/-- Cause codes of R415. -/
abbrev Cause := Nat

def cPAGEF : Cause := 0x10
def cPROT : Cause := 0x11
def cPKEYF : Cause := 0x12
def cSCRBOUND : Cause := 0x13
def cPOISON : Cause := 0x14
def cMMX : Cause := 0x15
def cPARKLIMIT : Cause := 0x16
def cSTACKOVF : Cause := 0x17
def cCPYPERM : Cause := 0x18
def cSLOTERR : Cause := 0x19
def cPORTOVF : Cause := 0x1A
def cPATFULL : Cause := 0x1B
def cENGINEF : Cause := 0x1C
def cCANCELLED : Cause := 0x20
def cILLOP : Cause := 0x01
def cILLINE : Cause := 0x02
def cBRTGT : Cause := 0x03
def cILLCONV : Cause := 0x04
def cILLOPD : Cause := 0x05
def cMISALIGN : Cause := 0x06
def cTRAPI : Cause := 0x07
def cBKPT : Cause := 0x08

/-- R268: may an atomic that PCIe has no operation for not be performed at a place? -/
def hostBarred (s : State) (k : AKind) (pa mt : Nat) : Bool := k == .rmwOnly && paHost pa && !(s.bar0.cxl && mt == 3)

/-- R43, R118, R120, R225, R228: the place of one address for an access, or its fault. The sector's check is made (R231), and a
host copy of a host-managed line goes home first (R459). -/
def place (s : State) (user : Option Nat) (ctx : Nat) (keys : Dword) (k : AKind) (va : Dword) :
    State × Except Cause Place :=
  if !canonical va then (s, .error cPROT)
  else
    let (s, w) := translate s user ctx va.toNat k.writes
    match w with
    | .absent _ => (s, .error cPAGEF)
    | .prot => (s, .error cPROT)
    | .leaf e l =>
      match paKey s (leafPa e l va.toNat) with
      | none => (s, .error cPROT)
      | some pa =>
        if paUnreach s (leafPa e l va.toNat) then (s, .error cPROT)
        else if k.writes && (!ptW e || (k == .store && ptPOI e)) then (s, .error cPROT)
        else if k == .fetch && (!ptX e || ptPOI e) then (s, .error cPROT)
        else if hostBarred s k pa (ptMT e) then (s, .error cPROT)
        else if k != .fetch && keyDenies keys (ptKey e) k then (s, .error cPKEYF)
        else (((if ptMT e == 3 then s.backInval pa else s).verify pa), .ok ⟨pa, ptMT e, ptPOI e⟩)

/-- The places of the pieces of an access. The fault answered is the first of R45's order, at the lowest address at which
it holds. -/
def places (s : State) (user : Option Nat) (ctx : Nat) (keys : Dword) (k : AKind) :
    List Dword → State × Except (Cause × Dword) (List Place)
  | [] => (s, .ok [])
  | va :: r =>
    let (s, x) := place s user ctx keys k va
    let (s, y) := places s user ctx keys k r
    match x, y with
    | .ok p, .ok ps => (s, .ok (p :: ps))
    | .ok _, .error e => (s, .error e)
    | .error c, .ok _ => (s, .error (c, va))
    | .error c, .error e =>
      if c < e.1 || (c == e.1 && va.toNat ≤ e.2.toNat) then (s, .error (c, va)) else (s, .error e)

/-! ### Requests to the host (R458) -/

/-- R458: the path of an access to host memory; `coh`: one of system scope, or an atomic (R268). -/
def hostPath (s : State) (mt : Nat) (coh : Bool) : HostPath :=
  if !s.bar0.cxl then .pcie else if mt == 3 && coh then .cxlCache else .cxlIo

/-- R456, R458: an access of n bytes at a place sends its request when the place lies in host memory. `sys`: of system scope. R268: over
CXL.cache an atomic asks for its line to be held exclusively; elsewhere it is a PCIe AtomicOp. -/
def State.hostReq (s : State) (x : Place) (n : Nat) (op : HostOp) (sys : Bool := false) : State :=
  let path := hostPath s x.mt (sys || op.atomic)
  let op := if op.atomic && path == .cxlCache then .own else op
  if paHost x.pa then { s with out := .hostReq path op x.pa n :: s.out } else s

/-! ### The device's own accesses through a context's translation -/

/-- A weak read of n bytes that is exempt from detection and checked like a load (R225, R228): the bytes, or the fault. An
access never crosses a page here unless its page is crossed piece by piece of 8 bytes. `sys`: a strong read of system scope. -/
def devRead (s : State) (user : Option Nat) (ctx : Nat) (keys : Dword) (va : Dword) (n : Nat) (sys : Bool := false) :
    State × Except (Cause × Dword) (List Place × Bytes) :=
  let vas := (List.range (cdiv n 8)).map fun i => va + dword (8 * i)
  let (s, r) := places s user ctx keys .load vas
  match r with
  | .error e => (s, .error e)
  | .ok ps =>
    match (vas.zip ps).find? fun (_, p) => p.poi || s.poisonedPa p.pa 8 with
    | some (a, _) => (s, .error (cPOISON, a))
    | none => (ps.foldl (fun s p => s.hostReq p (min n 8) .read sys) s, .ok (ps, (ps.flatMap fun p => s.readPa p.pa 8).take n))

/-- Writes bytes through a context's translation, without key checks: none when a page is not present, writable and free of
poison. The length is a multiple of 4. `sys`: a strong write of system scope. -/
def devWrite (s : State) (ctx : Nat) (va : Dword) (b : Bytes) (sys : Bool := false) : State × Option Dword :=
  let vas := (List.range (cdiv b.length 4)).map fun i => va + dword (4 * i)
  let (s', r) := places s none ctx 0 .store vas
  match r with
  | .error e => (s, some e.2)
  | .ok ps =>
    let s := ((ps.zip (List.range ps.length)).foldl (fun s (p, i) => s.writePa p.pa ((b.drop (4 * i)).take 4)) s').sweep
      (ps.map fun p => (p.pa, 4))
    let s := ps.foldl (fun s p => s.hostReq p 4 .write sys) s
    ({ s with race := s.race.landed (ps.flatMap fun p => memBytes p.pa 4) }, none)

/-- A 32-bit word through a context's translation; none on any fault. -/
def devRead32 (s : State) (ctx : Nat) (va : Dword) : State × Option Nat :=
  match devRead s none ctx 0 va 4 with
  | (s, .ok (_, b)) => (s, some (leNat b))
  | (s, .error _) => (s, none)

/-- The device as the thread that keeps its rings. -/
def deviceTid : Tid := .engine 0 0 0

/-- R391, R416: the device reads the CONS word of a ring as an acquire of system scope: the word, and what it acquires. -/
def ringCons (s : State) (ctx : Nat) (va : Dword) : State × Option (Nat × Clock) :=
  match devRead s none ctx 0 va 4 true with
  | (s, .ok (p :: _, b)) => (s, some (leNat b, s.race.observe (memBytes p.pa 4) deviceTid none))
  | (s, _) => (s, none)

/-- R391, R416: the PROD and CONS words of a ring that the device keeps, PROD at a base and CONS 8 bytes behind it. -/
def ringLook (s : State) (ctx : Nat) (base : Dword) : State × Option (Nat × Nat × Clock) :=
  match devRead32 s ctx base with
  | (s, none) => (s, none)
  | (s, some prod) =>
    match ringCons s ctx (base + 8) with
    | (s, some (cons, clk)) => (s, some (prod, cons, clk))
    | (s, none) => (s, none)

/-- R391, R416: the device writes the PROD word of a ring as a release of system scope of what it has acquired. -/
def ringProd (s : State) (ctx : Nat) (va : Dword) (n : Nat) (clk : Clock) : State :=
  let s := (devWrite s ctx va (leBytes (n % 2 ^ 32) 4) true).1
  match place s none ctx 0 .store va with
  | (s, .ok p) =>
    if clk.isEmpty then s
    else { s with race := { s.race with
      rels := (memBytes p.pa 4).map (fun e => (⟨e.1, e.2, deviceTid, none, clk⟩ : Rel)) ++ s.race.rels } }
  | (s, .error _) => s

/-! ### L1 (R217, R257) -/

def l1Key (core pa : Nat) : Nat := core * coreSpan + pa / 32

/-- R217: a store updates the issuing core's copy when one is present. A copy of the poison form is dropped: home has the sector's
bytes and its poison. -/
def State.l1Store (s : State) (core pa : Nat) (b : Bytes) : State :=
  match tget s.l1 (l1Key core pa) with
  | some c => if c.flaw == 0xFFFF then { s with l1 := tdel s.l1 (l1Key core pa) } else { s with l1 := tset s.l1 (l1Key core pa) { c with bytes := putAt c.bytes (pa % 32) b } }
  | none => s

/-- R1: the lines that a core's L1 of 256 KiB holds. -/
def l1Lines : Nat := 2048

/-- R217: a load that misses fills its sector. A full L1 drops a line of the device's choice (R1, R8). -/
def State.l1Fill (s : State) (core pa : Nat) : State :=
  let s := s.verify pa
  let lines := ((s.l1.filter fun e => e.1 / coreSpan == core).map fun e => e.1 / 4).eraseDups
  let full := !lines.contains (l1Key core pa / 4) && lines.length ≥ l1Lines
  let (s, k) := if full then s.choose lines.length else (s, 0)
  let l1 := if full then s.l1.filter fun e => some (e.1 / 4) != lines[k]? else s.l1
  { s with l1 := tset l1 (l1Key core pa) { bytes := s.readPa (pa / 32 * 32) 32 } }

/-- R257: an acquire invalidates every line of the core's L1; invariant loads may keep using the old copies (R258). -/
def State.l1Invalidate (s : State) (core : Nat) : State :=
  { s with l1 := s.l1.map fun e => if e.1 / coreSpan == core then (e.1, { e.2 with old := true }) else e }

/-- R218, R255: an access that skips the L1 leaves no copy of its sector in the issuing core's, which could no longer be right. -/
def State.l1DropSector (s : State) (core pa : Nat) : State := { s with l1 := tdel s.l1 (l1Key core pa) }

/-- R231: the check of a core's copy of a sector: a failed one rewrites the sector at its home. A sector of the host or of a peer
has no home stack: DESIGN CHOICE, the event is counted for the core's stack (log entry 66). -/
def State.l1Verify (s : State) (core pa : Nat) : State :=
  match tget s.l1 (l1Key core pa) with
  | some c =>
    if c.flaw != 0 && c.flaw != 0xFFFF then
      let s := s.l1DropSector core pa
      if paLocal pa then s.integFail pa else (s.poisonPa (pa / 32 * 32) 32).countInteg (stackOf core)
    else s
  | none => s

/-- R273: drops the 128-byte line of a core's L1. -/
def State.l1DropLine (s : State) (core pa : Nat) : State :=
  { s with l1 := s.l1.filter fun e => !(e.1 / coreSpan == core && e.1 % coreSpan / 4 == pa / 128) }

/-- R217: an engine's write drops the copies of its lines in every core of the issuing cluster. -/
def State.l1DropCluster (s : State) (cluster pa n : Nat) : State :=
  { s with l1 := s.l1.filter fun e =>
      !(e.1 / (4 * coreSpan) == cluster && pa / 128 ≤ e.1 % coreSpan / 4 && e.1 % coreSpan / 4 ≤ (pa + n - 1) / 128) }

/-- R229: drops cached translations. Kinds 0 and 1 name a range of 4 KiB pages. -/
def State.shootDown (s : State) (kind ctx va count : Nat) : State :=
  let v := va % 2 ^ 57 / 4096
  let overlaps (e : TlbE) : Bool :=
    let lo := e.tag * 2 ^ (9 * e.level)
    lo < v + count && v < lo + 2 ^ (9 * e.level)
  { s with tlb := s.tlb.filter fun e =>
      match kind with
      | 0 | 1 => !(overlaps e && (e.ctx == ctx || (e.leaf && ptG e.ent.toNat)))
      | 2 => !(e.ctx == ctx && (!e.leaf || !ptG e.ent.toNat))
      | _ => false }

end Sys2Proof.Machine
end

