-- ==== Sys2Proof/Machine/Frame.lean ====
section
/-! DEFINITION. The context frame of a team (R424): its size, its bytes as a save writes them, and what a restore reads back
from it (R426, R428). -/

namespace Sys2Proof.Machine

/-- The next multiple of 64. -/
def up64 (n : Nat) : Nat := cdiv n 64 * 64

/-- A byte string with zeros up to the next multiple of 64 (R424: each section starts at one). -/
def pad64 (b : Bytes) : Bytes := b ++ List.replicate (up64 b.length - b.length) 0

/-- Bytes of a bit set: bit i of the string is set when i is listed. -/
def bitBytes (l : List Nat) (n : Nat) : Bytes := leBytes (l.foldl (fun a i => a ||| 2 ^ i) 0) n

/-- The bit numbers set in a byte string. -/
def bytesBits (b : Bytes) : List Nat := (List.range (8 * b.length)).filter fun i => (leNat b).testBit i

/-- The smallest k of R134 that holds a team's groups; none when the card is malformed by it. -/
def teamK (groups regPeak : Nat) : Option Nat :=
  [1, 2, 4].find? fun k => cdiv groups (4 * k) ≤ 32 && cdiv groups (4 * k) * regPeak ≤ 1024

/-- The v-names that a destination of w registers writes. -/
def dstNames (d : Spec) (w : Nat) : List Nat :=
  match d with
  | .v n => rangeFrom n.toNat w
  | _ => []

/-- The v-names that an instruction writes in active lanes, from its shape. -/
def instrDst (i : Instr) : List Nat :=
  match i.shape.dst with
  | some d => dstNames d.spec d.w
  | none => []

/-- The names that some lane of a group holds mapped, with those that a result in flight or an access that waits will write, in
rising order: the group's register claims (R136). -/
def Group.claims (g : Group) : List Nat :=
  let l := g.lanes.foldl (fun acc l => l.v.foldl (fun a e => sins a e.1) acc) []
  let l := g.inflight.foldl (fun acc p => p.regs.foldl (fun a e => sins a e.2.1) acc) l
  g.fes.foldl (fun acc w => (instrDst w.instr).foldl sins acc) l

/-- R93, R136: the footprint. -/
def Group.footprint (g : Group) : Nat := g.claims.length

def Park.restart : Park → Nat
  | .conv => 1
  | .bar .. => 2
  | .fullEmpty => 3
  | .post => 4
  | .wait => 5
  | .traversal => 0

/-- R424: the four state bytes of a lane. -/
def Lane.stateBytes (l : Lane) : Bytes :=
  let notPassed := l.entry != .none
  let transfer := match l.entry with
    | .fresh t | .waiting t | .passed t => t
    | .none => false
  let b := min l.rstack.length 4 + (if notPassed then 8 else 0) + (if l.helper then 16 else 0)
    + (if notPassed && transfer then 32 else 0)
  [BitVec.ofNat 8 l.cause, BitVec.ofNat 8 l.rep, BitVec.ofNat 8 b,
    BitVec.ofNat 8 (match l.park with | some (p, _) => p.restart | none => 0)]

/-- The bytes of a field of every lane 0 to 255; an exited lane gives zeros. -/
def Group.perLane (g : Group) (n : Nat) (f : Lane → Bytes) : Bytes :=
  (List.range 256).flatMap fun i =>
    match g.lane? i with
    | some l => f l
    | none => List.replicate n 0

def rstackBytes (r : List Dword) : Bytes :=
  let b := r.reverse.flatMap fun d => leBytes d.toNat 8
  b ++ List.replicate (32 - b.length) 0

/-- R424, R444: GSIZE: the bytes of a group's section, without those up to the next multiple of 64. -/
def Group.gsize (g : Group) (ntrav : Nat) : Nat := 0x3260 + 1056 * g.footprint + 16 * ntrav

/-- R424: the section of a group, with the traversals it has pending. -/
def Group.section (g : Group) (trav : List Traversal) : Bytes :=
  let cl := g.claims
  let u := cl.length
  let flag (k : Nat) : Byte := BitVec.ofNat 8 (tgetD g.flags k 0)
  let head := leBytes g.idx 2 ++ [BitVec.ofNat 8 g.quad, if g.lanes.isEmpty then 1 else 0] ++ leBytes (g.gsize trav.length) 4
    ++ leBytes u 2 ++ leBytes trav.length 2 ++ leBytes 0 4 ++ (List.range 12).map flag
    ++ leBytes g.fpst.toNat 4 ++ leBytes g.cmpsel.toNat 4 ++ leBytes g.floor 4 ++ bitBytes cl 16 ++ leBytes 0 8
  let lanes := g.perLane 8 (fun l => leBytes l.pc.toNat 8)
    ++ (List.range 256).flatMap (fun i => match g.lane? i with
        | some l => [BitVec.ofNat 8 l.preds.toNat]
        | none => [0x80])
    ++ g.perLane 4 Lane.stateBytes
    ++ g.perLane 4 (fun l => leBytes l.spilled 4)
    ++ g.perLane 32 (fun l => rstackBytes l.rstack)
  let sregs := (List.range 64).flatMap fun k => leBytes (g.sreg k).toNat 4
  let maps := cl.flatMap fun n => bitBytes ((g.lanes.filter fun l => (tget l.v n).isSome).map (·.idx)) 32
  let imgs := cl.flatMap fun n => g.perLane 4 fun l => leBytes (tgetD l.v n 0).toNat 4
  let travs := trav.flatMap fun t =>
    [BitVec.ofNat 8 t.lane, BitVec.ofNat 8 (t.d.getD 0xC0), BitVec.ofNat 8 (t.flag.getD 15), 0] ++ leBytes t.area 4
      ++ leBytes 0 8
  pad64 (head ++ lanes ++ sregs ++ bitBytes (trav.map (·.lane)) 32 ++ maps ++ imgs ++ travs)

/-- The columns of a team's windows, in rising order. -/
def Card.cols (c : Card) : List Nat := (List.range 4).filter fun k => c.scrCols.getLsbD k

/-- R424: the scratch section of one column. -/
def Scratch.section (w : Scratch) (kib4 col : Nat) : Bytes :=
  let base := col * 2 ^ 23
  let n := kib4 * 4096
  let full := (List.range (n / 128)).filter fun k => !w.emptyLines.contains (base / 128 + k)
  let poi := (w.poison.filter fun k => base / 32 ≤ k && k < (base + n) / 32).map (· - base / 32)
  mreadN w.bytes base n ++ bitBytes full (kib4 * 4) ++ bitBytes poi (kib4 * 16)

def slotFmtCode : SlotFmt → Nat
  | .sx7 => 0
  | .sx4 => 1
  | .sx2 => 2
  | .bf16 => 3

/-- R424: the team header's fields beyond FSIZE, FSTATE and REASON. -/
def Team.frameHeader (t : Team) (size : Nat) (fstate : Nat) (reason : Nat) (nent : Nat) : Bytes :=
  let bar (i : Nat) : Bytes :=
    let b := tgetD t.bars i {}
    leBytes b.gen 4 ++ leBytes b.arr 2 ++ leBytes b.cnt 2
  leBytes size 4 ++ [BitVec.ofNat 8 fstate, BitVec.ofNat 8 reason] ++ leBytes t.card.groups 2
    ++ leBytes t.launch 4 ++ leBytes t.team 4 ++ leBytes t.first 4 ++ leBytes t.count 4
    ++ leBytes t.card.scratch 2 ++ [BitVec.ofNat 8 t.card.scrCols.toNat, BitVec.ofNat 8 t.cores.length]
    ++ leBytes t.card.beamRec 2 ++ leBytes t.ops.length 2
    ++ [BitVec.ofNat 8 t.accs.length, BitVec.ofNat 8 nent] ++ leBytes 0 6
    ++ bitBytes (t.recs.map (·.1)) 8
    ++ (List.range 16).flatMap (fun i => leBytes (tgetD t.credit i 0) 2) ++ List.replicate 48 0
    ++ (List.range 16).flatMap bar
    ++ bitBytes (t.ops.map (·.1)) 32 ++ bitBytes (t.accs.map (·.1)) 8 ++ List.replicate 216 0

def Reason.code : Reason → Nat
  | .trap => 1
  | .traversal => 2
  | .forced => 3
  | .drain => 4

/-- Bytes whose form the manual does not give: what the device writes of matrix entries and of traces (R424). They are free values
of the frame (log entry 10). -/
def freeBytes (key n : Nat) : Bytes :=
  (List.range (cdiv n 8)).flatMap fun i => leBytes (Config.freeWord (2 ^ 40 + key * 2 ^ 16 + i)).toNat 8

/-- The sections of a frame after its header, each padded to 64 bytes. A beam record stands in it as its image, a record that a
trace uses with the state of the trace (log entry 10). -/
def Team.frameSections (t : Team) (nent : Nat) (trav : List Traversal) : List Bytes :=
  let pend (g : Nat) : Bytes :=
    bitBytes ((List.range 16).filter fun i => (tgetD t.bars i {}).pend.contains g) 2
  let key := ((t.frame.map (·.seq)).getD 0) * 2 ^ 11
  [ pad64 ((List.range t.card.groups).flatMap pend),
    (List.range 64).flatMap fun k => (tget t.recs k).getD (List.replicate 64 0),
    pad64 (t.ops.flatMap fun (_, o) =>
      [BitVec.ofNat 8 (slotFmtCode o.fmt), BitVec.ofNat 8 o.tbl, if o.sp then 1 else 0, 0] ++ leBytes o.seed.toNat 4),
    pad64 (freeBytes (key + 2 ^ 10) (32 * nent)),
    t.groups.flatMap fun g => g.section (trav.filter (·.grp == g.idx)),
    pad64 (t.card.cols.flatMap fun c => t.scr.section t.card.scratch c),
    (List.range t.card.beamRec).flatMap fun k =>
      match tget t.beams k with
      | some b => if b.traced then freeBytes (key + k) 256 else b.image
      | none => freeBytes (key + k) 256,
    t.ops.flatMap (fun (_, o) => mreadN o.bytes 0 20480 ++ bitBytes o.poison 80 ++ List.replicate 48 0)
      ++ t.accs.flatMap fun (_, a) => mreadN a.bytes 0 65536 ++ bitBytes a.poison 256 ]

/-- FSIZE. -/
def Team.frameSize (t : Team) (nent : Nat) (trav : List Traversal) : Nat :=
  512 + ((t.frameSections nent trav).map fun b => up64 b.length).sum

/-- The bytes of the frame. -/
def Team.frameBytes (t : Team) (fstate reason nent : Nat) (trav : List Traversal) : Bytes :=
  t.frameHeader (t.frameSize nent trav) fstate reason nent ++ (t.frameSections nent trav).flatMap pad64

/-! ### What a restore reads back (R426) -/

/-- The offset of the group sections in a frame. -/
def Team.groupsOff (t : Team) (nent : Nat) : Nat :=
  512 + up64 (2 * t.card.groups) + 4096 + up64 (8 * t.ops.length) + up64 (32 * nent)

/-- A lane with the fields that software may have changed: its PC, predicates, images and on-chip return entries. -/
def Lane.reload (l : Lane) (b : Bytes) (cl : List Nat) : Lane :=
  -- R85: the count of on-chip return entries goes with them
  let n := min (leAt b (0x940 + 4 * l.idx + 2) 1 % 8) 4
  let u := cl.length
  { l with
    pc := dword (leAt b (0x40 + 8 * l.idx) 8)
    preds := BitVec.ofNat 7 (leAt b (0x840 + l.idx) 1)
    rstack := ((List.range n).map fun k => dword (leAt b (0x1140 + 32 * l.idx + 8 * k) 8)).reverse
    v := (cl.zip (List.range u)).foldl (fun m (name, k) =>
        if (tget l.v name).isSome then
          tset m name (word (leAt b (0x3260 + 32 * u + 1024 * k + 4 * l.idx) 4))
        else m) [] }

/-- A group with the fields of its section that software may have changed. -/
def Group.reload (g : Group) (b : Bytes) : Group :=
  let cl := g.claims
  { g with
    s := (List.range 64).foldl (fun m k => tput m k (word (leAt b (0x3140 + 4 * k) 4)) 0) []
    lanes := g.lanes.map fun l => l.reload b cl }

/-- The scratch bytes and full bits of a column as the frame holds them. -/
def Scratch.reload (w : Scratch) (kib4 col : Nat) (b : Bytes) : Scratch :=
  let base := col * 2 ^ 23
  let n := kib4 * 4096
  let full := bytesBits ((b.drop n).take (kib4 * 4))
  let lines := List.range (n / 128)
  { w with
    bytes := mwriteN (mclear w.bytes base n) base (b.take n)
    emptyLines := lines.foldl (fun l k =>
      if full.contains k then sdel l (base / 128 + k) else sins l (base / 128 + k)) w.emptyLines }

end Sys2Proof.Machine
end

