-- ==== Sys2Proof/Machine/Flags.lean ====
section
/-! DEFINITION. The two kinds of flags of a group: the completion flags f0 to f11 (R35, R141, R142) and the sticky
floating-point flags `fpst` (R17). -/

namespace Sys2Proof.Machine

/-- The bits of `fpst` (R17). -/
def fNV : BitVec 5 := 1
def fDZ : BitVec 5 := 2
def fOF : BitVec 5 := 4
def fUF : BitVec 5 := 8
def fNX : BitVec 5 := 16

/-- R17: an instruction ORs its exception bits into the group's `fpst`. -/
def Group.orFpst (g : Group) (b : BitVec 5) : Group := { g with fpst := g.fpst ||| b }

/-- A completion flag's count (R35). -/
def Group.flag (g : Group) (k : Nat) : Nat := tgetD g.flags k 0

/-- R35: a packet's issue increments its flag by 1; a flag never exceeds 63. -/
def Group.incFlag (g : Group) (k : Nat) : Group := { g with flags := tput g.flags k (min 63 (g.flag k + 1)) 0 }

/-- R35: a performed operation decrements its flag by 1; a flag never falls below 0. -/
def Group.decFlag (g : Group) (k : Nat) : Group := { g with flags := tput g.flags k (g.flag k - 1) 0 }

/-- R25, R34: the flag that a completion field names in a line, when the line names one. -/
def flagOf (iss : Issue) (cf : Cf) : Option Nat :=
  match cf with
  | .none => none
  | .a => if iss.fa.toNat < 12 then some iss.fa.toNat else none
  | .b => if iss.fb.toNat < 12 then some iss.fb.toNat else none

/-- The byte offset of a group's section in its team's frame (R424). -/
def Team.sectionOff (t : Team) (nent : Nat) (trav : List Traversal) (g : Nat) : Nat :=
  t.groupsOff nent + ((t.groups.filter (·.idx < g)).map fun x => (x.section (trav.filter (·.grp == x.idx))).length).sum

/-- The matrix entries of a team that its frame holds: those that have not been granted (R318). -/
def State.entriesOf (s : State) (uid : Nat) : Nat := (s.matrix.filter fun e => e.uid == uid && !e.granted).length

/-- The traversals of a team. -/

def State.travOf (s : State) (uid : Nat) : List Traversal := s.traversals.filter (·.uid == uid)

/-- R142: an operation is performed and its flag falls, in the live group or in the group's frame. -/
def State.lowerFlag (s : State) (uid grp : Nat) (flag : Option Nat) : State :=
  match flag, s.team? uid with
  | some k, some t =>
    let s := s.updGroup uid grp (·.decFlag k)
    match t.frame, t.state with
    | some f, .parked | some f, .saved =>
      let off := t.sectionOff (s.entriesOf uid) (s.travOf uid) grp + 0x10 + k / 4 * 4
      let g := (s.group? uid grp).getD { idx := grp }
      let b := (List.range 4).map fun i => BitVec.ofNat 8 (g.flag (k / 4 * 4 + i))
      (devWrite s t.ctx (f.va + dword off) b).1
    | _, _ => s
  | _, _ => s

end Sys2Proof.Machine
end

