-- ==== Sys2Proof/Machine/Operands.lean ====
section
/-! DEFINITION. Operands: what a specifier reads for a lane, at each width (R15, R38, R39), kill bits (R15, R42), and the
writing of destinations (R40). -/

namespace Sys2Proof.Machine

/-- A trap of one lane (R46). `pc`: the PC of its record, where it is another than the instruction's (R26). -/
structure Trap where
  lane : Nat
  cause : Cause
  addr : Dword := 0
  info : Dword := 0
  code : Nat := 0
  pc : Option Dword := none
  deriving DecidableEq, Repr

/-- The packet of the executing instruction with the team and the group that it belongs to. `pre`: the traps of lanes that
the instruction's own line stopped before it (R21); those lanes are not in the packet any more. -/
structure Pk where
  iss : Issue
  team : Team
  grp : Group
  pre : List Trap := []
  deriving DecidableEq, Repr

/-- The packet in state, when one issues. -/
def pk? (s : State) : Option Pk :=
  match s.cur with
  | none => none
  | some iss =>
    match s.team? iss.uid with
    | none => none
    | some t =>
      match t.group? iss.grp with
      | none => none
      | some g => some { iss := iss, team := t, grp := g }

/-- The lanes of the packet, in rising order. -/
def Pk.lanes (p : Pk) : List Lane := p.grp.lanes.filter fun l => p.iss.lanes.contains l.idx

/-- The place of the packet's instruction: its PC and its lanes' REP counter (R126). -/
def Pk.place (p : Pk) : Dword × Nat := (p.iss.pc, ((p.lanes.head?).map (·.rep)).getD 0)

/-- The thread of a lane of the packet. -/
def Pk.tid (p : Pk) (lane : Nat) : Tid := .lane p.iss.uid p.iss.grp lane

/-- R14: a predicate of a lane; pt reads 1. -/
def Lane.pred (l : Lane) (n : BitVec 3) : Bool := n == 7 || l.preds.getLsbD n.toNat

/-- R51: a predicate source. -/
def Lane.psrc (l : Lane) (p : PSrc) : Bool := l.pred p.pn != p.neg

/-- R36: the lane's guard. -/
def Lane.guard (l : Lane) (h : Hdr) : Bool := l.pred h.g != h.gn

/-- R10: the active lanes of the packet. -/
def Pk.active (p : Pk) (h : Hdr) : List Lane := p.lanes.filter (·.guard h)

/-- The lanes of a packet that are active and no helpers (R133). -/
def Pk.workers (p : Pk) (h : Hdr) : List Lane := (p.active h).filter (!·.helper)

/-- R15: a v-register of a lane; an unmapped name reads 0. -/
def Lane.vreg (l : Lane) (n : Nat) : Word := tgetD l.v n 0

/-- R38: the 32-bit value of a specifier for a lane. -/
def Pk.read32 (p : Pk) (l : Lane) (imm : Word) : Spec → Word
  | .v n => l.vreg n.toNat
  | .s n => p.grp.sreg n.toNat
  | .zero => 0
  | .lane => word l.idx
  | .grp => word p.grp.idx
  | .role => word p.grp.role
  | .first => word p.team.first
  | .count => word p.team.count
  | .argpLo => lo32 p.team.argp
  | .argpHi => hi32 p.team.argp
  | .small k => BitVec.ofInt 32 ((k.val : Int) - 15)
  | .imm => imm

/-- R39: the 64-bit value of a specifier for a lane. -/
def Pk.read64 (p : Pk) (l : Lane) (imm : Word) : Spec → Dword
  | .v n => join64 (l.vreg n.toNat) (l.vreg (n.toNat + 1))
  | .s n => join64 (p.grp.sreg n.toNat) (p.grp.sreg (n.toNat + 1))
  | .argpLo => p.team.argp
  | .small k => BitVec.ofInt 64 ((k.val : Int) - 15)
  | .imm => imm.signExtend 64
  | sp => (p.read32 l imm sp).setWidth 64

/-- R39: the words of a 128-bit source, least significant first. -/
def Pk.read128 (p : Pk) (l : Lane) : Spec → List Word
  | .v n => (rangeFrom n.toNat 4).map l.vreg
  | .s n => (rangeFrom n.toNat 4).map p.grp.sreg
  | _ => [0, 0, 0, 0]

/-- A source at a width of 1, 2 or 4 registers, as a natural number. -/
def Pk.readN (p : Pk) (l : Lane) (imm : Word) (sp : Spec) (w : Nat) : Nat :=
  match w with
  | 1 => (p.read32 l imm sp).toNat
  | 2 => (p.read64 l imm sp).toNat
  | _ => (p.read128 l sp).foldr (fun x acc => x.toNat + 2 ^ 32 * acc) 0

/-- The values of the sources of a shape, in field order. -/
def Pk.sources (p : Pk) (l : Lane) (imm : Word) (sh : Shape) : List Nat :=
  sh.srcs.map fun s => p.readN l imm s.src.spec s.w

/-- R42, R50: the v-names that the kill bits of a shape's sources unmap. -/
def shapeKills (sh : Shape) : List Nat :=
  sh.srcs.flatMap fun s =>
    match s.src.kill, s.src.spec with
    | true, .v n => rangeFrom n.toNat s.w
    | _, _ => []

/-- R15: unmaps names of a lane. -/
def Lane.unmap (l : Lane) (names : List Nat) : Lane := { l with v := names.foldl (fun m n => tdel m n) l.v }

/-- The 32-bit words of a value, least significant first. -/
def wordsOf (v : Nat) : Nat → List Word
  | 0 => []
  | n + 1 => word v :: wordsOf (v / 2 ^ 32) n

/-- R15: writes consecutive v-registers of a lane; each name is mapped. -/
def Lane.writeV (l : Lane) (n : Nat) : List Word → Lane
  | [] => l
  | w :: r => ({ l with v := tset l.v n w } : Lane).writeV (n + 1) r

/-- Writes a predicate of a lane; a write to pt has no effect (R14). -/
def Lane.setPred (l : Lane) (n : BitVec 3) (b : Bool) : Lane :=
  if n == 7 then l
  else
    let m : BitVec 7 := BitVec.twoPow 7 n.toNat
    { l with preds := if b then l.preds ||| m else l.preds &&& ~~~m }

/-- Writes consecutive s-registers of a group. -/
def Group.writeS (g : Group) (n : Nat) : List Word → Group
  | [] => g
  | w :: r => (g.setSreg n w).writeS (n + 1) r

end Sys2Proof.Machine
end

