-- ==== Sys2Proof/Machine/Ops.lean ====
section
/-! DEFINITION. What the instructions share: posts and fault records (R324, R416, R417), taking a trap and its disposition
(R418, R419, R423, R425), the exit of lanes and groups (R87, R124), register claims (R136, R137), the issue of an
instruction for its packet (R21, R34 to R37, R131), and the operation of an instruction that computes a result per lane. -/

namespace Sys2Proof.Machine

/-! ### Posts and fault records -/

/-- R324: a non-stalling post sets out for its port. -/
def State.post (s : State) (p : PostReq) : State := { s with joinQ := s.joinQ ++ [p] }

/-- A fault record before it has its SEQ (R417). -/
structure FRec where
  cause : Cause
  source : Nat := 0
  disp : Nat := 0
  kind : Nat := 0
  lane : Nat := 0xFFFF
  grp : Nat := 0xFFFF
  pc : Dword := 0
  addr : Dword := 0
  launch : Nat := 0
  team : Nat := 0
  handle : Nat := 0
  code : Nat := 0
  core : Nat := 0xFF
  nlanes : Nat := 0
  tag : Word := 0
  info : Dword := 0
  deriving DecidableEq, Repr

/-- R417: the 64 bytes of a record. -/
def FRec.bytes (r : FRec) (seq : Nat) : Bytes :=
  leBytes r.cause 1 ++ leBytes r.source 1 ++ leBytes r.disp 1 ++ leBytes r.kind 1 ++ leBytes r.lane 2 ++ leBytes r.grp 2
    ++ leBytes r.pc.toNat 8 ++ leBytes r.addr.toNat 8 ++ leBytes r.launch 4 ++ leBytes r.team 4 ++ leBytes r.handle 8
    ++ leBytes r.code 2 ++ leBytes r.core 1 ++ leBytes r.nlanes 1 ++ leBytes r.tag.toNat 4 ++ leBytes r.info.toNat 8
    ++ leBytes seq 4 ++ leBytes 0 4

/-- R325, R416: LOST counts a record whose notice did not reach the port; it stops at 2^32 - 1 and stands in the
descriptor too. -/
def State.countLost (s : State) (ctx : Nat) : State :=
  match s.ctx? ctx with
  | some c =>
    let n := min 0xFFFFFFFF (c.lost + 1)
    ((s.descSeen ctx).updCtx ctx fun c => { c with lost := n }).writePa (c.desc + 0x34) (leBytes n 4)
  | none => s

/-- R416: writes a fault record to its context's ring and posts its address to the context fault port. A record that finds
the ring full, or whose write would fault, is counted in LOST. R231: the sector of the descriptor that says what becomes of the fault
is checked. -/
def State.record (s : State) (ctx : Nat) (r : FRec) : State :=
  match s.ctx? ctx with
  | none => s
  | some c =>
    let s := (s.descSeen ctx).updCtx ctx fun c => { c with seq := (c.seq + 1) % 2 ^ 32 }
    match ringLook s ctx c.frBase with
    | (s, some (prod, cons, clk)) =>
      let clk := clkJoin c.ringClk clk
      let s := if clk.isEmpty then s else s.updCtx ctx fun c => { c with ringClk := clk }
      if (prod + 2 ^ 32 - cons) % 2 ^ 32 ≥ 2 ^ c.frLog2n then s.countLost ctx
      else
        let a := c.frBase + 64 + dword (64 * (prod % 2 ^ c.frLog2n))
        match devWrite s ctx a (r.bytes c.seq) with
        | (s, none) =>
          (ringProd s ctx c.frBase (prod + 1) clk).post { ctx := ctx, port := c.faultPort, val := a, clk := clk, fault := true }
        | (_, some _) => s.countLost ctx
    | (s, none) => s.countLost ctx

/-- The record fields of a team's group (R417). -/
def FRec.ofGroup (r : FRec) (t : Team) (g : Group) : FRec :=
  { r with grp := g.idx, core := g.core, launch := t.launch, team := t.team }

/-- R417: a handle that the device assigns to an object of a context. -/
def State.newHandle (s : State) (ctx : Nat) : State × Nat :=
  ({ s with nextId := s.nextId + 1, handles := tset s.handles s.nextId ctx }, s.nextId)

/-! ### Frames: the begin of a save -/

/-- A copy or fill that has not ended. -/
def Cmd.isCopy (c : Cmd) : Bool :=
  c.state != .ended && match c.kind with
    | .coll .. => false
    | _ => true

/-- Does a command write its team's scratch or a slot of it? -/
def Cmd.toTeam (c : Cmd) : Bool :=
  match c.kind with
  | .cpy .. | .cpyg .. | .fillScr .. => true
  | _ => false

/-- R437: a forwarding entry retires when no command that it covers is left. -/
def State.retireForwards (s : State) : State :=
  { s with forwards := s.forwards.filter fun e => s.cmds.any (·.forwarded.contains e.2) }

/-- The 64 KiB units of a context's frame pool that hold frames (R425). -/
def State.poolUsed (s : State) (ctx : Nat) : List (Nat × Nat) :=
  match s.ctx? ctx with
  | none => []
  | some c => s.units.filterMap fun t =>
      if t.ctx == ctx then t.frame.map fun f => ((f.va.toNat - c.fpBase.toNat) / 0x10000, f.units) else none

/-- R425: the lowest place in the pool where n units fit. -/
def poolFit (size : Nat) (used : List (Nat × Nat)) (n : Nat) : Option Nat :=
  (List.range size).find? fun k => k + n ≤ size && used.all fun (a, m) => k + n ≤ a || a + m ≤ k

/-- R425 step 1: the first page of a range that is not mapped with V = 1, W = 1 and POI = 0. -/
def badPage (s : State) (ctx : Nat) (va : Dword) (n : Nat) : Option Dword :=
  ((List.range (cdiv n 4096)).map fun i => va + dword (4096 * i)).find? fun a =>
    match (place s none ctx 0 .store a).2 with
    | .ok _ => false
    | .error _ => true

/-! ### Patterns leave -/

/-- R329: a pattern leaves a port's list. LAST keeps the place of a pattern that it named: the next search starts at the
pattern that followed, or at the start of the list when none did. -/
def Port.dropPat (p : Port) (id : Nat) : Port :=
  match p.pats.findIdx? (· == id) with
  | none => p
  | some k =>
    let l := p.pats.filter (· != id)
    { p with
      pats := l
      last := if k + 1 == p.last then (if k < l.length then k else 0) else if k < p.last then p.last - 1 else p.last }

def portKey (ctx port : Nat) : Nat := ctx * 65536 + port

/-- A pattern is removed (R326, R338, R340). -/
def State.removePattern (s : State) (x : Pattern) : State :=
  { s with
    patterns := s.patterns.filter (·.id != x.id)
    ports := x.ports.foldl (fun m n =>
      match tget m (portKey x.ctx n) with
      | some p => tset m (portKey x.ctx n) (p.dropPat x.id)
      | none => m) s.ports }

/-- R338: a kill of a unit removes its WAKE patterns; no message is consumed. -/
def State.dropWakes (s : State) (uid : Nat) : State :=
  (s.patterns.filter fun x => match x.kind with
    | .wake u _ => u == uid
    | .start _ => false).foldl State.removePattern s

/-- R380: traversals of a unit end with no write to D or to their areas; the flag of a packet falls with its last. -/
def State.dropTraversals (s : State) (uid : Nat) (f : Traversal → Bool) : State :=
  let gone (v : Traversal) : Bool := v.uid == uid && f v
  let dead := s.traversals.filter gone
  let rest := s.traversals.filter fun v => !gone v
  let pkts := ((dead.filter fun v => !rest.any (·.pkt == v.pkt)).map fun v => (v.pkt, v.grp, v.flag)).eraseDups
  let s := pkts.foldl (fun s x => s.lowerFlag uid x.2.1 x.2.2) s
  let launch := ((s.team? uid).map fun (t : Team) => t.launch).getD 0
  let s := { s with race := dead.foldl (fun (r : Race) (v : Traversal) =>
      (r.fold launch (.engine v.id uid v.grp)).endEngine (.engine v.id uid v.grp) (uid, v.grp, v.pkt)
        (v.flag.isNone || !rest.any (·.pkt == v.pkt)) false) s.race }
  let s := dead.foldl (fun s v => s.updGroup uid v.grp fun g =>
    { g with inflight := g.inflight.filter (·.owner != some v.id) }) s
  { s with traversals := rest }

/-- R419: terminates a unit. Every lane of every group exits at its next issue; a parked or saved team's frame is
discarded, and its lanes exit at once. Traversals that a park left waiting end (R380). -/
def State.terminate (s : State) (uid : Nat) (killed : Bool) : State :=
  match s.team? uid with
  | none => s
  | some t =>
    let gone := t.state == .parked || t.state == .saved
    -- R318: up to now the governor did not pause the entry of a team that was being saved
    let s := if t.state == .saving then s.govSyncOf uid else s
    let s := match t.frame with
      | some f => (devWrite s t.ctx (f.va + 4) ([5, BitVec.ofNat 8 f.reason.code] ++ leBytes t.card.groups 2)).1
      | none => s
    let s := s.updTeam uid fun t =>
      { t with
        kill := true
        terminated := t.terminated || !killed
        frame := none
        state := if gone then .exited else if t.state == .saving then .running else t.state
        cores := if gone then [] else t.cores
        groups := if gone then t.groups.map fun g => { g with lanes := [], inflight := [] } else t.groups }
    -- R196: the lanes of a saved team exit at once, as by EXIT: their regions end (R244)
    let s : State := if gone then
        { s with race := t.groups.foldl (fun (r : Race) g => g.lanes.foldl (fun (r : Race) l =>
            (r.fold t.launch (.lane uid g.idx l.idx)).finish (.lane uid g.idx l.idx)) r) s.race }
      else s
    let s := if killed then s else s.updLaunch t.launch fun l => { l with terminated := true }
    (s.dropWakes uid).dropTraversals uid fun v => v.parked || killed

/-- R423 step 1, R425: begins a save with a handle. A team that finds no room, or whose pages are not writable, is
terminated instead, with a record. -/
def State.beginSave (s : State) (uid : Nat) (reason : Reason) (handle : Nat) : State :=
  match s.team? uid with
  | none => s
  | some t =>
    -- R92: a save falls between two iterations of a REP
    let s := { s with repNext := s.repNext.filter fun x => x.1.uid != uid }
    match s.ctx? t.ctx with
    | none => s
    | some c =>
      let size := t.frameSize (s.entriesOf uid) (s.travOf uid)
      let fail (s : State) (why : Nat) (addr : Dword) : State :=
        (s.record t.ctx { cause := cENGINEF, source := 8, disp := 1, launch := t.launch, team := t.team, addr := addr,
                          info := dword why }).terminate uid false
      match poolFit c.fpSize (s.poolUsed t.ctx) (cdiv size 0x10000) with
      | none => fail s 10 0
      | some k =>
        let va := c.fpBase + dword (k * 0x10000)
        match badPage s t.ctx va (cdiv size 0x10000 * 0x10000) with
        | some a => fail s 12 a
        | none =>
          -- R436, R437: a forwarding entry for the team's copies that have not ended, when one is free; it covers those whose
          -- destination is the team's scratch or one of its slots
          let copies := s.cmds.any fun k => k.uid == uid && k.isCopy
          let entry := if copies && (s.forwards.filter (·.1 == t.cluster)).length < 64 then some s.nextSeq else none
          let fr : Frame :=
            { handle := handle, va := va, size := size, units := cdiv size 0x10000, reason := reason, seq := s.nextSeq, entry := entry }
          -- R318: from here on the governor does not pause the team's granted entry
          let s := ({ s with nextSeq := s.nextSeq + 1 } : State).govSyncOf uid
          let s := s.updTeam uid fun t => { t with state := .saving, frame := some fr }
          let s := match entry with
            | some e => ({ s with
                forwards := s.forwards ++ [(t.cluster, e)]
                cmds := s.cmds.map fun k => if k.uid == uid && k.isCopy && k.toTeam then { k with forwarded := k.forwarded ++ [e] } else k } :
                State).retireForwards
            | none => s
          (devWrite s t.ctx va (t.frameHeader size 1 reason.code (s.entriesOf uid))).1

/-! ### Taking a trap -/

/-- R418, R419, R46, R47: takes the traps of one issue. One record is written, for the lowest trapping lane; then the
unit is terminated or its team is parked, as DISPMASK and the causes say. The lanes keep their PCs, registers, predicates
and return stacks. -/
def takeTraps (s : State) (uid grp : Nat) (pc : Dword) (traps : List Trap) : State :=
  match traps, s.team? uid with
  | [], _ => s
  | _, none => s
  | t0 :: _, some t =>
    match t.group? grp with
    | none => s
    | some g =>
      let mask := s.dispMask t.ctx
      let park := traps.any fun x => mask.testBit x.cause || x.cause == cPAGEF
      let mark (l : Lane) : Lane := match traps.find? (·.lane == l.idx) with
        | some x => { l with cause := x.cause }
        | none => l
      let s := s.updGroup uid grp fun g => { g with lanes := g.lanes.map mark }
      let base : FRec := FRec.ofGroup
        { cause := t0.cause, lane := t0.lane, pc := t0.pc.getD pc, addr := t0.addr, code := t0.code,
          nlanes := traps.length % 256, info := t0.info } t g
      if t.kill then s.record t.ctx { base with disp := 1 }
      else if !park then (s.record t.ctx { base with disp := 1 }).terminate uid false
      else
        match t.frame with
        | some f =>
          -- R428: a frame of a forced or drain save never waits for RESUME
          let waits : Bool := f.reason == .trap || f.reason == .traversal
          s.record t.ctx { base with disp := 2, kind := if waits then 1 else 0, handle := if waits then f.handle else 0 }
        | none =>
          let (s, h) := s.newHandle t.ctx
          (s.record t.ctx { base with disp := 2, kind := 1, handle := h }).beginSave uid .trap h

/-! ### Registers: claims (R136, R137) -/

/-- The groups that hold places on a quadrant: those that have not exited (R124), and those of a terminated or killed unit that exited
with it, until the unit is COMPLETE (R196; log entry 67). -/
def State.onQuad (s : State) (q : Nat) : List Group :=
  s.units.flatMap fun t =>
    let on (g : Group) : Bool := g.quadNo == q
    if t.state == .running || t.state == .saving then t.groups.filter fun g => on g && (!g.lanes.isEmpty || g.held)
    else if t.state == .exited && !s.complete t then t.groups.filter fun g => on g && g.held
    else []

/-- The same groups, by unit and number. -/
def State.onQuadIds (s : State) (q : Nat) : List (Nat × Nat) :=
  s.units.flatMap fun t =>
    if t.state == .running || t.state == .saving then
      (t.groups.filter fun g => !g.lanes.isEmpty && g.quadNo == q).map fun g => (t.uid, g.idx)
    else []

/-- The credits that count on a quadrant (R161). -/
def State.creditOn (s : State) (q : Nat) : Nat :=
  (s.units.filterMap fun t =>
    if t.resident && !s.complete t then
      (t.cores.zip (List.range t.cores.length)).findSome? fun (c, i) =>
        if c == q / 4 then some (tgetD t.credit (i * 4 + q % 4) 0) else none
    else none).sum

/-- R137: the free count of a quadrant. -/
def State.freeCount (s : State) (q : Nat) : Nat :=
  1024 - (((s.onQuad q).map fun g => max g.floor g.footprint + (g.waits.map (·.grant)).sum).sum + s.creditOn q)

/-- The capacity that a write of new names needs from the free count. -/
def Group.capacity (g : Group) (names : List Nat) : Nat :=
  let n := (names.filter fun x => !g.claims.contains x).eraseDups.length
  max g.floor (g.footprint + n) - max g.floor g.footprint

/-- R161: the key of a group's quadrant among its team's credits. -/
def Team.creditKey (t : Team) (g : Group) : Nat := 4 * (t.cores.findIdx (· == g.core)) + g.quad

/-- R161: what a REGCLAIM of n takes from the credit, and what it needs from the free count. -/
def claimSplit (t : Team) (g : Group) (n : Nat) : Nat × Nat :=
  let u := g.footprint
  let need := max (g.floor + n) u - max g.floor u
  let take := min need (tgetD t.credit (t.creditKey g) 0)
  (take, need - take)

/-- R137: the waits of a quadrant that have not been served in full. -/
def State.unserved (s : State) (q : Nat) : List ClaimWait :=
  ((s.onQuad q).flatMap (·.waits)).filter fun w => w.grant < w.need

/-- R137: may the need of a group's instruction at a place be met now? A younger need is not met while an older wait stands. -/
def State.canClaim (s : State) (g : Group) (place : Dword × Nat) (need : Nat) : Bool :=
  need == 0
    || match g.waits.find? (·.place == place) with
      | some w => need ≤ w.grant
          || (need ≤ s.freeCount g.quadNo + w.grant && (s.unserved g.quadNo).all fun o => w.rank ≤ o.rank)
      | none => need ≤ s.freeCount g.quadNo && (s.unserved g.quadNo).isEmpty

/-- R137: a wait for capacity begins when its instruction first fails to issue. -/
def State.beginClaimWait (s : State) (uid grp : Nat) (place : Dword × Nat) (need : Nat) : State :=
  match s.group? uid grp with
  | some g =>
    if g.waits.any (·.place == place) then s
    else
      let s := s.updGroup uid grp fun g => { g with waits := g.waits ++ [{ rank := s.nextSeq, place := place, need := need }] }
      { s with nextSeq := s.nextSeq + 1 }
  | none => s

/-- R137: the wait ends when its instruction issues. -/
def State.endClaimWait (s : State) (uid grp : Nat) (place : Dword × Nat) : State :=
  s.updGroup uid grp fun g => { g with waits := g.waits.filter (·.place != place) }

/-! ### Lanes leave: barriers and convergence -/

/-- R158: completes a barrier when its count is reached; every group parked at it goes on. -/
def Team.checkBarrier (t : Team) (i : Nat) : Team × Bool :=
  let b := tgetD t.bars i {}
  let live := t.groups.filter fun g => !g.lanes.isEmpty
  let done := if b.cnt == 0 then b.arr > 0 && live.all fun g => b.pend.contains g.idx else b.arr == b.cnt
  if done then
    ({ t with bars := tset t.bars i { gen := (b.gen + 1) % 2 ^ 32, arr := 0, cnt := b.cnt, pend := [] } }, true)
  else (t, false)

/-- The next PC in sequence (R21): the next slot, or slot 0 of the next line. -/
def nextPc (pc : Dword) : Dword :=
  if pc.toNat % 8 < 4 then pc + 1 else dword (pc.toNat / 64 * 64 + 64)

/-- Does the next PC in sequence enter a new line? -/
def lastSlot (pc : Dword) : Bool := pc.toNat % 8 ≥ 4

/-- A lane moves on in sequence; the end of a line is an entry by fall-through (R26). -/
def Lane.next (l : Lane) : Lane :=
  { l with pc := nextPc l.pc, entry := if lastSlot l.pc then .fresh false else .none
           line := if lastSlot l.pc then none else l.line }

/-- R158, R159, R238: a completed barrier's released groups acquire what its arrivals released, and go on; a group whose
arrival had to wait for this completion executes its BAR again. -/
def State.releaseBarrier (s : State) (uid i : Nat) (t' : Team) : State :=
  let c := clkAt s.race.barClk (uid, i)
  let atBar (l : Lane) : Bool := match l.park with
    | some (.bar j _, _) => j == i
    | _ => false
  let freed := t'.groups.filter fun g => g.lanes.any atBar
  let race := freed.foldl (fun r g => g.lanes.foldl (fun r l => r.acquire (.lane uid g.idx l.idx) c) r) s.race
  let race := { race with barClk := ((uid, 16 + i), c) :: race.barClk.filter fun e => e.1 != (uid, i) && e.1 != (uid, 16 + i) }
  let s := freed.foldl (fun s g => s.l1Invalidate g.core) { s with race := race }
  s.updTeam uid fun _ =>
    { t' with groups := t'.groups.map fun g =>
        { g with lanes := g.lanes.map fun l =>
            match l.park with
            | some (.bar j again, _) =>
              if j == i then (if again then { l with park := none } else ({ l with park := none } : Lane).next) else l
            | _ => l } }

/-- R158: checks every barrier of a team, at an arrival or a group's exit. -/
def State.checkBarriers (s : State) (uid : Nat) : State :=
  (List.range 16).foldl (fun s i =>
    match s.team? uid with
    | none => s
    | some t =>
      match t.checkBarrier i with
      | (_, false) => s
      | (t', true) => s.releaseBarrier uid i t') s

/-- R153: when every non-exited lane of a group is parked at a CONV with one PC, all of them leave it together. R154: at
differing PCs they trap. -/
def State.checkConv (s : State) (uid grp : Nat) : State :=
  match s.group? uid grp with
  | none => s
  | some g =>
    let atConv (l : Lane) : Bool := match l.park with
      | some (.conv, _) => true
      | _ => false
    match g.lanes with
    | [] => s
    | l0 :: _ =>
      if g.lanes.all atConv then
        if g.lanes.all fun l => l.pc == l0.pc then
          s.updGroup uid grp fun g => { g with lanes := g.lanes.map fun l => { l with park := none }.next }
        else takeTraps s uid grp l0.pc (g.lanes.map fun l => { lane := l.idx, cause := cILLCONV })
      else s

/-- R196: a team whose groups have all exited is EXITED. -/
def State.settle (s : State) (uid : Nat) : State :=
  match s.team? uid with
  | some t => if t.groups.all (·.lanes.isEmpty) then s.updTeam uid fun t => { t with state := .exited, frame := none } else s
  | none => s

/-- R87, R124, R196: lanes exit. Their loads in flight are discarded, their regions end at system scope (R244); a group's last
exit ends the group, which can complete barriers. -/
def State.exitLanes (s : State) (uid grp : Nat) (ls : List Nat) : State :=
  let launch := ((s.team? uid).map fun (t : Team) => t.launch).getD 0
  let s := { s with race := ls.foldl (fun (r : Race) l => (r.fold launch (.lane uid grp l)).finish (.lane uid grp l)) s.race }
  let s := s.updGroup uid grp fun g =>
    { g with
      lanes := g.lanes.filter fun l => !ls.contains l.idx
      fes := (g.fes.map fun w => { w with lanes := w.lanes.filter fun e => !ls.contains e.1 }).filter (!·.lanes.isEmpty)
      inflight := g.inflight.map fun p =>
        { p with regs := p.regs.filter fun e => !ls.contains e.1, preds := p.preds.filter fun e => !ls.contains e.1 } }
  match s.group? uid grp with
  | some g =>
    if g.lanes.isEmpty then
      let dead := ((s.team? uid).map fun (t : Team) => t.kill).getD false
      let s := s.updGroup uid grp fun g => { g with waits := [], held := dead }
      (s.checkBarriers uid).settle uid
    else s.checkConv uid grp
  | none => s

/-! ### Issue -/

/-- R90: a lane past the REP and its governed instruction. -/
def Lane.repDone (l : Lane) : Lane := ({ l with rep := 0, repN := none, pc := l.pc + 1 } : Lane).next

/-- A lane after the instruction of its packet: under REP its counter moves (R90), else its PC does. -/
def Lane.advance (l : Lane) (iss : Issue) : Lane :=
  match iss.rep with
  | none => l.next
  | some _ =>
    match l.repN with
    | some n => if l.rep + 1 < n then { l with rep := l.rep + 1 } else (l.unmap iss.repKill).repDone
    | none => l.repDone

/-- Does a lane go on past the packet's instruction, or does its REP go round again? -/
def Lane.leaves (l : Lane) (iss : Issue) : Bool :=
  match iss.rep, l.repN with
  | some _, some n => l.rep + 1 ≥ n
  | _, _ => true

def State.updPkLanes (s : State) (p : Pk) (ls : List Nat) (f : Lane → Lane) : State :=
  s.updGroup p.iss.uid p.iss.grp (·.updLanes ls f)

/-- Advances lanes of the packet. -/
def State.advance (s : State) (p : Pk) (ls : List Nat) : State := s.updPkLanes p ls (·.advance p.iss)

/-- R127, R128: one group issue. The packet's lanes get W = 0 and have issued the first instruction of their entry; the
runnable lanes outside it wait one issue longer. -/
def State.commit (s : State) (p : Pk) : State :=
  s.updGroup p.iss.uid p.iss.grp fun g =>
    { g with
      yielded := []
      lastPc := p.iss.pc
      lastLanes := if p.iss.rep.isSome then [] else p.iss.lanes
      lanes := g.lanes.map fun l =>
        if p.iss.lanes.contains l.idx then { l with w := 0, entry := .none }
        else if p.iss.others.contains l.idx then { l with w := l.w + 1 }
        else l }

/-- The trap of every lane of a list. -/
def trapAll (ls : List Lane) (c : Cause) (info : Dword := 0) : List Trap :=
  ls.map fun l => { lane := l.idx, cause := c, info := info }

/-- Puts a trap into a list in rising order of lanes. -/
def putTrap (x : Trap) : List Trap → List Trap
  | [] => [x]
  | y :: r => if x.lane ≤ y.lane then x :: y :: r else y :: putTrap x r

/-- Traps in rising order of their lanes. -/
def sortTraps (l : List Trap) : List Trap := l.foldr putTrap []

/-- R418: takes the traps of the packet's issue at its PC, those of stopped lanes included. -/
def State.trapPk (s : State) (p : Pk) (traps : List Trap) : State :=
  takeTraps s p.iss.uid p.iss.grp p.iss.pc (sortTraps (p.pre ++ traps))

/-- The PC in sequence after a packet's instruction; under REP it is the one after the governed instruction. -/
def Issue.seqPc (iss : Issue) : Dword :=
  match iss.rep with
  | none => nextPc iss.pc
  | some _ => nextPc (iss.pc + 1)

/-- R21: would the next line in sequence be malformed? -/
def Issue.seqBad (iss : Issue) : Bool := !canonical iss.seqPc

/-- R21: the trap of a lane that would go on there. Its PC is that of the instruction in slot 4, also where a REP governs it. -/
def Issue.seqTrap (iss : Issue) (lane : Nat) : Trap :=
  { lane := lane, cause := cBRTGT, addr := iss.seqPc, pc := iss.rep.map (· + 1) }

/-- R131: how a group-collective instruction finds its group. -/
inductive Gather where
  | go | hold | illconv
  deriving DecidableEq, Repr

/-- R131: the instruction issues when every non-exited lane is in the packet; it waits for lanes that stand at its place and
only wait for a flag, a claim or an operand; otherwise it raises ILLCONV. -/
def Pk.gather (p : Pk) : Gather :=
  let out := p.grp.lanes.filter fun l => !p.iss.lanes.contains l.idx
  let line := (p.lanes.head?).bind (·.line)
  if out.isEmpty then .go
  else if out.any fun l => (l.pc, l.rep) == p.place && l.park.isNone && l.line == line then .hold
  else .illconv

/-- R37, R61: the encoding fault of an instruction in its line. -/
def encFault (i : Instr) (iss : Issue) : Option Cause :=
  let cfBad := match i.hdr with
    | some h => h.cf != .none && (flagOf iss h.cf).isNone
    | none => false
  if cfBad || !i.legal then some cILLOP else if !i.shapeOk then some cILLOPD else none

/-- The issue of an instruction for its packet, up to its own effect. In the order of R45: BRTGT of the next line (for the
lanes that go on in sequence), the encoding faults for every lane, ILLCONV, the register limit of R137. An instruction
whose flag stands at 63, whose claim cannot be met or whose group has not gathered does not issue. The flag rises once when
a lane is active (R35). `names`: the v-names that the packet writes; `seq`: the lanes that go on in sequence; `chk`: the ILLOPD traps that the
instruction's operand values raise; `late`: the traps of a later class that are raised before it has any effect.
R131, R310 and R337 trap every lane of the packet, lanes whose guard is false included, and the model follows them where the list of
R36 does not name those traps (log entry 38). After an ILLOPD of a group-collective instruction its inactive lanes stay at it with
the group; those of another instruction go on (log entry 38). -/
def issueWith (i : Instr) (h : Hdr) (names : Pk → List Nat) (seq : Pk → List Lane) (s : State)
    (k : State → Pk → Answer) (chk late : Pk → List Trap := fun _ => []) : Answer :=
  match pk? s with
  | none => .fault .noPacket
  | some p =>
    let stop := if p.iss.seqBad then (seq p).filter (·.leaves p.iss) else []
    let gone := stop.map (·.idx)
    let s' := s.commit p
    let p := { p with
      pre := stop.map fun l => p.iss.seqTrap l.idx
      iss := { p.iss with lanes := p.iss.lanes.filter fun l => !gone.contains l } }
    let act := p.active h
    if !stop.isEmpty && p.iss.lanes.isEmpty then .next (s'.trapPk p [])
    else
      match encFault i p.iss with
      | some c => .next (s'.trapPk p (trapAll p.lanes c))
      | none =>
        let gather := if i.collective then p.gather else .go
        let names := if act.isEmpty then [] else names p
        let fresh := (names.filter fun x => !p.grp.claims.contains x).eraseDups
        let peak := if !fresh.isEmpty && p.grp.footprint + fresh.length > p.team.card.regPeak then trapAll act cILLOPD else []
        let bad := chk p
        let fail (ts : List Trap) : Answer :=
          let rest := p.iss.lanes.filter fun l => !(ts.map (·.lane)).contains l
          .next ((s'.advance p (if i.collective then [] else rest)).trapPk p ts)
        let full := match flagOf p.iss h.cf with
          | none => false
          | some f => !act.isEmpty && p.grp.flag f ≥ 63
        let bad2 := late p
        if gather == .hold then .next s
        else if !bad.isEmpty then fail bad
        else if !peak.isEmpty then fail peak
        else if gather == .illconv then .next (s'.trapPk p (trapAll p.lanes cILLCONV))
        else if !s.canClaim p.grp p.place (p.grp.capacity names) then
          .next (s.beginClaimWait p.iss.uid p.iss.grp p.place (p.grp.capacity names))
        else
          if full then .next s
          else if !bad2.isEmpty then fail bad2
          else
            let s' := if p.grp.capacity names == 0 then s' else s'.endClaimWait p.iss.uid p.iss.grp p.place
            match flagOf p.iss h.cf with
            | none => k s' p
            | some f => k (if act.isEmpty then s' else s'.updGroup p.iss.uid p.iss.grp (·.incFlag f)) p

/-- The issue of an instruction whose lanes all go on in sequence. -/
def issue (i : Instr) (h : Hdr) (s : State) (k : State → Pk → Answer) (chk late : Pk → List Trap := fun _ => []) :
    Answer :=
  issueWith i h (fun _ => instrDst i) Pk.lanes s k chk late

/-- R42: unmaps killed names of lanes. -/
def State.kill (s : State) (p : Pk) (ls : List Nat) (names : List Nat) : State :=
  if names.isEmpty then s else s.updPkLanes p ls (·.unmap names)

/-- A later write to predicates takes the place of a result still in flight. -/
def Group.supersedeP (g : Group) (ls : List Nat) (ns : List Nat) : Group :=
  { g with inflight := g.inflight.map fun q =>
      { q with preds := q.preds.filter fun e => !(ls.contains e.1 && ns.contains e.2.1) } }

/-- A later write to a register takes the place of a result still in flight. -/
def Group.supersede (g : Group) (ls : List Nat) (names : List Nat) : Group :=
  { g with inflight := g.inflight.map fun q =>
      { q with regs := q.regs.filter fun e => !(ls.contains e.1 && names.contains e.2.1) } }

/-- What an instruction computes for one lane: its result and the `fpst` bits it raises. -/
structure Res where
  val : Nat
  fp : BitVec 5 := 0
  deriving DecidableEq, Repr

/-- A result without floating-point flags. -/
def Res.of (v : Nat) : Res := ⟨v, 0⟩

/-- Writes each listed lane's words to a v-destination, the scalar value to an s-destination (R41, R74), or nothing to
`zero` (R40). -/
def State.writeDst (s : State) (p : Pk) (d : Spec) (w : Nat) (vals : List (Nat × Nat)) : State :=
  match d with
  | .v n =>
    let ls := vals.map (·.1)
    s.updGroup p.iss.uid p.iss.grp fun g =>
      let g := g.supersede ls (rangeFrom n.toNat w)
      { g with lanes := g.lanes.map fun l =>
          match vals.find? (·.1 == l.idx) with
          | some (_, v) => l.writeV n.toNat (wordsOf v w)
          | none => l }
  | .s n =>
    match vals with
    | (_, v) :: _ => s.updGroup p.iss.uid p.iss.grp (·.writeS n.toNat (wordsOf v w))
    | [] => s
  | _ => s

/-- Executes an instruction that computes one result per active lane, all sources read before any destination is written
(R9, R73), once on the scalar path when its destination is an s-register (R41, R74). `f` is given the packet after its
issue, the lane and the values of the sources. -/
def alu (i : Instr) (h : Hdr) (imm : Word) (f : Pk → Lane → List Nat → Res) (s : State)
    (chk : Pk → List Trap := fun _ => []) : Answer :=
  issue i h s (chk := chk) fun s p =>
    let act := if i.scalarDst then (p.active h).take 1 else p.active h
    let rs := act.map fun l => (l.idx, f p l (p.sources l imm i.shape))
    let d := i.shape.dst.getD ⟨.zero, 1, false⟩
    let s := s.kill p ((p.active h).map (·.idx)) (shapeKills i.shape)
    let s := s.updGroup p.iss.uid p.iss.grp (·.orFpst (rs.foldl (fun a r => a ||| r.2.fp) 0))
    let s := s.writeDst p d.spec d.w (rs.map fun r => (r.1, r.2.val))
    .next ((s.advance p p.iss.lanes).trapPk p [])

/-- The same for an instruction that writes one predicate per active lane (R51). -/
def aluPred (i : Instr) (h : Hdr) (imm : Word) (pd : BitVec 3) (f : Pk → Lane → List Nat → Bool × BitVec 5)
    (s : State) : Answer :=
  issue i h s fun s p =>
    let act := p.active h
    let rs := act.map fun l => (l.idx, f p l (p.sources l imm i.shape))
    let s := s.kill p (act.map (·.idx)) (shapeKills i.shape)
    let s := s.updGroup p.iss.uid p.iss.grp fun g =>
      let g := g.supersedeP (act.map (·.idx)) [pd.toNat]
      { g with
        fpst := rs.foldl (fun a r => a ||| r.2.2) g.fpst
        lanes := g.lanes.map fun l =>
          match rs.find? (·.1 == l.idx) with
          | some (_, b, _) => l.setPred pd b
          | none => l }
    .next ((s.advance p p.iss.lanes).trapPk p [])

/-! ### Long-latency results -/

/-- A long-latency instruction's results are in flight: registers, predicates and the flag come with
LONG_LATENCY_COMPLETE (R34, R35, R125). A write in flight to the same register gives way to the later one. -/
def State.fly (s : State) (p : Pk) (q : Pending) : State :=
  s.updGroup p.iss.uid p.iss.grp fun g =>
    let yield (o : Pending) : Pending :=
      { o with regs := o.regs.filter fun e => !q.regs.any fun x => x.1 == e.1 && x.2.1 == e.2.1
               preds := o.preds.filter fun e => !q.preds.any fun x => x.1 == e.1 && x.2.1 == e.2.1 }
    { g with inflight := g.inflight.map yield ++ [q] }

/-- The register writes of a v-destination, per lane. -/
def regWrites (d : Spec) (w : Nat) (vals : List (Nat × Nat)) : List (Nat × Nat × Word) :=
  match d with
  | .v n => vals.flatMap fun (l, v) =>
      ((rangeFrom n.toNat w).zip (wordsOf v w)).map fun (r, x) => (l, r, x)
  | _ => []

/-- R35: a part of a packet is performed: the packet's flag falls, or stays with another of its results in flight. -/
def Group.endPkt (g : Group) (pkt f : Nat) : Group :=
  if pkt != 0 && g.inflight.any (·.pkt == pkt) then
    { g with inflight := updFirst (fun q => q.pkt == pkt) (fun q => { q with flag := some f }) g.inflight }
  else g.decFlag f

/-- R125, R34: delivers a result in flight. -/
def Group.deliver (g : Group) (q : Pending) : Group :=
  let lanes := g.lanes.map fun l =>
    let l := q.regs.foldl (fun l e => if e.1 == l.idx then { l with v := tset l.v e.2.1 e.2.2 } else l) l
    q.preds.foldl (fun l e => if e.1 == l.idx then l.setPred (BitVec.ofNat 3 e.2.1) e.2.2 else l) l
  let g := { g with lanes := lanes }
  match q.flag with
  | some f => g.endPkt q.pkt f
  | none => g

/-- R133: the instructions that a helper lane carries out in full; every other memory or engine instruction is suppressed. -/
def helperRuns (i : Instr) : Bool :=
  match i with
  | .ld .. | .fewait .. | .fence .. | .pref .. | .cctlL1 .. | .cctlL1all .. | .cctlIc .. | .cctlMap .. | .tex .. | .texg ..
  | .texq .. | .lodld .. | .rtrace .. | .rresume .. => true
  | i => i.cls != .memory && i.cls != .engine

/-- R133, R35: does a packet perform nothing that its flag could wait for? A suppressed effect never holds a flag. -/
def Pk.suppressed (p : Pk) (i : Instr) (h : Hdr) : Bool := !helperRuns i && (p.workers h).isEmpty

/-- Runs an effect lane by lane in rising order; a lane that traps leaves the state as it found it (R11, R46). -/
def runLanes (f : State → Lane → State × Except Trap (List (Nat × Nat))) (s : State) :
    List Lane → State × List (Nat × Nat) × List Trap
  | [] => (s, [], [])
  | l :: r =>
    match f s l with
    | (s, .ok v) =>
      let (s, vs, ts) := runLanes f s r
      (s, v ++ vs, ts)
    | (s, .error t) =>
      let (s, vs, ts) := runLanes f s r
      (s, vs, t :: ts)

/-- The lanes of the packet that are not active. -/
def Pk.idle (p : Pk) (h : Hdr) : List Nat := (p.lanes.filter fun l => !l.guard h).map (·.idx)

/-- The end of a long-latency instruction for the lanes `go`: kill bits apply, their results are in flight with the flag,
and they go on; then the traps are taken. An s-destination is written at once, for the group is converged. A flag that only
suppressed effects have raised falls at once (R133). `pkt`: the packet's number, when it is served in parts. -/
def finishSome (i : Instr) (h : Hdr) (p : Pk) (s : State) (go : List Nat) (vals : List (Nat × Nat))
    (preds : List (Nat × Nat × Bool)) (flag : Option Nat) (traps : List Trap) (pkt : Nat := 0) : State :=
  let act := ((p.active h).map (·.idx)).filter go.contains
  let d := i.shape.dst.getD ⟨.zero, 1, false⟩
  let s := s.kill p act (shapeKills i.shape)
  let s := match d.spec with
    | .s _ => s.writeDst p d.spec d.w vals
    | _ => s
  let s := match p.suppressed i h, flag with
    | true, some f => s.updGroup p.iss.uid p.iss.grp (·.decFlag f)
    | _, _ => s
  let q : Pending :=
    { regs := regWrites d.spec d.w vals, preds := preds, flag := if p.suppressed i h then none else flag, pkt := pkt
      idle := p.idle h }
  let s := if q.regs.isEmpty && q.preds.isEmpty && q.flag.isNone then s else s.fly p q
  (s.advance p go).trapPk p traps

/-- How many results a packet's group has in flight. -/
def Pk.inflightOf (p : Pk) (s : State) : Nat := ((s.group? p.iss.uid p.iss.grp).map (·.inflight.length)).getD 0

/-- R275: the results that a packet has put in flight, beyond the first n, come from lookups that have read lines of a residency
map. -/
def State.readMaps (s : State) (p : Pk) (n : Nat) (lines : List Nat) : State :=
  if lines.isEmpty then s
  else ({ s with nextSeq := s.nextSeq + 1 } : State).updGroup p.iss.uid p.iss.grp fun g => { g with
    inflight := g.inflight.take n ++ (g.inflight.drop n).map fun q => { q with seq := s.nextSeq, mapRead := lines } }

/-- The results that a packet has put in flight, beyond the first n, reach the lanes of each set together. -/
def State.arriveSets (s : State) (p : Pk) (n : Nat) (sets : List (List Nat)) : State :=
  if sets.isEmpty then s
  else s.updGroup p.iss.uid p.iss.grp fun g => { g with
    inflight := g.inflight.take n ++ (g.inflight.drop n).map fun q => { q with sets := sets } }

/-- The lanes of a list by their keys: one set for each key. -/
def setsByKey (l : List (Nat × Nat)) : List (List Nat) :=
  (l.map (·.2)).eraseDups.map fun k => (l.filter (·.2 == k)).map (·.1)

/-- The flag that a packet's instruction counts on, when a lane is active (R35). -/
def Pk.flag (p : Pk) (h : Hdr) : Option Nat := if (p.active h).isEmpty then none else flagOf p.iss h.cf

/-- The same for every lane of the packet that did not trap. -/
def finishLanes (i : Instr) (h : Hdr) (p : Pk) (s : State) (vals : List (Nat × Nat)) (preds : List (Nat × Nat × Bool))
    (traps : List Trap) : State :=
  finishSome i h p s (p.iss.lanes.filter fun l => !(traps.map (·.lane)).contains l) vals preds (p.flag h) traps

end Sys2Proof.Machine
end

