-- ==== Sys2Proof/Machine/Sched.lean ====
section
/-! DEFINITION. Which instruction issues next: the fetch and the entry of code lines (R19 to R30), the lanes that may run
(R125), the packet (R126, R128, R155), and the quadrant's choice of a group (R130). -/

namespace Sys2Proof.Machine

/-! ### Code lines -/

/-- The line word of a line (R25). -/
def lineWord (l : BitVec 512) : BitVec 32 := l.extractLsb' 480 32

/-- The instruction word of a slot (R19). -/
def slotWord (l : BitVec 512) (slot : Nat) : BitVec 96 := l.extractLsb' (96 * slot) 96

/-- The exclusive-or of the bits of a line: 2^k bits are folded in half until one is left. -/
def parityFold (x : Nat) : Nat → Nat
  | 0 => x
  | k + 1 => parityFold ((x / 2 ^ 2 ^ k) ^^^ (x % 2 ^ 2 ^ k)) k

/-- R25: PAR makes the number of 1 bits of a line even. -/
def parityOk (l : BitVec 512) : Bool := parityFold l.toNat 9 == 0

/-- R26 step 3: bits 30:28 are zero, and FA and FB are not 12 to 14. -/
def lineWordOk (w : BitVec 32) : Bool :=
  let flagOk (f : Nat) : Bool := f < 12 || f == 15
  nbits w.toNat 30 28 == 0 && flagOk (nbits w.toNat 15 12) && flagOk (nbits w.toNat 19 16)

/-- R25: the flags that a line's WAIT names. -/
def waitFlags (w : BitVec 32) : List Nat := (List.range 12).filter fun k => w.getLsbD k

/-- R25: may a slot be entered by a transfer? -/
def lineTgt (w : BitVec 32) (slot : Nat) : Bool := w.getLsbD (20 + slot)

/-- R20: a malformed PC. -/
def pcMalformed (pc : Dword) : Bool := nbits pc.toNat 5 3 != 0 || nbits pc.toNat 2 0 > 4 || !canonical pc

def icKey (core pa : Nat) : Nat := core * coreSpan + pa / 64

/-- The line at an address in memory. -/
def lineOf (s : State) (pa : Nat) : BitVec 512 := BitVec.ofNat 512 (leNat (s.readPa pa 64))

/-- R1: the lines that a core's instruction cache of 64 KiB holds. -/
def icLines : Nat := 1024

/-- R24: does a lane of a core stand in a line with the content of a cached copy? The cache keeps such a copy, so that every entry
finds one content of the line until an invalidation. -/
def State.icHeld (s : State) (core key : Nat) : Bool :=
  match tget s.icache key with
  | none => false
  | some c => s.units.any fun t => t.groups.any fun g => g.core == core && g.lanes.any fun l => l.line == some c

/-- R1, R24: a line enters a core's instruction cache; a full cache drops a line of the device's choice (R8), one in which no lane
stands if there is one. R458: no line of host memory is held. -/
def State.icFill (s : State) (core pa : Nat) (l : BitVec 512) : State :=
  if paHost pa then s
  else
  let mine := s.icache.filter fun e => e.1 / coreSpan == core && e.1 != icKey core pa
  if mine.length < icLines then { s with icache := tset s.icache (icKey core pa) l }
  else
    let loose := mine.filter fun e => !s.icHeld core e.1
    let from_ := if loose.isEmpty then mine else loose
    let (s, k) := s.choose from_.length
    let m := match from_[k]? with
      | some e => tdel s.icache e.1
      | none => s.icache
    { s with icache := tset m (icKey core pa) l }

/-- R23, R24: fetches the line of a PC through the core's instruction cache and TLB: the line and its address, or the
fault. R422 lists no fetch among the consumers of poison, and the model makes no poison check of a code sector (log entry
34). -/
def fetchLine (s : State) (core ctx : Nat) (pc : Dword) : State × Except Cause (BitVec 512 × Nat) :=
  let (s, r) := place s (some core) ctx 0 .fetch (dword (pc.toNat / 64 * 64))
  match r with
  | .error c => (s, .error c)
  | .ok p =>
    match tget s.icache (icKey core p.pa) with
    | some l => (s, .ok (l, p.pa))
    | none =>
      let s := (s.verifyN p.pa 64).hostReq p 64 .read
      let l := lineOf s p.pa
      (s.icFill core p.pa l, .ok (l, p.pa))

/-- R26 steps 1 to 4, up to the target check: the line, or the fault at the entered PC. A line of wrong parity is fetched
once more from memory, and one soft error is counted. The rule does not say how many events several lanes of a packet count at
one line: DESIGN CHOICE, one for each check that is made, which is one a lane at a transfer and one a packet at a start or a
fall-through (log entry 64). -/
def enterLine (s : State) (core ctx : Nat) (pc : Dword) : State × Except Cause (BitVec 512) :=
  match fetchLine s core ctx pc with
  | (s, .error c) => (s, .error c)
  | (s, .ok (l, pa)) =>
    let (s, l) :=
      if parityOk l then (s, l)
      else
        let s := (s.verifyN pa 64).hostReq ⟨pa, 0, false⟩ 64 .read
        let l := lineOf s pa
        ((s.countAt (0x3000 + 16 * core + 12)).icFill core pa l, l)
    if parityOk l && lineWordOk (lineWord l) then (s, .ok l) else (s, .error cILLINE)

/-- R20, R22, R26: the check of a pending entry at a PC: the line, or the cause. A PC that the card's ENTRY malforms, or that a
frame does, raises BRTGT with itself as its address; TGT is checked for an entry by a transfer (R30). -/
def entryCheck (s : State) (t : Team) (g : Group) (pc : Dword) (transfer : Bool) : State × Except Cause (BitVec 512) :=
  if pcMalformed pc || (pc == t.card.entry && nbits pc.toNat 5 0 != 0) then (s, .error cBRTGT)
  else
    match enterLine s g.core t.ctx pc with
    | (s, .error c) => (s, .error c)
    | (s, .ok l) => (s, if transfer && !lineTgt (lineWord l) (pc.toNat % 8) then .error cBRTGT else .ok l)

/-- The record's ADDR and INFO of a fault at an entry. -/
def entryTrap (lane : Nat) (pc : Dword) (c : Cause) : Trap :=
  { lane := lane, cause := c, addr := if c == cILLINE then 0 else pc
    info := if c == cPAGEF || c == cPROT then 2 else 0 }

/-! ### Settling entries -/

/-- What a lane still has to fetch: the check of a pending entry, or the line that it stood in when it was saved. -/
inductive Due where
  | entry (transfer : Bool)
  | again
  deriving DecidableEq, Repr

/-- What a lane has to fetch. A lane inside a line holds the line's content; a restored one fetches it again, with the
checks of step 1 of R26 (log entry 58). -/
def Lane.due (l : Lane) : Option Due :=
  match l.entry, l.line with
  | .fresh tr, _ => some (.entry tr)
  | _, some _ => none
  | _, none => some .again

/-- The fetches still to be made, each PC and kind once. -/
def Group.freshAt (g : Group) : List (Dword × Due) :=
  (g.lanes.filterMap fun l => l.due.map fun d => (l.pc, d)).eraseDups

/-- The line that a fetch that is due gives, or the cause of its fault. -/
def dueLine (s : State) (t : Team) (g : Group) (pc : Dword) (d : Due) : State × Except Cause (BitVec 512) :=
  match d with
  | .entry tr => entryCheck s t g pc tr
  | .again =>
    match fetchLine s g.core t.ctx pc with
    | (s, .error c) => (s, .error c)
    | (s, .ok (l, _)) => (s, .ok l)

/-- One fetch serves a group's packet (R126): the lanes of a group that stand in a line hold the content that its latest fetch gave
(log entry 58). -/
def State.lineSeen (s : State) (uid grp : Nat) (pc : Dword) (ln : BitVec 512) : State :=
  s.updGroup uid grp fun g => { g with lanes := g.lanes.map fun l =>
    if l.line.isSome && l.pc.toNat / 64 == pc.toNat / 64 then { l with line := some ln } else l }

/-- R26: makes one PC's fetches. The lanes that pass hold their line, and those of an entry wait for their WAIT flags; the
others trap together. -/
def settleAt (uid grp : Nat) (x : State × Bool) (e : Dword × Due) : State × Bool :=
  match x.1.team? uid, x.1.group? uid grp with
  | some t, some g =>
    let mine (l : Lane) : Bool := l.pc == e.1 && l.due == some e.2
    match dueLine x.1 t g e.1 e.2 with
    | (s, .ok ln) =>
      ((s.lineSeen uid grp e.1 ln).updGroup uid grp fun g =>
        { g with lanes := g.lanes.map fun l =>
            if mine l then
              { l with line := some ln
                       entry := match e.2 with
                         | .entry tr => .waiting tr
                         | .again => l.entry }
            else l }, x.2)
    | (s, .error c) =>
      (takeTraps s uid grp e.1 ((g.lanes.filter mine).map fun l => entryTrap l.idx e.1 c), true)
  | _, _ => x

/-- Does a lane wait for the WAIT flags of its line? -/
def Lane.waits (l : Lane) : Bool :=
  match l.entry with
  | .waiting _ => true
  | _ => false

/-- The flags that a lane's line names in WAIT. -/
def Lane.waitFlags (l : Lane) : List Nat := (l.line.map fun ln => Machine.waitFlags (lineWord ln)).getD []

/-- R26 step 5: does a lane that waits for its line's WAIT flags pass? -/
def waitClear (g : Group) (l : Lane) : Bool := l.waits && l.waitFlags.all fun k => g.flag k == 0

/-- R239: what the flags that a lane waits for stand for. -/
def waitClk (s : State) (uid grp : Nat) (l : Lane) : Clock :=
  l.waitFlags.foldl (fun c k => clkJoin c (clkAt s.race.flagClk (uid, grp, k))) []

/-- R26 step 5, R28: lanes of a group whose WAIT flags are all clear pass; `only`: one lane, or all of them. -/
def releaseWaits (s : State) (uid grp : Nat) (only : Option Nat) : State :=
  match s.group? uid grp with
  | some g =>
    let goes := g.lanes.filter fun l => waitClear g l && (match only with
      | some k => k == l.idx
      | none => true)
    -- R239: a lane that passes joins what the flags stand for
    let s := goes.foldl (fun (s : State) l => { s with race := s.race.acquire (.lane uid grp l.idx) (waitClk s uid grp l) }) s
    s.updGroup uid grp fun g => g.updLanes (goes.map (·.idx)) fun l =>
      { l with entry := match l.entry with
          | .waiting tr => .passed tr
          | e => e }
  | none => s

/-- Settles the entries of a group; true when one of them trapped. -/
def settleGroup (s : State) (uid grp : Nat) : State × Bool :=
  match s.group? uid grp with
  | none => (s, false)
  | some g =>
    let (s, bad) := g.freshAt.foldl (settleAt uid grp) (s, false)
    (releaseWaits s uid grp none, bad)

/-! ### Runnable lanes -/

/-- R89, R90: the governed word of iteration k, each selected register field moved on by k times the stride. -/
def repShift (w : BitVec 96) (mask : BitVec 4) (by_ : Nat) : BitVec 96 :=
  let r := Raw.unpack w
  let mv (sel : Bool) (x : BitVec 8) : BitVec 8 := if sel && x.toNat < 0xC0 then x + BitVec.ofNat 8 by_ else x
  ({ r with d := mv (mask.getLsbD 0) r.d, a := mv (mask.getLsbD 1) r.a,
            b := mv (mask.getLsbD 2) r.b, c := mv (mask.getLsbD 3) r.c } : Raw).pack

/-- R306: the scale registers of an operand: 0 to 16, by format; twice as many for the B of MMAS. -/
def scaleRegs (f : SlotFmt) : Nat :=
  match f with
  | .sx7 => 4
  | .sx4 => 8
  | .sx2 => 16
  | .bf16 => 0

/-- The v-registers that an instruction reads. -/
def Team.reads (t : Team) (i : Instr) : List Nat :=
  let own := i.shape.srcs.flatMap fun x => match x.src.spec with
    | .v n => rangeFrom n.toNat x.w
    | _ => []
  let scales (o : MmaOp) (sp : Bool) : List Nat :=
    let f := ((tget t.ops o.aslot.toNat).map (·.fmt)).getD .bf16
    let rng (sp : Spec) (k : Nat) := match sp with
      | .v n => rangeFrom n.toNat k
      | _ => []
    rng o.a.spec (scaleRegs f) ++ rng o.b.spec (if sp then 2 * scaleRegs f else scaleRegs f)
  match i with
  | .mma o => own ++ scales o false
  | .mmas o => own ++ scales o true
  -- R177: the lanes that QSCAL writes keep the other bytes of D
  | .qscal .. => own ++ instrDst i
  | _ => own

/-- Does field k (D, A, B, C or D, ADR, IDX, X) of an instruction hold a register specifier, and no predicate form? -/
def repField (i : Instr) (k : Nat) : Bool :=
  match i with
  | .iset .. | .fset .. | .dset .. => k != 0 && k != 3
  | .iaddc .. | .sel .. => k != 3
  | .ptern .. => false
  | _ => true

/-- R90: the checks that come before iteration 0 of n iterations of a governed word. -/
def repOk (w : BitVec 96) (stride : Nat) (mask : BitVec 4) (n : Nat) : Bool :=
  let r := Raw.unpack w
  let base := decode w
  let fieldOk (k : Nat) (x : BitVec 8) : Bool :=
    !mask.getLsbD k ||
      (x.toNat < 0xC0
        && (match base with
          | .ok i => repField i k
          | .error _ => true)
        && (n == 0 || x.toNat + (n - 1) * stride ≤ (if x.toNat < 0x80 then 0x7F else 0xBF)))
  n ≤ 128 && fieldOk 0 r.d && fieldOk 1 r.a && fieldOk 2 r.b && fieldOk 3 r.c
    && (match base with
      | .error _ => true
      | .ok _ => (List.range n).all fun k =>
          match decode (repShift w mask (k * stride)) with
          | .ok _ => true
          | .error _ => false)

/-- The instruction of a line that lanes at a PC would execute next: the governed one under REP, or the REP itself where the governed
word is none. -/
def nextInstr (line : BitVec 512) (pc : Dword) (rep : Nat) : Option Instr :=
  match decode (slotWord line (pc.toNat % 8)) with
  | .ok (.rep h n stride mask) =>
    match decode (repShift (slotWord line (pc.toNat % 8 + 1)) mask (rep * stride.toNat)) with
    | .ok i => some i
    | .error _ => some (.rep h n stride mask)
  | .ok i => some i
  | .error _ => none

/-- A REP at a PC: its guard's header, its count, its stride and mask, and the word that it governs. -/
structure RepHead where
  hdr : Hdr
  count : Src
  stride : Nat
  mask : BitVec 4
  word : BitVec 96

/-- The REP of a line that stands at a PC. -/
def repHead (line : BitVec 512) (pc : Dword) : Option RepHead :=
  match decode (slotWord line (pc.toNat % 8)) with
  | .ok (.rep h n stride mask) => some ⟨h, n, stride.toNat, mask, slotWord line (pc.toNat % 8 + 1)⟩
  | _ => none

/-- What the first issue of a REP at a PC reads (R90, R91): the registers of its count, and the predicate of its guard. -/
def headReads (line : BitVec 512) (pc : Dword) : List Nat × List Nat :=
  match repHead line pc with
  | some r => (match r.count.spec with
      | .v n => [n.toNat]
      | _ => [], [r.hdr.g.toNat])
  | none => ([], [])

/-- R90, R91: a lane for which the REP is active: its guard holds, or it is inside the repetition already. -/
def Lane.inRep (l : Lane) (h : Hdr) : Bool := l.guard h || l.rep > 0 || l.repN.isSome

/-- R90: the count of a lane, read at the first issue and after a save. -/
def Pk.repCount (p : Pk) (l : Lane) (n : Src) : Nat := l.repN.getD (p.read32 l 0 n.spec).toNat

/-- R90: the lanes of a list that stand at a REP and whose next issue executes no iteration: none is left, or the checks fail. -/
def RepHead.spent (r : RepHead) (p : Pk) (ls : List Lane) : List Nat :=
  let act := ls.filter (·.inRep r.hdr)
  let bad := ((act.map fun l => p.repCount l r.count).eraseDups).filter fun n => !repOk r.word r.stride r.mask n
  (act.filter fun l => p.repCount l r.count ≤ l.rep || bad.contains (p.repCount l r.count)).map (·.idx)

/-- The flag that an instruction counts on in a line. -/
def lineFlag (line : BitVec 512) (h : Hdr) : Option Nat :=
  let w := (lineWord line).toNat
  match h.cf with
  | .none => none
  | .a => if nbits w 15 12 < 12 then some (nbits w 15 12) else none
  | .b => if nbits w 19 16 < 12 then some (nbits w 19 16) else none

/-- The predicates that an instruction reads (R36, R51): its guard and its predicate sources. -/
def predReads (i : Instr) : List Nat :=
  let src (x : PSrc) : List Nat := [x.pn.toNat]
  let own := match i with
    | .iset _ _ _ o | .fset _ _ _ o | .dset _ _ _ o => (o.pc.map src).getD []
    | .iaddc _ _ _ _ _ pi _ => src pi
    | .sel _ _ _ _ pc _ => src pc
    | .ptern _ _ _ pa pb pc => src pa ++ src pb ++ src pc
    | .vote _ _ pa => src pa
    | .p2v .. => List.range 7
    | _ => []
  own ++ (i.hdr.map fun h => [h.g.toNat]).getD []

/-- R293, R313: the queue of a group's copy engine, or its cluster's reservation table, is full. Only the producer group
waits for the queue, since any other raises CPYPERM. -/
def engineFull (s : State) (t : Team) (g : Group) (i : Instr) : Bool :=
  match i with
  | .cpy .. | .cpys .. | .cpyg .. | .coll .. | .fillScr .. | .fillMem .. =>
    g.idx == t.card.producer && (s.cmds.filter fun c => c.core == g.core && c.state == .queued).length ≥ 32
  | .mma .. | .mmas .. | .mzero .. | .mrd .. | .mwr .. =>
    (s.matrix.filter fun e =>
      !e.granted && (match s.team? e.uid with
        | some t => t.resident && t.cluster == clusterOf g.core
        | none => false)).length ≥ 64
  | _ => false

/-- R177: the lanes to which a QSCAL gives a byte, each with the lane that the byte comes from. -/
def Pk.qscalPairs (p : Pk) (o : Op2) : List (Lane × Lane) :=
  let l0 := match p.lanes with
    | l :: _ => (p.read32 l o.imm o.b.spec).toNat
    | [] => 0
  (p.active o.h).filterMap fun l =>
    if l0 ≤ l.idx && l.idx < l0 + 16 then ((p.active o.h).find? (·.idx == 16 * (l.idx - l0))).map fun src => (l, src)
    else none

/-- R137, R161: the capacity that a group's instruction needs from the free count of its quadrant; none when it raises
ILLOPD instead. R180: a QSCAL, which its whole group issues, needs none when it writes no lane. -/
def needOf (t : Team) (g : Group) (i : Instr) : Option Nat :=
  match i with
  | .regclaim _ n => if g.floor + n.toNat > t.card.regPeak then none else some (claimSplit t g n.toNat).2
  | i =>
    let names := match i with
      | .qscal _ _ o =>
        let p : Pk := { iss := { uid := t.uid, grp := g.idx, pc := 0, lanes := g.lanes.map (·.idx) }, team := t, grp := g }
        if (p.qscalPairs o).isEmpty then [] else instrDst i
      | i => instrDst i
    if g.footprint + (names.filter fun x => !g.claims.contains x).length ≤ t.card.regPeak then some (g.capacity names) else none

/-- What lanes at one place, a PC and a REP counter with the line's content, would execute next, and what holds them back:
`flag`, its completion flag at 63; `queue`, an engine that takes no more; `need`, the register capacity for those whose guard
is true, with `lack` when it is not to be had. -/
structure Upcoming where
  pc : Dword
  rep : Nat
  line : Option (BitVec 512)
  instr : Instr
  reads : List Nat
  preds : List Nat
  /-- registers and predicates that the first issue of a REP there reads -/
  head : List Nat × List Nat
  /-- R90: the lanes at a REP there that do not execute the governed instruction -/
  spent : List Nat
  flag : Bool
  queue : Bool
  need : Nat
  lack : Bool

/-- What the lanes of a group would execute next, place by place. -/
def upcoming (s : State) (t : Team) (g : Group) : List Upcoming :=
  (g.lanes.map fun l => (l.pc, l.rep, l.line)).eraseDups.filterMap fun (pc, rep, line) =>
    line.bind fun ln => (nextInstr ln pc rep).map fun i =>
      let need := if i.hdr.isSome then (needOf t g i).getD 0 else 0
      let p : Pk := { iss := { uid := t.uid, grp := g.idx, pc := pc, lanes := [] }, team := t, grp := g }
      { pc := pc, rep := rep, line := line, instr := i, reads := t.reads i, preds := predReads i, head := headReads ln pc
        spent := match repHead ln pc with
          | some r => r.spent p (g.lanes.filter fun l => l.pc == pc && l.rep == rep)
          | none => []
        flag := match i.hdr.bind (lineFlag ln) with
          | some k => g.flag k ≥ 63
          | none => false
        queue := engineFull s t g i
        need := need
        lack := !s.canClaim g (pc, rep) need }

/-- What a lane would execute next. -/
def nextOf (us : List Upcoming) (l : Lane) : Option Upcoming := us.find? fun u => u.pc == l.pc && u.rep == l.rep && u.line == l.line

/-- R36, R90: does a lane execute its next instruction, its guard true? -/
def Upcoming.acts (u : Upcoming) (l : Lane) : Bool := !u.spent.contains l.idx && (u.instr.hdr.map l.guard).getD false

/-- R137: does a lane wait for register capacity? -/
def Upcoming.lacks (u : Upcoming) (l : Lane) : Bool := u.lack && u.acts l

/-- R125: a lane's wait for its next instruction's flag, operands, queue or claim. A lane that was not active in the packet of a
result in flight waits for the register as the active lanes do (R399; log entry 61). A lane at a REP that executes no iteration (R90)
waits for what the REP itself reads alone. -/
def laneWaits (us : List Upcoming) (g : Group) (l : Lane) : Bool :=
  match nextOf us l with
  | none => false
  | some u =>
    let first := l.rep == 0 && l.repN.isNone
    let runs := !u.spent.contains l.idx
    (runs && u.flag) || (u.queue && u.acts l && !l.helper) || u.lacks l || g.inflight.any fun q =>
      (q.regs.any fun e => (e.1 == l.idx || q.idle.contains l.idx)
        && ((runs && u.reads.contains e.2.1) || (l.repN.isNone && u.head.1.contains e.2.1)))
        || q.preds.any fun e => e.1 == l.idx && ((runs && u.preds.contains e.2.1) || (first && u.head.2.contains e.2.1))

/-- Has the lane passed its line entry? -/
def Lane.entered (l : Lane) : Bool :=
  match l.entry with
  | .none | .passed _ => l.line.isSome
  | _ => false

/-- R125: the runnable lanes of a group. -/
def runnable (s : State) (t : Team) (g : Group) : List Lane :=
  let us := upcoming s t g
  g.lanes.filter fun l => l.park.isNone && l.entered && !laneWaits us g l

/-- The place of a lane. -/
def Lane.place (l : Lane) : Dword × Nat := (l.pc, l.rep)

/-- R131: the places at which a group-collective instruction is held: lanes there only wait for a flag, a claim or an
operand. -/
def heldPlaces (us : List Upcoming) (g : Group) : List (Dword × Nat) :=
  let late := g.lanes.filter fun l => l.park.isNone && (!l.entered || laneWaits us g l)
  (us.filter fun u => u.instr.collective && late.any fun l => l.place == (u.pc, u.rep)).map fun u => (u.pc, u.rep)

/-- The least of a list of PCs, as unsigned numbers. -/
def minPc : List Dword → Option Dword
  | [] => none
  | a :: r => match minPc r with
    | none => some a
    | some b => some (if a.toNat ≤ b.toNat then a else b)

/-- R126, R128: the PC that the device chooses among candidate lanes. -/
def choosePc (cand : List Lane) : Option Dword :=
  let old := cand.filter (·.w ≥ 64)
  let top := old.foldl (fun a l => max a l.w) 0
  minPc (if old.isEmpty then cand.map (·.pc) else (old.filter (·.w == top)).map (·.pc))

/-- R126: the lanes of a list that issue together: those at the chosen PC with the lowest REP counter. -/
def choosePacket (cand : List Lane) : List Lane :=
  match choosePc cand with
  | none => []
  | some pc =>
    let here := cand.filter (·.pc == pc)
    let rep := here.foldl (fun a l => min a l.rep) 1000
    here.filter (·.rep == rep)

/-- R126, R128, R131, R155: the packet of a group's next issue. Lanes held at a group-collective instruction stay runnable and
issue no packet. After a YIELD the other lanes go first; a group-collective instruction takes the lanes that yielded at its
place with it (log entry 58). -/
def formPacket (s : State) (t : Team) (g : Group) : Option Issue :=
  let us := upcoming s t g
  let run := runnable s t g
  let held := heldPlaces us g
  let free := run.filter fun l => !held.contains l.place
  let cand := match free.filter fun l => !g.yielded.contains l.idx with
    | [] => free
    | c => c
  let ls := choosePacket cand
  match ls with
  | [] => none
  | l0 :: _ =>
    let coll := ((nextOf us l0).map (·.instr.collective)).getD false
    let ls := if coll then free.filter fun l => l.place == l0.place else ls
    let idx := ls.map (·.idx)
    some { uid := t.uid, grp := g.idx, pc := l0.pc, lanes := idx
           others := (run.map (·.idx)).filter fun l => !idx.contains l }

/-! ### Waits for register capacity (R137) -/

/-- The need of a group's instruction at a place, for lanes there whose guard is true and that could otherwise issue. -/
def needAt (us : List Upcoming) (g : Group) (place : Dword × Nat) : Nat :=
  (g.lanes.filterMap fun l =>
    if l.place == place && l.park.isNone then (nextOf us l).bind fun u => if u.acts l then some u.need else none else none).foldl max 0

/-- R137: brings a group's waits up to date: each needs what its instruction needs now, holds no more than that, and ends when it needs
nothing. -/
def refreshWaits (us : List Upcoming) (g : Group) : Group :=
  if g.waits.isEmpty then g
  else
    { g with waits := (g.waits.map fun w =>
        let n := needAt us g w.place
        { w with need := n, grant := min w.grant n }).filter (·.need != 0) }

/-- The waits of a quadrant that have not been served in full, the oldest first. -/
def State.claimWaiters (s : State) (q : Nat) : List ClaimWait :=
  let put (w : ClaimWait) (l : List ClaimWait) : List ClaimWait :=
    l.takeWhile (fun x => x.rank ≤ w.rank) ++ w :: l.dropWhile (fun x => x.rank ≤ w.rank)
  (s.unserved q).foldr put []

/-- R137: a wait is served: the capacity that it needs is held for its instruction. -/
def State.grant (s : State) (rank : Nat) : State :=
  { s with units := s.units.map fun t => { t with groups := t.groups.map fun g =>
      { g with waits := g.waits.map fun w => if w.rank == rank then { w with grant := w.need } else w } } }

/-- R137: the waits of a quadrant are served in their order, until one does not fit. -/
def serveClaims (q : Nat) : List ClaimWait → State → State
  | [], s => s
  | w :: r, s => if w.need ≤ s.freeCount q + w.grant then serveClaims q r (s.grant w.rank) else s

/-- Brings the waits of a quadrant's groups up to date (R137). -/
def State.refreshClaims (s : State) (q : Nat) : State :=
  (s.onQuadIds q).foldl (fun s e =>
    match s.team? e.1, s.group? e.1 e.2 with
    | some t, some g => if g.waits.isEmpty then s else s.updGroup e.1 e.2 (refreshWaits (upcoming s t g))
    | _, _ => s) s

/-- R137: the waits of a quadrant that fit now are served. -/
def State.serveQuad (s : State) (q : Nat) : State :=
  let s := s.refreshClaims q
  serveClaims q (s.claimWaiters q) s

/-- R137: waits are served at the first moment at which they fit: before a new or a restored team takes registers. -/
def State.serveWaits (s : State) : State :=
  ((s.units.flatMap fun t => (t.groups.filter fun g => !g.waits.isEmpty).map Group.quadNo).eraseDups).foldl State.serveQuad s

/-- R137: the places of a group whose waits for capacity are still to begin, with their needs, in rising order of their PCs. -/
def claimsDue (us : List Upcoming) (g : Group) : List ((Dword × Nat) × Nat) :=
  let ws := (g.lanes.filterMap fun l =>
    if l.park.isSome || !l.entered then none
    else (nextOf us l).bind fun u => if u.lacks l then some (l.place, u.need) else none).eraseDups
  let due := ws.filter fun e => !g.waits.any (·.place == e.1)
  due.mergeSort fun a b => decide (a.1.1.toNat ≤ b.1.1.toNat)

/-- Brings a group's waits for capacity up to date, and begins those that its next instructions need. -/
def settleClaims (s : State) (uid grp : Nat) : State :=
  match s.team? uid, s.group? uid grp with
  | some t, some g =>
    let us := upcoming s t g
    let s := s.updGroup uid grp (refreshWaits us)
    (claimsDue us g).foldl (fun s e => s.beginClaimWait uid grp e.1 e.2) s
  | _, _ => s

/-! ### The quadrant's choice -/

/-- Has a group something to do at its quadrant's issue opportunity: lanes that must exit, a line to fetch, a wait that ends or
begins, or a packet to issue? -/
def groupReady (s : State) (t : Team) (g : Group) : Bool :=
  t.state == .running && !g.lanes.isEmpty
    && (t.kill || !g.freshAt.isEmpty || g.lanes.any (fun l => l.park.isNone && waitClear g l)
        || !(claimsDue (upcoming s t g) g).isEmpty || (formPacket s t g).isSome)

/-- The groups on a quadrant with their teams, from the slot after the last issue on, wrapping round (R130). The rule names no
first slot before any issue: the model begins at slot 0 (log entry 58). -/
def quadOrder (s : State) (q : Nat) : List (Team × Group) :=
  let last := tgetD s.lastSlot q 31
  let all := s.units.flatMap fun t => (t.groups.filter fun g => g.quadNo == q).map fun g => (t, g)
  (rangeFrom (last + 1) 32).flatMap fun k => all.filter fun x => x.2.slot == k % 32

/-- What an issue opportunity comes to. -/
inductive Sel where
  /-- nothing issues: the state after whatever entry checks were made -/
  | idle (s : State)
  /-- an instruction issues for the packet `cur` -/
  | run (s : State) (i : Instr)

/-- The line's flags and the word after the instruction's, as the packet's instruction needs them. -/
def Issue.withLine (iss : Issue) (line : BitVec 512) : Issue :=
  let slot := iss.pc.toNat % 8
  { iss with
    fa := (lineWord line).extractLsb' 12 4
    fb := (lineWord line).extractLsb' 16 4
    next := if slot < 4 then some (slotWord line (slot + 1)) else none }

/-- R59, R60: the opcodes of the ALU-class and memory-class instructions, which alone REP may govern. -/
def opGoverned (op : Nat) : Bool :=
  (0x020 ≤ op && op ≤ 0x040) || (0x060 ≤ op && op ≤ 0x062) || (0x080 ≤ op && op ≤ 0x08A) || (0x090 ≤ op && op ≤ 0x096)
    || (0x0C0 ≤ op && op ≤ 0x0C5) || (0x0C8 ≤ op && op ≤ 0x0CB) || op == 0x0E1 || op == 0x0E3
    || (0x100 ≤ op && op ≤ 0x10B)

/-- R60, R61: may a REP stand here: a slot follows it in its line, and holds an opcode that REP may govern? -/
def Issue.repPlaced (iss : Issue) : Bool :=
  match iss.next with
  | some w => opGoverned (Raw.unpack w).op.toNat
  | none => false

/-- R37, R45, R61: the cause of a word that is no instruction. ILLOP comes first, so a bad specifier beside a completion field
that names no flag, or in a REP that may not stand here, raises ILLOP. -/
def encCause (iss : Issue) (w : BitVec 96) (e : EncFault) : Cause :=
  let r := Raw.unpack w
  let cfBad := (r.cf == 1 && iss.fa.toNat ≥ 12) || (r.cf == 2 && iss.fb.toNat ≥ 12)
  match e with
  | .illop => cILLOP
  | .illopd => if cfBad || (r.op == 0x009 && !iss.repPlaced) then cILLOP else cILLOPD

/-- R37, R61: a word that is no instruction raises its fault for every lane of its packet; for the lanes that would go on to the next
line in sequence the BRTGT of R21 comes first. -/
def trapEncoding (s : State) (iss : Issue) (w : BitVec 96) (e : EncFault) : State :=
  match pk? { s with cur := some iss } with
  | none => s
  | some p =>
    let stop := if iss.seqBad then p.lanes.filter (·.leaves iss) else []
    let rest := p.lanes.filter fun l => !(stop.map (·.idx)).contains l.idx
    (s.commit p).trapPk p (stop.map (fun l => iss.seqTrap l.idx) ++ trapAll rest (encCause iss w e))

/-- Settles a group before its quadrant chooses: lanes of an ending unit exit; entries are checked and fetches made; waits for
capacity begin. -/
def settleOne (s : State) (uid grp : Nat) : State :=
  match s.team? uid, s.group? uid grp with
  | some t, some g =>
    if t.state != .running || g.lanes.isEmpty then s
    else if t.kill then s.exitLanes uid grp (g.lanes.map (·.idx))
    else
      match settleGroup s uid grp with
      | (s, true) => s
      | (s, false) => settleClaims s uid grp
  | _, _ => s

/-- Settles every group of a quadrant. R137: what has come free since serves its waits first, oldest first. -/
def settleQuad (s : State) (q : Nat) : State :=
  (quadOrder s q).foldl (fun s x => settleOne s x.1.uid x.2.idx) (s.serveQuad q)

/-- The line of a packet: that of its lanes. -/
def Group.lineAt (g : Group) (iss : Issue) : Option (BitVec 512) :=
  (g.lanes.find? fun l => iss.lanes.contains l.idx).bind (·.line)

/-! ### Pairs (R31, R127) -/

/-- R25: the pairs of slots that a line's PAIR template names, by their first slots. -/
def pairSlots (w : BitVec 32) : List Nat :=
  match nbits w.toNat 27 25 with
  | 1 => [0]
  | 2 => [1]
  | 3 => [2]
  | 4 => [3]
  | 5 => [0, 2]
  | 6 => [1, 3]
  | 7 => [0, 3]
  | _ => []

/-- The registers that an instruction writes, v- and s-registers apart. -/
def writesOf (i : Instr) : List Nat × List Nat :=
  match i.shape.dst with
  | some ⟨.v n, w, _⟩ => (rangeFrom n.toNat w, [])
  | some ⟨.s n, w, _⟩ => ([], rangeFrom n.toNat w)
  | _ => ([], [])

/-- The s-registers that an instruction reads. -/
def readsSOf (i : Instr) : List Nat :=
  i.shape.srcs.flatMap fun x => match x.src.spec with
    | .s n => rangeFrom n.toNat x.w
    | _ => []

/-- R31: may two instructions issue in one cycle: one of the ALU class, the other of the memory or engine class, neither reading
a register that the other writes? -/
def pairFits (t : Team) (i j : Instr) : Bool :=
  let side (x : Instr) : Bool := x.cls == .memory || x.cls == .engine
  let clear (a b : Instr) : Bool :=
    (t.reads a).all (!(writesOf b).1.contains ·) && (readsSOf a).all (!(writesOf b).2.contains ·)
  ((i.cls == .alu && side j) || (side i && j.cls == .alu)) && clear i j && clear j i

/-- R31: is a packet the second of a pair whose first has issued in this cycle: the next slot, for the same lanes of the group that
issued last, under the line's template? -/
def pairSecond (s : State) (t : Team) (g : Group) (iss : Issue) (line : BitVec 512) : Bool :=
  let slot := iss.pc.toNat % 8
  match slot with
  | 0 => false
  | k + 1 =>
    tget s.issuedAt g.quadNo == some (s.coreCyc g.core) && tget s.lastSlot g.quadNo == some g.slot
      && g.lastPc + 1 == iss.pc && g.lastLanes == iss.lanes && (pairSlots (lineWord line)).contains k
      && match decode (slotWord line k), decode (slotWord line slot) with
        | .ok i, .ok j => pairFits t i j
        | _, _ => false

/-- R31, R130: may a packet issue in this cycle: its quadrant has not issued in it yet, or the packet is the second of a pair? -/
def cycleFree (s : State) (t : Team) (g : Group) (iss : Issue) : Bool :=
  tget s.issuedAt g.quadNo != some (s.coreCyc g.core)
    || match g.lineAt iss with
      | some line => pairSecond s t g iss line
      | none => false

/-- The packet that a group can issue now. -/
def readyPacket (s : State) (t : Team) (g : Group) : Option Issue :=
  if t.state == .running && !t.kill then (formPacket s t g).filter (cycleFree s t g) else none

/-- R130: the packet of the first ready group of a quadrant, with its group. -/
def choosePk (s : State) (q : Nat) : Option (Group × Issue) :=
  (quadOrder s q).findSome? fun x => (readyPacket s x.1 x.2).map fun iss => (x.2, iss)

/-- R130, R139: a quadrant has issued: the slot and the cycle of its last issue. -/
def State.issuedOn (s : State) (g : Group) : State :=
  { s with lastSlot := tset s.lastSlot g.quadNo g.slot, issuedAt := tset s.issuedAt g.quadNo (s.coreCyc g.core) }

/-- The issue of a packet: its word of the line is decoded. R127: the second of a pair counts with the first, so no other lane's W
grows. -/
def issuePacket (s : State) (g : Group) (iss : Issue) : Sel :=
  match s.team? iss.uid, g.lineAt iss with
  | some t, some line =>
    let iss := if pairSecond s t g iss line then { iss with others := [] } else iss
    let iss := iss.withLine line
    let w := slotWord line (iss.pc.toNat % 8)
    let s := s.issuedOn g
    match decode w with
    | .ok i => .run { s with cur := some iss } i
    | .error e => .idle (trapEncoding s iss w e)
  | _, _ => .idle s

/-- R130: a quadrant gives its issue opportunity to the first ready group. -/
def select (s : State) (q : Nat) : Sel :=
  let s := settleQuad s q
  match choosePk s q with
  | some (g, iss) => issuePacket s g iss
  | none => .idle s

/-- The quadrants with a group that has something to do, in rising order. -/
def readyQuads (s : State) : List Nat :=
  s.units.foldl (fun a t => t.groups.foldl (fun a g => if groupReady s t g then sins a g.quadNo else a) a) []

end Sys2Proof.Machine
end

