-- ==== Sys2Proof/Machine/MemAccess.lean ====
section
/-! DEFINITION. An access of a lane to memory: its effective address (R58), its place in the global, local or scratch space
(R118, R119, R210), poison (R120), race detection (R243 to R246), and the reading and writing of its bytes (R217 to R219). -/

namespace Sys2Proof.Machine

/-! ### Addresses -/

/-- R58: the effective address. -/
def Pk.ea (p : Pk) (l : Lane) (m : MemOp) : Dword :=
  let base : Dword := if m.space == .glb then p.read64 l 0 m.adr.spec else (p.read32 l 0 m.adr.spec).setWidth 64
  let idx : Dword := (p.read32 l 0 m.idx.spec).signExtend 64
  let ea := base + (idx <<< m.scale.toNat) + m.off.signExtend 64
  if m.space == .glb then ea else (lo32 ea).setWidth 64

/-- R119: the virtual address of a local byte. -/
def Pk.localVa (p : Pk) (lane a : Nat) : Dword :=
  let c := p.team.card
  let gid := p.team.team * c.groups + p.grp.idx
  c.lBase + dword (gid * 256 * c.lSize.toNat + a / 4 * 1024 + lane * 4 + a % 4)

/-- The trap of an address (R417: INFO bit 0 for a write). -/
def addrTrap (lane : Nat) (c : Cause) (va : Dword) (k : AKind) : Trap :=
  { lane := lane, cause := c, addr := va
    info := if (c == cPAGEF || c == cPROT || c == cPKEYF) && k.writes then 1 else 0 }

/-- R228: the value of `keys` that applies to a group's access: the context's, or, until the group has acquired, an older one
of the device's choice. -/
def State.keysFor (s : State) (uid grp : Nat) : State × Dword :=
  let now := s.keysOf (s.ctxOf uid)
  match s.group? uid grp with
  | none => (s, now)
  | some g =>
    if g.keyOlds.isEmpty then (s, now)
    else
      let (s, c) := s.choose (g.keyOlds.length + 1)
      (s, (g.keyOlds[c]?).getD now)

/-- R228, R277: changes the `keys` of a context. The groups of the context other than the one that acts (none for a launch) may
apply the old value until they acquire. -/
def State.setKeys (s : State) (ctx : Nat) (own : Option (Nat × Nat)) (f : Dword → Dword) : State :=
  let old := s.keysOf ctx
  let mark (uid : Nat) (g : Group) : Group :=
    { g with keyOlds := if own == some (uid, g.idx) then g.keyOlds.map f else old :: g.keyOlds.filter (· != old) }
  let s := s.updCtx ctx fun c => { c with keys := f c.keys }
  if f old == old && own.isNone then s
  else { s with units := s.units.map fun t => if t.ctx == ctx then { t with groups := t.groups.map (mark t.uid) } else t }

/-- The place of the pieces of a translated access. A core's own copies of the sectors are checked (R231). -/
def State.placePieces (s : State) (p : Pk) (lane : Nat) (k : AKind) (vas : List (Dword × Nat)) :
    State × Except Trap Loc :=
  let (s, keys) := s.keysFor p.iss.uid p.iss.grp
  match places s (some p.grp.core) p.team.ctx keys k (vas.map (·.1)) with
  | (s, .error e) => (s, .error (addrTrap lane e.1 e.2 k))
  | (s, .ok ps) =>
    (ps.foldl (fun s x => s.l1Verify p.grp.core x.pa) s, .ok (.mem ((ps.zip vas).map fun (x, va, n) => (x, n, va))))

/-- R231: the checks of the sectors of a range of a team's scratch: a failed one takes the poison form, and one event of the
team's stack is counted. -/
def State.scrVerify (s : State) (uid key n : Nat) : State :=
  match s.team? uid with
  | none => s
  | some t =>
    let bad := t.scr.flaw.filter fun e => poisoned [e.1] key n
    if bad.isEmpty then s
    else
      let s := s.updTeam uid fun t => { t with scr := { t.scr with
        poison := bad.foldl (fun l e => sins l e.1) t.scr.poison
        flaw := t.scr.flaw.filter fun e => !poisoned [e.1] key n } }
      bad.foldl (fun s _ => s.countInteg t.stack) s

/-- R210: a scratch access of n bytes lies in a window of the team. -/
def Team.scrOk (t : Team) (a n : Nat) : Bool :=
  a / 2 ^ 25 == 0 && t.card.scrCols.getLsbD (a / 2 ^ 23) && a % 2 ^ 23 + n ≤ t.card.scratch * 4096

/-- R45, R417: the lowest of n scratch bytes from an address that lies outside the team's windows. -/
def Team.scrLow (t : Team) (a n : Nat) : Option Nat :=
  if n == 0 || t.scrOk a n then none
  else if t.scrOk a 1 then some (a / 2 ^ 23 * 2 ^ 23 + t.card.scratch * 4096)
  else some a

/-- R45: of two traps of one lane's access, the one that is raised: the first cause in the order of its class, at the lowest address. -/
def firstTrap (a b : Trap) : Trap := if a.cause < b.cause || (a.cause == b.cause && a.addr.toNat ≤ b.addr.toNat) then a else b

/-- R118, R119, R210: the place of an access of n bytes at an effective address, with all its checks. A fault before the mapping
of R119 names the local address, and one after it the mapped virtual address: R417 names virtual and scratch addresses alone (log
entry 59). The words of a local access beyond the local area are PROT, whatever the others meet (R45). -/
def State.locate (s : State) (p : Pk) (lane : Nat) (sp : Space) (ea : Dword) (n : Nat) (k : AKind) :
    State × Except Trap Loc :=
  if ea.toNat % n != 0 then (s, .error (addrTrap lane cMISALIGN ea k))
  else
    match sp with
    | .glb => s.placePieces p lane k [(ea, n)]
    | .loc =>
      let a := ea.toNat
      let c := p.team.card
      let words := if n ≤ 4 then [(a, n)] else (List.range (n / 4)).map fun w => (a + 4 * w, 4)
      let out := words.filter fun w => decide (w.1 + w.2 > c.lSize.toNat) || p.team.team ≥ c.lTeams.toNat
      let vas := (words.filter (!out.contains ·)).map fun w => (p.localVa lane w.1, w.2)
      if c.lBase.toNat % 4 != 0 || c.lSize.toNat % 4 != 0 then (s, .error (addrTrap lane cMISALIGN (p.localVa lane a) k))
      else
        match out, s.placePieces p lane k vas with
        | [], x => x
        | w :: _, (s, x) =>
          let t := addrTrap lane cPROT (p.localVa lane w.1) k
          (s, .error (match x with
            | .error e => firstTrap e t
            | .ok _ => t))
    | .scr =>
      if p.team.scrOk ea.toNat n then (s.scrVerify p.iss.uid ea.toNat n, .ok (.scr ea.toNat n))
      else (s, .error (addrTrap lane cSCRBOUND ea k))

/-- The bytes of a place, each with its word, its number in the word and its address. -/
def Loc.bytes (uid : Nat) : Loc → List (RWord × Nat × Dword)
  | .mem ps => ps.flatMap fun (x, n, va) =>
      (List.range n).map fun i => (.mem ((x.pa + i) / 4), (x.pa + i) % 4, va + dword i)
  | .scr k n => (List.range n).map fun i => (.scr uid ((k + i) / 4), (k + i) % 4, dword (k + i))

/-- R248: the bytes that detection covers. -/
def Loc.covered (uid : Nat) : Loc → List (RWord × Nat × Dword)
  | .mem ps => (Loc.mem (ps.filter fun x => paLocal x.1.pa)).bytes uid
  | l => l.bytes uid

/-- R248: does the place lie in covered memory as a whole? -/
def Loc.isCovered : Loc → Bool
  | .mem ps => ps.all fun x => paLocal x.1.pa
  | .scr .. => true

/-- R120, R232: the first address of the place that reads poison. -/
def State.locPoison (s : State) (uid : Nat) : Loc → Option Dword
  | .mem ps => (ps.find? fun (x, n, _) => x.poi || s.poisonedPa x.pa n).map fun e => e.2.2
  | .scr k n =>
    match s.team? uid with
    | some t => if poisoned t.scr.poison k n || poisoned (t.scr.flaw.map (·.1)) k n then some (dword k) else none
    | none => none

/-! ### Bytes -/

/-- R219, R458, R460: may L1 hold a place's sectors? No line of host memory is held, whatever the mode and the MT. -/
def l1Holds (x : Place) : Bool := !paHost x.pa && (x.mt == 0 || x.mt == 3)

/-- R458: the requests of an access to the pieces of a place that lie in host memory. -/
def State.locReq (s : State) (op : HostOp) (sys : Bool) : Loc → State
  | .mem ps => ps.foldl (fun s e => s.hostReq e.1 e.2.1 op sys) s
  | .scr .. => s

/-- R459: before an access is performed, the host's own copies of its lines go home, of pages with MT 3. -/
def State.locHome (s : State) : Loc → State
  | .mem ps => ps.foldl (fun s e => if e.1.mt == 3 then s.backInval e.1.pa else s) s
  | .scr .. => s

/-- R230, R232: the first address of a weak load's place that a core's own copy serves with the poison form. -/
def State.copyPoison (s : State) (core : Nat) : Loc → Option Dword
  | .mem ps => (ps.find? fun (x, _, _) => l1Holds x
      && ((tget s.l1 (l1Key core x.pa)).map fun c => !c.old && c.flaw == 0xFFFF).getD false).map fun e => e.2.2
  | .scr .. => none

/-- The lower of two addresses, where there are any. -/
def lowVa (a b : Option Dword) : Option Dword :=
  match a, b with
  | some x, some y => some (if y.toNat < x.toNat then y else x)
  | some x, none => some x
  | none, b => b

/-- R45, R120, R232: the lowest address of a place at which a read meets poison: at home, or, for a weak load that L1 may serve
(`own`), in the core's own copy. -/
def State.readPoison (s : State) (uid core : Nat) (own : Bool) (loc : Loc) : Option Dword :=
  lowVa (s.locPoison uid loc) (if own then s.copyPoison core loc else none)

/-- The bytes of a sector that an L1 copy shows from an offset on: what home serves, but for bytes that the host or a peer has
written since the fill; of memory that detection does not cover, the copy's own (R217, R248, R250). -/
def L1Copy.shows (c : L1Copy) (covered : Bool) (off : Nat) (now : Bytes) : Bytes :=
  let own := (c.bytes.drop off).take now.length
  if covered then (rangeFrom off now.length).zip (own.zip now) |>.map fun e => if c.ext.contains e.1 then e.2.1 else e.2.2
  else own

/-- R249: an invariant load of bytes of one 8-byte unit returns what memory holds, what an L1 copy filled before an acquire
holds (R258), or, when the launch's promise has been broken, any value that the unit has held since. The unit is one that the
launch has read so. -/
def State.invUnit (s : State) (launch pa n : Nat) (copy : Option Nat) : State × Bytes :=
  let u := pa / 8
  let old := s.invs.find? fun e => e.launch == launch && e.unit == u
  let s := if old.isSome then s else { s with invs := ⟨launch, u, []⟩ :: s.invs }
  let vals := (leNat (s.readPa (8 * u) 8) :: ((old.map (·.olds)).getD [] ++ copy.toList)).eraseDups
  let (s, c) := if vals.length ≤ 1 then (s, 0) else s.choose vals.length
  (s, ((leBytes ((vals[c]?).getD 0) 8).drop (pa % 8)).take n)

/-- An invariant load of one piece, unit by unit (R235, R249). -/
def State.invPiece (s : State) (core launch pa n : Nat) (skip : Bool) : State × Bytes :=
  let copy (u : Nat) : Option Nat :=
    if skip then none else (tget s.l1 (l1Key core (8 * u))).map fun c => leAt c.bytes (8 * u % 32) 8
  if n ≤ 8 then s.invUnit launch pa n (copy (pa / 8))
  else
    let (s', a) := s.invUnit launch pa 8 (copy (pa / 8))
    let (s', b) := s'.invUnit launch (pa + 8) (n - 8) (copy (pa / 8 + 1))
    (s', a ++ b)

/-- R217, R218, R248, R249: a weak load's bytes of one piece: from a valid L1 copy, or from home or target with a fill of the
sector at CACHE 0. -/
def State.loadPiece (s : State) (core launch : Nat) (inv : Bool) (cache : Nat) (x : Place) (n : Nat) : State × Bytes :=
  let now := s.readPa x.pa n
  let filled (s : State) : State := if cache == 0 && l1Holds x then s.l1Fill core x.pa else s
  let copy := if cache ≥ 2 || !l1Holds x then none else tget s.l1 (l1Key core x.pa)
  if inv then
    let (s', b) := s.invPiece core launch x.pa n (cache ≥ 2)
    (if copy.isSome then s' else filled s', b)
  else
    match copy with
    | some c => if c.old then (filled s, now) else (s, c.shows (paLocal x.pa) (x.pa % 32) now)
    | none => (filled s, now)

/-- The pieces of a weak load, one after another. -/
def State.loadPieces (s : State) (core launch : Nat) (inv : Bool) (cache : Nat) :
    List (Place × Nat × Dword) → State × Bytes
  | [] => (s, [])
  | (x, n, _) :: r =>
    let (s, b) := s.loadPiece core launch inv cache x n
    let (s, b') := s.loadPieces core launch inv cache r
    (s, b ++ b')

/-- The bytes of a place as memory holds them now (R217: strong loads skip L1). -/
def State.locNow (s : State) (uid : Nat) : Loc → Bytes
  | .mem ps => ps.flatMap fun (x, n, _) => s.readPa x.pa n
  | .scr k n => match s.team? uid with
    | some t => mreadN t.scr.bytes k n
    | none => List.replicate n 0

/-- R249: an invariant load of scratch, unit by unit; scratch is never held in L1. -/
def State.invScr (s : State) (uid k n : Nat) : State × Bytes :=
  match s.team? uid with
  | none => (s, List.replicate n 0)
  | some t =>
    let u := k / 8
    let olds := (tget t.scr.invs u).getD []
    let s := s.updTeam uid fun t => { t with scr := { t.scr with invs := tset t.scr.invs u olds } }
    let vals := leNat (mreadN t.scr.bytes (8 * u) 8) :: olds
    let (s, c) := if olds.isEmpty then (s, 0) else s.choose vals.length
    (s, ((leBytes ((vals[c]?).getD 0) 8).drop (k % 8)).take n)

/-- The bytes of a weak load. -/
def State.locLoad (s : State) (p : Pk) (inv : Bool) (cache : Nat) (loc : Loc) : State × Bytes :=
  match loc with
  | .mem ps => (s.locReq .read false loc).loadPieces p.grp.core p.team.launch inv cache ps
  | .scr k n =>
    if !inv then (s, s.locNow p.iss.uid loc)
    else if n ≤ 8 then s.invScr p.iss.uid k n
    else
      let (s, a) := s.invScr p.iss.uid k 8
      let (s, b) := s.invScr p.iss.uid (k + 8) (n - 8)
      (s, a ++ b)

/-- Writes scratch bytes; a sector covered as a whole is poisoned no longer and has a right check value. -/
def Scratch.write (w : Scratch) (k : Nat) (b : Bytes) : Scratch :=
  let bytes := mwriteN w.bytes k b
  let part (x : Nat) : Bool := !(k ≤ x * 32 && (x + 1) * 32 ≤ k + b.length)
  { w with
    bytes := bytes
    poison := w.poison.filter part
    flaw := w.flaw.filter fun e => part e.1
    invs := w.invs.map fun e => if 8 * e.1 < k + b.length && k < 8 * e.1 + 8 then (e.1, invOlds w.bytes bytes e.1 e.2) else e }

/-- R120: what one packet writes to scratch takes the poison from the sectors that its pieces cover together. -/
def Scratch.sweep (w : Scratch) (ps : List (Nat × Nat)) : Scratch :=
  { w with poison := w.poison.filter fun k => !coversSector ps k }

/-- R217, R218: the store of one piece writes through. With CACHE 0 or 1 the core's own copy follows; a store that skips the L1
leaves the core no copy of the sector. -/
def State.storePiece (s : State) (core cache pa : Nat) (b : Bytes) : State :=
  let s := s.writePa pa b
  if cache < 2 then s.l1Store core pa b else s.l1DropSector core pa

/-- The pieces of a store, one after another. -/
def State.storePieces (s : State) (core cache : Nat) : List (Place × Nat × Dword) → Bytes → State
  | [], _ => s
  | (x, n, _) :: r, b => (s.storePiece core cache x.pa (b.take n)).storePieces core cache r (b.drop n)

/-- Writes the bytes of a place. -/
def State.locStore (s : State) (p : Pk) (cache : Nat) (loc : Loc) (b : Bytes) : State :=
  match loc with
  | .mem ps => s.storePieces p.grp.core cache ps b
  | .scr k _ => s.updTeam p.iss.uid fun t => { t with scr := t.scr.write k b }

/-- The pieces of a place, for the sectors that stores cover together. -/
def Loc.pieces : Loc → List (Nat × Nat)
  | .mem ps => ps.map fun e => (e.1.pa, e.2.1)
  | .scr k n => [(k, n)]

/-- R120: takes the poison from what a packet's stores have covered together. -/
def State.locSweep (s : State) (uid : Nat) (scr : Bool) (ps : List (Nat × Nat)) : State :=
  if scr then s.updTeam uid fun t => { t with scr := t.scr.sweep ps } else s.sweep ps

/-! ### Detection -/

/-- R246, R421: the trap of a conflict, at its word's address. -/
def mmxTrap (lane : Nat) (bytes : List (RWord × Nat × Dword)) (write : Bool) (w : RWord) (a : Acc) : Trap :=
  { lane := lane, cause := cMMX
    addr := ((bytes.find? (·.1 == w)).map fun (_, _, va) => dword (va.toNat / 4 * 4)).getD 0
    info := (if write then 1 else 0) + (match a.tid with
      | .engine .. => 2
      | .lane .. => 0) }

/-- What an access of a lane is to detection. -/
def raceKind (s : State) (p : Pk) (order : Order) (sc : Scope) (read write rmw : Bool) (strong : Bool) : AccKind :=
  { read := read, write := write, rmw := rmw
    strong := if strong then some (scopeHolds s p.iss.uid p.iss.grp sc) else none
    acq := order == .acq || order == .ar, rel := order == .rel || order == .ar }

/-- R245, R246: the check of a lane's access when it issues. -/
def State.raceAdmit (s : State) (p : Pk) (lane : Nat) (loc : Loc) (k : AccKind) (eng : List Tid := []) : State × Option Trap :=
  let b := loc.bytes p.iss.uid
  let cov := loc.covered p.iss.uid
  match s.race.admitted (b.map fun e => (e.1, e.2.1)) (cov.map fun e => (e.1, e.2.1)) (p.tid lane) k eng with
  | .ok r => ({ s with race := r }, none)
  | .error (w, a) => (s, some (mmxTrap lane cov k.write w a))

/-- R234, R238: a lane's access is performed. -/
def State.racePerformed (s : State) (p : Pk) (lane : Nat) (loc : Loc) (k : AccKind) (was : Option Clock := none) : State :=
  { s with race := s.race.performed ((loc.bytes p.iss.uid).map fun e => (e.1, e.2.1)) (p.tid lane) k was }

/-- The same at once: a weak load. -/
def State.raceLoad (s : State) (p : Pk) (lane : Nat) (loc : Loc) (eng : List Tid := []) : State × Option Trap :=
  s.raceAdmit p lane loc { read := true, write := false } eng

def ordAcq (o : Order) : Bool := o == .acq || o == .ar
def ordRel (o : Order) : Bool := o == .rel || o == .ar

/-- R237: the ranks of the scopes. -/
def scopeRank : Scope → Nat
  | .grp => 0
  | .core => 1
  | .clu => 2
  | .stk => 3
  | .dev => 4
  | .sys => 5

/-- R179: the older contents that are left, of a list in rising order of their CMPLDs, when some of these have been acquired: a later
content of a table takes the place of every earlier one. -/
def tablesLeft (seen : OldTable → Bool) (l : List OldTable) : List OldTable :=
  (l.foldr (fun o x => if x.2.contains o.tbl || seen o then (x.1, o.tbl :: x.2) else (o :: x.1, x.2)) ([], ([] : List Nat))).1

/-- What a group acquires at device scope: an earlier KEYSET of another group (R228), and the tables that a release after
their CMPLD gives it (R179). -/
def State.groupAcquires (s : State) (uid grp : Nat) : State :=
  match s.group? uid grp with
  | none => s
  | some g =>
    if g.keyOlds.isEmpty && g.tabOlds.isEmpty then s
    else
      let seen (o : OldTable) : Bool := g.lanes.any fun l =>
        o.after.any fun e => decide (e.2 ≤ tgetD (s.race.thread (.lane uid grp l.idx)).clk e.1 0)
      s.updGroup uid grp fun g => { g with keyOlds := [], tabOlds := tablesLeft seen g.tabOlds }

/-- R257: an acquire of cluster scope or wider invalidates the core's L1; one of device scope or wider shows the group what
other groups have set. -/
def State.acquired (s : State) (uid grp core : Nat) (sc : Scope) : State :=
  let s := if scopeRank sc ≥ 2 then s.l1Invalidate core else s
  if scopeRank sc ≥ 4 then s.groupAcquires uid grp else s

/-- R237: full/empty operations act at cluster scope or wider. -/
def feScope (sc : Scope) : Scope := if scopeRank sc ≥ 2 then sc else .clu

/-! ### Widths (R117) -/

/-- The register value that a load of a width gives. -/
def widthVal (w : Width) (b : Bytes) : Nat :=
  let x := leNat b
  match w with
  | .s8 => ((BitVec.ofNat 8 x).signExtend 32).toNat
  | .s16 => ((BitVec.ofNat 16 x).signExtend 32).toNat
  | _ => x

/-- The value that a store of a width takes from its data operand. -/
def Pk.storeData (p : Pk) (l : Lane) (m : MemOp) : Nat := p.readN l 0 m.d m.width.regs

/-- The engine threads whose arrivals hold a scratch line full (R240). -/
def State.lineEngs (s : State) (uid line : Nat) : List Tid := (s.race.lineEng.filter (·.1 == (uid, line))).map (·.2)

/-! ### Reads at issue (R483) -/

/-- What a weak read by a lane at the issue of an instruction comes to. -/
inductive ReadOut where
  | ok (b : Bytes)
  | fault
  | mmx (t : Trap)
  deriving DecidableEq, Repr

/-- R483: a weak load of n bytes (a multiple of 32) by a lane at a multiple of `al`. A misaligned address counts as a read
fault. -/
def State.laneRead (s : State) (p : Pk) (lane : Nat) (va : Dword) (n al : Nat) : State × ReadOut :=
  if va.toNat % al != 0 then (s, .fault)
  else
    match s.placePieces p lane .load ((List.range (n / 32)).map fun i => (va + dword (32 * i), 32)) with
    | (s, .error _) => (s, .fault)
    | (s, .ok loc) =>
      match s.readPoison p.iss.uid p.grp.core true loc with
      | some _ => (s, .fault)
      | none =>
        match s.raceLoad p lane loc with
        | (s, some t) => (s, .mmx t)
        | (s, none) =>
          let (s, b) := s.locLoad p false 0 loc
          (s, .ok b)

end Sys2Proof.Machine
end

