-- ==== Sys2Proof/Machine/Engine.lean ====
section
/-! DEFINITION. What the engines share: an operation is a thread of its own (R239, R243), with a flag of the issuing group,
registers that wait for its results (R125), slots that it may outlive (R302), and records (R417). -/

namespace Sys2Proof.Machine

/-- The traps of a command that is checked once for its packet: one per listed lane. -/
def trapsOf (ls : List Lane) (c : Cause) (addr : Dword := 0) (info : Dword := 0) : List Trap :=
  ls.map fun l => { lane := l.idx, cause := c, addr := addr, info := info }

/-- The address of a word, for a record (R421): a slot's words count from the slot's start. -/
def RWord.addr : RWord → Dword
  | .mem w => dword (4 * w)
  | .scr _ w => dword (4 * w)
  | .slot _ lo _ => dword (4 * lo)

/-- R239: the fork edge: what the issuing lanes have done happens before what the engine thread does. -/
def State.fork (s : State) (p : Pk) (t : Tid) (lanes : List Nat) : State :=
  let x := lanes.foldl (fun (x : Race × Clock) l =>
    let y := x.1.forked (p.tid l)
    (y.1, clkJoin x.2 y.2)) (s.race, [])
  { s with race := x.1.start t x.2 }

/-- R421: INFO of a conflict's record: bit 0 for a write, bit 1 when the other thread is an engine's. -/
def conflictInfo (write : Bool) (a : Acc) : Dword :=
  (if write then 1 else 0) + (match a.tid with
    | .engine .. => 2
    | .lane .. => 0)

/-- R247, R421: an access of an engine thread takes effect; each conflict that it completes is recorded by itself. `note`: the
record, for the word and the INFO of a conflict. -/
def State.engineTouch (s : State) (t : Tid) (ws : List RWord) (write : Bool) (note : State → RWord → Dword → State) : State :=
  let x := s.race.engine ws t write
  x.2.foldl (fun s e => note s e.1 (conflictInfo write e.2)) { s with race := x.1 }

/-- R239, R244: an engine operation ends: its flag stands for all that it did, its region closes, and the flag falls, unless
other operations of its packet still hold it up (R35). `msg`: only a message shows the end. -/
def State.engineDone (s : State) (t : Tid) (uid grp : Nat) (flag : Option Nat) (last : Bool := true) (pkt : Nat := 0)
    (msg : Bool := false) : State :=
  let c := s.race.relClk t
  let race := match flag with
    | some f => { s.race with flagClk := clkPut s.race.flagClk (uid, grp, f) c }
    | none => s.race
  let launch := ((s.team? uid).map fun (t : Team) => t.launch).getD 0
  ({ s with race := (race.fold launch t).endEngine t (uid, grp, pkt) (last || flag.isNone) msg } : State).lowerFlag uid grp
    (if last then flag else none)

/-- R125: registers of lanes that wait for an engine operation. -/
def State.reserve (s : State) (p : Pk) (h : Hdr) (id : Nat) (regs : List (Nat × Nat)) : State :=
  if regs.isEmpty then s
  else s.fly p { regs := regs.map fun e => (e.1, e.2, 0), preds := [], flag := none, owner := some id, idle := p.idle h }

/-- The registers of a v-destination of w words in lanes. -/
def dstRegs (d : Spec) (w : Nat) (lanes : List Nat) : List (Nat × Nat) :=
  match d with
  | .v n => lanes.flatMap fun l => (rangeFrom n.toNat w).map fun r => (l, r)
  | _ => []

/-- The results of an engine operation reach the registers that still wait for them. -/
def Group.deliverOwner (g : Group) (id : Nat) (vals : List (Nat × Nat × Word)) : Group :=
  let mine := g.inflight.filter (·.owner == some id)
  let regs := mine.flatMap fun q => q.regs.filterMap fun e =>
    (vals.find? fun v => v.1 == e.1 && v.2.1 == e.2.1)
  ({ g with inflight := g.inflight.filter (·.owner != some id) } : Group).deliver { regs := regs, preds := [], flag := none }

def State.deliverOwner (s : State) (uid grp id : Nat) (vals : List (Nat × Nat × Word)) : State :=
  s.updGroup uid grp (·.deliverOwner id vals)

/-- R417: a record of an engine operation of a unit. -/
def State.engineRecord (s : State) (uid grp : Nat) (r : FRec) : State :=
  match s.team? uid with
  | none => s
  | some t =>
    match t.group? grp with
    | some g => s.record t.ctx (r.ofGroup t g)
    | none => s.record t.ctx { r with launch := t.launch, team := t.team }

/-- R190: the effective priority of a unit's launch. -/
def State.effPrio (s : State) (uid : Nat) : Nat :=
  match s.team? uid with
  | some t => min t.card.prio (s.chan t.card.client).prioCap
  | none => 0

/-! ### Slots -/

/-- R302: the slot that an operation uses under a team's number: one released since the operation was issued, or the
claimed one. -/
def Team.slotFor (t : Team) (acc : Bool) (n id : Nat) : Option Slot :=
  match t.zombies.find? fun z => z.1 == acc && z.2.1 == n && z.2.2.1.contains id with
  | some z => some z.2.2.2
  | none => tget (if acc then t.accs else t.ops) n

def Team.setSlotFor (t : Team) (acc : Bool) (n id : Nat) (x : Slot) : Team :=
  if t.zombies.any fun z => z.1 == acc && z.2.1 == n && z.2.2.1.contains id then
    { t with zombies := t.zombies.map fun z =>
        if z.1 == acc && z.2.1 == n && z.2.2.1.contains id then (z.1, z.2.1, z.2.2.1, x) else z }
  else if acc then { t with accs := if (tget t.accs n).isSome then tset t.accs n x else t.accs }
  else { t with ops := if (tget t.ops n).isSome then tset t.ops n x else t.ops }

/-- R302: an operation no longer uses released slots; a slot without users returns to the cluster. -/
def Team.dropUser (t : Team) (id : Nat) : Team :=
  let zs := t.zombies.map fun z => (z.1, z.2.1, z.2.2.1.filter (· != id), z.2.2.2)
  { t with zombies := zs.filter fun z => !z.2.2.1.isEmpty }

/-- The bytes of a slot: element area and side area, or an accumulator (R298, R299). -/
def opBytes : Nat := 20480
def accBytes : Nat := 65536

/-- Writes slot bytes; a sector covered as a whole is poisoned no longer and has a right check value. -/
def Slot.write (x : Slot) (a : Nat) (b : Bytes) : Slot :=
  let part (k : Nat) : Bool := !(a ≤ k * 32 && (k + 1) * 32 ≤ a + b.length)
  { x with
    bytes := mwriteN x.bytes a b
    poison := x.poison.filter part
    flaw := x.flaw.filter fun e => part e.1 }

/-- R231: the checks of the sectors of a range of a slot: a failed one takes the poison form. -/
def Slot.verified (x : Slot) (a n : Nat) : Slot :=
  { x with
    poison := (x.flaw.filter fun e => poisoned [e.1] a n).foldl (fun l e => sins l e.1) x.poison
    flaw := x.flaw.filter fun e => !poisoned [e.1] a n }

/-- R231, R299: the checks of a range of the slot that an operation uses: one event of the team's stack is counted for each that
fails. -/
def State.slotVerify (s : State) (uid : Nat) (acc : Bool) (k id a n : Nat) : State :=
  match s.team? uid with
  | none => s
  | some t =>
    match t.slotFor acc k id with
    | none => s
    | some x =>
      let bad := x.flaw.filter fun e => poisoned [e.1] a n
      if bad.isEmpty then s
      else bad.foldl (fun s _ => s.countInteg t.stack) (s.updTeam uid fun t => t.setSlotFor acc k id (x.verified a n))

/-! ### Beam pools -/

/-- A record of the pool is written: its sectors have right check values. -/
def Team.poolClear (t : Team) (k : Nat) : Team :=
  { t with poolPoison := t.poolPoison.filter (· / 8 != k), poolFlaw := t.poolFlaw.filter (·.1 / 8 != k) }

/-- R232: does one of the records have a sector of the poison form? -/
def Team.poolBad (t : Team) (ks : List Nat) : Bool := t.poolPoison.any fun e => ks.contains (e / 8)

/-- R230, R231: the checks of records of a team's beam pool: a failed sector takes the poison form, and one event of the team's
stack is counted. -/
def State.poolVerify (s : State) (uid : Nat) (ks : List Nat) : State :=
  match s.team? uid with
  | none => s
  | some t =>
    let bad := t.poolFlaw.filter fun e => ks.contains (e.1 / 8)
    if bad.isEmpty then s
    else bad.foldl (fun s _ => s.countInteg t.stack) (s.updTeam uid fun t => { t with
      poolPoison := bad.foldl (fun l e => sins l e.1) t.poolPoison
      poolFlaw := t.poolFlaw.filter fun e => !ks.contains (e.1 / 8) })

/-- The words of slot bytes a to a + n - 1, for detection (R315). -/
def Slot.words (x : Slot) (a n : Nat) : List RWord := if n == 0 then [] else [.slot x.gid (a / 4) ((a + n + 3) / 4)]

end Sys2Proof.Machine
end

