-- ==== Sys2Proof/Machine/Integer.lean ====
section
/-! DEFINITION. The integer instructions (R73 to R78). Values are exact integers, reduced to the destination's width at the
end. -/

namespace Sys2Proof.Machine

/-! ### Values -/

/-- A 32-bit and a 64-bit value read as two's complement. -/
def sg32 (n : Nat) : Int := (BitVec.ofNat 32 n).toInt
def sg64 (n : Nat) : Int := (BitVec.ofNat 64 n).toInt

/-- The low 32 and 64 bits of an exact integer. -/
def lo32i (x : Int) : Nat := (x % 2 ^ 32).toNat
def lo64i (x : Int) : Nat := (x % 2 ^ 64).toNat

/-- `sat_s` and `sat_u` of the chapter's pseudocode. -/
def satS (x : Int) : Int := min (max x (-2 ^ 31)) (2 ^ 31 - 1)
def satU (x : Int) : Int := min (max x 0) (2 ^ 32 - 1)

/-- `byte` of the chapter's pseudocode. -/
def byteAt (x i : Nat) : Nat := x / 2 ^ (8 * i) % 256

/-- The number whose bit j is f j. -/
def bitsNat (f : Nat → Bool) : Nat → Nat
  | 0 => 0
  | n + 1 => bitsNat f n + if f n then 2 ^ n else 0

/-- The number of 1 bits among the low n. -/
def countBits (x : Nat) : Nat → Nat
  | 0 => 0
  | n + 1 => countBits x n + (if x.testBit n then 1 else 0)

/-- The number of leading 0 bits of the low n. -/
def leadZeros (x : Nat) : Nat → Nat
  | 0 => 0
  | n + 1 => if x.testBit n then 0 else 1 + leadZeros x n

/-- R76: the saturating forms of a sum or a difference; x: the signed result, y: the unsigned one. -/
def satSel (sat : Sat) (x y : Int) : Nat :=
  match sat with
  | .wrap => lo32i x
  | .signed => lo32i (satS x)
  | .unsigned => lo32i (satU y)

/-- R78: a relation of two integers. -/
def cmpInt (c : ICmp) (a b : Int) : Bool :=
  match c with
  | .eq => a == b
  | .ne => a != b
  | .lt => a < b
  | .le => a ≤ b
  | .gt => a > b
  | .ge => a ≥ b

/-- R78: the relation of two 32-bit values, signed or unsigned. -/
def icmp (u : Bool) (c : ICmp) (a b : Nat) : Bool := if u then cmpInt c a b else cmpInt c (sg32 a) (sg32 b)

/-- R78: the combination of a comparison with a predicate source. -/
def bopSel (bop : BOp) (t : Bool) (q : Option Bool) : Bool :=
  match q with
  | none => t
  | some q =>
    match bop with
    | .and => t && q
    | .or => t || q
    | .xor => t != q

/-- The shift count of R76. -/
def shiftN (w : Bool) (b : Nat) : Nat := if w then b % 32 else b

/-- R77: BFE. -/
def bfe (sg : Bool) (a b : Nat) : Nat :=
  let pos := min (byteAt b 0) 32
  let len := min (byteAt b 1) 32
  if len == 0 then 0
  else
    let src : Int := if sg then sg32 a else a
    let f : Nat := (src / 2 ^ pos % 2 ^ len).toNat
    if sg && f.testBit (len - 1) then lo32i ((f : Int) - 2 ^ len) else f

/-- R77: BFI. -/
def bfi (a b c : Nat) : Nat :=
  let pos := min (byteAt b 0) 32
  let len := min (byteAt b 1) 32
  let m := (2 ^ len - 1) * 2 ^ pos % 2 ^ 32
  (c &&& (2 ^ 32 - 1 - m)) ||| (a * 2 ^ pos % 2 ^ 32 &&& m)

/-- R77: one result byte of BYPERM. -/
def bypermByte (y sel : Nat) : Nat :=
  let e := byteAt y (sel % 8)
  if sel.testBit 6 then 0 else if sel.testBit 7 then (if e ≥ 128 then 255 else 0) else e

/-- R77: BYPERM. -/
def byperm (a b c : Nat) : Nat :=
  let y := b * 2 ^ 32 + a
  ((List.range 4).map fun i => bypermByte y (byteAt c i) * 2 ^ (8 * i)).sum

/-- R76: IDP4. -/
def idp4 (sat ua ub : Bool) (a b c : Nat) : Nat :=
  let e (u : Bool) (x : Nat) : Int := if u then x else (BitVec.ofNat 8 x).toInt
  let x := sg32 c + ((List.range 4).map fun i => e ua (byteAt a i) * e ub (byteAt b i)).sum
  lo32i (if sat then satS x else x)

/-! ### Sources by number -/

def Op1.alu (i : Instr) (o : Op1) (f : Nat → Nat) (s : State) : Answer :=
  Machine.alu i o.h o.imm (fun _ _ v => Res.of (f (v.getD 0 0))) s

def Op2.alu (i : Instr) (o : Op2) (f : Nat → Nat → Nat) (s : State) : Answer :=
  Machine.alu i o.h o.imm (fun _ _ v => Res.of (f (v.getD 0 0) (v.getD 1 0))) s

def Op3.alu (i : Instr) (o : Op3) (f : Nat → Nat → Nat → Nat) (s : State) : Answer :=
  Machine.alu i o.h o.imm (fun _ _ v => Res.of (f (v.getD 0 0) (v.getD 1 0) (v.getD 2 0))) s

/-! ### The instructions -/

def execIadd (sat : Sat) (o : Op2) (s : State) : Answer :=
  Op2.alu (.iadd sat o) o (fun a b => satSel sat (match sat with
    | .wrap => (a : Int) + b
    | _ => sg32 a + sg32 b) ((a : Int) + b)) s

def execIsub (sat : Sat) (o : Op2) (s : State) : Answer :=
  Op2.alu (.isub sat o) o (fun a b => satSel sat (sg32 a - sg32 b) ((a : Int) - b)) s

/-- R76: the carry goes to PO in every active lane, the sum to D. -/
def execIaddc (po : BitVec 3) (h : Hdr) (d : Spec) (a b : Src) (pi : PSrc) (imm : Word) (s : State) : Answer :=
  let i := Instr.iaddc po h d a b pi imm
  issue i h s fun s p =>
    let act := if i.scalarDst then (p.active h).take 1 else p.active h
    let rs := act.map fun l =>
      let x := (p.read32 l imm a.spec).toNat + (p.read32 l imm b.spec).toNat + if l.psrc pi then 1 else 0
      (l.idx, x)
    let s := s.kill p ((p.active h).map (·.idx)) (shapeKills i.shape)
    let s := s.writeDst p d 1 rs
    -- R41: on the scalar path one carry is computed for the packet (log entry 12)
    let cs := (p.active h).map fun l => (l.idx, (((rs.find? (·.1 == l.idx)).or rs.head?).map (·.2)).getD 0)
    let s := s.updGroup p.iss.uid p.iss.grp fun g =>
      let g := g.supersedeP (cs.map (·.1)) [po.toNat]
      { g with lanes := g.lanes.map fun l =>
          match cs.find? (·.1 == l.idx) with
          | some (_, x) => l.setPred po (x ≥ 2 ^ 32)
          | none => l }
    .next ((s.advance p p.iss.lanes).trapPk p [])

def execImul (o : Op2) (s : State) : Answer := Op2.alu (.imul o) o (fun a b => lo32i (sg32 a * sg32 b)) s

def execImulh (u : Bool) (o : Op2) (s : State) : Answer :=
  Op2.alu (.imulh u o) o (fun a b => if u then a * b / 2 ^ 32 else lo32i (sg32 a * sg32 b / 2 ^ 32)) s

def execImad (o : Op3) (s : State) : Answer :=
  Op3.alu (.imad o) o (fun a b c => lo32i (sg32 a * sg32 b + sg32 c)) s

def execImadw (u : Bool) (o : Op3) (s : State) : Answer :=
  Op3.alu (.imadw u o) o (fun a b c =>
    if u then (a * b + c) % 2 ^ 64 else lo64i (sg32 a * sg32 b + sg64 c)) s

def execImin (u : Bool) (o : Op2) (s : State) : Answer :=
  Op2.alu (.imin u o) o (fun a b => if icmp u .le a b then a else b) s

def execImax (u : Bool) (o : Op2) (s : State) : Answer :=
  Op2.alu (.imax u o) o (fun a b => if icmp u .ge a b then a else b) s

def execIabs (sat : Bool) (o : Op1) (s : State) : Answer :=
  Op1.alu (.iabs sat o) o (fun a =>
    let x : Int := (sg32 a).natAbs
    lo32i (if sat then satS x else x)) s

def execTern (lut : BitVec 8) (o : Op3) (s : State) : Answer :=
  Op3.alu (.tern lut o) o (fun a b c => bitsNat (fun j =>
    lut.getLsbD ((a.testBit j).toNat + 2 * (b.testBit j).toNat + 4 * (c.testBit j).toNat)) 32) s

def execShl (w : Bool) (o : Op2) (s : State) : Answer :=
  Op2.alu (.shl w o) o (fun a b =>
    let n := shiftN w b
    if n ≥ 32 then 0 else a * 2 ^ n % 2 ^ 32) s

def execShr (w : Bool) (o : Op2) (s : State) : Answer :=
  Op2.alu (.shr w o) o (fun a b =>
    let n := shiftN w b
    if n ≥ 32 then 0 else a / 2 ^ n) s

def execSar (w : Bool) (o : Op2) (s : State) : Answer :=
  Op2.alu (.sar w o) o (fun a b => lo32i (sg32 a / 2 ^ min (shiftN w b) 31)) s

def execShf (l w : Bool) (o : Op3) (s : State) : Answer :=
  Op3.alu (.shf l w o) o (fun a b c =>
    let x := b * 2 ^ 32 + a
    let n := if w then c % 32 else min c 32
    if l then x * 2 ^ n / 2 ^ 32 % 2 ^ 32 else x / 2 ^ n % 2 ^ 32) s

def execBfe (sg : Bool) (o : Op2) (s : State) : Answer := Op2.alu (.bfe sg o) o (bfe sg) s

def execBfi (o : Op3) (s : State) : Answer := Op3.alu (.bfi o) o bfi s

def execPopc (o : Op1) (s : State) : Answer := Op1.alu (.popc o) o (fun a => countBits a 32) s

def execClz (o : Op1) (s : State) : Answer := Op1.alu (.clz o) o (fun a => leadZeros a 32) s

def execBrev (o : Op1) (s : State) : Answer := Op1.alu (.brev o) o (fun a => bitsNat (fun j => a.testBit (31 - j)) 32) s

def execByperm (o : Op3) (s : State) : Answer := Op3.alu (.byperm o) o byperm s

/-- R78, shared by the comparisons into a predicate: `t` combined with the lane's predicate source. -/
def OpCmp.alu (i : Instr) (bop : BOp) (o : OpCmp) (t : Nat → Nat → Bool × BitVec 5) (s : State) : Answer :=
  aluPred i o.h o.imm o.pd (fun _ l v =>
    let r := t (v.getD 0 0) (v.getD 1 0)
    (bopSel bop r.1 (o.pc.map l.psrc), r.2)) s

def execIset (u : Bool) (cmp : ICmp) (bop : BOp) (o : OpCmp) (s : State) : Answer :=
  OpCmp.alu (.iset u cmp bop o) bop o (fun a b => (icmp u cmp a b, 0)) s

def execIsetv (u : Bool) (cmp : ICmp) (o : Op2) (s : State) : Answer :=
  Op2.alu (.isetv u cmp o) o (fun a b => if icmp u cmp a b then 0xFFFFFFFF else 0) s

def execIadd64 (o : Op2) (s : State) : Answer := Op2.alu (.iadd64 o) o (fun a b => (a + b) % 2 ^ 64) s

def execIsub64 (o : Op2) (s : State) : Answer := Op2.alu (.isub64 o) o (fun a b => lo64i ((a : Int) - b)) s

def execLea (k : BitVec 5) (o : Op2) (s : State) : Answer :=
  Op2.alu (.lea k o) o (fun a b => (a + b * 2 ^ k.toNat) % 2 ^ 32) s

def execLea64 (u : Bool) (k : BitVec 5) (o : Op2) (s : State) : Answer :=
  Op2.alu (.lea64 u k o) o (fun a b => lo64i ((a : Int) + (if u then (b : Int) else sg32 b) * 2 ^ k.toNat)) s

def execIdp4 (sat ua ub : Bool) (o : Op3) (s : State) : Answer := Op3.alu (.idp4 sat ua ub o) o (idp4 sat ua ub) s

def execIsad (u : Bool) (o : Op3) (s : State) : Answer :=
  Op3.alu (.isad u o) o (fun a b c =>
    let x : Int := if u then (a : Int) - b else sg32 a - sg32 b
    (x.natAbs + c) % 2 ^ 32) s

def execShl64 (o : Op2) (s : State) : Answer :=
  Op2.alu (.shl64 o) o (fun a b => if b ≥ 64 then 0 else a * 2 ^ b % 2 ^ 64) s

def execShr64 (ar : Bool) (o : Op2) (s : State) : Answer :=
  Op2.alu (.shr64 ar o) o (fun a b =>
    if ar then lo64i (sg64 a / 2 ^ min b 63) else if b ≥ 64 then 0 else a / 2 ^ b) s

def execMov (p : Bool) (o : Op1) (s : State) : Answer := Op1.alu (.mov p o) o (fun a => a) s

def execSel (h : Hdr) (d : Spec) (a b : Src) (pc : PSrc) (imm : Word) (s : State) : Answer :=
  alu (.sel h d a b pc imm) h imm (fun _ l v => Res.of (if l.psrc pc then v.getD 0 0 else v.getD 1 0)) s

end Sys2Proof.Machine
end

