-- ==== Sys2Proof/Machine/Float.lean ====
section
/-! DEFINITION. Floating-point values and their rounding (R98 to R102): a finite value is exact, a sign with a natural
number times a power of two; every operation computes the exact result and rounds once. -/

namespace Sys2Proof.Machine

/-- A binary format by its exponent and fraction widths (R98). -/
structure FpFmt where
  eb : Nat
  mb : Nat
  deriving DecidableEq, Repr

def fp32 : FpFmt := ⟨8, 23⟩
def fp64 : FpFmt := ⟨11, 52⟩
def fp16 : FpFmt := ⟨5, 10⟩
def bf16 : FpFmt := ⟨8, 7⟩

/-- R114: the format that a field names. -/
def fmtOf : FFmt → FpFmt
  | .f32 => fp32
  | .f64 => fp64
  | .f16 => fp16
  | .bf16 => bf16

namespace FpFmt

def bias (f : FpFmt) : Nat := 2 ^ (f.eb - 1) - 1
/-- The exponent of the smallest normal magnitude. -/
def emin (f : FpFmt) : Int := 1 - (f.bias : Int)
/-- The exponent of the last place of a subnormal. -/
def qmin (f : FpFmt) : Int := f.emin - f.mb
def signBit (f : FpFmt) : Nat := 2 ^ (f.eb + f.mb)
/-- The magnitude bits of infinity, of the largest finite value, of 1.0, and the canonical NaN (R98, R99). -/
def infBits (f : FpFmt) : Nat := (2 ^ f.eb - 1) * 2 ^ f.mb
def maxBits (f : FpFmt) : Nat := f.infBits - 1
def oneBits (f : FpFmt) : Nat := f.bias * 2 ^ f.mb
def nan (f : FpFmt) : Nat := f.infBits + 2 ^ (f.mb - 1)

end FpFmt

/-- What a bit pattern stands for. -/
inductive FVal where
  | nan (signalling : Bool)
  | inf (neg : Bool)
  /-- (-1)^neg * m * 2^e -/
  | fin (neg : Bool) (m : Nat) (e : Int)
  deriving DecidableEq, Repr

/-- R98: the value of a bit pattern. -/
def FpFmt.val (f : FpFmt) (bits : Nat) : FVal :=
  let neg := bits / f.signBit % 2 == 1
  let ex := bits / 2 ^ f.mb % 2 ^ f.eb
  let fr := bits % 2 ^ f.mb
  if ex == 2 ^ f.eb - 1 then (if fr == 0 then .inf neg else .nan (fr < 2 ^ (f.mb - 1)))
  else if ex == 0 then .fin neg fr f.qmin
  else .fin neg (2 ^ f.mb + fr) (f.qmin + (ex - 1))

def FVal.isNan : FVal → Bool
  | .nan _ => true
  | _ => false

/-- R102: a signalling NaN operand sets NV. -/
def FVal.sig : FVal → Bool
  | .nan s => s
  | _ => false

def FVal.neg : FVal → Bool
  | .inf n => n
  | .fin n _ _ => n
  | .nan _ => false

def FVal.isZero : FVal → Bool
  | .fin _ m _ => m == 0
  | _ => false

def FVal.isInf : FVal → Bool
  | .inf _ => true
  | _ => false

/-- A format's bits with a sign. -/
def FpFmt.signed (f : FpFmt) (neg : Bool) (mag : Nat) : Nat := mag + if neg then f.signBit else 0

def fpBit (b : Bool) (x : BitVec 5) : BitVec 5 := if b then x else 0

/-- The canonical NaN with or without NV. -/
def FpFmt.nanRes (f : FpFmt) (nv : Bool) : Res := ⟨f.nan, fpBit nv fNV⟩

/-- The number of bits of a natural number. -/
def bitLen (m : Nat) : Nat := if m == 0 then 0 else Nat.log2 m + 1

/-- R101: does a truncated magnitude go up? `half`: how the discarded part compares with half a unit of the last place. -/
def goesUp (rnd : Rnd) (neg odd : Bool) (half : Ordering) (inexact : Bool) : Bool :=
  match rnd with
  | .rn => half == .gt || (half == .eq && odd)
  | .rz => false
  | .ru => inexact && !neg
  | .rd => inexact && neg

/-- A magnitude m * 2^e, a little more when `sticky`, rounded to a multiple of 2^q: the multiple, and whether it differs. -/
def roundAt (rnd : Rnd) (neg : Bool) (m : Nat) (e : Int) (sticky : Bool) (q : Int) : Nat × Bool :=
  if q ≤ e then (m * 2 ^ (e - q).toNat, sticky)
  else
    let sh := (q - e).toNat
    let (n, r, far) := if sh > bitLen m + 1 then (0, 0, true) else (m / 2 ^ sh, m % 2 ^ sh, false)
    let inexact := r != 0 || sticky || (far && m != 0)
    let half : Ordering :=
      if far then .lt
      else match compare r (2 ^ (sh - 1)) with
        | .eq => if sticky then .gt else .eq
        | o => o
    (if goesUp rnd neg (n % 2 == 1) half inexact then n + 1 else n, inexact)

/-- R101, R102: rounds an exact nonzero magnitude, a little more when `sticky`, to a format. -/
def FpFmt.round (f : FpFmt) (rnd : Rnd) (neg : Bool) (m : Nat) (e : Int) (sticky : Bool := false) : Res :=
  let top : Int := (bitLen m : Int) - 1 + e
  let q := max top f.emin - f.mb
  let (n, inexact) := roundAt rnd neg m e sticky q
  let mag := (q - f.qmin).toNat * 2 ^ f.mb + n
  if mag ≥ f.infBits then
    let toInf := match rnd with
      | .rn => true
      | .rz => false
      | .ru => !neg
      | .rd => neg
    ⟨f.signed neg (if toInf then f.infBits else f.maxBits), fOF ||| fNX⟩
  else
    -- tininess after rounding with an unbounded exponent
    let tiny := top < f.emin && (top + 1 < f.emin || (roundAt rnd neg m e sticky (top - f.mb)).1 < 2 ^ (f.mb + 1))
    ⟨f.signed neg mag, fpBit inexact fNX ||| fpBit (inexact && tiny) fUF⟩

/-- R101: the sign of an exact zero sum of terms with these signs. -/
def zeroSign (rnd : Rnd) (signs : List Bool) : Bool :=
  if signs.all (· == true) then true else if signs.all (· == false) then false else rnd == .rd

/-- Rounds an exact signed sum of terms m * 2^e, each with its sign. -/
def FpFmt.roundSum (f : FpFmt) (rnd : Rnd) (terms : List (Bool × Nat × Int)) : Res :=
  let e := terms.foldl (fun a t => if t.2.1 == 0 then a else min a t.2.2) (terms.foldl (fun a t => max a t.2.2) 0)
  let x : Int := (terms.map fun t =>
    let m : Int := t.2.1 * 2 ^ (t.2.2 - e).toNat
    if t.1 then -m else m).sum
  if x == 0 then ⟨f.signed (zeroSign rnd (terms.map (·.1))) 0, 0⟩ else f.round rnd (x < 0) x.natAbs e

/-! ### Sign modifiers, saturation -/

/-- R104: the sign modifiers on a bit pattern. -/
def FpFmt.mods (f : FpFmt) (abs neg : Bool) (bits : Nat) : Nat :=
  let b := if abs then bits % f.signBit else bits
  if neg then (if b / f.signBit % 2 == 1 then b - f.signBit else b + f.signBit) else b

/-- R104: SAT clamps the rounded result to [+0, 1.0]. -/
def FpFmt.sat (f : FpFmt) (on : Bool) (r : Res) : Res :=
  if !on then r
  else
    ⟨match f.val r.val with
      | .nan _ => 0
      | .inf n => if n then 0 else f.oneBits
      | .fin n _ _ => if n then 0 else min r.val f.oneBits, r.fp⟩

/-! ### Arithmetic on values -/

/-- Are opposite infinities among the terms? -/
def oppositeInf (l : List FVal) : Bool := l.contains (.inf true) && l.contains (.inf false)

/-- The exact sum of terms, rounded once (R101, R102). `nv`: an operand or a product has set NV already. -/
def FpFmt.addTerms (f : FpFmt) (rnd : Rnd) (nv : Bool) (l : List FVal) : Res :=
  if nv || oppositeInf l then f.nanRes true
  else if l.any FVal.isNan then f.nanRes false
  else
    match l.find? FVal.isInf with
    | some x => ⟨f.signed x.neg f.infBits, 0⟩
    | none => f.roundSum rnd (l.filterMap fun
        | .fin n m e => some (n, m, e)
        | _ => none)

/-- The exact product of two values; a NaN, or 0 times infinity, is a NaN, the latter with NV. -/
def FVal.mul (a b : FVal) : FVal × Bool :=
  match a, b with
  | .nan _, _ | _, .nan _ => (.nan false, false)
  | .inf n, .inf n' => (.inf (n != n'), false)
  | .inf n, .fin n' m _ | .fin n' m _, .inf n => if m == 0 then (.nan false, true) else (.inf (n != n'), false)
  | .fin n m e, .fin n' m' e' => (.fin (n != n') (m * m') (e + e'), false)

def FpFmt.add (f : FpFmt) (rnd : Rnd) (a b : FVal) : Res := f.addTerms rnd (a.sig || b.sig) [a, b]

def FpFmt.mul (f : FpFmt) (rnd : Rnd) (a b : FVal) : Res :=
  let (x, bad) := a.mul b
  match x with
  | .nan _ => f.nanRes (bad || a.sig || b.sig)
  | .inf n => ⟨f.signed n f.infBits, 0⟩
  | .fin n m e => if m == 0 then ⟨f.signed n 0, 0⟩ else f.round rnd n m e

/-- R105: a * b + c, rounded once. -/
def FpFmt.fma (f : FpFmt) (rnd : Rnd) (a b c : FVal) : Res :=
  let (x, bad) := a.mul b
  f.addTerms rnd (bad || a.sig || b.sig || c.sig) [x, c]

/-- The order of two values that are no NaN, -0 equal to +0. -/
def FVal.cmp (a b : FVal) : Ordering :=
  match a, b with
  | .fin n m e, .fin n' m' e' =>
    let q := min e e'
    let x : Int := (if n then -1 else 1) * (m * 2 ^ (e - q).toNat : Nat)
    let y : Int := (if n' then -1 else 1) * (m' * 2 ^ (e' - q).toNat : Nat)
    compare x y
  | .inf n, .inf n' => if n == n' then .eq else if n then .lt else .gt
  | .inf n, _ => if n then .lt else .gt
  | _, .inf n => if n then .gt else .lt
  | _, _ => .eq

/-- R106: minimumNumber and maximumNumber on bit patterns. -/
def FpFmt.minMax (f : FpFmt) (isMax : Bool) (x y : Nat) : Res :=
  let a := f.val x
  let b := f.val y
  let nv := fpBit (a.sig || b.sig) fNV
  match a.isNan, b.isNan with
  | true, true => ⟨f.nan, nv⟩
  | true, false => ⟨y, nv⟩
  | false, true => ⟨x, nv⟩
  | false, false =>
    let less := match a.cmp b with
      | .lt => true
      | .gt => false
      | .eq => a.neg
    ⟨if less != isMax then x else y, 0⟩

/-- R108: a relation. -/
def fcmp (c : FCmp) (a b : FVal) : Bool :=
  let nan := a.isNan || b.isNan
  match c with
  | .eq => !nan && a.cmp b == .eq
  | .ne => nan || a.cmp b != .eq
  | .lt => !nan && a.cmp b == .lt
  | .le => !nan && a.cmp b != .gt
  | .gt => !nan && a.cmp b == .gt
  | .ge => !nan && a.cmp b != .lt
  | .num => !nan
  | .nan => nan

/-- R108: a comparison with its NV. -/
def FpFmt.test (f : FpFmt) (c : FCmp) (x y : Nat) : Bool × BitVec 5 :=
  let a := f.val x
  let b := f.val y
  (fcmp c a b, fpBit (a.sig || b.sig) fNV)

/-- R105: FRND. -/
def FpFmt.toIntegral (f : FpFmt) (rnd : Rnd) (x : Nat) : Res :=
  match f.val x with
  | .nan s => f.nanRes s
  | .inf _ => ⟨x, 0⟩
  | .fin n m e =>
    let k := (roundAt rnd n m e false 0).1
    if e ≥ 0 then ⟨x, 0⟩ else if k == 0 then ⟨f.signed n 0, 0⟩ else ⟨(f.round .rn n k 0).val, 0⟩

/-- R107: the class of a value, as a bit number. -/
def FpFmt.cls (f : FpFmt) (x : Nat) : Nat :=
  match f.val x with
  | .nan true => 0
  | .nan false => 1
  | .inf true => 2
  | .inf false => 9
  | .fin n m _ =>
    let sub := m < 2 ^ f.mb
    if m == 0 then (if n then 5 else 6) else if n then (if sub then 4 else 3) else if sub then 7 else 8

/-- R105: FSCALE. -/
def FpFmt.scale (f : FpFmt) (rnd : Rnd) (x : Nat) (k : Int) : Res :=
  match f.val x with
  | .nan s => f.nanRes s
  | .inf _ => ⟨x, 0⟩
  | .fin n m e => if m == 0 then ⟨x, 0⟩ else f.round rnd n m (e + k)

end Sys2Proof.Machine
end

