-- ==== Sys2Proof/Machine/Geometry.lean ====
section
/-! DEFINITION. Exact geometry on rational numbers for the beam and ray engines: vectors, rounding to binary32, lines and
convex polygons of the measure plane (R350), and the nodes of a scene (R351, R352, R354). -/

namespace Sys2Proof.Machine

/-! ### Numbers -/

/-- The exact value of a finite binary32. -/
def f32Rat (bits : Nat) : Option Rat :=
  match fp32.val bits with
  | .fin n m e =>
    let x : Int := if n then -(m : Int) else m
    some (if 0 ≤ e then (x * 2 ^ e.toNat : Int) else mkRat x (2 ^ (-e).toNat))
  | _ => none

/-- A rational rounded once to a binary32 with round_ne. -/
def ratF32 (q : Rat) : Nat :=
  if q.num == 0 then 0
  else
    let m := q.num.natAbs
    let k := 64 + bitLen q.den - bitLen m
    let t := m * 2 ^ k
    (fp32.round .rn (q.num < 0) (t / q.den) (-(k : Int)) (t % q.den != 0)).val

/-- A rational rounded to the nearest integer, ties to even. -/
def ratRne (q : Rat) : Int :=
  let f := q.floor
  let r := q - f
  if r > 1 / 2 || (r == 1 / 2 && f % 2 != 0) then f + 1 else f

def V3.add (a b : V3) : V3 := ⟨a.x + b.x, a.y + b.y, a.z + b.z⟩
def V3.sub (a b : V3) : V3 := ⟨a.x - b.x, a.y - b.y, a.z - b.z⟩
def V3.smul (k : Rat) (a : V3) : V3 := ⟨k * a.x, k * a.y, k * a.z⟩
def V3.dot (a b : V3) : Rat := a.x * b.x + a.y * b.y + a.z * b.z
def V3.cross (a b : V3) : V3 := ⟨a.y * b.z - a.z * b.y, a.z * b.x - a.x * b.z, a.x * b.y - a.y * b.x⟩

/-- Component k. -/
def V3.at (a : V3) (k : Nat) : Rat := if k == 0 then a.x else if k == 1 then a.y else a.z

/-- The determinant of three columns. -/
def det3 (a b c : V3) : Rat := a.dot (b.cross c)

/-- The combination of three columns that gives a vector (Cramer); the determinant is not 0. -/
def solve3 (a b c d : V3) : V3 :=
  let k := det3 a b c
  ⟨det3 d b c / k, det3 a d c / k, det3 a b d / k⟩

/-- Three binary32 words of a byte string as an exact vector; none when one is not finite. -/
def v3At (b : Bytes) (off : Nat) : Option V3 :=
  match f32Rat (leAt b off 4), f32Rat (leAt b (off + 4) 4), f32Rat (leAt b (off + 8) 4) with
  | some x, some y, some z => some ⟨x, y, z⟩
  | _, _, _ => none

/-! ### Lines and polygons -/

/-- The side value of a point. -/
def BLine.side (l : BLine) (p : Pt) : Rat := l.a * p.1 + l.b * p.2 + l.c

/-- The line with its sides exchanged. -/
def BLine.flip (l : BLine) : BLine := ⟨-l.a, -l.b, -l.c⟩

/-- R350: the line of a directed edge. -/
def edgeLine (p q : Int × Int) : BLine := ⟨p.2 - q.2, q.1 - p.1, p.1 * q.2 - q.1 * p.2⟩

/-- R350: the side of a single point. -/
def BLine.holds (l : BLine) (p : Pt) : Bool :=
  let s := l.side p
  s > 0 || (s == 0 && (l.a > 0 || (l.a == 0 && l.b > 0)))

/-- The elements of a list, each with the one after it, cyclically. -/
def cyc {α : Type} : List α → List (α × α)
  | [] => []
  | a :: r => (a :: r).zip (r ++ [a])

/-- Twice the area of a polygon. -/
def area2 (p : List Pt) : Rat :=
  let s := (cyc p).foldl (fun (a : Rat) (x : Pt × Pt) => a + (x.1.1 * x.2.2 - x.2.1 * x.1.2)) 0
  if s < 0 then -s else s

/-- The part of a convex polygon inside a line; nothing when it has no area. -/
def clipLine (l : BLine) (p : List Pt) : List Pt :=
  let out := (cyc p).flatMap fun (a, b) =>
    let x := l.side a
    let y := l.side b
    let t := x / (x - y)
    (if x ≥ 0 then [a] else [])
      ++ (if (x > 0 && y < 0) || (x < 0 && y > 0) then [(a.1 + t * (b.1 - a.1), a.2 + t * (b.2 - a.2))] else [])
  let res := ((cyc out).filter fun (a, b) => a != b).map (·.1)
  if res.length ≥ 3 && area2 res > 0 then res else []

def clipAll (ls : List BLine) (p : List Pt) : List Pt := ls.foldl (fun q l => clipLine l q) p

/-- The four lines of a rectangle of pixels. -/
def rectLines (x y w h : Nat) : List BLine :=
  [⟨1, 0, -(256 * x : Nat)⟩, ⟨-1, 0, (256 * (x + w) : Nat)⟩, ⟨0, 1, -(256 * y : Nat)⟩, ⟨0, -1, (256 * (y + h) : Nat)⟩]

def rectPoly (x y w h : Nat) : List Pt :=
  let (x0, y0, x1, y1) : Rat × Rat × Rat × Rat :=
    ((256 * x : Nat), (256 * y : Nat), (256 * (x + w) : Nat), (256 * (y + h) : Nat))
  [(x0, y0), (x1, y0), (x1, y1), (x0, y1)]

/-- A line as a set of points: its coefficients without common factor, the first that is not 0 positive. -/
def BLine.key (l : BLine) : BLine :=
  let g : Int := Int.gcd l.a (Int.gcd l.b l.c)
  let k := if l.a > 0 || (l.a == 0 && l.b > 0) then g else -g
  if g == 0 then l else ⟨l.a / k, l.b / k, l.c / k⟩

/-- R355: the lines of a list on which a cell has an edge of positive length, each once. -/
def edgeLines (p : List Pt) (ls : List BLine) : List BLine :=
  ((ls.map BLine.key).eraseDups).filter fun l => (cyc p).any fun (a, b) => l.side a == 0 && l.side b == 0

/-- The pixels that a polygon overlaps with positive area, in rising (y, x) order, with twice that area. -/
def pixelsOf (p : List Pt) : List ((Nat × Nat) × Rat) :=
  match p with
  | [] => []
  | p0 :: r =>
    let lo (f : Pt → Rat) : Nat := ((r.foldl (fun a q => min a (f q)) (f p0)) / 256).floor.toNat
    let hi (f : Pt → Rat) : Nat := ((r.foldl (fun a q => max a (f q)) (f p0)) / 256).ceil.toNat
    let x0 := lo (·.1)
    let y0 := lo (·.2)
    (rangeFrom y0 (hi (·.2) - y0)).flatMap fun y =>
      (rangeFrom x0 (hi (·.1) - x0)).filterMap fun x =>
        match clipAll (rectLines x y 1 1) p with
        | [] => none
        | q => some ((x, y), area2 q)

/-! ### Scene nodes -/

def Xform.det (n : Xform) : Rat := det3 n.r0 n.r1 n.r2

/-- The linear part on a direction. -/
def Xform.lin (n : Xform) (d : V3) : V3 := ⟨n.r0.dot d, n.r1.dot d, n.r2.dot d⟩

/-- The affine map on a point. -/
def Xform.app (n : Xform) (p : V3) : V3 := (n.lin p).add n.t

/-- R352: the world point that the transform maps to an object-space point. -/
def Xform.inv (n : Xform) (p : V3) : V3 :=
  solve3 ⟨n.r0.x, n.r1.x, n.r2.x⟩ ⟨n.r0.y, n.r1.y, n.r2.y⟩ ⟨n.r0.z, n.r1.z, n.r2.z⟩ (p.sub n.t)

/-- Object space to world space, where an instance applies. -/
def toWorld (n : Option Xform) (p : V3) : V3 :=
  match n with
  | some n => n.inv p
  | none => p

/-- A child of an internal node (R351): its type, its triangle count, its box, its address. -/
structure Child where
  ty : Nat
  cnt : Nat
  lo : V3
  hi : V3
  addr : Nat
  deriving DecidableEq, Repr

/-- The size of a child (R351). -/
def childSize (ty cnt : Nat) : Nat :=
  match ty with
  | 0 => 0
  | 2 => cdiv (48 * cnt) 64 * 64
  | 3 => 64
  | _ => 128

/-- R351, R354: the children of an internal node that are not empty, in index order; none when the node is malformed. R354 does not
name a triangle leaf whose bits 7:4 lie above the 3 that R351 allows: DESIGN CHOICE, the node is malformed (log entry 70). -/
def parseNode (b : Bytes) : Option (List Child) :=
  let tyByte (i : Nat) := leAt b (0x48 + i) 1
  let bad := (List.range 8).any fun i =>
    tyByte i % 16 ≥ 5 || (if tyByte i % 16 == 2 then tyByte i / 16 > 3 else tyByte i / 16 != 0)
  let cbase := leAt b 0x40 8
  match v3At b 0 with
  | none => none
  | some org =>
    if bad || leAt b 0xF 1 != 0 || (b.drop 0x50).any (· != 0) || cbase % 64 != 0 then none
    else
      let scale (k : Nat) : Rat :=
        let e := leAt b (0xC + k) 1
        if e ≥ 127 then (2 ^ (e - 127) : Nat) else mkRat 1 (2 ^ (127 - e))
      let q (i j : Nat) := leAt b (0x10 + 6 * i + j) 1
      let lo (i : Nat) : V3 := ⟨org.x + q i 0 * scale 0, org.y + q i 1 * scale 1, org.z + q i 2 * scale 2⟩
      let hi (i : Nat) : V3 :=
        ⟨org.x + (q i 3 + 1) * scale 0, org.y + (q i 4 + 1) * scale 1, org.z + (q i 5 + 1) * scale 2⟩
      let addrOf (i : Nat) : Nat :=
        (cbase + ((List.range i).map fun k => childSize (tyByte k % 16) (tyByte k / 16 + 1)).sum) % 2 ^ 64
      if (List.range 8).any fun i => tyByte i % 16 == 1 && addrOf i % 128 != 0 then none
      else some <| (List.range 8).filterMap fun i =>
        if tyByte i % 16 == 0 || !((List.range 3).all fun j => q i j ≤ q i (j + 3)) then none
        else some ⟨tyByte i % 16, tyByte i / 16 + 1, lo i, hi i, addrOf i⟩

/-- A triangle record (R352). -/
structure TriRec where
  v0 : V3
  v1 : V3
  v2 : V3
  prim : Nat
  cullcw : Bool
  deriving DecidableEq, Repr

/-- The triangles of a leaf of n records; none when one is malformed. -/
def parseTris (b : Bytes) (n : Nat) : Option (List TriRec) :=
  (List.range n).mapM fun j =>
    let o := 48 * j
    match v3At b o, v3At b (o + 0xC), v3At b (o + 0x18) with
    | some v0, some v1, some v2 =>
      if leAt b (o + 0x24) 4 > 0xFFFFFFFD || leAt b (o + 0x28) 4 > 1 || leAt b (o + 0x2C) 4 != 0 then none
      else some ⟨v0, v1, v2, leAt b (o + 0x24) 4, leAt b (o + 0x28) 4 == 1⟩
    | _, _, _ => none

/-- A procedural leaf (R352). -/
structure ProcLeaf where
  lo : V3
  hi : V3
  prim : Nat
  routine : Nat
  deriving DecidableEq, Repr

def parseProc (b : Bytes) : Option ProcLeaf :=
  match v3At b 0, v3At b 0xC with
  | some lo, some hi =>
    if lo.x > hi.x || lo.y > hi.y || lo.z > hi.z || leAt b 0x18 4 > 0xFFFFFFFD || (b.drop 0x20).any (· != 0) then none
    else some ⟨lo, hi, leAt b 0x18 4, leAt b 0x1C 4⟩
  | _, _ => none

/-- An instance node (R352): its transform, its lower-level root, its id and mask. -/
structure InstNode where
  n : Xform
  root : Nat
  id : Nat
  mask : Nat
  deriving DecidableEq, Repr

/-- R352: an instance node; none when R354 calls it malformed. Neither rule says what an id of 0xFF_FFFF, which R352 does not
admit, does: DESIGN CHOICE, the node is taken with that id (log entry 70). -/
def parseInst (b : Bytes) : Option InstNode :=
  match v3At b 0, v3At b 16, v3At b 32, f32Rat (leAt b 12 4), f32Rat (leAt b 28 4), f32Rat (leAt b 44 4) with
  | some r0, some r1, some r2, some x, some y, some z =>
    if leAt b 0x30 8 % 128 != 0 || (b.drop 0x3C).any (· != 0) then none
    else some ⟨⟨r0, r1, r2, ⟨x, y, z⟩⟩, leAt b 0x30 8, leAt b 0x38 4 % 2 ^ 24, leAt b 0x38 4 / 2 ^ 24⟩
  | _, _, _, _, _, _ => none

/-- The eight corners of a box. -/
def corners (lo hi : V3) : List V3 :=
  [lo.x, hi.x].flatMap fun x => [lo.y, hi.y].flatMap fun y => [lo.z, hi.z].map fun z => ⟨x, y, z⟩

/-! ### Node fetches -/

/-- Why a walk stops. -/
inductive NodeStop where
  | pagef (va : Dword)
  | denied (c : Cause) (va : Dword)
  | poison (va : Dword)
  | format (va : Dword)
  deriving DecidableEq, Repr

/-- The virtual address of a word that an access from va on, of less than a page, touches. -/
def wordVa (va : Dword) (w : Nat) : Dword :=
  let a := va.toNat / 4 * 4
  dword (a + (4 * w + 4096 - a % 4096) % 4096)

/-- R366, R380: the virtual address of a conflicting word of a node, or its place in scratch. -/
def RWord.nodeAddr (va : Dword) : RWord → Dword
  | .mem w => wordVa va w
  | w => w.addr

/-- R368, R380: reads a node through a unit's TLB of a core, under the keys of the issue: its bytes, and the words read. A
poisoned node is reported at its own address. -/
def fetchNode (s : State) (u : TlbUnit) (core ctx : Nat) (keys : Dword) (va n : Nat) : State × Except NodeStop (Bytes × List RWord) :=
  match devRead s (some (unitTlb u core)) ctx keys (dword va) n with
  | (s, .error (c, a)) =>
    (s, .error (if c == cPAGEF then .pagef a else if c == cPOISON then .poison (dword va) else .denied c a))
  | (s, .ok (ps, b)) =>
    (s, .ok (b, ps.flatMap fun p => if paLocal p.pa then [.mem (p.pa / 4), .mem (p.pa / 4 + 1)] else []))

end Sys2Proof.Machine
end

