-- ==== Sys2Proof/Machine/Work.lean ====
section
/-! DEFINITION. Launch cards (R181, R182), completion counters (R184), and the acceptance of a launch (R187, R195, R198). -/

namespace Sys2Proof.Machine

/-! ### Cards -/

/-- R135: the role entries that name groups; they must increase strictly. -/
def rolesOk (groups : Nat) (roles : List Nat) (producer : Nat) : Bool :=
  let l := roles.filter fun e => 0 < e && e < groups
  ((l.zip (l.drop 1)).all fun e => e.1 < e.2) && producer < groups

/-- R181: the fields of 128 bytes. -/
def Card.ofBytes (b : Bytes) : Card :=
  { entry := dword (leAt b 0 8), argBase := dword (leAt b 8 8), argStride := word (leAt b 0x10 4)
    argCount := leAt b 0x14 4, chunkMin := leAt b 0x18 2, chunkDiv := leAt b 0x1A 2, groups := leAt b 0x1C 2
    regPeak := leAt b 0x1E 1, regFloor := leAt b 0x1F 1, scratch := leAt b 0x20 2
    scrCols := BitVec.ofNat 4 (leAt b 0x22 1), beamRec := leAt b 0x24 2, helperMode := leAt b 0x27 1
    roles := [leAt b 0x28 2, leAt b 0x2A 2, leAt b 0x2C 2], producer := leAt b 0x2E 2
    client := leAt b 0x30 1, prio := leAt b 0x31 1, stackMask := BitVec.ofNat 4 (leAt b 0x32 1)
    parent := if leAt b 0x33 1 % 2 == 1 then some (leAt b 0x34 4) else none
    donePort := leAt b 0x38 2, doneDev := leAt b 0x3A 1, recTab := dword (leAt b 0x40 8)
    decl := (List.range 4).map fun k => leAt b (0x48 + k) 1
    rsBase := dword (leAt b 0x50 8), rsSize := word (leAt b 0x58 4), rsTeams := word (leAt b 0x5C 4)
    lBase := dword (leAt b 0x60 8), lSize := word (leAt b 0x68 4), lTeams := word (leAt b 0x6C 4)
    keys := dword (leAt b 0x70 8) }

/-- R182: a card that is not malformed. -/
def cardOk (b : Bytes) : Bool :=
  let c := Card.ofBytes b
  let zero (off n : Nat) : Bool := leAt b off n == 0
  1 ≤ c.chunkMin && 1 ≤ c.chunkDiv && 1 ≤ c.groups && c.groups ≤ 512
    && 1 ≤ c.regPeak && c.regPeak ≤ 128 && 1 ≤ c.regFloor && c.regFloor ≤ c.regPeak
    && c.scratch ≤ 1024 && leAt b 0x22 1 < 16 && zero 0x23 1 && c.beamRec ≤ 8192 && zero 0x26 1 && c.helperMode < 4
    && rolesOk c.groups c.roles c.producer
    && c.client < 16 && c.prio < 8 && leAt b 0x32 1 < 16 && c.stackMask != 0 && leAt b 0x33 1 < 2 && leAt b 0x34 4 < 8192
    && c.doneDev < 8 && zero 0x3B 5 && c.decl.all (fun k => k < 64 || k == 0xFF) && zero 0x4C 4 && zero 0x78 8
    && (teamK c.groups c.regPeak).isSome && (c.scratch == 0 || c.scrCols.getLsbD 0)

/-- The card of 128 bytes; none when it is malformed. -/
def Card.of (b : Bytes) : Option Card := if cardOk b then some (Card.ofBytes b) else none

/-- The cores of a team (R134). -/
def Card.k (c : Card) : Nat := (teamK c.groups c.regPeak).getD 1

/-- R135: the role of a group. -/
def Card.roleOf (c : Card) (g : Nat) : Nat :=
  let r (k : Nat) : Bool := let e := c.roles.getD (k - 1) 0
    0 < e && e < c.groups && e ≤ g
  if r 3 then 3 else if r 2 then 2 else if r 1 then 1 else 0

/-! ### Counters -/

def maxPending : Nat := 2 ^ 24 - 1

/-- R184, R198: the status with which a parent counter refuses a child, or 0. -/
def State.refuseChild (s : State) (ctx : Nat) (parent : Option Nat) : Nat :=
  match parent with
  | none => 0
  | some i =>
    let c := s.counter i
    if c.state != .opened || c.owner != ctx then 0x80000003 else if c.pending ≥ maxPending then 0x80000009 else 0

/-- A child of a counter has been accepted. -/
def State.addChild (s : State) (parent : Option Nat) : State :=
  match parent with
  | none => s
  | some i => let c := s.counter i
    s.setCounter i { c with pending := c.pending + 1 }

/-! ### Acceptance -/

/-- R187: the ranges of the stacks of a mask. -/
def dealRanges (mask : BitVec 4) (n : Nat) : NMap (Nat × Nat) :=
  let ss := (List.range 4).filter fun k => mask.getLsbD k
  let q := n / ss.length
  let r := n % ss.length
  (ss.zip (List.range ss.length)).map fun (x, j) =>
    let lo := j * q + min j r
    (x, lo, lo + q + (if j < r then 1 else 0))

/-- R198: a launch id that no live launch has. -/
def State.freshLaunch (s : State) : Nat :=
  let cand := (List.range (s.launches.length + 1)).map fun k => (s.nextLaunch - 1 + k) % 0x7FFFFFFF + 1
  (cand.find? fun i => (s.launch? i).isNone).getD s.nextLaunch

/-- R198: the launch table is full. -/
def State.tableFull (s : State) : Bool := s.launches.length ≥ 16384

/-- A launch that has become ready (R190). -/
def State.makeReady (s : State) (id : Nat) : State :=
  let q := s.nextSeq
  ({ s with nextSeq := q + 1 } : State).updLaunch id fun l => { l with state := .ready, readySeq := q, walkDue := false }

/-! ### Completion (R185, R186) -/

/-- R186: a done message. -/
def doneMsg (status level id : Nat) : Dword := dword (id % 2 ^ 32 + level * 2 ^ 34 + status * 2 ^ 36)

/-- R185 step 2: the done message goes to its port, here or on a peer. -/
def State.postDone (s : State) (ctx launch port dev : Nat) (msg : Dword) (clk : Clock) : State :=
  if port == 0xFFFF then s
  else if dev == s.bar0.devNum then s.post { ctx := ctx, port := port, val := msg, clk := clk, launch := launch }
  else if peerReach s dev then { s with out := .remotePost dev ctx port msg :: s.out }
  else
    s.record ctx { cause := cPORTOVF, source := 6, launch := launch, addr := dword (port + dev * 65536), info := msg }

/-- R185 step 3: the parent loses a child and folds its status in. -/
def State.endChild (s : State) (parent : Option Nat) (status : Nat) (clk : Clock) : State :=
  match parent with
  | none => s
  | some i =>
    let k := s.counter i
    let s := { s with race := { s.race with cntClk := tset s.race.cntClk i (clkJoin (tgetD s.race.cntClk i []) clk) } }
    s.setCounter i { k with pending := k.pending - 1, status := max k.status status }

/-- The status of a launch (R186). -/
def Launch.status (l : Launch) : Nat := if l.cancelled then 2 else if l.terminated then 1 else 0

/-- R185: the completion of a launch: the done message, the parent, the table entry. -/
def State.completeLaunch (s : State) (l : Launch) : State :=
  let clk := tgetD s.race.doneClk l.id []
  let s := s.postDone l.ctx l.id l.card.donePort l.card.doneDev (doneMsg l.status 0 l.id) clk
  let s := s.endChild l.card.parent l.status clk
  { s with launches := s.launches.filter (·.id != l.id), race := { s.race with launchClk := tdel s.race.launchClk l.id } }

/-- R195, R198: submits a card that has been read: a status, or the id of the accepted launch. One without records is complete at
once. `clk`: what the acceptance releases to the units (R200). -/
def State.submit (s : State) (ctx : Nat) (card : Card) (msgs : List Dword) (clk : Clock) : State × Nat :=
  let no := s.refuseChild ctx card.parent
  if no != 0 then (s, no)
  else if s.tableFull then (s, 0x80000002)
  else
    let id := s.freshLaunch
    let walk := card.decl.any (· < 64)
    let l : Launch :=
      { id := id, ctx := ctx, card := card, msgs := msgs
        state := if walk then .waitOp else .ready
        ranges := if card.argCount == 0 then [] else dealRanges card.stackMask card.argCount
        walkDue := walk }
    let s := s.addChild card.parent
    let s := { s with
      launches := s.launches ++ [l]
      nextLaunch := id % 0x7FFFFFFF + 1
      race := { s.race with launchClk := tset s.race.launchClk id clk, doneClk := tdel s.race.doneClk id } }
    let s := s.setKeys ctx none fun _ => card.keys
    (if card.argCount == 0 then s.completeLaunch l else if l.state == .ready then s.makeReady id else s, id)

/-- R185: is a launch or counter complete, its completion still to be made? -/
def State.launchDone (s : State) (l : Launch) : Bool :=
  (l.state == .running || l.state == .cancelling) && l.ranges.all (fun e => e.2.1 ≥ e.2.2)
    && !s.units.any (·.launch == l.id)

def Counter.done (c : Counter) : Bool := (c.state == .sealed || c.state == .cancelling) && c.pending == 0

end Sys2Proof.Machine
end

