-- ==== Sys2Proof/Machine/Join.lean ====
section
/-! DEFINITION. The join unit below the instructions: port stores and spill rings (R321 to R325), patterns (R326 to R330),
firings (R331, R338), and deliveries by threads, engines and the host (R324, R334). -/

namespace Sys2Proof.Machine

/-! ### Ports -/

def State.port? (s : State) (ctx port : Nat) : Option Port := tget s.ports (portKey ctx port)

def State.setPort (s : State) (ctx port : Nat) (p : Port) : State := { s with ports := tset s.ports (portKey ctx port) p }

def State.updPort (s : State) (ctx port : Nat) (f : Port → Port) : State :=
  match s.port? ctx port with
  | some p => s.setPort ctx port (f p)
  | none => s

/-- R321: the stack whose join unit holds a port. -/
def portStack (port : Nat) : Nat := port / 2 ^ 14 % 4

/-- R325: the reserved slots of a context's fault port. -/
def State.reserveOf (s : State) (ctx port : Nat) : Nat :=
  match s.ctx? ctx with
  | some c => if c.faultPort == port then 64 else 0
  | none => 0

/-- R322: the slots that the open ports of a stack reserve. -/
def State.storeUsed (s : State) (stack : Nat) : Nat :=
  ((s.ports.filter fun e => portStack (e.1 % 65536) == stack).map fun e =>
    e.2.depth + s.reserveOf (e.1 / 65536) (e.1 % 65536)).sum

def Port.ringCount (p : Port) : Nat :=
  match p.ring with
  | some r => r.clks.length
  | none => 0

def Port.ringRoom (p : Port) : Bool :=
  match p.ring with
  | some r => r.clks.length < 2 ^ r.logN
  | none => false

/-- R323: the record of a ring access that faults; its message is dropped. -/
def State.ringFault (s : State) (ctx : Nat) (c : Cause) (va : Dword) (write : Bool) : State :=
  s.record ctx { cause := c, source := 6, addr := va, info := if write && c != cPOISON then 1 else 0 }

/-- R323: a message goes to the port's ring. R325: the notice of a fault record whose ring access faults makes no record, and
counts in LOST. -/
def State.toRing (s : State) (ctx port : Nat) (m : Msg) (fault : Bool := false) : State :=
  match s.port? ctx port with
  | none => s
  | some p =>
    match p.ring with
    | none => s
    | some r =>
      let va := r.base + dword (8 * ((r.head + r.clks.length) % 2 ^ r.logN))
      match place s none ctx 0 .store va with
      | (s, .error c) => if fault then s.countLost ctx else s.ringFault ctx c va true
      | (s, .ok x) =>
        let s := (s.hostReq x 8 .write).writePa x.pa (leBytes m.val.toNat 8)
        ({ s with race := s.race.landed (memBytes x.pa 8) } : State).setPort ctx port
          { p with ring := some { r with clks := r.clks ++ [(m.clk, fault)] } }

/-- R322, R457: a message enters the store; the first of a host-visible port signals the context's vector. -/
def State.acceptMsg (s : State) (ctx port : Nat) (m : Msg) : State :=
  match s.port? ctx port with
  | none => s
  | some p =>
    let s := if p.hvis && p.msgs.isEmpty then s.descSeen ctx else s
    let s' := s.setPort ctx port { p with msgs := p.msgs ++ [{ m with at_ := s.stackCyc (portStack port) }] }
    if p.hvis && p.msgs.isEmpty && s.irqv ctx < 16 then { s' with out := .msix (s.irqv ctx) :: s'.out } else s'

/-- R323: ring messages move into free slots of the store; whether one arrived. A message whose read faults is dropped, with a record,
or, when it is a fault record's notice, counted in LOST (R325). -/
def State.refill (ctx port : Nat) : Nat → State × Bool → State × Bool
  | 0, x => x
  | n + 1, (s, came) =>
    match s.port? ctx port with
    | none => (s, came)
    | some p =>
      match p.ring with
      | none => (s, came)
      | some r =>
        match r.clks with
        | [] => (s, came)
        | (clk, fault) :: rest =>
          if p.msgs.length ≥ p.depth then (s, came)
          else
            let va := r.base + dword (8 * r.head)
            let p' := { p with ring := some { r with head := (r.head + 1) % 2 ^ r.logN, clks := rest } }
            match devRead s none ctx 0 va 8 with
            | (s, .error (c, _)) =>
              let s := s.setPort ctx port p'
              State.refill ctx port n (if fault then s.countLost ctx else s.ringFault ctx c va false, came)
            | (s, .ok (_, b)) =>
              State.refill ctx port n ((s.setPort ctx port p').acceptMsg ctx port { val := dword (leNat b), clk := clk }, true)

/-! ### Patterns -/

/-- R339: the handle of a pattern. -/
def Pattern.handle (x : Pattern) : Nat := x.stack * 2 ^ 29 + x.num

def Pattern.isStart (x : Pattern) : Bool :=
  match x.kind with
  | .start _ => true
  | .wake .. => false

/-- R328: is a pattern ready? -/
def State.patReady (s : State) (x : Pattern) : Bool :=
  (x.ports.all fun n => match s.port? x.ctx n with
    | some p => !p.msgs.isEmpty
    | none => false)
  && match x.kind with
    | .wake .. => true
    | .start c => !s.tableFull && match c.parent with
      | none => true
      | some i =>
        let k := s.counter i
        !(k.state == .opened && k.owner == x.ctx && k.pending ≥ maxPending)

/-- R329: does candidate a, at place i of the search, come before candidate b at place j? -/
def patBefore (a b : Pattern) (i j : Nat) : Bool :=
  a.prio > b.prio || (a.prio == b.prio && (match a.isStart, b.isStart with
    | false, true => true
    | true, false => false
    | _, _ => i < j))

/-- R329: the first candidate at a port, with its index in the port's list. -/
def State.bestPattern (s : State) (ctx port : Nat) : Option (Nat × Pattern) :=
  match s.port? ctx port with
  | none => none
  | some p =>
    let n := p.pats.length
    let look (k : Nat) : Option (Nat × Pattern) :=
      match p.pats.drop k with
      | id :: _ => (s.patterns.find? (·.id == id)).map fun x => (k, x)
      | [] => none
    let ks := (List.range n).map fun i => (p.last + i) % n
    ks.foldl (fun (best : Option (Nat × Pattern)) k =>
      match look k with
      | none => best
      | some (_, x) =>
        if !s.patReady x then best
        else
          match best with
          | none => some (k, x)
          | some (_, y) => if patBefore x y 1 0 then some (k, x) else best) none

/-- R330: takes the oldest message of each port of a list. -/
def State.takeMsgs (s : State) (ctx : Nat) : List Nat → State × List Msg
  | [] => (s, [])
  | n :: r =>
    match s.port? ctx n with
    | none => s.takeMsgs ctx r
    | some p =>
      match p.msgs with
      | [] => s.takeMsgs ctx r
      | m :: ms =>
        let s := s.sampleAll 2 (portStack n) (s.stackCyc (portStack n) - m.at_)
        let (s, l) := (s.setPort ctx n { p with msgs := ms }).takeMsgs ctx r
        (s, m :: l)

def msgsClk (l : List Msg) : Clock := l.foldl (fun c m => clkJoin c m.clk) []

/-- R331: a firing submits the pattern's card; a refusal is recorded. A counter that is CANCELLING and has another context's owner
gives both refusals: DESIGN CHOICE, ENGINEF with reason 7 is recorded (log entry 69). -/
def State.fireStart (s : State) (x : Pattern) (c : Card) (ms : List Msg) : State :=
  let canc : Bool := match c.parent with
    | some i => (s.counter i).state == .cancelling && (s.counter i).owner == x.ctx
    | none => false
  match s.submit x.ctx { c with argCount := 1 } (ms.map (·.val)) (msgsClk ms) with
  | (s, r) =>
    if r < 0x80000000 then s
    else
      s.record x.ctx { cause := if canc then cCANCELLED else cENGINEF, source := 7, handle := x.handle
                       info := if canc then 0 else 7 }

/-- The words of messages in s8 to s15, pairs without a message holding 0 (R331, R338). -/
def msgWords (ms : List Dword) : List Word :=
  ((ms ++ List.replicate 4 0).take 4).flatMap fun m => [lo32 m, hi32 m]

/-- R338: what a wake leaves in the frame of a saved group: s8 to s15, the PCs, and the lanes' restart and entry bytes. -/
def State.patchFrame (s : State) (uid grp : Nat) : State :=
  match s.team? uid with
  | none => s
  | some t =>
    match t.frame, t.group? grp with
    | some f, some g =>
      if t.state != .parked && t.state != .saved then s
      else
        let off := t.sectionOff (s.entriesOf uid) (s.travOf uid) grp
        let put (s : State) (o : Nat) (b : Bytes) : State := (devWrite s t.ctx (f.va + dword (off + o)) b).1
        let s := put s (0x3140 + 32) ((rangeFrom 8 8).flatMap fun k => leBytes (g.sreg k).toNat 4)
        g.lanes.foldl (fun s l =>
          put (put s (0x40 + 8 * l.idx) (leBytes l.pc.toNat 8)) (0x940 + 4 * l.idx) l.stateBytes) s
    | _, _ => s

/-- Is a wait of a group's list the one of its WAIT? -/
def FeWait.isWait (w : FeWait) : Bool :=
  match w.instr with
  | .wait .. => true
  | _ => false

/-- R338: a wake: the messages in s8 to s15, every lane past the WAIT, its flag down. -/
def State.fireWake (s : State) (uid grp : Nat) (ms : List Msg) : State :=
  let clk := msgsClk ms
  match s.group? uid grp with
  | none => s
  | some g =>
    let race := g.lanes.foldl (fun (r : Race) l =>
      (r.acquire (.lane uid grp l.idx) clk).boundary (.lane uid grp l.idx) none) s.race
    let flags := (g.fes.filter (·.isWait)).filterMap (·.flag)
    let s := (({ s with race := race } : State).acquired uid grp g.core .dev).updGroup uid grp fun (g : Group) =>
      ({ g with
        fes := g.fes.filter fun w => !w.isWait
        lanes := g.lanes.map fun (l : Lane) => match l.park with
          | some (.wait, _) => ({ l with park := none } : Lane).next
          | _ => l } : Group).writeS 8 (msgWords (ms.map fun m => m.val))
    (flags.foldl (fun (s : State) f => s.lowerFlag uid grp (some f)) s).patchFrame uid grp

/-- R330: a firing as one step; the ports at which ring messages arrived by it. -/
def State.fire (s : State) (x : Pattern) : State × List Nat :=
  let (s, ms) := s.takeMsgs x.ctx x.ports
  let s := if x.rpt then s else s.removePattern x
  let s := match x.kind with
    | .start c => s.fireStart x c ms
    | .wake uid grp => s.fireWake uid grp ms
  x.ports.foldl (fun (a : State × List Nat) n =>
    match State.refill x.ctx n (((a.1.port? x.ctx n).map Port.ringCount).getD 0) (a.1, false) with
    | (s, true) => (s, a.2 ++ [portKey x.ctx n])
    | (s, false) => (s, a.2)) (s, [])

/-- R329: evaluates ports, each until no pattern that names it is ready, then the arrivals that this brings. -/
def evalPorts : Nat → State → List Nat → State
  | 0, s, _ => s
  | _ + 1, s, [] => s
  | n + 1, s, k :: r =>
    match s.bestPattern (k / 65536) (k % 65536) with
    | none => evalPorts n s r
    | some (j, x) =>
      let s := s.updPort (k / 65536) (k % 65536) fun p => { p with last := j + 1 }
      let (s, more) := s.fire x
      evalPorts n s (k :: r ++ more)

/-- Enough steps for an evaluation: each takes a message or a port off its list. -/
def State.evalFuel (s : State) : Nat :=
  2 * (s.ports.map fun e => e.2.msgs.length + e.2.ringCount + 1).sum + s.ports.length + 8

def State.eval (s : State) (keys : List Nat) : State := evalPorts (s.evalFuel + keys.length) s keys

/-- Puts a port key into the order of R329: by port number, then by context. -/
def putKey (k : Nat) : List Nat → List Nat
  | [] => [k]
  | x :: r => if k % 65536 < x % 65536 || (k % 65536 == x % 65536 && k ≤ x) then k :: x :: r else x :: putKey k r

/-- R329: START patterns are evaluated again, port by port. The rule orders the ports of a stack; of the join units of several
stacks it says nothing: DESIGN CHOICE, in the order of the port numbers too, those of stack 0 first (log entry 69). -/
def State.evalAll (s : State) : State := s.eval ((s.ports.map (·.1)).foldr putKey [])

/-- R329: a pattern that has just been installed fires while it is ready. -/
def settlePattern (x : Pattern) : Nat → State → State
  | 0, s => s
  | n + 1, s =>
    if !s.patterns.contains x || !s.patReady x then s
    else
      let (s, more) := s.fire x
      settlePattern x n (s.eval more)

/-- R327: room for a pattern: on chip, in the spill table, or nowhere. -/
def State.patRoom (s : State) (ctx stack : Nat) (start : Bool) : Option Bool :=
  let chip := (s.patterns.filter fun x => x.stack == stack && x.isStart == start && !x.spilled).length
  if chip < (if start then 4096 else 8192) then some false
  else
    let used := (s.patterns.filter fun x => x.ctx == ctx && x.spilled).length
    if used < ((s.ctx? ctx).map (·.psSize)).getD 0 then some true else none

/-- R339: a number unique among the context's live patterns of a stack. -/
def State.freshNum (s : State) (ctx stack : Nat) : Nat :=
  let live := (s.patterns.filter fun x => x.ctx == ctx && x.stack == stack).map (·.num)
  let start := s.nextSeq % 2 ^ 29
  (((List.range (live.length + 1)).map fun k => (start + k) % 2 ^ 29).find? fun n => !live.contains n).getD 0

/-- R326, R327, R329: installs a pattern and evaluates it; its handle. `spilled`: where there was room. -/
def State.install (s : State) (ctx : Nat) (ports : List Nat) (prio : Nat) (rpt : Bool) (kind : PatKind) (spilled : Bool) :
    State × Nat :=
  let stack := portStack (ports.headD 0)
  let x : Pattern := { id := s.nextSeq, ctx := ctx, stack := stack, num := s.freshNum ctx stack, ports := ports, prio := prio
                       rpt := rpt, kind := kind, spilled := spilled }
  let s := { s with nextSeq := s.nextSeq + 1, patterns := s.patterns ++ [x] }
  let s := ports.foldl (fun (s : State) n => s.updPort ctx n fun p => { p with pats := p.pats ++ [x.id] }) s
  (settlePattern x s.evalFuel s, x.handle)

/-! ### Deliveries -/

/-- R324, R417: the record of a dropped non-stalling post. -/
def State.portOvf (s : State) (ctx port launch : Nat) (val : Dword) : State :=
  s.record ctx { cause := cPORTOVF, source := 6, launch := launch, addr := dword (port + s.bar0.devNum * 65536), info := val }

/-- R324, R325: where a non-stalling post goes: into the store, to the ring, into the reserve of a fault port, or nowhere. -/
def State.deliverTo (s : State) (q : PostReq) : State :=
  match s.ctx? q.ctx with
  | none => s
  | some _ =>
    let drop : State := if q.fault then s.countLost q.ctx else s.portOvf q.ctx q.port q.launch q.val
    match s.port? q.ctx q.port with
    | none => drop
    | some p =>
      let m : Msg := { val := q.val, clk := q.clk }
      let into : State := (s.acceptMsg q.ctx q.port m).eval [portKey q.ctx q.port]
      if p.ringCount == 0 && p.msgs.length < p.depth then into
      else if p.ringRoom then s.toRing q.ctx q.port m q.fault
      else if q.fault && p.msgs.length < p.depth + s.reserveOf q.ctx q.port then into
      else drop

/-- R324: a non-stalling post arrives, and the engine thread whose end it shows has ended (R244). -/
def State.deliver (s : State) (q : PostReq) : State :=
  let s := s.deliverTo q
  match q.ends with
  | some t => { s with race := s.race.finish t }
  | none => s

/-- What a thread's post comes to (R334). -/
inductive PostOut where
  | closed | placed | full | dropped
  deriving DecidableEq, Repr

/-- R334, R335: a strong access of a lane at the join unit: what it releases. -/
def State.joinStrong (s : State) (t : Tid) : State × Clock :=
  let c := s.race.relClk t
  ({ s with race := s.race.boundary t none }, c)

/-- R334, R335, R462: delivers a thread's message. -/
def State.threadPost (s : State) (t : Tid) (ctx : Nat) (rmt : Bool) (dev port : Nat) (val : Dword) : State × PostOut :=
  if rmt && dev != s.bar0.devNum then
    if !peerReach s dev then (s, .closed)
    else
      let (s, _) := s.joinStrong t
      ({ s with out := .remotePost dev ctx port val :: s.out }, .placed)
  else
    match s.port? ctx port with
    | none => (s, .closed)
    | some p =>
      if p.ringCount == 0 && p.msgs.length < p.depth then
        let (s, c) := s.joinStrong t
        ((s.acceptMsg ctx port { val := val, clk := c }).eval [portKey ctx port], .placed)
      else if p.act == .fault && p.ringCount == 0 then (s, .dropped)
      else if p.act == .spill && p.ringRoom then
        let (s, c) := s.joinStrong t
        (s.toRing ctx port { val := val, clk := c }, .placed)
      else (s, .full)

/-- A take by a lane or the host: the oldest message leaves, and ring messages arrive. -/
def State.takeMsg (s : State) (ctx port : Nat) : State × Option Msg :=
  match s.takeMsgs ctx [port] with
  | (s, m :: _) =>
    match State.refill ctx port (((s.port? ctx port).map Port.ringCount).getD 0) (s, false) with
    | (s, true) => (s.eval [portKey ctx port], some m)
    | (s, false) => (s, some m)
  | (s, []) => (s, none)

def portActOf (n : Nat) : PortAct := if n == 0 then .stall else if n == 1 then .spill else .fault

/-- R341: opens, changes or closes a port; the status. -/
def State.configPort (s : State) (ctx port cfg : Nat) (ring : Dword) (ringUsed : Bool) : State × Nat :=
  let depth := nbits cfg 6 0
  let rsz := nbits cfg 15 12
  let act := nbits cfg 9 8
  let fp := ((s.ctx? ctx).map (·.faultPort)) == some port
  if cfg ≥ 65536 || cfg.testBit 11 || cfg.testBit 7 || rsz > 12 || act == 3 || depth > 64 || (act == 1 && rsz == 0)
      || (rsz == 0 && ringUsed) || (rsz != 0 && (ring.toNat % 64 != 0 || !canonical ring)) || (fp && depth == 0)
  then (s, 0x80000021)
  else
    let old := s.port? ctx port
    let want := if rsz == 0 then none else some (ring, rsz + 5)
    let slots := ((old.map (·.depth)).getD 0)
    if s.storeUsed (portStack port) - slots + depth > 16384 then (s, 0x80000022)
    else
      match old with
      | none =>
        if depth == 0 then (s, 0)
        else
          (s.setPort ctx port { depth := depth, act := portActOf act, hvis := cfg.testBit 10
                                ring := want.map fun r => { base := r.1, logN := r.2 } }, 0)
      | some p =>
        let same := (p.ring.map fun r => (r.base, r.logN)) == want
        if depth == 0 then
          if !p.msgs.isEmpty || p.ringCount != 0 || !p.pats.isEmpty then (s, 0x80000023)
          else ({ s with ports := tdel s.ports (portKey ctx port) }, 0)
        else if depth < p.msgs.length || (!same && p.ringCount != 0) then (s, 0x80000023)
        else
          let s := s.setPort ctx port
            { p with depth := depth, act := portActOf act, hvis := cfg.testBit 10
                     ring := if same then p.ring else want.map fun r => { base := r.1, logN := r.2 } }
          match State.refill ctx port p.ringCount (s, false) with
          | (s, true) => (s.eval [portKey ctx port], 0)
          | (s, false) => (s, 0)

end Sys2Proof.Machine
end

