-- ==== Sys2Proof/Machine/Texel.lean ====
section
/-! DEFINITION. What a texture lookup does once its checks are made: texels (R383), the sums of the filters (R386), feedback (R390,
R391), and the words that it delivers (R393, R394). -/

namespace Sys2Proof.Machine

/-! ### Texels (R383) -/

/-- The tile width and height, and the bytes of a texel. -/
def texTile (fmt : Nat) : Nat × Nat × Nat :=
  match fmt with
  | 0 => (256, 256, 1)
  | 4 => (128, 64, 8)
  | 6 => (64, 64, 16)
  | _ => (128, 128, 4)

/-- A component of a texel: a real number, an infinity, or a NaN. -/
inductive TVal where
  | real (q : Rat)
  | inf (neg : Bool)
  | nan
  deriving DecidableEq, Repr

/-- The value of a bit pattern of a format. -/
def tvalOf (f : FpFmt) (bits : Nat) : TVal :=
  match f.val bits with
  | .nan _ => .nan
  | .inf n => .inf n
  | .fin n m e =>
    let x : Int := if n then -(m : Int) else m
    .real (if 0 ≤ e then (x * 2 ^ e.toNat : Int) else mkRat x (2 ^ (-e).toNat))

/-- The largest n with n^5 * b at most a, found bit by bit from bit k down. -/
def root5 (a b : Nat) (n : Nat) : Nat → Nat
  | 0 => n
  | k + 1 => root5 a b (if (n + 2 ^ k) ^ 5 * b ≤ a then n + 2 ^ k else n) k

/-- Table S: the IEC 61966-2-1 decoding of c / 255, rounded to binary32. Above the linear part it is x^(12/5) with
x = (c / 255 + 0.055) / 1.055. -/
def srgbBits (c : Nat) : Nat :=
  let x := mkRat c 255
  if x ≤ mkRat 4045 100000 then ratF32 (x / mkRat 1292 100)
  else
    let y := ((x + mkRat 55 1000) / mkRat 1055 1000) ^ 12
    let a := y.num.natAbs * 2 ^ 400
    let n := root5 a y.den 0 81
    (fp32.round .rn false n (-80) (n ^ 5 * y.den != a)).val

/-- The four components of a texel. -/
def texel (fmt : Nat) (b : Bytes) : List TVal :=
  let byte (k : Nat) : TVal := .real (mkRat (leAt b k 1) 255)
  let srgb (k : Nat) : TVal := tvalOf fp32 (srgbBits (leAt b k 1))
  let half (k : Nat) : TVal := tvalOf fp16 (leAt b (2 * k) 2)
  let single (k : Nat) : TVal := tvalOf fp32 (leAt b (4 * k) 4)
  match fmt with
  | 0 => [byte 0, .real 0, .real 0, .real 1]
  | 1 => [byte 0, byte 1, byte 2, byte 3]
  | 2 => [srgb 0, srgb 1, srgb 2, byte 3]
  | 3 => [half 0, half 1, .real 0, .real 1]
  | 4 => [half 0, half 1, half 2, half 3]
  | 5 => [single 0, .real 0, .real 0, .real 1]
  | _ => [single 0, single 1, single 2, single 3]

/-! ### Sums (R386) -/

/-- The terms of a sum as it is taken. -/
structure TexSum where
  q : Rat := 0
  pos : Bool := false
  neg : Bool := false
  nan : Bool := false

/-- One rounding of an exact weighted sum. -/
def weigh (l : List (Rat × TVal)) : Nat :=
  let s := l.foldl (fun (a : TexSum) (x : Rat × TVal) =>
    if x.1 == 0 then a
    else
      match x.2 with
      | .real q => { a with q := a.q + x.1 * q }
      | .inf false => { a with pos := true }
      | .inf true => { a with neg := true }
      | .nan => { a with nan := true }) {}
  if s.nan || (s.pos && s.neg) then fp32.nan
  else if s.pos then fp32.infBits
  else if s.neg then fp32.signed true fp32.infBits
  else ratF32 s.q

/-! ### Feedback (R390, R391) -/

/-- The bytes of a feedback record. -/
def fbBytes (k : FbKey) (core : Nat) : Bytes :=
  leBytes k.rid.toNat 4 ++ leBytes k.tx 2 ++ leBytes k.ty 2 ++ leBytes k.layer 2 ++ leBytes k.level 1 ++ leBytes core 1
    ++ leBytes 0 4

/-- R391: writes a record to its ring, or counts it as dropped. -/
def State.feedback (s : State) (ctx core ring : Nat) (k : FbKey) : State :=
  let seen := tgetD s.filters core []
  if seen.contains k then s
  else
    let r := tgetD s.fbRings ring {}
    let drop : State := { s with fbRings := tset s.fbRings ring { r with ovf := true, drops := min (r.drops + 1) 0xFFFFFF } }
    if !r.en || r.ctx != ctx then drop
    else
      match ringLook s ctx r.base with
      | (s, some (prod, cons, clk)) =>
        let r := { r with clk := clkJoin r.clk clk }
        let drop : State := { s with fbRings := tset s.fbRings ring { r with ovf := true, drops := min (r.drops + 1) 0xFFFFFF } }
        if (prod + 2 ^ 32 - cons) % 2 ^ 32 ≥ 2 ^ r.log2n then drop
        else
          match devWrite s ctx (r.base + 64 + dword (16 * (prod % 2 ^ r.log2n))) (fbBytes k core) with
          | (_, some _) => drop
          | (s, none) =>
            let s := { s with filters := tset s.filters core ((k :: seen).take 64), fbRings := tset s.fbRings ring r }
            ringProd s ctx r.base (prod + 1) r.clk
      | (s, none) => { s with fbRings := tset s.fbRings ring { r with ovf := true, drops := min (r.drops + 1) 0xFFFFFF } }

/-- 32-bit words as one value, least significant first. -/
def natWords (l : List Nat) : Nat := l.foldr (fun x a => x + 2 ^ 32 * a) 0

/-! ### What a lookup delivers (R386, R393, R394) -/

/-- The terms of a lookup's sums: each texel with its weight, the border's components where a tap lies there. -/
def Look.terms (k : Look) : List (Rat × Bool) → List Bytes → List (Rat × List TVal)
  | (w, true) :: r, b :: bs => (w, texel k.fmt b) :: k.terms r bs
  | (w, _) :: r, bs => (w, k.border.map (tvalOf fp32)) :: k.terms r bs
  | [], _ => []

/-- R386, R388, R393, R394: the words that a lookup delivers from the bytes of its texels; one of them poisoned: `sick`. -/
def Look.value (k : Look) (bs : List (Option Bytes)) : Nat :=
  let ts := k.terms k.taps (bs.filterMap id)
  if bs.any (·.isNone) then k.sick
  else
    match k.out with
    | .fixed v => v
    | .raw w =>
      let v := widthVal w ((bs.filterMap id).flatten)
      natWords ([v % 2 ^ 32, v / 2 ^ 32 % 2 ^ 32] ++ k.tail)
    | .gather c => natWords ((ts.map fun t => weigh [(1, t.2.getD c .nan)]) ++ k.tail)
    | .rgba => natWords (((List.range 4).map fun c => weigh (ts.map fun t => (t.1, t.2.getD c .nan))) ++ k.tail)

/-- The bytes of a texel as memory holds them; none for poison. -/
def State.texBytes (s : State) (x : Place) (n : Nat) : Option Bytes :=
  if x.poi || s.poisonedPa x.pa n then none else some (s.readPa x.pa n)

/-- R389, R390, R393: a lookup whose checks are made reads its texels; it makes its feedback when none of them is poisoned. -/
def State.performLook (s : State) (p : Pk) (loc : Loc) (k : Look) : State × Nat :=
  let s := s.locReq .read false loc
  let bs := match loc with
    | .mem ps => ps.map fun e => s.texBytes e.1 e.2.1
    | .scr .. => []
  match k.feed, bs.any (·.isNone) with
  | some (ring, key), false => (s.feedback p.team.ctx p.grp.core ring key, k.value bs)
  | _, _ => (s, k.value bs)

end Sys2Proof.Machine
end

