-- ==== Sys2Proof/Machine/Late.lean ====
section
/-! DEFINITION. The access of one lane in its two parts (R235, R236): at its issue its checks are made and it is remembered for
detection; when it is performed it reads and writes its bytes, acquires and releases. Between the two it is in flight. The
operations of the atomics (R263 to R266). -/

namespace Sys2Proof.Machine

/-! ### The operations of atomics -/

/-- What an atomic computes from the old value: the new value (none: nothing is written) and its `fpst` bits. -/
abbrev AtomFn := Nat → Option Nat × BitVec 5

/-- A value of n bytes read as two's complement. -/
def sgN (n x : Nat) : Int := if x.testBit (8 * n - 1) then (x : Int) - 2 ^ (8 * n) else x

/-- R263: the integer operations on values of n bytes. -/
def atomOp (aop n old x : Nat) : Nat :=
  match aop with
  | 0 => (old + x) % 2 ^ (8 * n)
  | 1 => x
  | 2 => if sgN n old ≤ sgN n x then old else x
  | 3 => if sgN n old ≥ sgN n x then old else x
  | 4 => min old x
  | 5 => max old x
  | 6 => old &&& x
  | _ => old ||| x

/-- R264: the float operations. -/
def atomfOp (aop n old x : Nat) : Res :=
  let f := if n == 8 then fp64 else fp32
  match aop with
  | 0 => f.add .rn (f.val old) (f.val x)
  | 1 => f.minMax false old x
  | 2 => f.minMax true old x
  | 3 => ⟨(fp16.add .rn (fp16.val (old % 2 ^ 16)) (fp16.val (x % 2 ^ 16))).val
      + (fp16.add .rn (fp16.val (old / 2 ^ 16)) (fp16.val (x / 2 ^ 16))).val * 2 ^ 16,
      (fp16.add .rn (fp16.val (old % 2 ^ 16)) (fp16.val (x % 2 ^ 16))).fp
        ||| (fp16.add .rn (fp16.val (old / 2 ^ 16)) (fp16.val (x / 2 ^ 16))).fp⟩
  | _ => ⟨(bf16.add .rn (bf16.val (old % 2 ^ 16)) (bf16.val (x % 2 ^ 16))).val
      + (bf16.add .rn (bf16.val (old / 2 ^ 16)) (bf16.val (x / 2 ^ 16))).val * 2 ^ 16,
      (bf16.add .rn (bf16.val (old % 2 ^ 16)) (bf16.val (x % 2 ^ 16))).fp
        ||| (bf16.add .rn (bf16.val (old / 2 ^ 16)) (bf16.val (x / 2 ^ 16))).fp⟩

/-- R263 to R266: an atomic's function of the old value, from its X and D operands. RED takes its operand from D, and its AOP 1
is `.fadd`; CAS compares with X and writes D. -/
def atomFn (i : Instr) (x d : Nat) : AtomFn := fun old =>
  match i with
  | .atom m => (some (atomOp m.aop m.width.bytes old x), 0)
  | .atomf m => (some (atomfOp m.aop m.width.bytes old x).val, (atomfOp m.aop m.width.bytes old x).fp)
  | .cas _ => (if old == x then some d else none, 0)
  | .red m =>
    if m.aop == 1 then (some (atomfOp 0 m.width.bytes old d).val, (atomfOp 0 m.width.bytes old d).fp)
    else (some (atomOp m.aop m.width.bytes old d), 0)
  | _ => (none, 0)

/-! ### Issue and performance -/

/-- The kind of a lane's access. R268: PCIe has operations for ATOM.add, ATOM.exch and CAS alone. -/
def accKindOf (i : Instr) : AKind :=
  match i with
  | .st _ => .store
  | .atom m => if m.aop ≤ 1 then .rmw else .rmwOnly
  | .cas _ => .rmw
  | .atomf _ | .red _ => .rmwOnly
  | _ => .load

/-- R268: what an atomic asks of host memory. -/
def hostOpOf (i : Instr) : HostOp :=
  match i with
  | .atom m => if m.aop == 0 then .fetchAdd else if m.aop == 1 then .swap else .own
  | .cas _ => .cas
  | _ => .own

/-- What a lane's access is to detection (R234): an atomic is strong whatever its ORDER. -/
def raceKindOf (s : State) (p : Pk) (i : Instr) (m : MemOp) : AccKind :=
  let k := accKindOf i
  let atomic := k == .rmw || k == .rmwOnly
  raceKind s p m.order m.scope k.reads k.writes atomic (atomic || m.order != .weak)

/-- R118 to R120, R245, R262: the checks of a lane's access when it issues: its place, poison of what it reads, conflicts. An
invariant load takes no part in conflicts (R249). -/
def checkLane (i : Instr) (m : MemOp) (s : State) (p : Pk) (l : Lane) : State × Except Trap Loc :=
  let k := accKindOf i
  match s.locate p l.idx m.space (p.ea l m) m.width.bytes k with
  | (s, .error t) => (s, .error t)
  | (s, .ok loc) =>
    let own := k == .load && m.order == .weak && m.cache.toNat < 2
    match (if k.reads then s.readPoison p.iss.uid p.grp.core own loc else none) with
    | some va => (s, .error (addrTrap l.idx cPOISON va k))
    | none =>
      match (if m.inv && k == .load then (s, none) else s.raceAdmit p l.idx loc (raceKindOf s p i m)) with
      | (s, some t) => (s, .error t)
      | (s, none) => (s, .ok loc)

/-- A lane's access as it is in flight: the values of its X and D operands go with it. -/
def lateOf (i : Instr) (m : MemOp) (p : Pk) (l : Lane) (loc : Loc) : Late :=
  { instr := i, lane := l.idx, loc := loc, x := p.readN l 0 m.x.spec m.width.regs, d := p.readN l 0 m.d m.width.regs
    reg := match m.d with
      | .v n => n.toNat
      | _ => 0
    bytes := m.width.bytes }

/-- R235: the lower or the upper 8 bytes of a place of 16. -/
def Loc.half (h : Nat) : Loc → Loc
  | .mem [(x, _, va)] => .mem [({ x with pa := x.pa + 8 * h }, 8, va + dword (8 * h))]
  | .mem ps => .mem ((ps.drop (2 * h)).take 2)
  | .scr k _ => .scr (k + 8 * h) 8

/-- R235: a lane's access as it is put off: a b128 access is two halves, which are performed in no defined order. An access that
is not put off is performed whole in its one step, which is one of the orders that the rule allows (log entry 15). -/
def latesOf (i : Instr) (m : MemOp) (p : Pk) (l : Lane) (loc : Loc) : List Late :=
  let e := lateOf i m p l loc
  if m.width.bytes == 16 then
    [0, 1].map fun h => { e with loc := loc.half h, d := e.d / 2 ^ (64 * h) % 2 ^ 64, reg := e.reg + 2 * h, bytes := 8, part := h }
  else [e]

/-- The registers that an access in flight gives its value. -/
def Late.regs (e : Late) (d : Spec) : List (Nat × Nat × Word) :=
  match d with
  | .v _ => (rangeFrom e.reg (cdiv e.bytes 4)).map fun r => (e.lane, r, 0)
  | _ => []

/-- R83: a spilled entry is written: a weak store, exempt from detection. R238: the releases that stood in its bytes are overwritten. -/
def State.spillStore (s : State) (p : Pk) (loc : Loc) (v : Nat) : State :=
  let s := (s.locReq .write false loc).locStore p 0 loc (leBytes v 8)
  { s with race := s.race.landed ((loc.bytes p.iss.uid).map fun e => (e.1, e.2.1)) }

/-- R217, R238, R256, R262: a lane's access is performed: the value that it gives, and the `fpst` bits. So are the spill write of a
CALL (R83), the texel reads of a lookup (R389), and the event of a PORTCFG (R341). -/
def State.performLate (s : State) (p : Pk) (e : Late) : State × Nat × BitVec 5 :=
  let s := s.locHome e.loc
  match e.instr with
  | .ld m =>
    if m.order == .weak then
      let (s, b) := s.locLoad p m.inv m.cache.toNat e.loc
      (s, widthVal m.width b, 0)
    else
      let s := s.locReq .read (m.scope == .sys) e.loc
      let b := s.locNow p.iss.uid e.loc
      let s := s.racePerformed p e.lane e.loc (raceKindOf s p e.instr m) e.was
      (s.acquired p.iss.uid p.iss.grp p.grp.core m.scope, widthVal m.width b, 0)
  | .st m =>
    let s := s.locReq .write (m.order != .weak && m.scope == .sys) e.loc
    ((s.racePerformed p e.lane e.loc (raceKindOf s p e.instr m) e.was).locStore p m.cache.toNat e.loc (leBytes e.d e.bytes), 0, 0)
  | .atom m | .atomf m | .cas m | .red m =>
    let s := s.locReq (hostOpOf e.instr) (m.scope == .sys) e.loc
    let old := leNat (s.locNow p.iss.uid e.loc)
    let s := s.racePerformed p e.lane e.loc (raceKindOf s p e.instr m) e.was
    let s := if ordAcq m.order then s.acquired p.iss.uid p.iss.grp p.grp.core m.scope else s
    let r := atomFn e.instr e.x e.d old
    let s := match r.1 with
      | some v => s.locStore p 2 e.loc (leBytes v m.width.bytes)
      | none => s
    (s.updGroup p.iss.uid p.iss.grp (·.orFpst r.2), old, r.2)
  | .portcfg _ _ _ _ c =>
    let (s, v) := s.configPort p.team.ctx (e.x / 2 ^ 32) (e.x % 2 ^ 32) (BitVec.ofNat 64 e.d) (c.spec != .zero)
    (s, v, 0)
  | .call .. | .callx .. => (s.spillStore p e.loc e.d, 0, 0)
  | _ =>
    match e.look with
    | some k =>
      let (s, v) := s.performLook p e.loc k
      (s, v, 0)
    | none => (s, 0, 0)

/-- Does a lane's access give a register its value? -/
def givesValue (i : Instr) : Bool :=
  match i with
  | .st _ | .red _ => false
  | _ => true

/-- R133: a helper lane's stores and atomics are suppressed; a register destination receives 0. -/
def suppressedFor (i : Instr) (l : Lane) : Bool := l.helper && accKindOf i != .load

/-- A lane's access, performed at its issue. -/
def accLane (i : Instr) (m : MemOp) (s : State) (p : Pk) (l : Lane) : State × Except Trap (List (Nat × Nat)) :=
  if suppressedFor i l then (s, .ok (if givesValue i then [(l.idx, 0)] else []))
  else
    match checkLane i m s p l with
    | (s, .error t) => (s, .error t)
    | (s, .ok loc) =>
      let (s, v, _) := s.performLate p (lateOf i m p l loc)
      (s, .ok (if givesValue i then [(l.idx, v)] else []))

/-! ### Accesses in flight -/

/-- The packet that an access in flight belongs to, as far as its performance needs it. -/
def State.latePk (s : State) (uid grp : Nat) : Option Pk :=
  match s.team? uid, s.group? uid grp with
  | some t, some g => some { iss := { uid := uid, grp := grp, pc := 0, lanes := [] }, team := t, grp := g }
  | _, _ => none

/-- R83: is it the spill write of a CALL? R44 alone orders it. -/
def Late.isSpill (e : Late) : Bool :=
  match e.instr with
  | .call .. | .callx .. => true
  | _ => false

/-- R234: is an access in flight strong? -/
def Late.strong (e : Late) : Bool :=
  match e.instr with
  | .ld m | .st m => m.order != .weak
  | _ => e.look.isNone && !e.isSpill

/-- R238: does an access in flight acquire? -/
def Late.acquires (e : Late) : Bool :=
  match e.instr with
  | .ld m | .atom m | .atomf m | .cas m | .red m => ordAcq m.order
  | _ => false

/-- Do two places share a byte? -/
def Loc.meets (a b : Loc) : Bool :=
  match a, b with
  | .mem ps, .mem qs => ps.any fun x => qs.any fun y => x.1.pa < y.1.pa + y.2.1 && y.1.pa < x.1.pa + x.2.1
  | .scr k n, .scr j m => k < j + m && j < k + n
  | _, _ => false

/-- An access in flight is performed: its result is in flight with its value. When the packet's last access is performed, the
sectors that its stores have covered together are poisoned no longer (R120). -/
def State.settleLate (s : State) (uid grp : Nat) (q : Pending) : State :=
  match q.late, (s.latePk uid grp).filter (·.grp.inflight.contains q) with
  | some e, some p =>
    let (s, v, _) := s.performLate p e
    let done : Pending :=
      { q with late := none, regs := q.regs.map fun r => (r.1, r.2.1, word (v / 2 ^ (32 * (r.2.1 - e.reg)))) }
    let s := s.updGroup uid grp fun g => { g with inflight := updFirst (· == q) (fun _ => done) g.inflight }
    let more := ((s.group? uid grp).map fun g => g.inflight.any fun x => x.pkt == q.pkt && x.late.isSome).getD false
    if more || q.cover.isEmpty then s
    else s.locSweep uid (match e.loc with
      | .scr .. => true
      | .mem _ => false) q.cover
  | _, _ => s

/-- Is it the event of a PORTCFG? -/
def Late.isConfig (e : Late) : Bool :=
  match e.instr with
  | .portcfg .. => true
  | _ => false

/-- R44, R236, R246, R267: is an access in flight performed after one that stands before it in the list? Of its own lane, when
it is strong, when the other acquires, or when they share a byte: what an acquire has synchronised with happens before every later
access of its thread (R241, R245); a spill write only when they share a byte (R234). Of another lane of its packet, a lower one, when
they share a byte. -/
def Pending.follows (q x : Pending) : Bool :=
  match q.late, x.late with
  | some e, some f =>
    f.isConfig == e.isConfig
      && (if f.lane == e.lane then x.pkt != q.pkt && (f.loc.meets e.loc || (!e.isSpill && !f.isSpill && (e.strong || f.acquires)))
        else x.pkt == q.pkt && f.loc.meets e.loc)
  | _, _ => false

/-- The accesses in flight that come before one, and the access itself, in their order. -/
def latesUpTo (l : List Pending) (q : Pending) : List Pending :=
  (l.takeWhile (· != q)).reverse.foldl (fun need x => if need.any (·.follows x) then x :: need else need) [q]

/-- Performs the accesses in flight of a list, in their order. -/
def State.settleLates (s : State) (uid grp : Nat) (qs : List Pending) : State :=
  qs.foldl (fun s q =>
    (((s.group? uid grp).map fun g => latesUpTo g.inflight q).getD []).foldl (fun s x => s.settleLate uid grp x) s) s

/-- R236: performs what a group has in flight and a test picks. -/
def State.flushWhere (s : State) (uid grp : Nat) (f : Late → Bool) : State :=
  match s.group? uid grp with
  | none => s
  | some g =>
    let qs := g.inflight.filter fun q => (q.late.map f).getD false
    if qs.isEmpty then s else s.settleLates uid grp qs

/-- Performs every access in flight of a unit. -/
def State.flushUnit (s : State) (uid : Nat) : State :=
  match s.team? uid with
  | none => s
  | some t => t.groups.foldl (fun s g => s.flushWhere uid g.idx fun _ => true) s

/-- R44, R236: before a lane's access at a place takes its turn, what the lane has in flight is performed: all of it but spill writes
before a strong access; before a weak one, what acquires or shares a byte with it. -/
def State.orderLane (s : State) (uid grp lane : Nat) (strong : Bool) (loc : Loc) : State :=
  s.flushWhere uid grp fun e => e.lane == lane && !e.isConfig && (e.loc.meets loc || (!e.isSpill && (strong || e.acquires)))

/-- R44, R86: the same for a spill write or a refill read, which R44 alone orders: what shares a byte with it. -/
def State.orderSpill (s : State) (uid grp lane : Nat) (loc : Loc) : State :=
  s.flushWhere uid grp fun e => e.lane == lane && !e.isConfig && e.loc.meets loc

/-- The same for a lane of LD, ST or an atomic; an access that is itself put off waits in flight for what it follows, but its checks
see what the lane has stored at its bytes. -/
def State.orderAcc (s : State) (i : Instr) (m : MemOp) (p : Pk) (l : Lane) (now : Bool) : State :=
  match (s.locate p l.idx m.space (p.ea l m) m.width.bytes (accKindOf i)).2 with
  | .ok loc => s.orderLane p.iss.uid p.iss.grp l.idx (now && (accKindOf i == .rmw || accKindOf i == .rmwOnly || m.order != .weak)) loc
  | .error _ => s

/-- The turn of one lane of LD, ST or an atomic that is not put off. -/
def accTurn (i : Instr) (m : MemOp) (s : State) (p : Pk) (l : Lane) : State × Except Trap (List (Nat × Nat)) :=
  accLane i m (if suppressedFor i l then s else s.orderAcc i m p l true) p l

/-- R236, R239: does an instruction come after the accesses that its active lanes have in flight? Computing, transfers and group
exchanges do not, nor does PORTCFG, which is no access (R234). An access that acts lane by lane is ordered after those of its own
lane at its turn (`State.orderLane`), and so are a lookup (`Lookup.order`) and the spills of a call or return. -/
def ordersLates (i : Instr) : Bool :=
  match i with
  | .portcfg .. | .ld .. | .st .. | .atom .. | .atomf .. | .cas .. | .red .. | .fewait .. | .feset ..
  | .tex .. | .texg .. | .texq .. | .lodld .. => false
  | .exit .. | .barSync .. | .barArrive .. | .barWait .. => true
  | i => i.cls == .memory || i.cls == .engine || i.cls == .system

/-- Does an instruction come after the events of PORTCFG that its active lanes have in flight? Those at the join unit do, and
what ends or orders a lane's regions; a launch does not (R408). -/
def ordersConfigs (i : Instr) : Bool :=
  match i with
  | .portcfg .. | .post .. | .postn .. | .wait .. | .take .. | .patset .. | .patclr .. | .exit .. | .barSync .. | .barArrive ..
  | .barWait .. => true
  | _ => false

/-- Does an instruction order the accesses before it and make none itself? It does not order a spill write (R234). -/
def isOrdering (i : Instr) : Bool :=
  match i with
  | .fence .. | .barSync .. | .barArrive .. | .barWait .. => true
  | _ => false

/-- Is it an arrival at a barrier, or its wait? -/
def isBar (i : Instr) : Bool :=
  match i with
  | .barSync .. | .barArrive .. | .barWait .. => true
  | _ => false

/-- R236: an instruction that is about to issue finds what its active lanes have in flight performed, where it comes after it. -/
def State.orderLates (s : State) (iss : Issue) (i : Instr) : State :=
  if !ordersLates i && !ordersConfigs i then s
  else
    match s.group? iss.uid iss.grp, i.hdr with
    | some g, some h =>
      let act := (g.lanes.filter fun l => iss.lanes.contains l.idx && l.guard h).map (·.idx)
      -- R157, R159: a group's arrival counts when the accesses of all of its lanes are performed
      let ls := if isBar i && !act.isEmpty then g.lanes.map (·.idx) else act
      s.flushWhere iss.uid iss.grp fun e => ls.contains e.lane && (if e.isConfig then ordersConfigs i
        else ordersLates i && !(e.isSpill && isOrdering i))
    | _, _ => s

end Sys2Proof.Machine
end

