-- ==== Sys2Proof/Machine/FullEmpty.lean ====
section
/-! DEFINITION. The full/empty bits of scratch lines (R220 to R222, R259, R260, R271, R272): a packet's lanes form one set
per line; each set is served when its line is in the state that it waits for, or parks. -/

namespace Sys2Proof.Machine

/-- What an instruction does at the full/empty bit of a line. -/
inductive FeOp where
  | plain | consume | produce | waitFull | waitEmpty | setFull | setEmpty
  deriving DecidableEq, Repr

/-- R220: the state of the line that an operation waits for: full, empty, or either. -/
def FeOp.need : FeOp → Option Bool
  | .plain | .consume | .waitFull => some true
  | .produce | .waitEmpty => some false
  | _ => none

/-- R220: the state that an operation leaves. -/
def FeOp.leaves : FeOp → Option Bool
  | .consume | .setEmpty => some false
  | .produce | .setFull => some true
  | _ => none

def feOpOf (i : Instr) : FeOp :=
  match i with
  | .ld m => if m.fe then .consume else .plain
  | .st _ => .produce
  | .fewait m => if m.fe then .waitEmpty else .waitFull
  | .feset m => if m.fe then .setEmpty else .setFull
  | _ => .plain

def memOpOf (i : Instr) : Option MemOp :=
  match i with
  | .ld m | .st m | .fewait m | .feset m => some m
  | _ => none

/-- Is a scratch line full? -/
def State.lineFull (s : State) (uid line : Nat) : Bool :=
  match s.team? uid with
  | some t => !t.scr.emptyLines.contains line
  | none => true

/-- Sets or clears the bit of a line. A clear ends the edge of the arrivals that set it (R240). -/
def State.setLine (s : State) (uid line : Nat) (full : Bool) : State :=
  let s := s.updTeam uid fun t =>
    { t with scr := { t.scr with emptyLines := if full then sdel t.scr.emptyLines line else sins t.scr.emptyLines line } }
  if full then s
  else { s with race := { s.race with lineEng := s.race.lineEng.filter (·.1 != (uid, line)) } }

/-- R239, R240: an arrival of an engine thread sets the bit of a line: what the thread has done happens before what consumes the
line, or observes it full, until it is next cleared. -/
def State.lineArrive (s : State) (uid line : Nat) (t : Tid) : State :=
  let s := s.setLine uid line true
  let r := s.race
  let old := if r.lineEng.any (·.1 == (uid, line)) then clkAt r.lineClk (uid, line) else []
  { s with race := { r with
      lineClk := ((uid, line), clkJoin old (r.relClk t)) :: r.lineClk.filter (·.1 != (uid, line))
      lineEng := ((uid, line), t) :: r.lineEng } }

/-- R238: the issue of an engine operation clears the bit of a line that it will fill; the line holds no release any more. -/
def State.lineAwait (s : State) (uid line : Nat) : State :=
  let s := s.setLine uid line false
  { s with race := { s.race with lineClk := s.race.lineClk.filter (·.1 != (uid, line)) } }

/-- A lane of a set: its lane, scratch key and store data. -/
abbrev FeLane := Nat × Nat × Nat

/-- R238: the strong access of a lane at its line: it acquires what the line's last change released, is checked, and gives
the clock that it releases. -/
def State.feStrong (s : State) (p : Pk) (m : MemOp) (op : FeOp) (e : FeLane) : State × Except Trap Clock :=
  let t := p.tid e.1
  let line := e.2.1 / 128
  let sc := feScope m.scope
  let r := if op.need.isSome then s.race.acquire t (clkAt s.race.lineClk (p.iss.uid, line)) else s.race
  let data := op == .consume || op == .produce
  let b := if data then (Loc.scr e.2.1 m.width.bytes).bytes p.iss.uid else []
  let k : AccKind :=
    { read := op == .consume, write := op == .produce, strong := some (scopeHolds s p.iss.uid p.iss.grp sc) }
  let rb : RBytes := b.map fun x => (x.1, x.2.1)
  match r.admitted rb rb t k (if op == .produce then [] else s.lineEngs p.iss.uid line) with
  | .error (w, a) => (s, .error (mmxTrap e.1 b (op == .produce) w a))
  | .ok r' => ({ s with race := r'.performed rb t k }, .ok (r.relClk t))

/-- One lane of a set, the line's state and poison being right: its value. -/
def State.feLane (s : State) (p : Pk) (i : Instr) (m : MemOp) (op : FeOp) (e : FeLane) :
    State × Except Trap (Option Nat × Clock) :=
  let loc := Loc.scr e.2.1 m.width.bytes
  match op with
  | .plain =>
    match s.locPoison p.iss.uid loc with
    | some va => (s, .error (addrTrap e.1 cPOISON va .load))
    | none =>
      let k := raceKind s p m.order m.scope true false false (m.order != .weak)
      let (s, t) := if m.inv then (s, none) else s.raceAdmit p e.1 loc k (s.lineEngs p.iss.uid (e.2.1 / 128))
      match t with
      | some t => (s, .error t)
      | none =>
        let s := if m.order == .weak then s
          else (s.racePerformed p e.1 loc k).acquired p.iss.uid p.iss.grp p.grp.core m.scope
        let (s, b) := s.locLoad p m.inv 0 loc
        (s, .ok (some (widthVal m.width b), []))
  | _ =>
    match s.feStrong p m op e with
    | (s, .error t) => (s, .error t)
    | (s, .ok c) =>
      let s := if op.need.isSome then s.acquired p.iss.uid p.iss.grp p.grp.core (feScope m.scope) else s
      match op, i with
      | .consume, _ => (s, .ok (some (widthVal m.width (s.locNow p.iss.uid loc)), c))
      | .produce, _ => (s.locStore p 0 loc (leBytes e.2.2 m.width.bytes), .ok (none, c))
      | _, _ => (s, .ok (none, c))

/-- The outcome of serving lanes: the lanes served, their values, the traps, and the clock that they release. -/
structure FeOut where
  served : List Nat := []
  vals : List (Nat × Nat) := []
  traps : List Trap := []
  clk : Clock := []
  deriving DecidableEq, Repr

/-- R236: what a lane has in flight before its full/empty operation is performed. -/
def State.feOrder (s : State) (p : Pk) (m : MemOp) (op : FeOp) (e : FeLane) : State :=
  s.orderLane p.iss.uid p.iss.grp e.1 (op != .plain || m.order != .weak) (.scr e.2.1 m.width.bytes)

/-- Serves the lanes of a set in rising order. -/
def State.feLanes (s : State) (p : Pk) (i : Instr) (m : MemOp) (op : FeOp) : List FeLane → State × FeOut
  | [] => (s, {})
  | e :: r =>
    match (s.feOrder p m op e).feLane p i m op e with
    | (s, .error t) =>
      let (s, o) := s.feLanes p i m op r
      (s, { o with traps := t :: o.traps })
    | (s, .ok (v, c)) =>
      let (s, o) := s.feLanes p i m op r
      (s, { served := e.1 :: o.served, vals := (match v with
              | some v => [(e.1, v)]
              | none => []) ++ o.vals
            traps := o.traps, clk := clkJoin o.clk c })

/-- R221: serves one line's set in one step. None: the set waits. A consume that meets poison serves no lane of its set
(R259). -/
def State.feSet (s : State) (p : Pk) (i : Instr) (m : MemOp) (set : List FeLane) : State × Option FeOut :=
  let op := feOpOf i
  match set with
  | [] => (s, some {})
  | e0 :: _ =>
    let line := e0.2.1 / 128
    if (op.need.map fun n => n == s.lineFull p.iss.uid line) == some false then (s, none)
    else
      let s := if op == .consume then set.foldl (fun s e => s.feOrder p m op e) s else s
      let bad := if op == .consume then set.filterMap fun e =>
          (s.locPoison p.iss.uid (.scr e.2.1 m.width.bytes)).map fun va => addrTrap e.1 cPOISON va .load
        else []
      if !bad.isEmpty then (s, some { traps := bad })
      else
        let (s, o) := s.feLanes p i m op set
        match op.leaves with
        | none => (s, some o)
        | some full =>
          if o.served.isEmpty then (s, some o)
          else
            let s := if op == .produce then s.locSweep p.iss.uid true ((set.filter fun e => o.served.contains e.1).map
              fun e => (e.2.1, m.width.bytes)) else s
            let s := s.setLine p.iss.uid line full
            ({ s with race := { s.race with
                  lineClk := ((p.iss.uid, line), o.clk) :: s.race.lineClk.filter (·.1 != (p.iss.uid, line)) } }, some o)

/-- The sets of a packet's lanes by line, in the order of their lowest lanes. -/
def feSets : List FeLane → List (List FeLane) → List (List FeLane)
  | [], acc => acc
  | e :: r, acc =>
    let same (x : List FeLane) : Bool := match x with
      | y :: _ => y.2.1 / 128 == e.2.1 / 128
      | [] => false
    feSets r (if acc.any same then updFirst same (· ++ [e]) acc else acc ++ [[e]])

/-- Serves the sets that can be served: the outcome, and the lanes that wait. A set that met poison waits on (R259). -/
def State.feAll (s : State) (p : Pk) (i : Instr) (m : MemOp) : List (List FeLane) → State × FeOut × List FeLane
  | [] => (s, {}, [])
  | set :: r =>
    match s.feSet p i m set with
    | (s, none) =>
      let (s, o, w) := s.feAll p i m r
      (s, o, set ++ w)
    | (s, some x) =>
      let (s, o, w) := s.feAll p i m r
      let done := x.served ++ x.traps.map (·.lane)
      (s, ⟨x.served ++ o.served, x.vals ++ o.vals, x.traps ++ o.traps, []⟩, set.filter (fun e => !done.contains e.1) ++ w)

/-- Finds the scratch key and data of each lane, or its trap. -/
def State.feLocate (s : State) (p : Pk) (m : MemOp) (k : AKind) : List Lane → State × List FeLane × List Trap
  | [] => (s, [], [])
  | l :: r =>
    let ea := p.ea l m
    match s.locate p l.idx .scr ea m.width.bytes k with
    | (s, .error t) =>
      let (s, es, ts) := s.feLocate p m k r
      (s, es, t :: ts)
    | (s, .ok _) =>
      let (s, es, ts) := s.feLocate p m k r
      (s, (l.idx, ea.toNat, p.storeData l m) :: es, ts)

/-- The issue of a full/empty operation (R221; the lanes of a set receive their results together, R399): sets are served at once where they can be; the other lanes park (R125), and
the packet's flag stays up until the last of them is served (R261). `act`: the lanes that take part. -/
def feIssue (i : Instr) (m : MemOp) (k : AKind) (act : Pk → List Lane) (s : State) : Answer :=
  issue i m.h s fun s p =>
    let (s, es, ts) := s.feLocate p m k (act p)
    let (s, o, wait) := s.feAll p i m (feSets es [])
    let ts := ts ++ o.traps
    let stay := wait.map (·.1) ++ ts.map (·.lane)
    let flag := p.flag m.h
    let now := s.coreCyc p.grp.core
    let pkt := if wait.isEmpty then 0 else s.nextId
    let s := if wait.isEmpty then s else
      let s : State := { s with nextId := s.nextId + 1 }
      (s.updPkLanes p (wait.map (·.1)) fun l => { l with park := some (.fullEmpty, now) }).updGroup p.iss.uid p.iss.grp
        fun g => { g with fes := g.fes ++ [⟨p.iss, i, wait, flag, pkt⟩] }
    .next ((finishSome i m.h p s (p.iss.lanes.filter fun l => !stay.contains l) o.vals []
      (if wait.isEmpty then flag else none) ts pkt).arriveSets p (p.inflightOf s) (setsByKey (es.map fun e => (e.1, e.2.1 / 128))))

/-- Takes lanes off the sets that wait in a group; the flag to lower when the last lane of the packet is gone. -/
def Group.feDrop (g : Group) (ls : List Nat) : Group :=
  let fes := g.fes.map fun w => { w with lanes := w.lanes.filter fun e => !ls.contains e.1 }
  let gone := (fes.filter (·.lanes.isEmpty)).filterMap fun w => w.flag.map fun f => (w.pkt, f)
  gone.foldl (fun g e => g.endPkt e.1 e.2) { g with fes := fes.filter (!·.lanes.isEmpty) }

/-- R221: FULL_EMPTY_SET_SERVED: the set of a parked lane is served when its line is in the right state. R222, R259: a team that is being
saved or has been terminated, for the POISON of another lane of the set among other causes, has no set served any more. -/
def execFullEmptySetServed (uid grp lane : Nat) (s : State) : Answer :=
  match s.team? uid, s.group? uid grp with
  | some t, some g =>
    if t.state != .running || t.kill then .next s
    else
    match g.fes.find? fun w => w.lanes.any (·.1 == lane) with
    | some w =>
      match memOpOf w.instr, w.lanes.find? (·.1 == lane) with
      | some m, some e =>
        let p : Pk := { iss := w.iss, team := t, grp := g }
        match s.feSet p w.instr m (w.lanes.filter fun x => x.2.1 / 128 == e.2.1 / 128) with
        | (_, none) => .next s
        | (s, some o) =>
          let out := o.served ++ o.traps.map (·.lane)
          let last := w.lanes.all fun x => out.contains x.1
          let s := s.updPkLanes p out fun l => { l with park := none }
          let s := s.updGroup uid grp fun g =>
            { g with fes := (updFirst (fun x => x == w)
                (fun x => { x with lanes := x.lanes.filter fun e => !out.contains e.1 }) g.fes).filter (!·.lanes.isEmpty) }
          .next ((finishSome w.instr m.h p s o.served o.vals [] (if last then w.flag else none) o.traps w.pkt).arriveSets p
            (p.inflightOf s) [o.served])
      | _, _ => .next s
    | none => .next s
  | _, _ => .next s

/-- R222: FULL_EMPTY_PARKLIMIT: a wait past the park limit raises PARKLIMIT; the instruction has had no effect. -/
def execFullEmptyParklimit (uid grp lane : Nat) (s : State) : Answer :=
  match s.team? uid, s.lane? uid grp lane with
  | some t, some l =>
    match l.park with
    | some (.fullEmpty, since) =>
      if t.state == .running && s.pastLimit t.ctx (s.grpCyc uid grp - since) then
        let s := s.updGroup uid grp fun g => (g.feDrop [lane]).updLane lane fun l => { l with park := none }
        .next (takeTraps s uid grp l.pc [{ lane := lane, cause := cPARKLIMIT }])
      else .next s
    | _ => .next s
  | _, _ => .next s

end Sys2Proof.Machine
end

