-- ==== Sys2Proof/Machine/GroupOps.lean ====
section
/-! DEFINITION. The group instructions (R143 to R162): votes, shuffles, folds and scans, team barriers, and the moving of
register capacity. -/

namespace Sys2Proof.Machine

/-! ### Data exchange -/

/-- The issue of an instruction that computes its lanes' results together: one value per active lane, and `fpst` bits. -/
def groupAlu (i : Instr) (h : Hdr) (f : Pk → List Lane → List (Nat × Nat) × BitVec 5) (s : State) : Answer :=
  issue i h s fun s p =>
    let act := p.active h
    let (rs, fp) := f p act
    let d := i.shape.dst.getD ⟨.zero, 1, false⟩
    let s := s.updGroup p.iss.uid p.iss.grp (·.orFpst fp)
    let s := s.kill p (act.map (·.idx)) (shapeKills i.shape)
    .next (((s.writeDst p d.spec d.w rs).advance p p.iss.lanes).trapPk p [])

/-- The same for results in a predicate. -/
def groupPred (i : Instr) (h : Hdr) (pd : BitVec 3) (f : List Lane → Lane → Bool) (s : State) : Answer :=
  issue i h s fun s p =>
    let act := p.active h
    let rs := act.map fun l => (l.idx, f act l)
    let s := s.updGroup p.iss.uid p.iss.grp (·.supersedeP (act.map (·.idx)) [pd.toNat])
    let s := s.updPkLanes p (act.map (·.idx)) fun l =>
      match rs.find? (·.1 == l.idx) with
      | some (_, b) => l.setPred pd b
      | none => l
    .next ((s.advance p p.iss.lanes).trapPk p [])

/-- R145: VOTE. -/
def execVote (f : VoteForm) (h : Hdr) (pa : PSrc) (s : State) : Answer :=
  let i := Instr.vote f h pa
  match f with
  | .all pd => groupPred i h pd (fun t _ => t.all (·.psrc pa)) s
  | .any pd => groupPred i h pd (fun t _ => t.any (·.psrc pa)) s
  | .eq pd => groupPred i h pd (fun t l => t.all fun j => j.psrc pa == l.psrc pa) s
  | .ballot _ b imm =>
    groupAlu i h (fun p t =>
      (t.map fun l =>
        let k := (p.read32 l imm b.spec).toNat % 8
        (l.idx, bitsNat (fun n => t.any fun j => j.idx == 32 * k + n && j.psrc pa) 32), 0)) s

/-- R148: the source lane of XLANE; none: the lane's own value. -/
def xlaneSrc (mode : XMode) (w l b : Nat) : Option Nat :=
  let base := l - l % w
  let i := l % w
  match mode with
  | .at => some (base + b % w)
  | .back => if i ≥ b then some (l - b) else none
  | .fwd => if i + b < w then some (l + b) else none
  | .xor => some (base + (b ^^^ i) % 256 % w)

def execXlane (mode : XMode) (seg : Fin 7) (o : Op2) (s : State) : Answer :=
  groupAlu (.xlane mode seg o) o.h (fun p t =>
    let val (l : Lane) : Nat := (p.read32 l o.imm o.a.spec).toNat
    (t.map fun l =>
      let src := (xlaneSrc mode (2 ^ (seg.val + 2)) l.idx (p.read32 l o.imm o.b.spec).toNat).bind fun k =>
        t.find? (·.idx == k)
      (l.idx, val (src.getD l)), 0)) s

/-- R149: the lanes that QDIFF subtracts: low and high. -/
def qdiffPair (y crs : Bool) (l : Nat) : Nat × Nat :=
  let q := l - l % 4
  let cx := if crs then 0 else l % 2
  let cy := if crs then 0 else l / 2 % 2
  if y then (q + cx, q + cx + 2) else (q + 2 * cy, q + 2 * cy + 1)

def execQdiff (rnd : Rnd) (y crs : Bool) (o : Op1) (s : State) : Answer :=
  groupAlu (.qdiff rnd y crs o) o.h (fun p (t : List Lane) =>
    let rs : List (Nat × Res) := t.map fun (l : Lane) =>
      let (lo, hi) := qdiffPair y crs l.idx
      match t.find? (·.idx == lo), t.find? (·.idx == hi) with
      | some a, some b =>
        let va := fp32.mods false true (p.read32 a o.imm o.a.spec).toNat
        (l.idx, fp32.add rnd (fp32.val (p.read32 b o.imm o.a.spec).toNat) (fp32.val va))
      | _, _ => (l.idx, Res.of 0)
    -- R41: on the scalar path one result is computed, for the lowest lane
    (rs.map fun r => (r.1, r.2.val), (if (Instr.qdiff rnd y crs o).scalarDst then rs.take 1 else rs).foldl (fun a r => a ||| r.2.fp) 0)) s

/-- R151: `op` in the type of TY, with the `fpst` bits of a rounding step. -/
def foldOp (op : FoldOp) (ty : FoldTy) (x y : Nat) : Res :=
  match ty, op with
  | .f32, .add => fp32.add .rn (fp32.val x) (fp32.val y)
  | .f32, .max => fp32.minMax true x y
  | .f32, _ => fp32.minMax false x y
  | _, .add => Res.of ((x + y) % 2 ^ 32)
  | .s32, .min => Res.of (if sg32 x ≤ sg32 y then x else y)
  | .s32, .max => Res.of (if sg32 x ≥ sg32 y then x else y)
  | .u32, .min => Res.of (min x y)
  | .u32, .max => Res.of (max x y)
  | _, .and => Res.of (x &&& y)
  | _, .or => Res.of (x ||| y)
  | _, .xor => Res.of (x ^^^ y)

/-- R151: `comb` on values that may be absent. -/
def comb (op : FoldOp) (ty : FoldTy) (x y : Option Res) : Option Res :=
  match x, y with
  | some a, some b =>
    let r := foldOp op ty a.val b.val
    some ⟨r.val, a.fp ||| b.fp ||| r.fp⟩
  | some a, none => some a
  | none, y => y

/-- One level of the pairwise tree. -/
def foldPairs (op : FoldOp) (ty : FoldTy) : List (Option Res) → List (Option Res)
  | a :: b :: r => comb op ty a b :: foldPairs op ty r
  | l => l

/-- R151: the pairwise tree over 2^n lane positions. -/
def foldTree (op : FoldOp) (ty : FoldTy) (v : List (Option Res)) : Nat → Option Res
  | 0 => v.getD 0 none
  | n + 1 => foldTree op ty (foldPairs op ty v) n

def execGfold (op : FoldOp) (ty : FoldTy) (o : Op1) (s : State) : Answer :=
  groupAlu (.gfold op ty o) o.h (fun p t =>
    let v := (List.range 256).map fun k => (t.find? (·.idx == k)).map fun l => Res.of (p.read32 l o.imm o.a.spec).toNat
    match foldTree op ty v 8 with
    | some r => (t.map fun l => (l.idx, r.val), r.fp)
    | none => ([], 0)) s

/-- R152: the identity of an exclusive scan. -/
def foldIdent (op : FoldOp) (ty : FoldTy) : Nat :=
  match op, ty with
  | .min, .s32 => 0x7FFFFFFF
  | .min, .u32 => 0xFFFFFFFF
  | .min, .f32 => 0x7F800000
  | .max, .s32 => 0x80000000
  | .max, .f32 => 0xFF800000
  | .and, _ => 0xFFFFFFFF
  | _, _ => 0

/-- R151: the scan in increasing lane order, over lane values. -/
def scanLanes (op : FoldOp) (ty : FoldTy) (exc : Bool) : Option Res → List (Nat × Nat) → List (Nat × Nat) × Option Res
  | acc, [] => ([], acc)
  | acc, (l, x) :: r =>
    let acc' := comb op ty acc (some (Res.of x))
    let out := if exc then (acc.map (·.val)).getD (foldIdent op ty) else (acc'.map (·.val)).getD 0
    let (rest, last) := scanLanes op ty exc acc' r
    ((l, out) :: rest, last)

def execScan (op : FoldOp) (ty : FoldTy) (exc : Bool) (o : Op1) (s : State) : Answer :=
  groupAlu (.scan op ty exc o) o.h (fun p t =>
    let (rs, last) := scanLanes op ty exc none (t.map fun l => (l.idx, (p.read32 l o.imm o.a.spec).toNat))
    (rs, (last.map (·.fp)).getD 0)) s

/-- R147: the value of the lane that B names, one for the packet; each lane's own when that lane takes no part. -/
def execRdlane (o : Op2) (s : State) : Answer :=
  groupAlu (.rdlane o) o.h (fun p t =>
    let b := ((t.head?).map fun l => (p.read32 l o.imm o.b.spec).toNat).getD 0
    (t.map fun l => (l.idx, (p.read32 ((t.find? (·.idx == b % 256)).getD l) o.imm o.a.spec).toNat), 0)) s

/-- R150: MATCH. -/
def execMatchLanes (cnt w : Bool) (o : Op1) (s : State) : Answer :=
  groupAlu (.matchLanes cnt w o) o.h (fun p t =>
    let vals := t.map fun l => (l.idx, p.readN l o.imm o.a.spec (if w then 2 else 1))
    (vals.map fun (l, x) =>
      let same := vals.filter (·.2 == x)
      (l, if cnt then same.length else ((same.head?).map (·.1)).getD l), 0)) s

/-- R146: the lowest lane that is no helper, or the lowest one. -/
def execElect (h : Hdr) (pd : BitVec 3) (s : State) : Answer :=
  groupPred (.elect h pd) h pd (fun t l =>
    let e := match t.find? (!·.helper) with
      | some x => some x
      | none => t.head?
    (e.map (·.idx)) == some l.idx) s

/-! ### Team barriers -/

/-- The uniform value of a source for the packet. -/
def Pk.uni (p : Pk) (imm : Word) (sp : Spec) : Nat :=
  match p.lanes with
  | l :: _ => (p.read32 l imm sp).toNat
  | [] => 0

/-- R157, R159: the lanes of a group end their regions at cluster scope, as every BAR does. -/
def State.barBoundary (s : State) (p : Pk) : State :=
  p.grp.lanes.foldl (fun s l =>
    { s with race := s.race.boundary (p.tid l.idx) (scopeHolds s p.iss.uid p.iss.grp .clu) }) s

/-- R156: a barrier of the packet's team. -/
def State.barrier (s : State) (uid i : Nat) : Barrier := tgetD ((s.team? uid).map (·.bars) |>.getD []) i {}

def State.setBarrier (s : State) (uid i : Nat) (b : Barrier) : State :=
  s.updTeam uid fun t => { t with bars := tset t.bars i b }

/-- R157: the group arrives: its lanes release, and ARR, CNT and PEND change. -/
def State.arrive (s : State) (p : Pk) (i c : Nat) : State :=
  let uid := p.iss.uid
  let clk := p.grp.lanes.foldl (fun k l => clkJoin k (s.race.relClk (p.tid l.idx))) (clkAt s.race.barClk (uid, i))
  let s := { s with race := { s.race with barClk := ((uid, i), clk) :: s.race.barClk.filter (·.1 != (uid, i)) } }
  let b := s.barrier uid i
  (s.setBarrier uid i { b with cnt := if b.arr == 0 then c else b.cnt, arr := b.arr + 1, pend := sins b.pend p.iss.grp }).barBoundary p

/-- Parks every lane of the group at a barrier. -/
def State.parkBar (s : State) (p : Pk) (i : Nat) (again : Bool) : State :=
  let now := s.coreCyc p.grp.core
  s.updGroup p.iss.uid p.iss.grp fun g => { g with lanes := g.lanes.map fun l => { l with park := some (.bar i again, now) } }

/-- R157: the operand checks of an arrival. A `.arrive` of a group whose arrival is still pending parks first, and c is compared with
CNT when it arrives: the rule does not say whether the comparison comes before the park as well (log entry 65). -/
def barChk (s : State) (h : Hdr) (a b : Src) (imm : Word) (p : Pk) : List Trap :=
  let i := p.uni imm a.spec
  let c := p.uni imm b.spec
  let bar := s.barrier p.iss.uid i
  if i > 15 || c > p.team.card.groups || (!bar.pend.contains p.iss.grp && bar.arr > 0 && bar.cnt != c) then
    trapAll (p.active h) cILLOPD
  else []

/-- The issue of a BAR: the group acts once when a lane is active. -/
def barIssue (i : Instr) (h : Hdr) (chk : Pk → List Trap) (act : State → Pk → State) (s : State) : Answer :=
  issue i h s (chk := chk) fun s p =>
    .next ((if (p.active h).isEmpty then s.advance p p.iss.lanes else act s p).trapPk p [])

/-- R157 `.sync`: the group arrives unless it has, and parks until the barrier completes. -/
def execBarSync (h : Hdr) (a b : Src) (imm : Word) (s : State) : Answer :=
  barIssue (.barSync h a b imm) h (barChk s h a b imm) (fun s p =>
    let i := p.uni imm a.spec
    let there := (s.barrier p.iss.uid i).pend.contains p.iss.grp
    let s := if there then s.barBoundary p else s.arrive p i (p.uni imm b.spec)
    (s.parkBar p i false).checkBarriers p.iss.uid) s

/-- R157 `.arrive`: an arrival that is still pending waits for the completion and is made then. -/
def execBarArrive (h : Hdr) (a b : Src) (imm : Word) (s : State) : Answer :=
  barIssue (.barArrive h a b imm) h (barChk s h a b imm) (fun s p =>
    let i := p.uni imm a.spec
    if (s.barrier p.iss.uid i).pend.contains p.iss.grp then s.parkBar p i true
    else (((s.arrive p i (p.uni imm b.spec))).advance p p.iss.lanes).checkBarriers p.iss.uid) s

/-- R157 `.wait`: parks while the group's arrival is pending; else it acquires from the barrier's last completion. -/
def execBarWait (h : Hdr) (a : Src) (imm : Word) (s : State) : Answer :=
  barIssue (.barWait h a imm) h (fun p => if p.uni imm a.spec > 15 then trapAll (p.active h) cILLOPD else []) (fun s p =>
    let uid := p.iss.uid
    let i := p.uni imm a.spec
    let bar := s.barrier uid i
    let s := s.barBoundary p
    if bar.pend.contains p.iss.grp then s.parkBar p i false
    else if bar.gen == 0 then s.advance p p.iss.lanes
    else
      let c := clkAt s.race.barClk (uid, 16 + i)
      let s := { s with race := p.grp.lanes.foldl (fun r (l : Lane) => r.acquire (p.tid l.idx) c) s.race }
      (s.l1Invalidate p.grp.core).advance p p.iss.lanes) s

/-- R160: BAR_PARKLIMIT: a group parked at a BAR past the park limit traps in every lane; its arrival stays counted. -/
def execBarParklimit (uid grp : Nat) (s : State) : Answer :=
  match s.team? uid, s.group? uid grp with
  | some t, some g =>
    match g.lanes with
    | l0 :: _ =>
      match l0.park with
      | some (.bar _ _, since) =>
        if t.state == .running && s.pastLimit t.ctx (s.coreCyc g.core - since) then
          let s := s.updGroup uid grp fun g => { g with lanes := g.lanes.map fun l => { l with park := none } }
          .next (takeTraps s uid grp l0.pc (trapAll g.lanes cPARKLIMIT))
        else .next s
      | _ => .next s
    | [] => .next s
  | _, _ => .next s

/-- R154: CONV_PARKLIMIT: a lane parked at a CONV past the park limit. -/
def execConvParklimit (uid grp lane : Nat) (s : State) : Answer :=
  match s.team? uid, s.lane? uid grp lane with
  | some t, some l =>
    match l.park with
    | some (.conv, since) =>
      if t.state == .running && s.pastLimit t.ctx (s.grpCyc uid grp - since) then
        let s := s.updLane uid grp lane fun l => { l with park := none }
        .next (takeTraps s uid grp l.pc [{ lane := lane, cause := cPARKLIMIT }])
      else .next s
    | _ => .next s
  | _, _ => .next s

/-! ### Register capacity -/

/-- R161: REGGIVE lowers the floor; what the footprint no longer covers becomes the team's credit. -/
def execReggive (h : Hdr) (n : BitVec 16) (s : State) : Answer :=
  let n' := n.toNat
  issue (.reggive h n) h s (chk := fun p => if p.grp.floor < n' + 1 then trapAll (p.active h) cILLOPD else []) fun s p =>
    let g := p.grp
    let u := g.footprint
    let k := p.team.creditKey g
    let s := if (p.active h).isEmpty then s
      else
        (s.updTeam p.iss.uid fun t =>
          { t with credit := tput t.credit k (tgetD t.credit k 0 + max g.floor u - max (g.floor - n') u) 0 }).updGroup
            p.iss.uid p.iss.grp fun g => { g with floor := g.floor - n' }
    .next ((s.advance p p.iss.lanes).trapPk p [])

/-- R161, R162: REGCLAIM raises the floor, all at once or not at all; it waits as a claim does. -/
def execRegclaim (h : Hdr) (n : BitVec 16) (s0 : State) : Answer :=
  let n' := n.toNat
  issue (.regclaim h n) h s0 (chk := fun p =>
      if p.grp.floor + n' > p.team.card.regPeak then trapAll (p.active h) cILLOPD else []) fun s p =>
    if (p.active h).isEmpty then .next ((s.advance p p.iss.lanes).trapPk p [])
    else
      let (take, rest) := claimSplit p.team p.grp n'
      if !s0.canClaim p.grp p.place rest then .next (s0.beginClaimWait p.iss.uid p.iss.grp p.place rest)
      else
        let k := p.team.creditKey p.grp
        let s := s.updTeam p.iss.uid fun t => { t with credit := tput t.credit k (tgetD t.credit k 0 - take) 0 }
        let s := s.updGroup p.iss.uid p.iss.grp fun g =>
          { g with floor := g.floor + n', waits := g.waits.filter (·.place != p.place) }
        .next ((s.advance p p.iss.lanes).trapPk p [])

end Sys2Proof.Machine
end

