-- ==== Sys2Proof/Machine/Ports.lean ====
section
/-! DEFINITION. The join unit's instructions (R332 to R341), the events of waiting posts and groups (R334, R338), the arrival
of posts (R324), and the host and peer windows (R344, R345, R462). -/

namespace Sys2Proof.Machine

/-! ### Operands -/

/-- A port as an instruction names it: remote, device, number. -/
structure PortName where
  rmt : Bool
  dev : Nat
  port : Nat
  deriving DecidableEq, Repr

/-- R333: the port of a reference, given the value of its register; none raises ILLOPD. -/
def portName (r : PortRef) (remote : Bool) (w : Word) : Option PortName :=
  match r with
  | .imm rmt dev port => some ⟨rmt, dev.toNat, port.toNat⟩
  | .reg _ =>
    let n := w.toNat
    let rmt := n.testBit 19
    if n ≥ 2 ^ 20 || (rmt && !remote) || (!rmt && nbits n 18 16 != 0) then none else some ⟨rmt, nbits n 18 16, n % 65536⟩

/-- A port as a word of R333, and back. -/
def PortName.word (n : PortName) : Nat := n.port + n.dev * 2 ^ 16 + (if n.rmt then 2 ^ 19 else 0)

def PortName.ofWord (k : Nat) : PortName := ⟨k.testBit 19, nbits k 18 16, k % 65536⟩

/-- The port of a reference for a lane. -/
def Pk.portOf (p : Pk) (l : Lane) (r : PortRef) (remote : Bool) : Option PortName :=
  match r with
  | .reg b => portName r remote (p.read32 l 0 b.spec)
  | .imm .. => portName r remote 0

/-- A uniform 64-bit operand. -/
def Pk.uni64 (p : Pk) (sp : Spec) : Dword :=
  match p.lanes with
  | l :: _ => p.read64 l 0 sp
  | [] => 0

/-- R333: the first n ports of a list. -/
def portList (l : Dword) (n : Nat) : List Nat := (List.range n).map fun i => nbits l.toNat (16 * i + 15) (16 * i)

/-- R326: distinct ports of one stack. -/
def portsOk (l : List Nat) : Bool := l.eraseDups.length == l.length && (l.map portStack).eraseDups.length == 1

/-- The record's ADDR of a PORTOVF (R417). -/
def ovfTrap (s : State) (lane : Nat) (n : PortName) (val : Dword) : Trap :=
  { lane := lane, cause := cPORTOVF
    addr := dword (n.port + (if n.rmt then n.dev else s.bar0.devNum) * 65536), info := val }

/-! ### POST and POSTN -/

/-- What a POST's lanes come to: the traps, and the lanes that wait with their port and message. -/
structure PostRun where
  traps : List Trap := []
  wait : List (Nat × Nat × Nat) := []
  vals : List (Nat × Nat) := []

/-- R334: the status that POSTN writes. -/
def postStatus : PostOut → Nat
  | .closed => 0x80000012
  | .placed => 0
  | .full => 0x80000011
  | .dropped => 0x80000013

/-- R334: the lanes of a POST or POSTN, in rising order. `held`: a lower lane of the packet waits: the packet's later messages wait
too, for they arrive in increasing lane order (R335). A POSTN is a strong access whatever becomes of its message (R234). -/
def postLanes (status : Bool) (a : Src) (ref : PortRef) (p : Pk) (held : Bool) : State → List Lane → State × PostRun
  | s, [] => (s, {})
  | s, l :: r =>
    match p.portOf l ref true with
    | none =>
      let (s, x) := postLanes status a ref p held s r
      (s, { x with traps := { lane := l.idx, cause := cILLOPD } :: x.traps })
    | some n =>
      let val := p.read64 l 0 a.spec
      let x := s.threadPost (p.tid l.idx) p.team.ctx n.rmt n.dev n.port val
      match (if held && x.2 == .placed then (s, .full) else x) with
      | (s, out) =>
        let s := if status && out != .placed then (s.joinStrong (p.tid l.idx)).1 else s
        let held := held || (!status && out == .full)
        let (s, x) := postLanes status a ref p held s r
        if status then (s, { x with vals := (l.idx, postStatus out) :: x.vals })
        else
          match out with
          | .placed => (s, x)
          | .full => (s, { x with wait := (l.idx, n.word, val.toNat) :: x.wait })
          | _ => (s, { x with traps := ovfTrap s l.idx n val :: x.traps })

/-- R334: POST: messages are placed, lanes whose port is full wait, parked; the flag stays up until the last is placed. -/
def execPost (h : Hdr) (a : Src) (ref : PortRef) (s : State) : Answer :=
  let i := Instr.post h a ref
  issue i h s fun s p =>
    let (s, x) := postLanes false a ref p false s (p.workers h)
    let stay := x.wait.map (·.1) ++ x.traps.map (·.lane)
    let flag := p.flag h
    let now := s.coreCyc p.grp.core
    let s := if x.wait.isEmpty then s else
      (s.updPkLanes p (x.wait.map (·.1)) fun l => { l with park := some (.post, now) }).updGroup p.iss.uid p.iss.grp
        fun g => { g with fes := g.fes ++ [{ iss := p.iss, instr := i, lanes := x.wait, flag := flag }] }
    .next (finishSome i h p s (p.iss.lanes.filter fun l => !stay.contains l) [] []
      (if x.wait.isEmpty then flag else none) x.traps)

/-- R334: POSTN: each lane learns what became of its message; with an s-register as D, one message is posted for the packet
(R41), and a bad port word traps the packet's active lanes (log entry 38). -/
def execPostn (h : Hdr) (d : Spec) (a : Src) (ref : PortRef) (s : State) : Answer :=
  let i := Instr.postn h d a ref
  let bad (p : Pk) : Bool := i.scalarDst && ((p.workers h).head?.map fun l => (p.portOf l ref true).isNone).getD false
  issue i h s (chk := fun p => if bad p then trapAll (p.active h) cILLOPD else []) fun s p =>
    let (s, x) := postLanes true a ref p false s (if i.scalarDst then (p.workers h).take 1 else p.workers h)
    let helpers := ((p.active h).filter (·.helper)).map fun l => (l.idx, 0)
    .next (finishLanes i h p s (x.vals ++ helpers) [] x.traps)

/-- Is a wait of a group's list that of a POST? -/
def FeWait.isPost (w : FeWait) : Bool :=
  match w.instr with
  | .post .. => true
  | _ => false

/-- R334, R335: POST_RETRY: a waiting lane's message is tried again, unless a lower lane of its packet waits. -/
def execPostRetry (uid grp lane : Nat) (s : State) : Answer :=
  match s.team? uid, s.group? uid grp with
  | some t, some g =>
    match g.fes.find? fun w => w.isPost && w.lanes.any (·.1 == lane) with
    | none => .next s
    | some w =>
      match w.lanes.find? (·.1 == lane), w.instr.hdr with
      | some e, some h =>
        if t.state != .running || w.lanes.any (fun x => x.1 < lane) then .next s
        else
          let p : Pk := { iss := w.iss, team := t, grp := g }
          let n := PortName.ofWord e.2.1
          match s.threadPost (.lane uid grp lane) t.ctx n.rmt n.dev n.port (dword e.2.2) with
          | (_, .full) => .next s
          | (s, out) =>
            let last := w.lanes.all fun x => x.1 == lane
            let s := s.updPkLanes p [lane] fun l => { l with park := none }
            let s := s.updGroup uid grp fun g =>
              { g with fes := (updFirst (fun x => x == w)
                  (fun x => { x with lanes := x.lanes.filter fun e => e.1 != lane }) g.fes).filter (!·.lanes.isEmpty) }
            let ts := if out == .placed then [] else [ovfTrap s lane n (dword e.2.2)]
            .next (finishSome w.instr h p s (if out == .placed then [lane] else []) [] []
              (if last then w.flag else none) ts)
      | _, _ => .next s
  | _, _ => .next s

/-- R334: POST_PARKLIMIT: a lane that waits to post past the park limit raises PARKLIMIT. -/
def execPostParklimit (uid grp lane : Nat) (s : State) : Answer :=
  match s.team? uid, s.lane? uid grp lane with
  | some t, some l =>
    match l.park with
    | some (.post, since) =>
      if t.state == .running && s.pastLimit t.ctx (s.grpCyc uid grp - since) then
        let s := s.updGroup uid grp fun g => (g.feDrop [lane]).updLane lane fun l => { l with park := none }
        .next (takeTraps s uid grp l.pc [{ lane := lane, cause := cPARKLIMIT }])
      else .next s
    | _ => .next s
  | _, _ => .next s

/-! ### TAKE -/

/-- What TAKE's lanes come to. -/
structure TakeRun where
  traps : List Trap := []
  vals : List (Nat × Nat) := []
  preds : List (Nat × Nat × Bool) := []

/-- R336: the lanes of a TAKE, in rising order. -/
def takeLanes (pc : BitVec 3) (ref : PortRef) (p : Pk) : State → List Lane → State × TakeRun
  | s, [] => (s, {})
  | s, l :: r =>
    let trap (c : Cause) (info : Dword) : State × TakeRun :=
      let (s, x) := takeLanes pc ref p s r
      (s, { x with traps := { lane := l.idx, cause := c, info := info } :: x.traps })
    let give (s : State) (v : Nat) (b : Bool) : State × TakeRun :=
      let (s, x) := takeLanes pc ref p s r
      (s, { x with vals := (l.idx, v) :: x.vals, preds := (l.idx, pc.toNat, b) :: x.preds })
    if l.helper then give s 0 false
    else
      match p.portOf l ref false with
      | none => trap cILLOPD 0
      | some n =>
        if (s.port? p.team.ctx n.port).isNone then trap cENGINEF 4
        else
          match s.takeMsg p.team.ctx n.port with
          | (s, none) => give (s.joinStrong (p.tid l.idx)).1 0 false
          | (s, some m) =>
            let s := ({ s with race := s.race.acquire (p.tid l.idx) m.clk } : State).acquired p.iss.uid p.iss.grp p.grp.core .dev
            give (s.joinStrong (p.tid l.idx)).1 m.val.toNat true

def execTake (h : Hdr) (d : Spec) (pc : BitVec 3) (ref : PortRef) (s : State) : Answer :=
  let i := Instr.take h d pc ref
  issue i h s fun s p =>
    let (s, x) := takeLanes pc ref p s (p.active h)
    .next (finishLanes i h p s x.vals x.preds x.traps)

/-! ### WAIT -/

/-- R337: the ports of a WAIT; none for a count outside 1 to 4. -/
def Pk.waitPorts (p : Pk) (w : WaitPorts) : Option (List Nat) :=
  match w with
  | .imm port => some [port.toNat]
  | .list a b =>
    let n := p.uni 0 b.spec
    if 1 ≤ n && n ≤ 4 then some (portList (p.uni64 a.spec) n) else none

/-- R337: are the operands of a WAIT bad: its count, ports of several stacks, or a port named twice? -/
def Pk.waitBad (p : Pk) (w : WaitPorts) : Bool := ((p.waitPorts w).map fun l => !portsOk l).getD true

/-- R337: WAIT installs a WAKE pattern over its ports and the whole group parks. -/
def execWait (pri : BitVec 3) (h : Hdr) (ports : WaitPorts) (s : State) : Answer :=
  let i := Instr.wait pri h ports
  issue i h s (chk := fun p => if !(p.workers h).isEmpty && p.waitBad ports then trapAll p.lanes cILLOPD else []) fun s p =>
    if (p.workers h).isEmpty then .next (finishLanes i h p s [] [] [])
    else
      let all (c : Cause) (info : Dword) : Answer := .next (finishSome i h p s [] [] [] (p.flag h) (trapAll p.lanes c info))
      match p.waitPorts ports with
      | none => all cILLOPD 0
      | some l =>
        if l.any fun n => (s.port? p.team.ctx n).isNone then all cENGINEF 4
        else
          match s.patRoom p.team.ctx (portStack (l.headD 0)) false with
          | none => all cPATFULL 0
          | some sp =>
            let now := s.coreCyc p.grp.core
            let s := (s.updPkLanes p p.iss.lanes fun l => { l with park := some (.wait, now) }).updGroup p.iss.uid p.iss.grp
              fun g => { g with fes := g.fes ++ [{ iss := p.iss, instr := i, lanes := p.iss.lanes.map fun l => (l, 0, 0), flag := p.flag h }] }
            .next ((s.install p.team.ctx l pri.toNat false (.wake p.iss.uid p.iss.grp) sp).1.trapPk p [])

/-- R338: WAIT_PARKLIMIT: a group parked past the park limit raises PARKLIMIT at its WAIT; its pattern is removed. -/
def execWaitParklimit (uid grp : Nat) (s : State) : Answer :=
  match s.team? uid, s.group? uid grp with
  | some t, some g =>
    let waits := g.lanes.filterMap fun l => match l.park with
      | some (.wait, since) => some (l, since)
      | _ => none
    match waits with
    | [] => .next s
    | (l0, since) :: _ =>
      if t.state == .running && s.pastLimit t.ctx (s.grpCyc uid grp - since) then
        let s := (s.patterns.filter fun x => x.kind == .wake uid grp).foldl State.removePattern s
        let flags := (g.fes.filter (·.isWait)).filterMap (·.flag)
        let s := s.updGroup uid grp fun (g : Group) =>
          { g with
            fes := g.fes.filter fun w => !w.isWait
            lanes := g.lanes.map fun (l : Lane) => match l.park with
              | some (.wait, _) => { l with park := none }
              | _ => l }
        let s := flags.foldl (fun (s : State) f => s.lowerFlag uid grp (some f)) s
        .next (takeTraps s uid grp l0.pc (waits.map fun e => { lane := e.1.idx, cause := cPARKLIMIT }))
      else .next s
  | _, _ => .next s

/-! ### PATSET, PATCLR and PORTCFG -/

/-- A command that acts once for its packet: D receives its result in every active lane, 0 when every active lane is a helper
(R133, R332). -/
def packetRuns (i : Instr) (h : Hdr) (f : State → Pk → State × Except (List Trap) Nat) (s : State) (p : Pk) : Answer :=
  let act := (p.active h).map (·.idx)
  if (p.workers h).isEmpty then .next (finishLanes i h p s (act.map fun l => (l, 0)) [] [])
  else
    match f s p with
    | (s, .ok v) => .next (finishLanes i h p s (act.map fun l => (l, v)) [] [])
    | (s, .error ts) => .next (finishLanes i h p s [] [] ts)

/-- The issue of such a command. -/
def packetIssue (i : Instr) (h : Hdr) (f : State → Pk → State × Except (List Trap) Nat) (s : State) : Answer :=
  issue i h s (packetRuns i h f)

/-- R339: PATSET for its packet. -/
def patset (h : Hdr) (a b c : Src) (s : State) (p : Pk) : State × Except (List Trap) Nat :=
  let cfg := p.uni 0 b.spec
  let ports := portList (p.uni64 a.spec) (cfg % 4 + 1)
  let w := ((p.workers h).head?.map (·.idx)).getD 0
  if cfg / 2 ^ 9 != 0 || cfg.testBit 7 || nbits cfg 3 2 != 0 || !portsOk ports then (s, .ok 0x80000031)
  else if ports.any fun n => (s.port? p.team.ctx n).isNone then (s, .ok 0x80000032)
  else
    match s.laneRead p w (p.uni64 c.spec) 128 128 with
    | (s, .mmx t) => (s, .error ((p.active h).map fun l => { t with lane := l.idx }))
    | (s, .fault) => (s, .ok 0x80000033)
    | (s, .ok b) =>
      match Card.of b with
      | none => (s, .ok 0x80000033)
      | some card =>
        match s.patRoom p.team.ctx (portStack (ports.headD 0)) true with
        | none => (s, .error (trapAll (p.active h) cPATFULL))
        | some sp =>
          let (s, k) := s.install p.team.ctx ports (nbits cfg 6 4) (cfg.testBit 8) (.start card) sp
          (s, .ok k)

def execPatset (h : Hdr) (d : Spec) (a b c : Src) (s : State) : Answer :=
  packetIssue (.patset h d a b c) h (patset h a b c) s

/-- R340: PATCLR. -/
def execPatclr (h : Hdr) (d : Spec) (a : Src) (s : State) : Answer :=
  packetIssue (.patclr h d a) h (fun s p =>
    let k := p.uni 0 a.spec
    match s.patterns.find? fun x => x.ctx == p.team.ctx && x.isStart && x.handle == k with
    | some x => (s.removePattern x, .ok 0)
    | none => (s, .ok 0x80000034)) s

/-- R341: PORTCFG for its packet. -/
def portcfg (h : Hdr) (a : Src) (ref : PortRef) (c : Src) (s : State) (p : Pk) : State × Except (List Trap) Nat :=
  match p.lanes.head?.bind fun l => p.portOf l ref false with
  | none => (s, .error (trapAll (p.active h) cILLOPD))
  | some n =>
    let (s, v) := s.configPort p.team.ctx n.port (p.uni 0 a.spec) (p.uni64 c.spec) (c.spec != .zero)
    (s, .ok v)

/-- A PORTCFG in flight, for the lowest lane that works: its configuration and port word, and its ring base. -/
def lateConfig (i : Instr) (h : Hdr) (a : Src) (port : Nat) (c : Src) (p : Pk) : Late :=
  { instr := i, lane := ((p.workers h).head?.map (·.idx)).getD 0, loc := .mem []
    x := p.uni 0 a.spec + port * 2 ^ 32, d := (p.uni64 c.spec).toNat
    reg := match i with
      | .portcfg _ (.v n) .. => n.toNat
      | _ => 0 }

/-- R332, R408: a PORTCFG whose join-unit event is put off: its results are in flight with it. -/
def putOffConfig (i : Instr) (h : Hdr) (d : Spec) (e : Late) (s : State) (p : Pk) : State :=
  let pkt := s.nextId
  let s := ({ s with putOff := false, nextId := pkt + 1 } : State).fly p
    { regs := regWrites d 1 ((p.active h).map fun l => (l.idx, 0)), preds := [], flag := none, pkt := pkt, late := some e
      idle := p.idle h }
  finishSome i h p s p.iss.lanes [] [] (p.flag h) [] pkt

/-- R341: PORTCFG: its event comes at once, or is put off (R332: its status and its flag come with it). With an s-register as
D it comes at once. A bad port word traps the packet's active lanes (log entry 38). -/
def execPortcfg (h : Hdr) (d : Spec) (a : Src) (ref : PortRef) (c : Src) (s : State) : Answer :=
  let i := Instr.portcfg h d a ref c
  let bad (p : Pk) : Bool := !(p.workers h).isEmpty && (p.lanes.head?.bind fun l => p.portOf l ref false).isNone
  issue i h s (chk := fun p => if bad p then trapAll (p.active h) cILLOPD else []) fun s p =>
    match s.putOff && !i.scalarDst && !(p.workers h).isEmpty, p.lanes.head?.bind fun l => p.portOf l ref false with
    | true, some n => .next (putOffConfig i h d (lateConfig i h a n.port c p) s p)
    | _, _ => packetRuns i h (portcfg h a ref c) s p

/-! ### Arrivals, the host and the peers -/

/-- R324: PORT_ARRIVAL: a post on its way reaches its port. -/
def execPortArrival (k : Nat) (s : State) : Answer :=
  match s.joinQ.drop k with
  | [] => .next s
  | q :: r => .next ({ s with joinQ := s.joinQ.take k ++ r }.deliver q)

/-- R344, R345: an access to the port window at an offset: the context and port, or nothing; PWSTAT counts what it refuses. -/
def State.window (s : State) (off size : Nat) : State × Option (Nat × Nat) :=
  if size != 8 || off % 8 != 0 then
    ({ s with bar0 := { s.bar0 with badSize := min 0xFFFF (s.bar0.badSize + 1) } }, none)
  else
    let n := off / 8
    if (s.ctx? (n / 65536)).isNone then
      ({ s with bar0 := { s.bar0 with noCtx := min 0x7FFF (s.bar0.noCtx + 1) } }, none)
    else (s, some (n / 65536, n % 65536))

/-- R344, R469: HOST_PORT_WRITE. -/
def execHostPortWrite (off size : Nat) (data : Dword) (s : State) : Answer :=
  if !s.up then .next s
  else
    match s.window off size with
    | (s, none) => .next s
    | (s, some (c, n)) => .next (s.deliver { ctx := c, port := n, val := data })

def State.answer (s : State) (b : Bytes) (poison : Bool := false) : State := { s with out := .read b poison :: s.out }

def onesBytes (n : Nat) : Bytes := List.replicate n 0xFF

/-- R344, R469: HOST_PORT_READ. The rules do not say whether what a message's post released happens before the host's later posts and
RESUMEs: DESIGN CHOICE, it does not; the host has no clock, and the message's is dropped (log entry 68). -/
def execHostPortRead (off size : Nat) (s : State) : Answer :=
  if !s.up then .next (s.answer (onesBytes size))
  else
    match s.window off size with
    | (s, none) => .next (s.answer (onesBytes size))
    | (s, some (c, n)) =>
      if ((s.port? c n).map (·.hvis)) != some true then .next (s.answer (onesBytes 8))
      else
        match s.takeMsg c n with
        | (s, none) => .next (s.answer (onesBytes 8))
        | (s, some m) => .next (s.answer (leBytes m.val.toNat 8))

/-- R462: PEER_POST_ARRIVAL: a peer's remote post, delivered in the context of the same number. -/
def execPeerPostArrival (ctx : Nat) (port : BitVec 16) (msg : Dword) (s : State) : Answer :=
  .next (if s.up then s.deliver { ctx := ctx, port := port.toNat, val := msg } else s)

end Sys2Proof.Machine
end

