-- ==== Sys2Proof/Machine/Block.lean ====
section
/-! DEFINITION. The shared-exponent block formats (R164 to R180): companders, quantisation, and QPACK, QUNPK, QSCAL and
CMPLD. -/

namespace Sys2Proof.Machine

/-! ### Formats and companders -/

/-- R164: bits of a magnitude code, bits of a container, and the greatest magnitude code. -/
def sxMag : SxFmt → Nat
  | .sx7 => 6
  | .sx4 => 3
  | .sx2 => 1

def sxBits : SxFmt → Nat
  | .sx7 => 8
  | .sx4 => 4
  | .sx2 => 2

def sxTop (f : SxFmt) : Nat := 2 ^ sxMag f - 1

def Compander.base (c : Compander) (j : Nat) : Nat := nbits (c.words.getD j 0).toNat 11 0
def Compander.step (c : Compander) (j : Nat) : Nat := nbits (c.words.getD j 0).toNat 23 12

/-- R167: V(M). -/
def Compander.v (c : Compander) (f : SxFmt) (m : Nat) : Nat :=
  match c.kind with
  | .lin => match f with
    | .sx7 => 64 * m
    | .sx4 => 512 * m
    | .sx2 => 2048 * m
  | .sx7 => c.base (m / 8) + m % 8 * c.step (m / 8)
  | .sx4 => if f == .sx2 then (if m == 0 then 0 else c.base 1) else c.base m

/-- R167: does a table's kind serve a format? -/
def Compander.serves (c : Compander) (f : SxFmt) : Bool :=
  match c.kind with
  | .lin => true
  | .sx7 => f == .sx7
  | .sx4 => f != .sx7

/-- R168: the conditions on a table that CMPLD accepts. -/
def Compander.ok (c : Compander) : Bool :=
  match c.kind with
  | .lin => true
  | .sx7 => c.base 0 == 0 && (List.range 8).all (fun j => c.step j ≥ 1)
      && (List.range 7).all (fun j => c.base (j + 1) > c.base j + 7 * c.step j) && c.base 7 + 7 * c.step 7 ≤ 4095
  | .sx4 => c.base 0 == 0 && (List.range 7).all (fun j => c.base (j + 1) > c.base j)
      && (List.range 8).all (fun j => c.step j == 0)

/-- R174: the table of a selector for a group. -/
def State.compander (s : State) (ctx : Nat) (t : Nat) : Compander :=
  match s.ctx? ctx with
  | some c => tgetD c.tables t {}
  | none => {}

/-- R179: the content of a table that an instruction of a group, or a pass of it, sees: the context's, or one that it may still
see, by the device's choice. -/
def State.tableSeen (s : State) (ctx uid grp t : Nat) (pass : Bool) : Compander :=
  let olds := ((s.group? uid grp).map fun g => (g.tabOlds.filter fun o => o.tbl == t && (pass || !o.passes)).map (·.old)).getD []
  if olds.isEmpty then s.compander ctx t
  else (olds[Config.choice (s.choices + t) % (olds.length + 1)]?).getD (s.compander ctx t)

/-- R8, R179: an operation of a group that may see old contents has used up the choice for each table. -/
def State.tablesUsed (s : State) (uid grp : Nat) : State :=
  if ((s.group? uid grp).map fun g => g.tabOlds.isEmpty).getD true then s else { s with choices := s.choices + 8 }

/-- The same for the answer of an instruction. -/
def tableAnswer (a : Answer) : Answer :=
  match a with
  | .next s => match s.cur with
    | some i => .next (s.tablesUsed i.uid i.grp)
    | none => a
  | a => a

/-- The table of a selector that an instruction sees. -/
def State.tableFor (s : State) (p : Pk) (t : Nat) : Compander := s.tableSeen p.team.ctx p.iss.uid p.iss.grp t false

def ctNum (sel : CtSel) (g : Group) : Nat :=
  match sel with
  | .cmpsel => g.cmpsel.toNat
  | .table t => t.toNat

/-! ### Quantisation -/

/-- The scale of the exact comparisons below: t and V count in units of 2^-300. -/
def qUnit : Nat := 300

/-- Distance of two natural numbers. -/
def natDist (a b : Nat) : Nat := (a - b) + (b - a)

/-- R169: the code nearest to t among 0 to n, a tie to the even code. -/
def nearestCode (v : Nat → Nat) (t : Nat) : Nat → Nat
  | 0 => 0
  | n + 1 =>
    let m := nearestCode v t n
    let d := natDist t (v (n + 1) * 2 ^ qUnit)
    let d' := natDist t (v m * 2 ^ qUnit)
    if d < d' || (d == d' && (n + 1) % 2 == 0) then n + 1 else m

/-- R170: the greatest code up to n whose V is at most t. -/
def floorCode (v : Nat → Nat) (t : Nat) : Nat → Nat
  | 0 => 0
  | n + 1 => if v (n + 1) * 2 ^ qUnit ≤ t then n + 1 else floorCode v t n

/-- R170: the stochastic choice with the random number r. -/
def stochCode (v : Nat → Nat) (top t r : Nat) : Nat :=
  let lo := floorCode v t top
  if lo == top then top
  else
    let a := v lo * 2 ^ qUnit
    let b := v (lo + 1) * 2 ^ qUnit
    if (t - a) * 2 ^ 16 > r * (b - a) then lo + 1 else lo

/-- One advance of the generator (R170). -/
def advanceSeed (x : Word) : Word :=
  let x := x ^^^ (x <<< 13)
  let x := x ^^^ (x >>> 17)
  x ^^^ (x <<< 5)

/-- R170: the random number of a lane. -/
def laneRandom (x : Word) (l : Nat) : Nat := (x.rotateLeft (7 * l % 32)).toNat % 2 ^ 16

/-- A quantised block: scale byte, micro byte, sign and magnitude codes, and its `fpst` bits. -/
structure QBlock where
  x : Nat
  mu : Nat
  codes : List (Bool × Nat)
  fp : BitVec 5
  deriving DecidableEq, Repr

/-- R169: quantises 16 values, each with its random number when rounding is stochastic. -/
def quantise (c : Compander) (f : SxFmt) (xs : List (Nat × Option Nat)) : QBlock :=
  let vals := xs.map fun x => fp32.val x.1
  if vals.any fun v => v.isNan || v.isInf then ⟨255, 0, xs.map fun _ => (false, 0), fNV⟩
  else
    let mag (v : FVal) : Nat × Int := match v with
      | .fin _ m e => (m, e)
      | _ => (0, 0)
    let tops := (vals.map mag).filter (·.1 != 0) |>.map fun (m, e) => (bitLen m : Int) - 1 + e
    match tops with
    | [] => ⟨0, 0, xs.map fun _ => (false, 0), 0⟩
    | t0 :: rest =>
      let x := (min (max (rest.foldl max t0 + 127) 0) 254).toNat
      let small (k : Nat) : Bool :=
        let (m, e) := mag (vals.getD k (.fin false 0 0))
        m == 0 || (bitLen m : Int) - 1 + e < (x : Int) - 127
      let mu := bitsNat (fun i => small (2 * i) && small (2 * i + 1)) 8
      let t (k : Nat) : Nat :=
        let (m, e) := mag (vals.getD k (.fin false 0 0))
        m * 2 ^ (e + 138 - x + (if mu.testBit (k / 2) then 1 else 0) + qUnit).toNat
      let code (k : Nat) : Nat :=
        match (xs.getD k (0, none)).2 with
        | none => nearestCode (c.v f) (t k) (sxTop f)
        | some r => stochCode (c.v f) (sxTop f) (t k) r
      let ks := List.range 16
      let nx := ks.any fun k => t k != c.v f (code k) * 2 ^ qUnit
      ⟨x, mu, ks.map fun k => ((vals.getD k (.fin false 0 0)).neg, code k), fpBit nx fNX⟩

/-- R164: the code of an element in its container. -/
def codeBits (f : SxFmt) (c : Bool × Nat) : Nat := c.2 + if c.1 then 2 ^ sxMag f else 0

/-- R164: the element bytes of a block. -/
def QBlock.bytes (q : QBlock) (f : SxFmt) : Bytes :=
  let x := (q.codes.zip (List.range 16)).foldl (fun a (c, k) => a + codeBits f c * 2 ^ (sxBits f * k)) 0
  leBytes x (2 * sxBits f)

/-- R172: the unpacked word of an element, and the block's descriptor with e = 0 and CODE = 0. -/
def unpackedWord (x mu e code : Nat) : Nat := e * 2 ^ 24 + mu * 2 ^ 16 + x * 2 ^ 8 + code

/-- R175: what lane e of a block receives. -/
def QBlock.laneWord (q : QBlock) (f : SxFmt) (pk : Bool) (e : Nat) : Nat :=
  if !pk then unpackedWord q.x q.mu e (codeBits f (q.codes.getD e (false, 0)))
  else if e == 0 then unpackedWord q.x q.mu 0 0
  else leAt (q.bytes f) (4 * (e - 1)) 4

/-- R165, R176: the binary32 value of a code. -/
def elementBits (c : Compander) (f : SxFmt) (neg : Bool) (m x mu : Nat) : Nat :=
  if x == 255 then fp32.nan
  else
    let v := c.v f m
    if v == 0 then fp32.signed neg 0 else (fp32.round .rn neg v ((x : Int) - 138 - mu)).val

/-! ### The instructions -/

/-- R167, R180: the ILLOPD of a table whose kind does not serve the format. -/
def tableChk (s : State) (h : Hdr) (f : SxFmt) (ct : CtSel) (p : Pk) : List Trap :=
  if (s.tableFor p (ctNum ct p.grp)).serves f then [] else trapAll (p.active h) cILLOPD

def execQpack (fmt : SxFmt) (sr pk : Bool) (ct : CtSel) (o : Op1) (s : State) : Answer :=
  let i := Instr.qpack fmt sr pk ct o
  tableAnswer <| issue i o.h s (chk := tableChk s o.h fmt ct) fun s1 p =>
    let c := s.tableFor p (ctNum ct p.grp)
    let s := s1
    let q := p.grp.quadNo
    let s := if sr then { s with seeds := tput s.seeds q (advanceSeed (s.seed q)) 1 } else s
    let x := s.seed q
    let act := p.active o.h
    let val (l : Nat) : Nat × Option Nat :=
      (match act.find? (·.idx == l) with
        | some ln => (p.read32 ln o.imm o.a.spec).toNat
        | none => 0, if sr then some (laneRandom x l) else none)
    let blocks := (List.range 16).map fun b => quantise c fmt ((List.range 16).map fun e => val (16 * b + e))
    let rs := act.map fun l =>
      (l.idx, (blocks.getD (l.idx / 16) ⟨0, 0, [], 0⟩).laneWord fmt pk (l.idx % 16))
    let s := s.updGroup p.iss.uid p.iss.grp (·.orFpst (blocks.foldl (fun a b => a ||| b.fp) 0))
    let s := s.kill p (act.map (·.idx)) (shapeKills i.shape)
    .next (((s.writeDst p o.d 1 rs).advance p p.iss.lanes).trapPk p [])

/-- R176: the value of one code. -/
def qunpk (c : Compander) (f : SxFmt) (a b w : Nat) : Nat :=
  let per := match f with
    | .sx7 => 4
    | .sx4 => 8
    | .sx2 => 16
  let code := a / 2 ^ (sxBits f * (b % per)) % 2 ^ sxBits f
  let e := nbits w 27 24
  elementBits c f (code.testBit (sxMag f)) (code % 2 ^ sxMag f) (nbits w 15 8)
    (if (nbits w 23 16).testBit (e / 2) then 1 else 0)

def execQunpk (fmt : SxFmt) (ct : CtSel) (o : Op3) (s : State) : Answer :=
  tableAnswer (alu (.qunpk fmt ct o) o.h o.imm (fun p _ v =>
    Res.of (qunpk (s.tableFor p (ctNum ct p.grp)) fmt (v.getD 0 0) (v.getD 1 0) (v.getD 2 0))) s
    (chk := tableChk s o.h fmt ct))

/-- R177: the byte of each block goes to a byte of D in lane L0 + b. -/
def execQscal (mu : Bool) (sel : BitVec 2) (o : Op2) (s : State) : Answer :=
  let i := Instr.qscal mu sel o
  let l0 (p : Pk) : Nat := match p.lanes with
    | l :: _ => (p.read32 l o.imm o.b.spec).toNat
    | [] => 0
  -- R180: a QSCAL that writes no lane claims nothing
  issueWith i o.h (fun p => if (p.qscalPairs o).isEmpty then [] else instrDst i) Pk.lanes s
    (chk := fun p => if l0 p % 16 != 0 || l0 p > 240 then trapAll p.lanes cILLOPD else []) fun s p =>
    let act := p.active o.h
    let k := 8 * sel.toNat
    let rs := (p.qscalPairs o).map fun (l, src) =>
      let x := (p.read32 src o.imm o.a.spec).toNat
      let b := if mu then nbits x 23 16 else nbits x 15 8
      let old := match o.d with
        | .v n => (l.vreg n.toNat).toNat
        | _ => 0
      (l.idx, old - nbits old (k + 7) k * 2 ^ k + b * 2 ^ k)
    let s := s.kill p (act.map (·.idx)) (shapeKills i.shape)
    .next (((s.writeDst p o.d 1 rs).advance p p.iss.lanes).trapPk p [])

/-- The table that a CMPLD would write. -/
def cmpldTable (p : Pk) (kind : CmpKind) (a b : Src) : Compander :=
  match p.lanes with
  | l :: _ => ⟨kind, if kind == .lin then [] else p.read128 l a.spec ++ p.read128 l b.spec⟩
  | [] => ⟨kind, []⟩

/-- R178: the words of a table that CMPLD refuses. -/
def cmpldChk (h : Hdr) (kind : CmpKind) (a b : Src) (p : Pk) : List Trap :=
  let t := cmpldTable p kind a b
  if t.ok && t.words.all fun w => w.toNat < 2 ^ 24 then [] else trapAll (p.active h) cILLOPD

/-- R178, R179: CMPLD: the context's table is new; the other groups of the context, those that start later among them, and the
passes of this one, may see the old content until they acquire a release that the lanes of this one make later. This one's own
instructions see no older content of the table. -/
def State.setTable (s : State) (p : Pk) (t : Nat) (c : Compander) : State :=
  let lanes := p.grp.lanes.map (·.idx)
  let old := s.compander p.team.ctx t
  let race := lanes.foldl (fun (r : Race) l => r.setThread (r.thread (p.tid l))) s.race
  let after := lanes.map fun l => let x := race.thread (p.tid l)
    (x.num, x.region)
  let o : OldTable := { tbl := t, old := old, after := after }
  let mark (uid : Nat) (g : Group) : Group :=
    if uid == p.iss.uid && g.idx == p.iss.grp then
      let olds := g.tabOlds.map fun x => if x.tbl == t then { x with passes := true } else x
      { g with tabOlds := if c == old then olds else olds ++ [{ o with passes := true }] }
    else { g with tabOlds := if c == old then g.tabOlds else g.tabOlds ++ [o] }
  let s := ({ s with race := race } : State).updCtx p.team.ctx fun x =>
    { x with tables := tput x.tables t c {}, tabOlds := if c == old then x.tabOlds else x.tabOlds ++ [o] }
  { s with units := s.units.map fun u => if u.ctx == p.team.ctx then { u with groups := u.groups.map (mark u.uid) } else u }

def execCmpld (kind : CmpKind) (tbl : BitVec 3) (h : Hdr) (a b : Src) (s : State) : Answer :=
  issue (.cmpld kind tbl h a b) h s (chk := cmpldChk h kind a b) fun s p =>
    let s := if (p.active h).isEmpty then s
      else s.setTable p tbl.toNat (cmpldTable p kind a b)
    .next ((s.advance p p.iss.lanes).trapPk p [])

end Sys2Proof.Machine
end

