-- ==== Sys2Proof/Machine/Matrix.lean ====
section
/-! DEFINITION. The matrix engine (R297 to R320): claiming and describing slots, the issue of entries, passes, the moving of
accumulators, the reservation table and its arbiter. -/

namespace Sys2Proof.Machine

/-! ### Formats -/

/-- R304: K, the stored elements of a row. -/
def slotK : SlotFmt → Nat
  | .sx7 => 128
  | .sx4 => 256
  | .sx2 => 512
  | .bf16 => 64

/-- The block format of a slot format; none for BF16. -/
def slotSx : SlotFmt → Option SxFmt
  | .sx7 => some .sx7
  | .sx4 => some .sx4
  | .sx2 => some .sx2
  | .bf16 => none

/-! ### Slots: TCLAIM, TREL, MSLOT -/

/-- R297: the physical slots of a kind that are free in a cluster. -/
def State.freeSlots (s : State) (cluster : Nat) (acc : Bool) : Nat :=
  let used := (s.units.filter fun t => t.resident && !s.complete t && t.cluster == cluster).map fun t =>
    (if acc then t.accs.length else t.ops.length) + (t.zombies.filter (·.1 == acc)).length
  (if acc then 64 else 256) - used.sum

def Team.claimed (t : Team) (acc : Bool) (n : Nat) : Bool := (tget (if acc then t.accs else t.ops) n).isSome

/-- The SLOTERR of an instruction that acts when an active lane is no helper: for every lane of the packet. -/
def slotErr (h : Hdr) (bad : Pk → Bool) (p : Pk) : List Trap :=
  if !(p.workers h).isEmpty && bad p then trapsOf p.lanes cSLOTERR else []

/-- R301: claims slots all or none; the predicate tells. -/
def execTclaim (acc : Bool) (h : Hdr) (pd : BitVec 3) (first : BitVec 8) (n : BitVec 9) (s : State) : Answer :=
  let nums := rangeFrom first.toNat n.toNat
  issue (.tclaim acc h pd first n) h s (late := slotErr h fun p => nums.any (p.team.claimed acc)) fun s p =>
    let act := (p.active h).map (·.idx)
    let free := n.toNat ≤ s.freeSlots p.team.cluster acc
    let go := !(p.workers h).isEmpty && free
    let claim (s : State) (k : Nat) : State :=
      let x : Slot := { gid := s.nextId }
      ({ s with nextId := s.nextId + 1 } : State).updTeam p.iss.uid fun t =>
        if acc then { t with accs := tset t.accs k x } else { t with ops := tset t.ops k x }
    let s := if go then nums.foldl claim s else s
    let s := s.updPkLanes p act fun l => l.setPred pd go
    let s := match p.flag h with
      | some f => s.updGroup p.iss.uid p.iss.grp (·.decFlag f)
      | none => s
    .next ((s.advance p p.iss.lanes).trapPk p [])

/-- The slots that a command names. -/
def CmdKind.names : CmdKind → List (Bool × Nat)
  | .cpy .slot _ _ _ n | .cpys .slot _ _ _ n | .cpyg .slot _ _ n => [(false, n)]
  | .cpys .acc _ _ _ n => [(true, n)]
  | _ => []

/-- The operations of a team that use a slot. -/
def State.slotUsers (s : State) (uid : Nat) (acc : Bool) (n : Nat) : List Nat :=
  let old := ((s.team? uid).map fun t => (t.zombies.filter fun z => z.1 == acc && z.2.1 == n).flatMap (·.2.2.1)).getD []
  (((s.matrix.filter fun e => e.uid == uid && e.kind.names.contains (acc, n)).map (·.id))
    ++ ((s.cmds.filter fun c => c.uid == uid && c.state != .ended && c.kind.names.contains (acc, n)).map (·.id))).filter
      fun i => !old.contains i

/-- R302: the numbers become unclaimed at once; operations that named them before keep their slots. -/
def State.release (s : State) (uid : Nat) (acc : Bool) (n : Nat) : State :=
  let us := s.slotUsers uid acc n
  s.updTeam uid fun t =>
    match tget (if acc then t.accs else t.ops) n with
    | none => t
    | some x =>
      let t := if us.isEmpty then t else { t with zombies := t.zombies ++ [(acc, n, us, x)] }
      if acc then { t with accs := tdel t.accs n } else { t with ops := tdel t.ops n }

def execTrel (acc : Bool) (h : Hdr) (first : BitVec 8) (n : BitVec 9) (s : State) : Answer :=
  let nums := rangeFrom first.toNat n.toNat
  issue (.trel acc h first n) h s (late := slotErr h fun p => nums.any fun k => !p.team.claimed acc k) fun s p =>
    let s := if (p.workers h).isEmpty then s else nums.foldl (fun s k => s.release p.iss.uid acc k) s
    .next (finishLanes (.trel acc h first n) h p s [] [] [])

/-- R303: MSLOT writes the descriptor of a claimed slot. -/
def execMslot (fmt : SlotFmt) (sp : Bool) (ct : CtSel) (h : Hdr) (a : Src) (slot : BitVec 8) (s : State) : Answer :=
  let i := Instr.mslot fmt sp ct h a slot
  let serves (p : Pk) : Bool := match slotSx fmt with
    | some f => (s.tableFor p (ctNum ct p.grp)).serves f
    | none => true
  tableAnswer <| issue i h s
    (chk := fun p => if !(p.workers h).isEmpty && !serves p then trapsOf p.lanes cILLOPD else [])
    (late := slotErr h fun p => !p.team.claimed false slot.toNat) fun s p =>
    let seed := match p.lanes with
      | l :: _ => p.read32 l 0 a.spec
      | [] => 0
    let s := if (p.workers h).isEmpty then s
      else s.updTeam p.iss.uid fun t =>
        match tget t.ops slot.toNat with
        | some x =>
          let x : Slot := { x with fmt := fmt, tbl := ctNum ct p.grp, sp := sp, seed := seed }
          { t with ops := tset t.ops slot.toNat x }
        | none => t
    .next (finishLanes i h p s [] [] [])

/-! ### The governor's register and windows -/

/-- R94: the `gov` register of a cluster. -/
def State.govWord (s : State) (c : Nat) : Word :=
  let g := (s.govSync c).gov c
  word (g.stalls * 2 ^ 9 + g.e)

/-- R316: GOVERNOR_WINDOW: the next window begins at a multiple of 256 of the engine's counter. -/
def execGovernorWindow (cluster : Nat) (s : State) : Answer := .next (s.govSync cluster)

/-! ### Issue of entries -/

/-- R306: the scale registers that a pass reads for an operand. -/
def scaleCount (fmt : SlotFmt) (double : Bool) : Nat := scaleRegs fmt * (if double then 2 else 1)

/-- R306, R310: the ILLOPD of a scale base. -/
def scaleBad (fmt : SlotFmt) (double : Bool) (sp : Spec) : Bool :=
  match sp with
  | .v n => fmt == .bf16 || n.toNat + scaleCount fmt double > 128
  | .zero => fmt != .bf16
  | _ => true

/-- R306: the captured scale bytes: of register base + (j >> 8), lane j & 255; an exited lane supplies 0. -/
def Pk.scales (p : Pk) (fmt : SlotFmt) (double : Bool) (sp : Spec) (sel : Nat) : List Byte :=
  match sp with
  | .v n => (List.range (scaleCount fmt double)).flatMap fun r => (List.range 256).map fun l =>
      match p.grp.lane? l with
      | some ln => BitVec.ofNat 8 (byteOf (ln.vreg (n.toNat + r)).toNat sel)
      | none => 0
  | _ => []
where byteOf (x k : Nat) : Nat := x / 2 ^ (8 * k) % 256

/-- Posts an entry (R313): an engine thread forks from the issuing lanes. -/
def State.postEntry (s : State) (p : Pk) (h : Hdr) (kind : MatKind) : State :=
  let s := s.govSync p.team.cluster
  let id := s.nextId
  let lane := ((p.workers h).head?.map (·.idx)).getD 0
  let e : MatEntry := { id := id, uid := p.iss.uid, grp := p.iss.grp, lane := lane, pc := p.iss.pc, flag := p.flag h
                        kind := kind, posted := s.stackCyc (p.team.cluster / 8) }
  ({ s with nextId := id + 1, matrix := s.matrix ++ [e] } : State).fork p (.engine id p.iss.uid p.iss.grp)
    ((p.active h).map (·.idx))

/-- The end of the issue of an entry: its flag stays up, kill bits apply, and the group goes on. -/
def State.posted (s : State) (p : Pk) (i : Instr) (h : Hdr) : State :=
  finishSome i h p s p.iss.lanes [] [] none []

/-- R310: the SLOTERR conditions of a pass. -/
def mmaBad (sparse : Bool) (o : MmaOp) (t : Team) : Bool :=
  let a := tget t.ops o.aslot.toNat
  let b := tget t.ops o.bslot.toNat
  let bad2 := sparse && (o.bslot == 255 || match tget t.ops (o.bslot.toNat + 1), a with
    | some x, some a => x.fmt != a.fmt || x.sp
    | _, _ => true)
  match a, b with
  | some x, some y => x.fmt != y.fmt || x.sp != sparse || y.sp || bad2 || !t.claimed true o.acc.toNat
  | _, _ => true

/-- R306: the ILLOPD conditions of a pass; they need the format of mA. -/
def mmaScaleBad (sparse : Bool) (o : MmaOp) (t : Team) : Bool :=
  match tget t.ops o.aslot.toNat with
  | some a => scaleBad a.fmt false o.a.spec || scaleBad a.fmt sparse o.b.spec
  | none => false

/-- R310, R311: the issue of a pass. -/
def mmaIssue (i : Instr) (sparse : Bool) (o : MmaOp) (s : State) : Answer :=
  issue i o.h s
    (chk := fun p => if !(p.workers o.h).isEmpty && mmaScaleBad sparse o p.team then trapsOf p.lanes cILLOPD else [])
    (late := slotErr o.h fun p => mmaBad sparse o p.team) fun s p =>
    if (p.workers o.h).isEmpty then .next (finishLanes i o.h p s [] [] [])
    else
      let t := p.team
      let x := (tget t.ops o.aslot.toNat).getD {}
      let y := (tget t.ops o.bslot.toNat).getD {}
      let y2 := (tget t.ops (o.bslot.toNat + 1)).getD {}
      let kind : MatKind := .mma sparse o.aslot.toNat o.bslot.toNat o.acc.toNat x.fmt x.tbl y.tbl y2.tbl x.seed
        (p.scales x.fmt false o.a.spec o.asel.toNat) (p.scales x.fmt sparse o.b.spec o.bsel.toNat)
      .next ((s.postEntry p o.h kind).posted p i o.h)

def execMma (o : MmaOp) (s : State) : Answer := mmaIssue (.mma o) false o s

def execMmas (o : MmaOp) (s : State) : Answer := mmaIssue (.mmas o) true o s

/-- The issue of an entry that names one accumulator and perhaps a band. Suppressed, it gives a register destination 0 (R133). -/
def accIssue (i : Instr) (h : Hdr) (acc : BitVec 6) (band : Pk → Nat) (f : State → Pk → State) (s : State) : Answer :=
  issue i h s
    (chk := fun p => if !(p.workers h).isEmpty && band p > 15 then trapsOf p.lanes cILLOPD else [])
    (late := slotErr h fun p => !p.team.claimed true acc.toNat) fun s p =>
    if (p.workers h).isEmpty then .next (finishLanes i h p s ((p.active h).map fun l => (l.idx, 0)) [] [])
    else .next ((f s p).posted p i h)

def execMzero (h : Hdr) (acc : BitVec 6) (s : State) : Answer :=
  accIssue (.mzero h acc) h acc (fun _ => 0) (fun s p => s.postEntry p h (.zero acc.toNat)) s

/-- The uniform value of a source. -/
def Pk.uniform (p : Pk) (a : Src) : Nat :=
  match p.lanes with
  | l :: _ => (p.read32 l 0 a.spec).toNat
  | [] => 0

/-- R312: MRD gives elements to active lanes and helper lanes; its registers wait for the entry. -/
def execMrd (h : Hdr) (d : Spec) (b : Src) (acc : BitVec 6) (s : State) : Answer :=
  accIssue (.mrd h d b acc) h acc (fun p => p.uniform b) (fun s p =>
    let lanes := (p.lanes.filter fun l => l.guard h || l.helper).map (·.idx)
    let d' := match d with
      | .v n => some n.toNat
      | _ => none
    let id := s.nextId
    (s.postEntry p h (.read acc.toNat (p.uniform b) d' lanes [])).reserve p h id (dstRegs d 4 lanes)) s

/-- R312: MWR takes the values of active lanes and helper lanes at issue. -/
def execMwr (h : Hdr) (a b : Src) (acc : BitVec 6) (s : State) : Answer :=
  accIssue (.mwr h a b acc) h acc (fun p => p.uniform b) (fun s p =>
    let lanes := p.lanes.filter fun l => l.guard h || l.helper
    let vals := lanes.flatMap fun l => ((p.read128 l a.spec).zip (List.range 4)).map fun (x, j) => (l.idx, j, x)
    s.postEntry p h (.write acc.toNat (p.uniform b) vals)) s

/-! ### Passes -/

/-- A tile as a pass reads it. -/
structure Tile where
  fmt : SlotFmt
  bytes : Array Byte
  cmp : Compander
  /-- scale of logical block kb of a row: row blocks and captured bytes -/
  rowBlocks : Nat
  scale : Array Byte

/-- R305: the value of stored element k of row r; kb: its block among the row's scales. -/
def Tile.elem (t : Tile) (r k kb : Nat) : FVal :=
  let byte (i : Nat) : Nat := (t.bytes.getD i 0).toNat
  match slotSx t.fmt with
  | none => bf16.val (byte (128 * r + 2 * k) + 256 * byte (128 * r + 2 * k + 1))
  | some f =>
    let w := sxBits f
    let bit := k * w
    let code := byte (128 * r + bit / 8) / 2 ^ (bit % 8) % 2 ^ w
    let x := (t.scale.getD (r * t.rowBlocks + kb) 0).toNat
    if x == 255 then .nan false
    else
      let mu := (byte (16384 + r * (slotK t.fmt / 16) + k / 16)).testBit (k % 16 / 2)
      .fin (code.testBit (sxMag f)) (t.cmp.v f (code % 2 ^ sxMag f)) ((x : Int) - 138 - if mu then 1 else 0)

/-- The exact sum of values (R308): a NaN, an infinity, or a finite value. -/
def sumVals (l : List FVal) : FVal :=
  if l.any FVal.isNan || oppositeInf l then .nan false
  else
    match l.find? FVal.isInf with
    | some x => x
    | none =>
      let ts := l.filterMap fun
        | .fin n m e => if m == 0 then none else some (n, m, e)
        | _ => none
      match ts with
      | [] => .fin false 0 0
      | t0 :: _ =>
        let e := ts.foldl (fun a t => min a t.2.2) t0.2.2
        let x : Int := (ts.map fun (n, m, e') =>
          let v : Int := m * 2 ^ (e' - e).toNat
          if n then -v else v).sum
        .fin (x < 0) x.natAbs e

/-- R308: the new accumulator from its terms. -/
def passResult (terms : List FVal) : Nat :=
  if terms.any FVal.isNan || oppositeInf terms then fp32.nan
  else
    match terms.find? FVal.isInf with
    | some x => fp32.signed x.neg fp32.infBits
    | none =>
      let ts := terms.filterMap fun
        | .fin n m e => if m == 0 then none else some (n, m, e)
        | _ => none
      match ts with
      | [] => 0
      | t0 :: rest =>
        let top (t : Bool × Nat × Int) : Int := (bitLen t.2.1 : Int) - 1 + t.2.2
        let q := rest.foldl (fun a t => max a (top t)) (top t0) - 60
        let x : Int := (ts.map fun (n, m, e) =>
          let v : Int := if q ≤ e then m * 2 ^ (e - q).toNat else m / 2 ^ (q - e).toNat
          if n then -v else v).sum
        if x == 0 then 0 else (fp32.round .rn (x < 0) x.natAbs q).val

/-- R307: the kept positions of logical group g of row r. -/
def keptPair (seed : Word) (r g : Nat) : Nat × Nat :=
  let h : Word := seed ^^^ (word r * 0x9E3779B1) ^^^ (word g * 0x85EBCA77)
  let h := h ^^^ (h >>> 15)
  let h := h * 0x2C1B3C6D
  let h := h ^^^ (h >>> 12)
  match (h >>> 8).toNat % 6 with
  | 0 => (0, 1)
  | 1 => (0, 2)
  | 2 => (0, 3)
  | 3 => (1, 2)
  | 4 => (1, 3)
  | _ => (2, 3)

/-- The block sums of output element (m, c) of a pass: A against B, or compressed A against B and B2 (R307, R308). -/
def blockSums (a b : Tile) (sparse : Option (Tile × Word)) (m c : Nat) : List FVal :=
  let k := slotK a.fmt
  (List.range (k / 16)).map fun blk =>
    sumVals ((List.range 16).map fun i =>
      let ka := 16 * blk + i
      let x := a.elem m ka blk
      let y := match sparse with
        | none => b.elem c ka blk
        | some (b2, seed) =>
          let (p0, p1) := keptPair seed m (ka / 2)
          let lk := 4 * (ka / 2) + (if ka % 2 == 0 then p0 else p1)
          if lk < k then b.elem c lk (lk / 16) else b2.elem c (lk - k) (lk / 16)
      (x.mul y).1)

/-- R298: the blocks of a row, each with its micro byte in the side area; a BF16 row has none. -/
def rowBlocks (fmt : SlotFmt) : Nat := if (slotSx fmt).isSome then slotK fmt / 16 else 0

/-- R309: does a row of a slot hold a poisoned sector, in its elements or its micro bytes? -/
def Slot.rowPoison (x : Slot) (r : Nat) : Bool :=
  let nb := rowBlocks x.fmt
  poisoned x.poison (128 * r) 128 || (0 < nb && poisoned x.poison (16384 + r * nb) nb)

/-- R298, R315: the words of an operand slot that a pass reads: the elements, and the side bytes of its blocks. -/
def Slot.opWords (x : Slot) (fmt : SlotFmt) : List RWord := x.words 0 (16384 + 128 * rowBlocks fmt)

/-- R308, R309: the accumulator after a pass. -/
def passAcc (acc : Slot) (a b b2 : Slot) (tiles : Tile × Tile × Option (Tile × Word)) : Slot :=
  let (ta, tb, sp) := tiles
  let old := (mreadN acc.bytes 0 accBytes).toArray
  let cur (m c : Nat) : Nat := ((List.range 4).map fun i => (old.getD (4 * (128 * m + c) + i) 0).toNat * 256 ^ i).sum
  let rows := List.range 128
  let new := rows.flatMap fun m => rows.flatMap fun c =>
    leBytes (passResult (fp32.val (cur m c) :: blockSums ta tb sp m c)) 4
  let bad := rows.flatMap fun m => rows.filterMap fun c =>
    let sec := (128 * m + c) / 8
    if a.rowPoison m || b.rowPoison c || (sp.isSome && b2.rowPoison c) || acc.poison.contains sec then some sec else none
  { acc with bytes := mwriteN [] 0 new, poison := bad.foldl sins [], flaw := [] }

/-! ### The arbiter -/

/-- R314: the entry that the arbiter picks; passes are held back at the allowance (R316). -/
def State.pickEntry (s : State) (c : Nat) : Option MatEntry :=
  let g := s.gov c
  let l := (s.waiting c).filter fun e => s.eligible e && !(e.kind.isPass && g.u ≥ g.e)
  match l.find? fun e => e.aged || s.stackCyc (c / 8) - e.posted > 4096 with
  | some e => some e
  | none =>
    let best := l.foldl (fun a e => max a (s.effPrio e.uid)) 0
    l.find? fun e => s.effPrio e.uid == best

/-- R316: a pass that waits at the allowance is held back, whatever is granted in its place. -/
def State.holdBack (s : State) (c : Nat) : State :=
  let g := s.gov c
  if g.e ≤ g.u && s.passWaits c then s.setGov c g.stall else s

/-- R316: GOVERNOR_ALLOWANCE_REACHED: a pass pauses, or an eligible pass is held back, at the allowance. -/
def execGovernorAllowanceReached (cluster : Nat) (s : State) : Answer :=
  let s := s.govSync cluster
  let g := s.gov cluster
  let paused := ((s.granted cluster).map fun e => e.kind.isPass && e.left > 0 && !s.draining e.uid).getD false
  if g.e ≤ g.u && (paused || s.passWaits cluster) then .next (s.setGov cluster g.stall) else .next s

/-- A tile of a slot at a pass's grant. -/
def tileOf (x : Slot) (fmt : SlotFmt) (cmp : Compander) (rowBlocks : Nat) (scale : List Byte) : Tile :=
  { fmt := fmt, bytes := (mreadN x.bytes 0 opBytes).toArray, cmp := cmp, rowBlocks := rowBlocks
    scale := scale.toArray }

/-- R315: the accesses of an entry to its slots, recorded against copies. -/
def State.entryTouch (s : State) (t : Team) (e : MatEntry) (ws : List RWord) (write : Bool) : State :=
  s.engineTouch (.engine e.id e.uid e.grp) ws write fun s w info =>
    s.engineRecord t.uid e.grp { cause := cMMX, source := 3, lane := e.lane, pc := e.pc, addr := w.addr, info := info }

/-- R318, R320: an entry ends: registers of an MRD are written, slots are let go, the flag falls. -/
def State.endEntry (s : State) (e : MatEntry) : State :=
  let s := { s with matrix := s.matrix.filter (·.id != e.id) }
  let s := match e.kind with
    | .read _ _ _ _ vals => s.deliverOwner e.uid e.grp e.id vals
    | _ => s
  (s.engineDone (.engine e.id e.uid e.grp) e.uid e.grp e.flag).updTeam e.uid (·.dropUser e.id)

/-- The (register, lane) grid of a band (R312): row and column of word j of a lane. -/
def bandWord (band l j : Nat) : Nat := 128 * (8 * band + 2 * j + l / 128) + l % 128

/-- The sectors of an accumulator that the words of an MWR meet, and those that they cover as a whole. -/
def writeSectors (band : Nat) (vals : List (Nat × Nat × Word)) : List Nat × List Nat :=
  let hit := vals.map fun (l, j, _) => bandWord band l j / 8
  (hit.eraseDups, hit.eraseDups.filter fun sec => (hit.filter (· == sec)).length == 8)

/-- R231, R299: the checks of the slot sectors that an entry reads, or covers in part. -/
def State.entryVerify (s : State) (e : MatEntry) : State :=
  match e.kind with
  | .mma sparse a b c fmt .. =>
    let s := ([a, b] ++ (if sparse then [b + 1] else [])).foldl
      (fun s k => s.slotVerify e.uid false k e.id 0 (16384 + 128 * rowBlocks fmt)) s
    s.slotVerify e.uid true c e.id 0 accBytes
  | .zero _ => s
  | .read c band .. => s.slotVerify e.uid true c e.id (4096 * band) 4096
  | .write c band vals =>
    let (hit, whole) := writeSectors band vals
    (hit.filter (!whole.contains ·)).foldl (fun s k => s.slotVerify e.uid true c e.id (32 * k) 32) s

/-- R311 to R313: what an entry does at its grant. A pass whose table no longer serves its format writes nothing and ends. -/
def State.runEntry (s : State) (t : Team) (e : MatEntry) : State :=
  let get (s : State) (acc : Bool) (n : Nat) : Slot := (((s.team? e.uid).getD t).slotFor acc n e.id).getD {}
  match e.kind with
  | .mma sparse a b c fmt ta tb tb2 seed sa sb =>
    let seen (tbl : Nat) : Compander := s.tableSeen t.ctx e.uid e.grp tbl true
    let s := s.tablesUsed e.uid e.grp
    let serves (tbl : Nat) : Bool := match slotSx fmt with
      | some f => (seen tbl).serves f
      | none => true
    if !(serves ta && serves tb && (!sparse || serves tb2)) then
      (s.endEntry e).engineRecord e.uid e.grp { cause := cENGINEF, source := 3, lane := e.lane, pc := e.pc, info := 6 }
    else
      let s := s.entryVerify e
      let xa := get s false a
      let xb := get s false b
      let xb2 := get s false (b + 1)
      let xc := get s true c
      let rb := slotK fmt / 16
      let rbB := if sparse then 2 * rb else rb
      let tiles := (tileOf xa fmt (seen ta) rb sa, tileOf xb fmt (seen tb) rbB sb,
        if sparse then some (tileOf xb2 fmt (seen tb2) rbB sb, seed) else none)
      let s := s.entryTouch t e (xa.opWords fmt ++ xb.opWords fmt ++ (if sparse then xb2.opWords fmt else [])) false
      let s := s.entryTouch t e (xc.words 0 accBytes) true
      s.updTeam e.uid fun t => t.setSlotFor true c e.id (passAcc xc { xa with fmt := fmt } { xb with fmt := fmt } { xb2 with fmt := fmt } tiles)
  | .zero c =>
    let x := get s true c
    (s.entryTouch t e (x.words 0 accBytes) true).updTeam e.uid fun t =>
      t.setSlotFor true c e.id { x with bytes := [], poison := [], flaw := [] }
  | .read c band d lanes _ =>
    let s := s.entryVerify e
    let x := get s true c
    let s := s.entryTouch t e (x.words (4096 * band) 4096) false
    let bad (l j : Nat) : Bool := x.poison.contains (bandWord band l j / 8)
    let vals := lanes.flatMap fun l => (List.range 4).map fun j =>
      (l, d.getD 0 + j, if bad l j then word fp32.nan else word (leNat (mreadN x.bytes (4 * bandWord band l j) 4)))
    let hit := lanes.any fun l => (List.range 4).any (bad l)
    let s := if hit then s.engineRecord e.uid e.grp { cause := cPOISON, source := 3, lane := e.lane, pc := e.pc } else s
    s.updEntry e.id fun e => { e with kind := .read c band d lanes vals }
  | .write c band vals =>
    let s := s.entryVerify e
    let x := get s true c
    let ws := vals.flatMap fun (l, j, _) => x.words (4 * bandWord band l j) 4
    let s := s.entryTouch t e ws true
    let cleared := (writeSectors band vals).2
    let bytes := vals.foldl (fun m (l, j, w) => mwriteN m (4 * bandWord band l j) (leBytes w.toNat 4)) x.bytes
    s.updTeam e.uid fun t => t.setSlotFor true c e.id
      { x with bytes := bytes, poison := x.poison.filter (!cleared.contains ·), flaw := x.flaw.filter (!cleared.contains ·.1) }

/-- R304, R313: the engine time of an entry. -/
def MatKind.cycles : MatKind → Nat
  | .mma _ _ _ _ fmt .. => if fmt == .bf16 then 256 else 128
  | _ => 8

/-- R313, R314: MATRIX_ENTRY_GRANT: the engine is free and takes the arbiter's choice. -/
def execMatrixEntryGrant (cluster : Nat) (s : State) : Answer :=
  if (s.granted cluster).isSome then .next s
  else
    let s := (s.govSync cluster).holdBack cluster
    match s.pickEntry cluster with
    | none => .next s
    | some e =>
      match s.team? e.uid with
      | none => .next s
      | some t =>
        let s := s.updEntry e.id fun e => { e with granted := true, left := e.kind.cycles }
        .next (s.runEntry t { e with granted := true, left := e.kind.cycles })

/-- R314: MATRIX_ENTRY_AGED: an entry has waited more than 4,096 service cycles. -/
def execMatrixEntryAged (entry : Nat) (s : State) : Answer :=
  .next (s.updEntry entry fun e => if !e.granted && s.unitCyc e.uid - e.posted > 4096 then { e with aged := true } else e)

/-- R313: MATRIX_ENTRY_END: the granted entry has had its cycles. -/
def execMatrixEntryEnd (cluster : Nat) (s : State) : Answer :=
  let s := s.govSync cluster
  match s.granted cluster with
  | some e => if e.left == 0 then .next (s.endEntry e) else .next s
  | none => .next s

/-- R318: at a save every granted entry of the team has run to its end. -/
def State.drainGranted (s : State) (uid : Nat) : State :=
  let s := s.govSyncOf uid
  (s.matrix.filter fun e => e.uid == uid && e.granted).foldl State.endEntry s

/-- R320: a kill drops the entries that have not been granted: flags fall, and an MRD writes nothing. -/
def State.dropEntries (s : State) (uid : Nat) : State :=
  let s := s.govSyncOf uid
  (s.matrix.filter fun e => e.uid == uid && !e.granted).foldl (fun s e =>
    (s.endEntry { e with kind := match e.kind with
      | .read c b d _ _ => .read c b d [] []
      | k => k })) s

end Sys2Proof.Machine
end

