-- ==== Sys2Proof/Machine/Copy.lean ====
section
/-! DEFINITION. The copy engines (R279 to R296): tensor records, the issue of commands, the moving of boxes piece by piece,
what a command does when it meets a fault, and its end. A piece is what one destination line (scratch), 128 bytes of a slot,
or one row of elements (memory) receives. -/

namespace Sys2Proof.Machine

/-! ### Tensor records -/

/-- The fields of a descriptor (R279): extents, box extents, and strides of dimensions 0 to 4. -/
structure TRec where
  base : Nat
  esz : Nat
  ndim : Nat
  fill : Nat
  ext : List Nat
  box : List Nat
  str : List Nat
  deriving DecidableEq, Repr

def TRec.of (b : Bytes) : TRec :=
  { base := leAt b 0 8, esz := leAt b 8 1 % 4, ndim := leAt b 9 1, fill := leAt b 0xC 4
    ext := (List.range 5).map fun k => leAt b (0x10 + 4 * k) 4
    box := (List.range 5).map fun k => leAt b (0x24 + k) 1 + 1
    str := 2 ^ (leAt b 8 1 % 4) :: (List.range 4).map fun k => leAt b (0x2C + 4 * k) 4 }

/-- Bytes of an element. -/
def TRec.n (r : TRec) : Nat := 2 ^ r.esz

/-- Entry k of a list of five. -/
def at5 (l : List Nat) (k : Nat) : Nat := l.getD k 0

/-- Bytes of the box. -/
def TRec.boxBytes (r : TRec) : Nat := r.box.foldl (· * ·) 1 * r.n

/-- R279: a valid descriptor. -/
def recValid (b : Bytes) : Bool :=
  let r := TRec.of b
  canonical (dword r.base) && r.base % 16 == 0 && leAt b 8 1 < 4 && 1 ≤ r.ndim && r.ndim ≤ 5
    && leAt b 0xA 2 == 0 && leAt b 0x29 3 == 0 && leAt b 0x3C 4 == 0
    && ((List.range 5).all fun k =>
        if k < r.ndim then at5 r.ext k ≥ 1 else at5 r.ext k == 1 && at5 r.box k == 1)
    && ((List.range 4).all fun k =>
        if k + 1 < r.ndim then at5 r.str (k + 1) % 16 == 0 else at5 r.str (k + 1) == 0)
    && r.boxBytes ≤ 2 ^ 24

/-- R281: TRSET loads a record; D receives the status in every active lane. -/
def execTrset (h : Hdr) (d : Spec) (a : Src) (recN : BitVec 6) (s : State) : Answer :=
  let i := Instr.trset h d a recN
  issue i h s fun s p =>
    let act := (p.active h).map (·.idx)
    match p.workers h with
    | [] => .next (finishLanes i h p s (act.map fun l => (l, 0)) [] [])
    | w :: _ =>
      let put (s : State) (r : Option Bytes) : State := s.updTeam p.iss.uid fun t =>
        { t with recs := match r with
            | some b => tset t.recs recN.toNat b
            | none => tdel t.recs recN.toNat }
      let done (s : State) (v : Nat) : Answer :=
        .next (finishLanes i h p s (act.map fun l => (l, v)) [] [])
      match s.laneRead p w.idx (p.read64 w 0 a.spec) 64 64 with
      | (s, .mmx t) => .next (finishLanes i h p s [] [] (act.map fun l => { t with lane := l }))
      | (s, .fault) => done (put s none) 2
      | (s, .ok b) => if recValid b then done (put s (some b)) 0 else done (put s none) 1

/-! ### Commands -/

/-- The side of a command that is not memory. -/
inductive Spot where
  | scr (a : Nat)
  /-- a slot: accumulator or operand, its number, the offset of its area -/
  | slot (acc : Bool) (n off : Nat)
  deriving DecidableEq, Repr

def sideOff (side : Bool) : Nat := if side then 16384 else 0

def cpySpot (k : CpyKind) (side : Bool) (x : Nat) : Spot :=
  match k with
  | .scr => .scr x
  | .slot => .slot false x (sideOff side)
  | .acc => .slot true x 0

/-- Where a command writes, when it does not write memory. -/
def CmdKind.dst : CmdKind → Option Spot
  | .cpy k _ side _ d => some (cpySpot k side d)
  | .cpyg k _ _ d => some (cpySpot k false d)
  | .fillScr _ _ d => some (.scr d)
  | _ => none

/-- Where a command reads, when it does not read memory: a box or the index list. -/
def CmdKind.src : CmdKind → Option Spot
  | .cpys k _ side _ x => some (cpySpot k side x)
  | .cpyg _ list _ _ => some (.scr list)
  | _ => none

/-- The bytes on the side that is not memory. -/
def cmdBytes (k : CmdKind) (r : TRec) : Nat :=
  match k with
  | .cpy .. | .cpys .. => r.boxBytes
  | .cpyg _ _ n _ => n * at5 r.box 0 * r.n
  | .fillScr _ b _ => b
  | _ => 0

/-- The bytes that a command reads at its source spot. -/
def srcBytes (k : CmdKind) (r : TRec) : Nat :=
  match k with
  | .cpys .. => r.boxBytes
  | .cpyg _ _ n _ => 4 * n
  | _ => 0

/-- R280: the box index (i0 to i4) of the e-th element in dense order. -/
def boxIndex (r : TRec) (tr e : Nat) : List Nat :=
  let b (k : Nat) := at5 r.box k
  let (j0, j1) := if tr == 0 then (e % b 0, e / b 0 % b 1) else (e / b 1 % b 0, e % b 1)
  let e := e / (b 0 * b 1)
  [j0, j1, e % b 2, e / b 2 % b 3, e / (b 2 * b 3)]

/-- R280: the virtual address of the element at a box index from start coordinates; none when it is out of bounds. -/
def elemVa (r : TRec) (c : List Int) (i : List Nat) : Option Dword :=
  let x (k : Nat) : Int := c.getD k 0 + (i.getD k 0 : Nat)
  if (List.range 5).all fun k => 0 ≤ x k && x k < (at5 r.ext k : Nat) then
    some (dword r.base + BitVec.ofInt 64 ((List.range 5).map fun k => x k * (at5 r.str k : Int)).sum)
  else none

/-- R280: the fill element. -/
def TRec.fillBytes (r : TRec) : Bytes := leBytes r.fill r.n

/-- R280: the dense offset of a box index. -/
def denseOff (r : TRec) (tr : Nat) (i : List Nat) : Nat :=
  let b (k : Nat) := at5 r.box k
  let hi := (at5 i 4 * b 3 + at5 i 3) * b 2 + at5 i 2
  (if tr == 0 then (hi * b 1 + at5 i 1) * b 0 + at5 i 0 else (hi * b 0 + at5 i 0) * b 1 + at5 i 1) * r.n

/-! ### Issue -/

/-- What R285 has to check: the destination or source spot with its bytes, and the other operands. -/
structure CmdCheck where
  opd : Bool := false
  spots : List (Spot × Nat) := []
  needRec : Bool := true

/-- R285: the traps of a command, in the order of R45, for every active lane. -/
def cmdTraps (h : Hdr) (recN : Nat) (c : Pk → CmdCheck) (cls : Bool) (p : Pk) : List Trap :=
  if (p.workers h).isEmpty then []
  else
    let x := c p
    let act := p.active h
    -- the lowest address at which a check fails (R417)
    let low (f : Spot × Nat → Option Nat) : Option Nat := (x.spots.filterMap f).min?
    if cls then
      let oob := x.spots.any fun y => match y with
        | (.slot acc n off, k) => n > (if acc then 63 else 255)
            || k > (if acc then 65536 else if off == 0 then 16384 else 4096)
        | _ => false
      if x.opd || oob then trapsOf act cILLOPD else []
    else
      match low (fun y => match y with
          | (.scr a, _) => if a % 16 != 0 then some a else none
          | _ => none) with
      | some a => trapsOf act cMISALIGN (dword a)
      | none =>
        match low (fun y => match y with
            | (.scr a, n) => p.team.scrLow a n
            | _ => none) with
        | some a => trapsOf act cSCRBOUND (dword a)
        | none =>
          if p.grp.idx != p.team.card.producer then trapsOf act cCPYPERM
          else if x.spots.any fun y => match y with
              | (.slot acc n _, _) => !p.team.claimed acc n
              | _ => false then trapsOf act cSLOTERR
          else if x.needRec && (tget p.team.recs recN).isNone then trapsOf act cENGINEF 0 1
          else []

/-- R291: the scratch lines that a command's destination bytes touch. -/
def scrLines (a n : Nat) : List Nat := if n == 0 then [] else rangeFrom (a / 128) (cdiv (a + n) 128 - a / 128)

/-- R283, R291: the issue of a command whose checks have passed. -/
def cmdIssue (i : Instr) (o : CpyOp) (kind : Pk → CmdKind) (chk : Pk → CmdCheck) (s : State) : Answer :=
  issue i o.h s (chk := cmdTraps o.h o.im.recN.toNat chk true) (late := cmdTraps o.h o.im.recN.toNat chk false) fun s p =>
    match p.workers o.h with
    | [] => .next (finishLanes i o.h p s [] [] [])
    | w :: _ =>
      let k := kind p
      let desc := (tget p.team.recs o.im.recN.toNat).getD []
      let id := s.nextId
      let (s, keys) := s.keysFor p.iss.uid p.iss.grp
      let cmd : Cmd :=
        { id := id, uid := p.iss.uid, grp := p.iss.grp, lane := w.idx, pc := p.iss.pc, core := p.grp.core, kind := k
          desc := desc, flag := p.flag o.h, port := if o.im.pv then some o.im.port.toNat else none
          tag := p.read32 w 0 o.tag, keys := keys, since := s.unitCyc p.iss.uid }
      let s := ({ s with nextId := id + 1, cmds := s.cmds ++ [cmd] } : State).fork p (.engine id p.iss.uid p.iss.grp)
        ((p.active o.h).map (·.idx))
      let s := match k.dst with
        | some (.scr a) => (scrLines a (cmdBytes k (TRec.of desc))).foldl (fun s l => s.lineAwait p.iss.uid l) s
        | _ => s
      .next (finishSome i o.h p s p.iss.lanes [] [] none [])

/-- The record that a command names; an INVALID one counts as empty. -/
def Pk.trec (p : Pk) (o : CpyOp) : TRec := TRec.of ((tget p.team.recs o.im.recN.toNat).getD [])

/-- The record is there and TR does not suit its element size (R285). -/
def trBad (p : Pk) (o : CpyOp) (tr : Nat) : Bool :=
  (tget p.team.recs o.im.recN.toNat).isSome && ((tr == 1 && (p.trec o).esz != 0) || (tr == 2 && (p.trec o).esz != 1))

/-- The signed start coordinates of a box. -/
def Pk.coords (p : Pk) (o : CpyOp) : List Int :=
  match p.lanes with
  | l :: _ => (p.read128 l o.a.spec ++ [p.read32 l 0 o.b.spec]).map BitVec.toInt
  | [] => [0, 0, 0, 0, 0]

/-- The bytes of a box, where the record that gives them is there. -/
def Pk.boxOf (p : Pk) (o : CpyOp) : Nat := if (tget p.team.recs o.im.recN.toNat).isSome then (p.trec o).boxBytes else 0

def execCpy (k : CpyKind) (tr : Fin 3) (side : Bool) (o : CpyOp) (s : State) : Answer :=
  cmdIssue (.cpy k tr side o) o (fun p => .cpy k tr.val side (p.coords o) (p.uniform o.c))
    (fun p => { opd := trBad p o tr.val, spots := [(cpySpot k side (p.uniform o.c), p.boxOf o)] }) s

def execCpys (k : CpyKind) (tr : Fin 3) (side : Bool) (o : CpyOp) (s : State) : Answer :=
  cmdIssue (.cpys k tr side o) o (fun p => .cpys k tr.val side (p.coords o) (p.uniform o.c))
    (fun p => { opd := trBad p o tr.val, spots := [(cpySpot k side (p.uniform o.c), p.boxOf o)] }) s

def execCpyg (k : CpyKind) (o : CpyOp) (s : State) : Answer :=
  let rows (p : Pk) : Nat := if (tget p.team.recs o.im.recN.toNat).isSome
    then p.uniform o.b * at5 (p.trec o).box 0 * (p.trec o).n else 0
  cmdIssue (.cpyg k o) o (fun p => .cpyg k (p.uniform o.a) (p.uniform o.b) (p.uniform o.c))
    (fun p => { opd := p.uniform o.b > 4096
                spots := [(.scr (p.uniform o.a), 4 * p.uniform o.b), (cpySpot k false (p.uniform o.c), rows p)] }) s

def execFillScr (o : CpyOp) (s : State) : Answer :=
  cmdIssue (.fillScr o) o (fun p => .fillScr (word (p.uniform o.a)) (p.uniform o.b) (p.uniform o.c))
    (fun p => { opd := p.uniform o.b > 2 ^ 22, spots := [(.scr (p.uniform o.c), p.uniform o.b)], needRec := false }) s

def execFillMem (o : CpyOp) (s : State) : Answer :=
  cmdIssue (.fillMem o) o (fun p => .fillMem (p.coords o)) (fun _ => {}) s

/-! ### Frame images (R436) -/

/-- Changes bytes of a saved team's frame in memory. -/
def State.imageEdit (s : State) (uid off n : Nat) (f : Bytes → Bytes) : State :=
  match s.team? uid with
  | none => s
  | some t =>
    match t.frame, t.state with
    | some fr, .parked | some fr, .saved =>
      let lo := off / 4 * 4
      let len := cdiv (off + n) 4 * 4 - lo
      match (devRead s none t.ctx 0 (fr.va + dword (lo / 8 * 8)) (len + lo % 8)).2 with
      | .ok (_, b) =>
        let b := b.drop (lo % 8)
        (devWrite s t.ctx (fr.va + dword lo) (putAt b (off - lo) (f ((b.drop (off - lo)).take n)))).1
      | .error _ => s
    | _, _ => s

/-- Sets or clears a bit of a saved team's frame. -/
def State.imageBit (s : State) (uid off bit : Nat) (on : Bool) : State :=
  s.imageEdit uid (off + bit / 8) 1 fun b =>
    let x := leNat b
    leBytes (if on then x ||| 2 ^ (bit % 8) else if x.testBit (bit % 8) then x - 2 ^ (bit % 8) else x) 1

/-- The offset of the scratch section in a team's frame. -/
def Team.scrSecOff (t : Team) (nent : Nat) (trav : List Traversal) : Nat :=
  t.groupsOff nent + (t.groups.map fun g => (g.section (trav.filter (·.grp == g.idx))).length).sum

/-- The offset of a column's window in a frame. -/
def Team.colOff (t : Team) (nent : Nat) (trav : List Traversal) (col : Nat) : Nat :=
  t.scrSecOff nent trav + (t.card.cols.filter (· < col)).length * (t.card.scratch * 4116)

/-- The offset of the slot section, and of one slot in it. -/
def Team.slotOff (t : Team) (nent : Nat) (trav : List Traversal) (acc : Bool) (n : Nat) : Nat :=
  let base := t.scrSecOff nent trav + up64 (t.card.cols.length * (t.card.scratch * 4116)) + up64 (256 * t.card.beamRec)
  if acc then base + 20608 * t.ops.length + 65792 * (t.accs.filter (·.1 < n)).length
  else base + 20608 * (t.ops.filter (·.1 < n)).length

/-! ### Spots -/

/-- The bytes lo to lo + n - 1 of a spot, each with whether its sector is poisoned. -/
def State.spotRead (s : State) (uid id : Nat) (sp : Spot) (lo n : Nat) : List (Byte × Bool) :=
  match s.team? uid with
  | none => List.replicate n (0, false)
  | some t =>
    match sp with
    | .scr a => (List.range n).map fun i =>
        (mread t.scr.bytes (a + lo + i), t.scr.poison.contains ((a + lo + i) / 32))
    | .slot acc k off =>
      let x := (t.slotFor acc k id).getD {}
      (List.range n).map fun i => (mread x.bytes (off + lo + i), x.poison.contains ((off + lo + i) / 32))

/-- The words of bytes of a spot, for detection (R245, R292, R315). -/
def State.spotWords (s : State) (uid id : Nat) (sp : Spot) (lo n : Nat) : List RWord :=
  match sp with
  | .scr a => if n == 0 then [] else
      (rangeFrom ((a + lo) / 4) (cdiv (a + lo + n) 4 - (a + lo) / 4)).map fun w => .scr uid w
  | .slot acc k off =>
    match (s.team? uid).bind fun t => t.slotFor acc k id with
    | some x => x.words (off + lo) n
    | none => []

/-- The sectors that take the poison form when bytes land from an address on. -/
def badSectors (a : Nat) (b : List (Byte × Bool)) : List Nat :=
  ((b.zip (List.range b.length)).filterMap fun (x, i) => if x.2 then some ((a + i) / 32) else none).eraseDups

/-- Where a team's frame holds the byte lo of a spot (R424): the offset of its window or slot, the offset of the poison bits, and
the byte's number in the window or slot. A slot released since has no place in the frame. -/
def State.spotBase (s : State) (t : Team) (id : Nat) (sp : Spot) (lo : Nat) : Option (Nat × Nat × Nat) :=
  let nent := s.entriesOf t.uid
  let trav := s.travOf t.uid
  match sp with
  | .scr a =>
    let base := t.colOff nent trav ((a + lo) / 2 ^ 23)
    some (base, base + t.card.scratch * 4100, (a + lo) % 2 ^ 23)
  | .slot acc n off =>
    if !t.claimed acc n || t.zombies.any (fun z => z.1 == acc && z.2.1 == n && z.2.2.1.contains id) then none
    else
      let base := t.slotOff nent trav acc n
      some (base, base + (if acc then 65536 else 20480), off + lo)

/-- R438: the words of a saved team's frame that bytes of a spot go to, each with its address. -/
def State.imageWords (s : State) (uid id : Nat) (sp : Spot) (lo n : Nat) : List (RWord × Dword) :=
  match s.team? uid with
  | none => []
  | some t =>
    match t.frame, t.state, s.spotBase t id sp lo with
    | some fr, .parked, some (base, _, k) | some fr, .saved, some (base, _, k) =>
      let off := (base + k) / 4 * 4
      ((List.range (if n == 0 then 0 else cdiv (base + k + n - off) 4)).map fun i => fr.va + dword (off + 4 * i)).filterMap fun va =>
        match (place s none t.ctx 0 .store va).2 with
        | .ok p => if paLocal p.pa then some (.mem (p.pa / 4), va) else none
        | .error _ => none
    | _, _, _ => []

/-- R286, R436: bytes land in a team's window or slot, or in its frame image. -/
def State.spotLand (s : State) (uid id : Nat) (sp : Spot) (lo : Nat) (b : List (Byte × Bool)) : State :=
  let raw := b.map (·.1)
  match s.team? uid with
  | none => s
  | some t =>
    let s : State := match sp with
      | .scr a =>
        let bad := badSectors (a + lo) b
        let s := s.updTeam uid fun t =>
          let w := t.scr.write (a + lo) raw
          { t with scr := { w with poison := bad.foldl sins w.poison } }
        { s with race := s.race.landed (scrBytes uid (a + lo) b.length) }
      | .slot acc n off =>
        let bad := badSectors (off + lo) b
        s.updTeam uid fun t =>
          match t.slotFor acc n id with
          | some x =>
            let y := x.write (off + lo) raw
            t.setSlotFor acc n id { y with poison := bad.foldl sins y.poison }
          | none => t
    match s.spotBase t id sp lo with
    | none => s
    | some (base, poi, k) =>
      let s := s.imageEdit uid (base + k) b.length fun _ => raw
      (rangeFrom (k / 32) (cdiv (k + b.length) 32 - k / 32)).foldl (fun s x =>
        s.imageBit uid poi x ((s.spotRead uid id sp (lo + (max (32 * x) k - k)) 1).any (·.2))) s

/-- R291, R436: sets the full bit of a line, in the window or in the frame image. -/
def State.landLine (s : State) (uid line : Nat) (by_ : Tid) : State :=
  let s := s.lineArrive uid line by_
  match s.team? uid with
  | none => s
  | some t =>
    let col := line * 128 / 2 ^ 23
    s.imageBit uid (t.colOff (s.entriesOf uid) (s.travOf uid) col + t.card.scratch * 4096) (line - col * 2 ^ 16) true

/-! ### Pieces -/

/-- The walk-ahead TLB of a command's cluster (R227). -/
def Cmd.user (c : Cmd) : Nat := copyTlb (clusterOf c.core)

def Cmd.trec (c : Cmd) : TRec := TRec.of c.desc

def Cmd.tid (c : Cmd) : Tid := .engine c.id c.uid c.grp

/-- R280: the dimension that a row of a command that writes memory runs over in dense order is the innermost one; this is the
other of dimensions 0 and 1: TR exchanges them. -/
def outerDim (k : CmdKind) : Nat :=
  match k with
  | .cpys _ tr .. => if tr == 0 then 1 else 0
  | _ => 1

/-- The pieces of a command, in order. -/
def Cmd.pieces (c : Cmd) : List Nat :=
  let r := c.trec
  let n := cmdBytes c.kind r
  match c.kind with
  | .cpys .. | .fillMem _ => List.range (at5 r.box (outerDim c.kind) * at5 r.box 2 * at5 r.box 3 * at5 r.box 4)
  | k =>
    match k.dst with
    | some (.scr a) => scrLines a n
    | _ => List.range (cdiv n 128)

/-- The dense bytes of a piece on the side that is not memory: the first one and their number. -/
def Cmd.range (c : Cmd) (piece : Nat) : Nat × Nat :=
  let n := cmdBytes c.kind c.trec
  let a := match c.kind.dst with
    | some (.scr a) => a
    | _ => 0
  let lo := max (piece * 128) a
  let hi := min ((piece + 1) * 128) (a + n)
  (lo - a, hi - lo)

/-- The words in covered memory that an element of n bytes touches, each with its virtual address. -/
def wordsOfElem (va : Dword) (pa n : Nat) : List (RWord × Dword) :=
  if paLocal pa then
    (List.range (cdiv (pa % 4 + n) 4)).map fun i => (.mem (pa / 4 + i), va - dword (pa % 4) + dword (4 * i))
  else []

/-- Reads elements from memory, or their fill, in order, up to the first that faults (R295): bytes with poison, the words
read, and the fault. -/
def gatherElems (s : State) (c : Cmd) (n : Nat) (fill : Bytes) :
    List (Option Dword) → State × (List (Byte × Bool) × List (RWord × Dword)) × Option (Cause × Dword)
  | [] => (s, ([], []), none)
  | none :: r =>
    let (s, (b, w), e) := gatherElems s c n fill r
    (s, (fill.map (fun x => (x, false)) ++ b, w), e)
  | some va :: r =>
    match place s (some c.user) (s.ctxOf c.uid) c.keys .load va with
    | (s, .error e) => (s, ([], []), some (e, va))
    | (s, .ok p) =>
      let (s, (b, w), e) := gatherElems (s.hostReq p n .read) c n fill r
      let bad := p.poi || s.poisonedPa p.pa n
      (s, ((s.readPa p.pa n).map (fun x => (x, bad)) ++ b, wordsOfElem va p.pa n ++ w), e)

/-- The places of elements to be written, up to the first that faults (R295). -/
def placeElems (s : State) (c : Cmd) :
    List (Dword × List (Byte × Bool)) → State × List (Nat × List (Byte × Bool)) × Option (Cause × Dword)
  | [] => (s, [], none)
  | (va, b) :: r =>
    match place s (some c.user) (s.ctxOf c.uid) c.keys .store va with
    | (s, .error e) => (s, [], some (e, va))
    | (s, .ok p) =>
      let (s, l, e) := placeElems (s.hostReq p b.length .write) c r
      (s, (p.pa, b) :: l, e)

/-- Joins neighbouring runs of bytes. -/
def joinRuns : List (Nat × List (Byte × Bool)) → List (Nat × List (Byte × Bool))
  | [] => []
  | (a, b) :: r =>
    match joinRuns r with
    | (a', b') :: r' => if a + b.length == a' then (a, b ++ b') :: r' else (a, b) :: (a', b') :: r'
    | [] => [(a, b)]

/-- R217, R248: the clusters whose cores lose their copies of what a command writes: the issuing one, and the one that its team has
been restored to since, for a join of the command there happens after the writes. -/
def State.landClusters (s : State) (c : Cmd) : List Nat :=
  clusterOf c.core :: ((s.team? c.uid).map (·.cluster)).toList

/-- R217, R232, R286: an engine writes runs of memory: poison goes with the data, and the cores' copies of the lines are
dropped. -/
def State.landRuns (s : State) (clusters : List Nat) (l : List (Nat × List (Byte × Bool))) : State :=
  l.foldl (fun s (a, b) =>
    let s := s.writePa a (b.map (·.1))
    let s := { s with poison := (badSectors a b).foldl sins s.poison, race := s.race.landed (memBytes a b.length) }
    clusters.foldl (fun s k => s.l1DropCluster k a b.length) s) s

/-- Of neighbours that are the same, one. -/
def dropTwins : List (RWord × Dword) → List (RWord × Dword)
  | [] => []
  | x :: r =>
    match dropTwins r with
    | [] => [x]
    | y :: t => if x.1 == y.1 then x :: t else x :: y :: t

/-- The words of elements that were placed, each with its virtual address. -/
def placedWords (l : List (Dword × List (Byte × Bool))) (rs : List (Nat × List (Byte × Bool))) : List (RWord × Dword) :=
  dropTwins ((l.zip rs).flatMap fun (x, y) => wordsOfElem x.1 y.1 y.2.length)

/-- The record of an engine command (R417). -/
def State.cmdRecord (s : State) (c : Cmd) (cause : Cause) (disp kind handle : Nat) (addr info : Dword) : State :=
  let src := match c.kind with
    | .coll .. => 2
    | _ => 1
  let code := ((s.cmd? c.id).map (·.status.toNat)).getD c.status.toNat
  s.engineRecord c.uid c.grp { cause := cause, source := src, disp := disp, kind := kind, lane := c.lane, pc := c.pc
                               addr := addr, handle := handle, code := code, tag := c.tag, info := info }

/-- Words of scratch or of a slot, each with its own address. -/
def ownAddrs (ws : List RWord) : List (RWord × Dword) := ws.map fun w => (w, w.addr)

/-- R247, R292, R421: the accesses of a piece, each word with its address; a conflict is recorded, and the access takes
effect. -/
def State.cmdTouch (s : State) (c : Cmd) (ws : List (RWord × Dword)) (write : Bool) : State :=
  s.engineTouch c.tid (ws.map (·.1)) write fun s w info =>
    let s := s.updCmd c.id fun c => { c with status := c.status ||| 1 }
    s.cmdRecord c cMMX 0 0 0 (((ws.find? (·.1 == w)).map (·.2)).getD w.addr) info

/-- Source bytes of a command: taken at its team's save, or read now. -/
def State.cmdSource (s : State) (c : Cmd) (lo n : Nat) : List (Byte × Bool) :=
  match c.cap, c.kind.src with
  | some b, _ => (b.drop lo).take n
  | none, some sp => s.spotRead c.uid c.id sp lo n
  | none, none => []

/-- The words of the source bytes; none once the source has been taken. -/
def State.cmdSourceWords (s : State) (c : Cmd) (lo n : Nat) : List (RWord × Dword) :=
  match c.cap, c.kind.src with
  | none, some sp => ownAddrs (s.spotWords c.uid c.id sp lo n)
  | _, _ => []

/-- R286: the row of CPYG that an index names: the addresses of its elements. -/
def rowVas (r : TRec) (idx : Nat) : List (Option Dword) :=
  (List.range (at5 r.box 0)).map fun i0 =>
    if i0 < at5 r.ext 0 && idx < at5 r.ext 1 then
      some (dword r.base + dword (i0 * r.n) + dword (idx * at5 r.str 1))
    else none

/-- R280: the addresses of the memory side of a command in the order of the box, each with whether it has still to be moved. -/
def State.memVas (s : State) (c : Cmd) : List (Dword × Bool) :=
  let r := c.trec
  let n := r.boxBytes / r.n
  let inner := at5 r.box (1 - outerDim c.kind)
  let left (piece : Nat) : Bool := !c.done.contains piece
  let at_ (tr : Nat) (co : List Int) (piece : Nat → Nat) : List (Dword × Bool) :=
    (List.range n).filterMap fun e => (elemVa r co (boxIndex r tr e)).map fun va => (va, left (piece e))
  let base (d : Spot) : Nat := match d with
    | .scr a => a
    | .slot .. => 0
  match c.kind with
  | .cpy k tr side co d => at_ tr co fun e => (base (cpySpot k side d) + e * r.n) / 128
  | .cpys _ tr _ co _ => at_ tr co (· / inner)
  | .fillMem co => at_ 0 co (· / inner)
  | .cpyg _ _ k _ =>
    let a := ((c.kind.dst).map base).getD 0
    let rows := (List.range k).flatMap fun i => rowVas r (leNat ((s.cmdSource c (4 * i) 4).map (·.1)))
    (rows.zip (List.range rows.length)).filterMap fun (va, e) => va.map fun va => (va, left ((a + e * r.n) / 128))
  | _ => []

/-- R295: the page that is to be walked ahead next, and how many pages come before it: the pages of the memory side stand in the order
of R280, and the walk is at most 64 pages ahead of the first one that the data has still to move. -/
def State.nextAhead (s : State) (c : Cmd) : Option (Nat × Nat) :=
  let l := (s.memVas c).map fun e => (e.1.toNat / 4096, e.2)
  let pages := (l.map (·.1)).eraseDups
  match (l.find? (·.2)).map fun e => pages.findIdx (· == e.1) with
  | none => none
  | some first =>
    let k := max c.ahead first
    if k < first + 64 then (pages[k]?).map fun x => (x, k) else none

/-- What a piece for a spot receives, up to the element that faults: its bytes, the words read, and the fault. -/
def pieceData (s : State) (c : Cmd) (lo n : Nat) :
    State × (List (Byte × Bool) × List (RWord × Dword)) × Option (Cause × Dword) :=
  let r := c.trec
  let e0 := lo / r.n
  let cnt := cdiv (lo + n) r.n - e0
  let cut (b : List (Byte × Bool)) := (b.drop (lo - e0 * r.n)).take n
  let run (vas : List (Option Dword)) (more : List (RWord × Dword)) (bad : Nat → Bool) :
      State × (List (Byte × Bool) × List (RWord × Dword)) × Option (Cause × Dword) :=
    let (s, (b, w), e) := gatherElems s c r.n r.fillBytes vas
    let b := (b.zip (List.range b.length)).map fun (x, i) => (x.1, x.2 || bad (e0 + i / r.n))
    (s, (cut b, more ++ w), e)
  match c.kind with
  | .cpy _ tr _ co _ => run ((rangeFrom e0 cnt).map fun e => elemVa r co (boxIndex r tr e)) [] (fun _ => false)
  | .cpyg .. =>
    let b0 := at5 r.box 0
    let k0 := e0 / b0
    let rows := rangeFrom k0 (cdiv (e0 + cnt) b0 - k0)
    let idx (k : Nat) : List (Byte × Bool) := s.cmdSource c (4 * k) 4
    let vas := rows.flatMap fun k => rowVas r (leNat ((idx k).map (·.1)))
    run ((vas.drop (e0 - k0 * b0)).take cnt) (s.cmdSourceWords c (4 * k0) (4 * rows.length))
      (fun e => (idx (e / b0)).any (·.2))
  | .fillScr pat .. =>
    (s, ((rangeFrom lo n).map (fun j => (BitVec.ofNat 8 (pat.toNat / 2 ^ (8 * (j % 4))), false)), []), none)
  | _ => (s, ([], []), none)

/-- The box index of element k of a row, in the dense order of R280. -/
def rowIx (r : TRec) (outer row k : Nat) : List Nat :=
  let b (k : Nat) := at5 r.box k
  let o := row % b outer
  let q := row / b outer
  let hi := [q % b 2, q / b 2 % b 3, q / (b 2 * b 3)]
  if outer == 1 then k :: o :: hi else o :: k :: hi

/-- The in-bounds elements of a row, in increasing order of the dense offset (R280): the address of each, what it receives, and
the source words read for it. -/
def rowData (s : State) (c : Cmd) (row : Nat) : List (Dword × List (Byte × Bool) × List (RWord × Dword)) :=
  let r := c.trec
  let outer := outerDim c.kind
  let ix := rowIx r outer row
  let inner := at5 r.box (1 - outer)
  match c.kind with
  | .cpys _ tr _ co _ =>
    (List.range inner).filterMap fun k => (elemVa r co (ix k)).map fun va =>
      let o := denseOff r tr (ix k)
      (va, s.cmdSource c o r.n, s.cmdSourceWords c o r.n)
  | .fillMem co =>
    (List.range inner).filterMap fun k => (elemVa r co (ix k)).map fun va => (va, r.fillBytes.map fun x => (x, false), [])
  | _ => []

/-- Notes poison that bytes carried (R290). -/
def State.carried (s : State) (c : Cmd) (b : List (Byte × Bool)) : State :=
  if b.any (·.2) then s.updCmd c.id fun c => { c with status := c.status ||| 2 } else s

/-- A piece is done. -/
def State.pieceDone (s : State) (c : Cmd) (piece : Nat) : State :=
  s.updCmd c.id fun c => { c with done := c.done ++ [piece] }

/-- R231: the checks of the sectors of scratch or of a slot that a piece reads or changes. -/
def State.spotVerify (s : State) (uid id : Nat) (sp : Option Spot) (lo n : Nat) : State :=
  match sp with
  | some (.scr a) => s.scrVerify uid (a + lo) n
  | some (.slot acc k off) => s.slotVerify uid acc k id (off + lo) n
  | none => s

/-- The address of a spot in its window or slot. -/
def Spot.start : Spot → Nat
  | .scr a => a
  | .slot _ _ off => off

/-- R231: a write of scratch or of a slot checks the sectors that it covers in part. -/
def State.spotEdges (s : State) (uid id : Nat) (sp : Spot) (lo n : Nat) : State :=
  let s := if (sp.start + lo) % 32 == 0 then s else s.spotVerify uid id (some sp) lo 1
  if (sp.start + lo + n) % 32 == 0 || n == 0 then s else s.spotVerify uid id (some sp) (lo + n - 1) 1

/-- R295, R436: the fault of a piece for a saved team, when a page of the frame image that it goes to is not mapped writable: the
command meets it as it would a page of its own (log entry 62). The words are those of the bytes, of their poison bits and of the
line's full bit. -/
def State.imageFault (s : State) (uid id : Nat) (sp : Spot) (lo n : Nat) : Option (Cause × Dword) :=
  match s.team? uid with
  | none => none
  | some t =>
    match t.frame, t.state, s.spotBase t id sp lo with
    | some fr, .parked, some (base, poi, k) | some fr, .saved, some (base, poi, k) =>
      let full := match sp with
        | .scr _ => [base + t.card.scratch * 4096 + k / 1024]
        | .slot .. => []
      if n == 0 then none
      else ([base + k, base + k + n - 1, poi + k / 256, poi + (k + n - 1) / 256] ++ full).findSome? fun off =>
        let va := fr.va + dword (off / 4 * 4)
        match (place s none t.ctx 0 .store va).2 with
        | .ok _ => none
        | .error e => some (e, va)
    | _, _, _ => none

/-- Is an address one of a team's frame? -/
def State.inFrame (s : State) (uid : Nat) (va : Dword) : Bool :=
  (((s.team? uid).bind (·.frame)).map fun f => decide ((va - f.va).toNat < f.size)).getD false

/-- Moves one piece. A fault stops it; what the elements before it moved has landed (R295). -/
def runPiece (s : State) (c : Cmd) (piece : Nat) : State × Option (Cause × Dword) :=
  let s := s.spotVerify c.uid c.id c.kind.src 0 (if c.cap.isSome then 0 else srcBytes c.kind c.trec)
  match c.kind.dst with
  | some sp =>
    let (lo, n) := c.range piece
    if let some e := s.imageFault c.uid c.id sp lo n then (s, some e)
    else
    let (s, (b, ws), e) := pieceData (s.spotEdges c.uid c.id sp lo n) c lo n
    let s := s.cmdTouch c ws false
    let s := s.cmdTouch c (ownAddrs (s.spotWords c.uid c.id sp lo b.length)) true
    let s := s.cmdTouch c (s.imageWords c.uid c.id sp lo b.length) true
    let s := (s.spotLand c.uid c.id sp lo b).carried c b
    match e with
    | some _ => (s, e)
    | none =>
      let s := s.pieceDone c piece
      (match sp with
        | .scr _ => s.landLine c.uid piece c.tid
        | .slot .. => s, none)
  | none =>
    let l := rowData s c piece
    let (s, rs, e) := placeElems s c (l.map fun x => (x.1, x.2.1))
    let s := s.cmdTouch c (dropTwins ((l.take rs.length).flatMap (·.2.2))) false
    let s := s.cmdTouch c (placedWords (l.map fun x => (x.1, x.2.1)) rs) true
    let s := (s.landRuns (s.landClusters c) (joinRuns rs)).carried c (rs.flatMap (·.2))
    (if e.isNone then s.pieceDone c piece else s, e)

/-- Moves pieces in order until a fault stops one. -/
def runPieces (s : State) (id : Nat) : List Nat → State × Option (Cause × Dword)
  | [] => (s, none)
  | k :: r =>
    match s.cmd? id with
    | none => (s, none)
    | some c =>
      match runPiece s c k with
      | (s, some e) => (s, some e)
      | (s, none) => runPieces s id r

/-- The pieces that a command has still to move. -/
def Cmd.left (c : Cmd) : List Nat := c.pieces.filter fun k => !c.done.contains k

/-! ### The end of a command -/

/-- R290, R296: a command ends with its status: lines still empty are set full, the flag falls, the message is posted. -/
def State.endCmd (s : State) (id : Nat) (status : BitVec 7) : State :=
  match s.cmd? id with
  | none => s
  | some c =>
    let st := c.status ||| status
    let s := match c.kind.dst with
      | some (.scr _) => c.left.foldl (fun (s : State) l => s.landLine c.uid l c.tid) s
      | _ => s
    let clk := s.race.relClk c.tid
    let launch := ((s.team? c.uid).map fun (t : Team) => t.launch).getD 0
    let ctx := s.ctxOf c.uid
    let s := { s with cmds := s.cmds.filter (·.id != id) }
    let msg := c.flag.isNone && c.port.isSome
    let s := ((s.engineDone c.tid c.uid c.grp c.flag (msg := msg)).updTeam c.uid (·.dropUser id)).retireForwards
    match c.port with
    | some port => s.post { ctx := ctx, port := port, val := dword (st.toNat * 2 ^ 32 + c.tag.toNat), clk := clk
                            ends := if msg then some c.tid else none, launch := launch }
    | none => s

/-- Ends a command with an ENGINEF record that carries the status (R420 reason 8). -/
def State.endWith (s : State) (c : Cmd) (status : BitVec 7) : State :=
  let s := s.updCmd c.id fun c => { c with status := c.status ||| status }
  (s.cmdRecord c cENGINEF 0 0 0 0 8).endCmd c.id 0

/-- R296: a PROT or PKEYF ends a command with TERM. -/
def State.cmdTerm (s : State) (c : Cmd) (cause : Cause) (va : Dword) (write : Bool) : State :=
  let s := s.updCmd c.id fun c => { c with status := c.status ||| 4 }
  (s.cmdRecord c cause 0 0 0 va (if write then 5 else 4)).endCmd c.id 0

/-- R295: a command that meets V = 0 parks, or ends with TERM when the parked-copy table is full. R296: a kill of the unit ends its
parked commands with KILLED, and one that would park after it likewise (log entry 67). -/
def State.cmdPark (s : State) (c : Cmd) (va : Dword) (write : Bool) : State :=
  if ((s.team? c.uid).map fun t => t.kill && !t.terminated).getD false then s.endCmd c.id 8
  else if (s.cmds.filter fun o => o.state == .parked && clusterOf o.core == clusterOf c.core).length ≥ 256 then s.endWith c 4
  else
    let (s, h) := s.newHandle (((s.team? c.uid).map (·.ctx)).getD 0)
    let s := s.updCmd c.id fun c => { c with state := .parked, started := false, handle := h }
    s.cmdRecord c cPAGEF 3 1 h va (if write then 5 else 4)

/-- Does a command write memory? -/
def CmdKind.writesMem : CmdKind → Bool
  | .cpys .. | .fillMem _ | .coll .. => true
  | _ => false

/-! ### Queues -/

/-- The fields of a COLL descriptor (R287). -/
structure CollDesc where
  cid : Nat
  npart : Nat
  rank : Nat
  src : Nat
  dst : Nat
  bytes : Nat
  root : Nat
  deriving DecidableEq, Repr

def CollDesc.of (b : Bytes) : CollDesc :=
  { cid := leAt b 0 4, npart := leAt b 4 2, rank := leAt b 6 2, src := leAt b 8 8, dst := leAt b 0x10 8
    bytes := leAt b 0x18 4, root := leAt b 0x1C 2 }

/-- R287: a descriptor whose fields meet their columns. -/
def collValid (b : Bytes) : Bool :=
  let d := CollDesc.of b
  2 ≤ d.npart && d.npart ≤ 256 && d.rank < d.npart && d.src % 16 == 0 && d.dst % 16 == 0 && d.bytes % 4 == 0
    && 4 ≤ d.bytes && d.bytes ≤ 2 ^ 30 && (b.drop 0x1E).all (· == 0)

/-- The collective that a command of a collective engine belongs to: context and CID. -/
def State.collOf (s : State) (c : Cmd) : Option (Nat × Nat) :=
  match c.kind with
  | .coll _ _ b => if c.state == .collWait || c.state == .parked then some (s.ctxOf c.uid, (CollDesc.of b).cid) else none
  | _ => none

/-- R289: a stack's engine holds 256 collectives, and does not hold the one named. -/
def State.collsFull (s : State) (ctx stack cid : Nat) : Bool :=
  let held := ((s.cmds.filter fun c => stackOf c.core == stack).filterMap s.collOf).eraseDups
  !held.contains (ctx, cid) && held.length ≥ 256

/-- R288: tells the devices of the fabric domain of a participant on this device, and later sends them its source.
Without CXL no peer is reachable (R460). -/
def State.announceColl (s : State) (ctx : Nat) (op : CollOp) (ty : FoldTy) (desc : Bytes) (data : Option (List (Byte × Bool))) :
    State :=
  if s.bar0.peerMap == 0 || !s.bar0.cxl then s else { s with out := .collective ctx op ty desc data :: s.out }

/-- R289: a COLL leaves its queue for the collective engine of its stack, which tells the other devices, or has no room. -/
def State.handColl (s : State) (c : Cmd) : State :=
  match c.kind with
  | .coll op ty b =>
    if s.collsFull (s.ctxOf c.uid) (stackOf c.core) (CollDesc.of b).cid then s.endWith c 32
    else
      (s.updCmd c.id fun c => { c with state := .collWait, since := s.stackCyc (stackOf c.core) }).announceColl (s.ctxOf c.uid) op ty
        b none
  | _ => s

/-- The command that stands first in the queue of a core. -/
def State.queueHead (s : State) (core : Nat) : Option Cmd :=
  s.cmds.find? fun c => c.state == .queued && !c.started && c.core == core

/-- R289, R293: the COLL that stands first in the queue of a core is handed over. -/
def State.handFirst (s : State) (core : Nat) : State :=
  match s.queueHead core with
  | some c => if c.isCopy then s else s.handColl c
  | none => s

/-- R293: the command that a cluster's copy engine starts next, with the queue (a core of the cluster) that it stands in: the
engine takes the four queues in turn, and each in its order. -/
def State.nextStart (s : State) (cluster : Nat) : Option (Nat × Cmd) :=
  (List.range 4).findSome? fun k =>
    let q := (tgetD s.copyTurn cluster 0 + k) % 4
    (s.queueHead (4 * cluster + q)).map fun c => (q, c)

/-- R293: starts commands in the engine's order until a given one has started; none while 16 others are moving. A COLL that stands
first in the queue whose turn it is is handed over, which takes no turn and none of the 16 places. -/
def State.startUpTo (s : State) (cluster id : Nat) : Nat → Option State
  | 0 => none
  | n + 1 =>
    match s.nextStart cluster with
    | none => none
    | some (q, c) =>
      if !c.isCopy then (s.handColl c).startUpTo cluster id n
      else if (s.cmds.filter fun c => c.state == .queued && c.started && clusterOf c.core == cluster).length ≥ 16 then none
      else
        let s := ({ s with copyTurn := tput s.copyTurn cluster ((q + 1) % 4) 0 } : State).updCmd c.id fun c =>
          { c with started := true }
        if c.id == id then some s else s.startUpTo cluster id n

/-- R293: the state in which a queued command moves: it has started, or the engine starts it and those before it now. -/
def State.moving (s : State) (c : Cmd) : Option State :=
  if c.state != .queued then none
  else if c.started then some s
  else s.startUpTo (clusterOf c.core) c.id (s.cmds.length + 1)

/-- R293: may a command move? -/
def State.mayMove (s : State) (c : Cmd) : Bool := (s.moving c).isSome

/-- R296: a kill ends the queued and parked commands of a unit with KILLED, without records. R196, R289: a command that its engine has
started, and a COLL that has left its queue, are performed (log entry 67). -/
def State.killCmds (s : State) (uid : Nat) : State :=
  (s.cmds.filter fun c => c.uid == uid && ((c.state == .queued && !c.started) || c.state == .parked)).foldl
    (fun s c => s.endCmd c.id 8) s

/-! ### Events -/

/-- R291: COPY_LINE_ARRIVAL: a command's bytes for one line, or one piece of another destination, land. -/
def execCopyLineArrival (cmd line : Nat) (s : State) : Answer :=
  match (s.cmd? cmd).bind fun c => (s.moving c).map fun x => (c, x) with
  | none => .next s
  | some (c, s') =>
    -- elements go to memory in the order of R280
    if if c.kind.dst.isSome then c.left.contains line else c.left.head? == some line then
      match runPiece s' c line with
      | (s', none) => .next s'
      | (_, some _) => .next s
    else .next s

/-- R290, R296: COPY_COMPLETE: what is left of a command lands and the command ends; a PROT or PKEYF ends it with TERM. -/
def execCopyComplete (cmd : Nat) (s : State) : Answer :=
  match s.cmd? cmd with
  | none => .next s
  | some c =>
    match c.kind with
    | .coll .. => .next s
    | k =>
      match s.moving c with
      | none => .next s
      | some s1 =>
        match runPieces s1 cmd c.left with
        | (s', none) => .next (s'.endCmd cmd 0)
        | (s', some (cause, va)) => if cause == cPAGEF then .next s else .next (s'.cmdTerm c cause va (k.writesMem || s'.inFrame c.uid va))

end Sys2Proof.Machine
end

