-- ==== Sys2Proof/Machine/Admit.lean ====
section
/-! DEFINITION. Which cores a team may take and whether it fits there (R191 to R193, R439), and the places of its groups
(R134). -/

namespace Sys2Proof.Machine

/-! ### Reservations (R191) -/

/-- R431: a GO has reached the stack: the channel deals and restores nothing there. -/
def State.heldChan (s : State) (chan stack : Nat) : Bool := (tget (s.chan chan).arrived stack).isSome

/-- R189: a launch that is ready on a stack. -/
def Launch.readyOn (l : Launch) (stack : Nat) : Bool :=
  l.state == .ready && match tget l.ranges stack with
    | some (lo, hi) => lo < hi
    | none => false

/-- R191, R431: does a channel count as having a ready launch on a stack? -/
def State.chanReady (s : State) (chan stack : Nat) : Bool :=
  !s.heldChan chan stack && s.launches.any fun l => l.card.client == chan && l.readyOn stack

/-- R191: the channel that holds a core: the lowest-numbered one whose mask names it. -/
def State.coreOwner (s : State) (core : Nat) : Option Nat :=
  (List.range 16).find? fun c => (tgetD (s.chan c).rsvMask (stackOf core) 0).getLsbD (core % 32)

/-- R191: may teams of a channel take a core now? -/
def State.coreOpen (s : State) (chan core : Nat) : Bool :=
  match s.coreOwner core with
  | none => true
  | some o => o == chan || !s.chanReady o (stackOf core)

/-- R191: the reservation of a real-time channel on a stack is unmet. DESIGN CHOICE: a reserved core counts as held by a team until the
team is COMPLETE (R196), not only until its last group has exited (R124) (log entry 67). -/
def State.unmet (s : State) (chan stack : Nat) : Bool :=
  (s.chan chan).rt && s.chanReady chan stack
    && (rangeFrom (32 * stack) 32).any fun core =>
      s.coreOwner core == some chan
        && !s.units.any fun t => t.resident && !s.complete t && t.card.client == chan && t.cores.contains core

/-! ### Vault columns (R207 to R213) -/

/-- R210: the core whose column a team's column number names. -/
def colCore (first col : Nat) : Nat := first / 4 * 4 + (first % 4 + col) % 4

/-- The teams that hold windows and beam records. -/
def State.holders (s : State) : List Team := s.units.filter fun t => t.resident && !s.complete t && !t.cores.isEmpty

/-- The 4 KiB units of a column's scratch part that teams hold. -/
def State.scrHeld (s : State) (core : Nat) : Nat :=
  (s.holders.map fun t =>
    if t.card.cols.any fun c => colCore (t.cores.headD 0) c == core then t.card.scratch else 0).sum

/-- The beam records of a column that teams hold. -/
def State.beamHeld (s : State) (core : Nat) : Nat :=
  (s.holders.map fun t => if t.cores.head? == some core then t.card.beamRec else 0).sum

/-- R192: the scratch and beam capacity for a team whose first core is given; a column serves its window when its core is
one of the cluster's. -/
def State.vaultFits (s : State) (c : Card) (first : Nat) : Bool :=
  (c.cols.all fun col => c.scratch + s.scrHeld (colCore first col) ≤ 64 * s.bar0.scr)
    && c.beamRec + s.beamHeld first ≤ 1024 * s.bar0.beam

/-! ### Places (R134, R192) -/

/-- The free group slots of a quadrant, in rising order. -/
def State.openSlots (s : State) (q : Nat) : List Nat :=
  let used := (s.onQuad q).map (·.slot)
  (List.range 32).filter fun k => !used.contains k

/-- R134: where a group goes: its core's position among the team's cores, and its quadrant. -/
def groupPlace (k g : Nat) : Nat × Nat := (g % k, g / k % 4)

/-- The groups that a list of group numbers puts on a place. -/
def groupsAt (k : Nat) (gs : List Nat) (pos quad : Nat) : List Nat := gs.filter fun g => groupPlace k g == (pos, quad)

/-- R192 steps 1 and 2 for given cores. `gs`: the groups to be placed; `need`: the registers that one of them takes;
`more`: what the credits take on a place (R162). -/
def State.coresFit (s : State) (c : Card) (cores gs : List Nat) (need : Nat → Nat) (more : Nat → Nat → Nat) : Bool :=
  let k := c.k
  (cores.zip (List.range k)).all fun (core, pos) => (List.range 4).all fun quad =>
    let here := groupsAt k gs pos quad
    let q := 4 * core + quad
    (here.isEmpty || cdiv c.groups (4 * k) ≤ (s.openSlots q).length)
      && (here.map need).sum + more pos quad ≤ s.freeCount q

/-- The choices of k members of a list, the ones with the lowest members first. -/
def picks : Nat → List Nat → List (List Nat)
  | 0, _ => [[]]
  | _ + 1, [] => []
  | k + 1, x :: r => (picks k r).map (x :: ·) ++ picks (k + 1) r

/-- The cores of a cluster. -/
def clusterCores (cluster : Nat) : List Nat := rangeFrom (4 * cluster) 4

/-- R192, R193: the lowest-numbered cores of a cluster that qualify for a team. -/
def State.fitCluster (s : State) (c : Card) (cluster : Nat) (gs : List Nat) (need : Nat → Nat) (more : Nat → Nat → Nat) :
    Option (List Nat) :=
  if s.bar0.vsPend.isSome then none
  else
    (picks c.k ((clusterCores cluster).filter (s.coreOpen c.client))).find? fun cores =>
      s.vaultFits c (cores.headD 0) && s.coresFit c cores gs need more

/-- R192: the cores for a new team. -/
def State.fitNew (s : State) (c : Card) (cluster : Nat) : Option (List Nat) :=
  s.fitCluster c cluster (List.range c.groups) (fun _ => c.regFloor) (fun _ _ => 0)

/-- The clusters of a stack. -/
def stackClusters (stack : Nat) : List Nat := rangeFrom (8 * stack) 8

/-- Gives a slot of its quadrant to each of a team's groups that has lanes, in rising order of the groups. -/
def placeGroups (s : State) (cores : List Nat) (k : Nat) (gs : List Group) : List Group :=
  gs.foldl (fun (out : List Group) g =>
    let (pos, quad) := groupPlace k g.idx
    let core := cores.getD pos 0
    let taken := (out.filter fun o => !o.lanes.isEmpty && o.core == core && o.quad == quad).map (·.slot)
    let free := (s.openSlots (4 * core + quad)).filter fun n => !taken.contains n
    out ++ [{ g with core := core, quad := quad, slot := free.headD 0 }]) []

/-! ### Restores (R193, R439, R440) -/

/-- R440: is a saved team's frame restorable on a stack now? -/
def State.restorable (s : State) (t : Team) (stack : Nat) : Bool :=
  let ch := s.chan t.card.client
  t.card.stackMask.getLsbD stack && !s.heldChan t.card.client stack
    && match t.frame, t.state with
      | some f, .parked | some f, .saved =>
        (match f.reason with
          | .trap | .traversal => f.fstate == 3
          | .forced | .drain => f.fstate == 2) && ch.pre == 0
      | _, _ => false

/-- R193: the cores of a cluster to which a saved team can return: its group slots, its floors and footprints, its credits, its
windows and its physical slots. Exited groups keep their places and need no registers. -/
def State.fitRestore (s : State) (t : Team) (cluster : Nat) : Option (List Nat) :=
  let need (n : Nat) : Nat := match t.group? n with
    | some g => if g.lanes.isEmpty then 0 else max g.floor g.footprint
    | none => 0
  if t.ops.length ≤ s.freeSlots cluster false && t.accs.length ≤ s.freeSlots cluster true then
    s.fitCluster t.card cluster (List.range t.card.groups) need fun pos quad => tgetD t.credit (4 * pos + quad) 0
  else none

/-- R440: the saved teams in the order in which their saves began. -/
def putBySeq (t : Team) : List Team → List Team
  | [] => [t]
  | x :: r =>
    if ((t.frame.map (·.seq)).getD 0) ≤ ((x.frame.map (·.seq)).getD 0) then t :: x :: r else x :: putBySeq t r

def State.waitingFrames (s : State) (stack : Nat) : List Team := (s.units.filter (s.restorable · stack)).foldr putBySeq []

/-- R440: the first waiting frame that fits a cluster, with its cores. -/
def State.nextRestore (s : State) (cluster : Nat) : Option (Team × List Nat) :=
  (s.waitingFrames (cluster / 8)).findSome? fun t => (s.fitRestore t cluster).map fun c => (t, c)

end Sys2Proof.Machine
end

