-- ==== Sys2Proof/Machine/BeamGeo.lean ====
section
/-! DEFINITION. What a beam trace computes (R346 to R361): the beam's coordinates, culling, cells, ray pixels and fragments. -/

namespace Sys2Proof.Machine

/-- A beam record as a trace uses it (R346): its exact axes, limits and lines. -/
structure Beam where
  par : Bool
  nearp : Bool
  base : V3
  ux : V3
  uy : V3
  w : V3
  nearN : V3
  nearD : Rat
  tmin : Rat
  tmax : Rat
  root : Nat
  rx : Nat
  ry : Nat
  rw : Nat
  rh : Nat
  lines : List BLine
  deriving DecidableEq, Repr

/-- A two's-complement field of n bytes. -/
def sAt (b : Bytes) (off n : Nat) : Int :=
  let x := leAt b off n
  if x ≥ 2 ^ (8 * n - 1) then (x : Int) - 2 ^ (8 * n) else x

/-- R347: the beam of a valid record image. -/
def Beam.of (b : Bytes) : Option Beam :=
  let kind := leAt b 0 1
  let flags := leAt b 1 1
  let nl := leAt b 2 1
  let near := flags == 1
  match v3At b 0x10, v3At b 0x1C, v3At b 0x28, v3At b 0x34, f32Rat (leAt b 0x50 4), f32Rat (leAt b 0x54 4) with
  | some p, some o, some ux, some uy, some tmin, some tmax =>
    match v3At b 0x40, f32Rat (leAt b 0x4C 4), near with
    | none, _, true | _, none, true => none
    | n, d, _ =>
      let w := if kind == 0 then o.sub p else p
      let lines := (List.range nl).map fun k => (⟨sAt b (0x80 + 16 * k) 4, sAt b (0x84 + 16 * k) 4, sAt b (0x88 + 16 * k) 8⟩ : BLine)
      let x : Beam :=
        { par := kind == 1, nearp := near, base := if kind == 0 then p else o, ux := ux, uy := uy, w := w
          nearN := n.getD ⟨0, 0, 0⟩, nearD := d.getD 0, tmin := tmin, tmax := tmax, root := leAt b 0x58 8
          rx := leAt b 0x60 2, ry := leAt b 0x62 2, rw := leAt b 0x64 2, rh := leAt b 0x66 2, lines := lines }
      if kind ≤ 1 && flags ≤ 1 && 1 ≤ nl && nl ≤ 8
          && !((b.drop 3).take 13).any (· != 0) && !((b.drop 0x68).take 24).any (· != 0)
          && !((b.take 256).drop (0x80 + 16 * nl)).any (· != 0)
          && tmin < tmax && (kind == 1 || tmin > 0) && det3 ux uy w != 0
          && 1 ≤ x.rw && 1 ≤ x.rh && x.rx + x.rw ≤ 32768 && x.ry + x.rh ≤ 32768
          && (lines.all fun l => l.a.natAbs ≤ 2 ^ 25 && l.b.natAbs ≤ 2 ^ 25 && l.c.natAbs ≤ 2 ^ 50 && !(l.a == 0 && l.b == 0))
          && canonical (dword x.root) && x.root % 128 == 0
      then some x else none
  | _, _, _, _, _, _ => none

/-- The lines of the region rectangle. -/
def Beam.rect (g : Beam) : List BLine := rectLines g.rx g.ry g.rw g.rh

/-- R348: the beam coordinates of a world point. -/
def Beam.coords (g : Beam) (p : V3) : V3 := solve3 g.ux g.uy g.w (p.sub g.base)

/-- R348: the depth key of a depth. -/
def Beam.kappa (g : Beam) (depth : Rat) : Rat := if g.par then -depth else 1 / depth

/-- The world point of beam coordinates. -/
def Beam.world (g : Beam) (c : V3) : V3 := ((g.base.add (g.ux.smul c.x)).add (g.uy.smul c.y)).add (g.w.smul c.z)

/-- Is a world point on the positive side of the near plane, where one applies? -/
def Beam.nearOk (g : Beam) (p : V3) : Bool := !g.nearp || g.nearN.dot p + g.nearD > 0

/-- R353: all points fail one and the same test. -/
def Beam.culled (g : Beam) (ps : List V3) : Bool :=
  let cs := ps.map g.coords
  cs.all (fun c => c.z ≤ g.tmin) || cs.all (fun c => c.z ≥ g.tmax)
    || (g.lines ++ g.rect).any (fun l => cs.all fun c =>
        256 * l.a * c.x + 256 * l.b * c.y + l.c * (if g.par then 1 else c.z) < 0)
    || ps.all (fun p => !g.nearOk p)

/-- R349: a snapped vertex: its position in 1/256 pixel and its key. -/
structure Snap where
  u : Int
  v : Int
  key : Nat
  deriving DecidableEq, Repr

def Beam.snap (g : Beam) (p : V3) : Option Snap :=
  let c := g.coords p
  if c.z ≤ g.tmin then none
  else
    let (u, v) := if g.par then (c.x, c.y) else (c.x / c.z, c.y / c.z)
    let x : Snap := ⟨ratRne (256 * u), ratRne (256 * v), ratF32 (g.kappa c.z)⟩
    let inr (k : Int) : Bool := decide (-(2 ^ 23) ≤ k) && decide (k < 2 ^ 23)
    if inr x.u && inr x.v && (fp32.val x.key).isInf == false then some x else none

/-! ### Triangles on cells -/

def keyPlane (x y z : Snap) : KPlane :=
  let k (s : Snap) : Rat := (f32Rat s.key).getD 0
  let u (s : Snap) : Rat := (s.u : Rat) / 256
  let v (s : Snap) : Rat := (s.v : Rat) / 256
  let du1 := u y - u x
  let dv1 := v y - v x
  let dk1 := k y - k x
  let du2 := u z - u x
  let dv2 := v z - v x
  let dk2 := k z - k x
  let d := du1 * dv2 - du2 * dv1
  let a := (dk1 * dv2 - dk2 * dv1) / d
  let b := (du1 * dk2 - du2 * dk1) / d
  ⟨ratF32 a, ratF32 b, ratF32 (k x - a * u x - b * v x)⟩

/-- R357: the evaluation at a point given in 1/256 pixel. -/
def KPlane.eval (p : KPlane) (q : Pt) : Nat :=
  let t := (fp32.fma .rn (fp32.val p.b) (fp32.val (ratF32 (q.2 / 256))) (fp32.val p.c)).val
  (fp32.fma .rn (fp32.val p.a) (fp32.val (ratF32 (q.1 / 256))) (fp32.val t)).val

def KPlane.infinite (p : KPlane) : Bool := (fp32.val p.a).isInf || (fp32.val p.b).isInf || (fp32.val p.c).isInf

/-- The outcome of the depth test. -/
inductive DepthRes where
  | nearer | farther | conflict
  deriving DecidableEq, Repr

/-- R357: the depth test of T against S at the vertices of a cell. -/
def depthTest (t s : KPlane) (p : List Pt) : DepthRes :=
  let es := p.map fun q => (fp32.val (t.eval q), fp32.val (s.eval q))
  if t.infinite || s.infinite || es.any fun e => e.1.isNan || e.2.isNan then .conflict
  else if es.all fun e => e.1.cmp e.2 == .gt then .nearer
  else if es.all fun e => e.1.cmp e.2 == .lt then .farther
  else .conflict

def BWork.addRay (w : BWork) (ps : List (Nat × Nat)) : BWork :=
  { w with ray := w.ray ++ ps.filter fun p => !w.ray.contains p }

/-- The root cell's region. -/
def Beam.rootPoly (g : Beam) : List Pt := clipAll g.lines (rectPoly g.rx g.ry g.rw g.rh)

/-- R355, R358: the start of a trace with a number of free records. R355 says nothing of a root cell of zero area: DESIGN CHOICE, it
is no cell and takes no record (log entry 70). -/
def Beam.start (g : Beam) (free : Nat) : BWork :=
  match g.rootPoly with
  | [] => { free := free }
  | p =>
    if free == 0 then { ray := (pixelsOf p).map (·.1) }
    else { cells := [⟨p, edgeLines p g.lines, none⟩], free := free - 1 }

/-- R356 step 3: the pieces of a cell outside a triangle's edges, each with the lines that bound it: the cell's, and the edges up
to the one that it lies outside. -/
def outerPieces (whole : List Pt) (lines : List BLine) : List BLine → List Pt → List (List Pt × List BLine)
  | [], _ => []
  | e :: r, cur =>
    let sides := whole.map e.side
    let cut := sides.any (· > 0) && sides.any (· < 0)
    let q := if cut then clipLine e.flip cur else []
    (if q.isEmpty then [] else [(q, edgeLines q (lines ++ [e]))]) ++ outerPieces whole (lines ++ [e]) r (clipLine e cur)

/-- R356 steps 2 and 3: one cell against a triangle; the cells that take its place. -/
def cutCell (edges : List BLine) (t : Near) (w : BWork) (c : BCell) : BWork :=
  let keep : BWork := { w with cells := w.cells ++ [c] }
  let inner := clipAll edges c.poly
  if inner.isEmpty then keep
  else
    let res := match c.near with
      | none => DepthRes.nearer
      | some n => depthTest t.plane n.plane inner
    if res == .farther then keep
    else
      let outer : List BCell := (outerPieces c.poly c.lines edges c.poly).map fun p => ⟨p.1, p.2, c.near⟩
      let inn : BCell := ⟨inner, edgeLines inner (c.lines ++ edges), some t⟩
      if outer.length > w.free || (inn :: outer).any fun x => x.lines.length > 8 then
        { (w.addRay ((pixelsOf c.poly).map (·.1))) with free := w.free + 1 }
      else if res == .conflict then
        let w := w.addRay ((pixelsOf inner).map (·.1))
        { w with cells := w.cells ++ outer, free := w.free + 1 - outer.length }
      else { w with cells := w.cells ++ inn :: outer, free := w.free - outer.length }

/-- R356, R358: a triangle, given in world space, that is not culled. -/
def Beam.triangle (g : Beam) (w : BWork) (v0 v1 v2 : V3) (prim inst : Nat) (cullcw : Bool) : BWork :=
  match g.snap v0, g.snap v1, g.snap v2, g.nearOk v0 && g.nearOk v1 && g.nearOk v2 with
  | some a, some b, some c, true =>
    let area := (b.u - a.u) * (c.v - a.v) - (c.u - a.u) * (b.v - a.v)
    if area == 0 || (area < 0 && cullcw) then w
    else
      let (b, c) := if area < 0 then (c, b) else (b, c)
      let e0 := edgeLine (a.u, a.v) (b.u, b.v)
      let e1 := edgeLine (b.u, b.v) (c.u, c.v)
      let e2 := edgeLine (c.u, c.v) (a.u, a.v)
      let n : Near := ⟨prim, inst, keyPlane a b c⟩
      let w' : BWork := { w with cells := [], cands := w.cands ++ [.snapped e0 e1 e2 n] }
      w.cells.foldl (cutCell [e0, e1, e2] n) w'
  | _, _, _, _ =>
    let w := w.addRay ((pixelsOf g.rootPoly).map (·.1))
    { w with cands := w.cands ++ [.tri v0 v1 v2 prim inst] }

/-- R358: a procedural leaf that is not culled. -/
def Beam.proc (g : Beam) (w : BWork) (l : ProcLeaf) (n : Option Xform) (inst : Nat) : BWork :=
  let cs := (corners l.lo l.hi).map fun p => g.snap (toWorld n p)
  let w := if cs.any Option.isNone then w.addRay ((pixelsOf g.rootPoly).map (·.1))
    else
      let us := (cs.filterMap id).map (·.u)
      let vs := (cs.filterMap id).map (·.v)
      let lo (l : List Int) : Rat := (l.foldl min (l.headD 0) : Int)
      let hi (l : List Int) : Rat := (l.foldl max (l.headD 0) : Int)
      let p : List Pt := [(lo us, lo vs), (hi us, lo vs), (hi us, hi vs), (lo us, hi vs)]
      -- the part of the rectangle inside the region
      w.addRay ((pixelsOf (clipAll g.rect (if area2 p > 0 then p else []))).map (·.1))
  { w with cands := w.cands ++ [.box l.lo l.hi n l.prim inst] }

/-! ### Ray pixels -/

/-- R359: a sample's ray in beam coordinates, with the depth as its parameter. -/
def Beam.ray (g : Beam) (q : Pt) : V3 × V3 :=
  if g.par then (⟨q.1 / 256, q.2 / 256, 0⟩, ⟨0, 0, 1⟩) else (⟨0, 0, 0⟩, ⟨q.1 / 256, q.2 / 256, 1⟩)

/-- R359, R376: where a line o + t d meets a triangle, boundary included, with its barycentrics; nothing for a line in its plane. R376
lets a ray hit triangles of nonzero area only; R359 does not say whether a sample's ray meets one whose vertices lie on one line:
DESIGN CHOICE, it does not (log entry 70). -/
def meetTri (o d v0 v1 v2 : V3) : Option (Rat × Rat × Rat) :=
  let e1 := v1.sub v0
  let e2 := v2.sub v0
  -- o + t d = v0 + b1 e1 + b2 e2
  if det3 e1 e2 d == 0 then none
  else
    let x := solve3 e1 e2 (d.smul (-1)) (o.sub v0)
    if x.x ≥ 0 && x.y ≥ 0 && x.x + x.y ≤ 1 then some (x.z, x.x, x.y) else none

/-- The entry and exit of a line o + t d through a closed box; none on a side stands for no bound. -/
def slab (o d lo hi : V3) : Option (Option Rat × Option Rat) :=
  [0, 1, 2].foldl (fun (acc : Option (Option Rat × Option Rat)) k =>
    match acc with
    | none => none
    | some (t0, t1) =>
      if d.at k == 0 then (if lo.at k ≤ o.at k && o.at k ≤ hi.at k then some (t0, t1) else none)
      else
        let a := (lo.at k - o.at k) / d.at k
        let b := (hi.at k - o.at k) / d.at k
        let near := min a b
        let far := max a b
        some (some (match t0 with
          | some x => max x near
          | none => near), some (match t1 with
          | some x => min x far
          | none => far))) (some (none, none))

/-- R359: the key of a candidate at a sample, when the sample has it as a candidate. -/
def Beam.candKey (g : Beam) (q : Pt) : Cand → Option Nat
  | .snapped e0 e1 e2 n =>
    if e0.holds q && e1.holds q && e2.holds q then
      let k := n.plane.eval q
      if (fp32.val k).isNan then none else some k
    else none
  | .tri v0 v1 v2 _ _ =>
    let (o, d) := g.ray q
    match meetTri o d (g.coords v0) (g.coords v1) (g.coords v2) with
    | none => none
    | some (t, _, _) =>
      if g.tmin < t && t < g.tmax && g.nearOk (g.world (o.add (d.smul t))) then some (ratF32 (g.kappa t)) else none
  | .box lo hi n _ _ =>
    let (o, d) := g.ray q
    let ow := g.world o
    let dw := (g.world (o.add d)).sub ow
    let (oo, dd) := match n with
      | some n => (n.app ow, n.lin dw)
      | none => (ow, dw)
    match slab oo dd lo hi with
    | some (some t0, some t1) =>
      if t0 ≤ t1 && t0 < g.tmax && t1 > g.tmin then some (ratF32 (g.kappa (max t0 g.tmin))) else none
    | _ => none

def Cand.prim : Cand → Nat
  | .snapped _ _ _ n => n.prim
  | .tri _ _ _ p _ | .box _ _ _ p _ => p

def Cand.inst : Cand → Nat
  | .snapped _ _ _ n => n.inst
  | .tri _ _ _ _ i | .box _ _ _ _ i => i

def Cand.isBox : Cand → Bool
  | .box .. => true
  | _ => false

/-- A fragment before it is written: who, whether a procedural leaf won, its units of 2^-24. -/
structure Frag where
  prim : Nat
  inst : Nat
  proc : Bool := false
  units : Int
  deriving DecidableEq, Repr

def missPrim : Nat := 0xFFFFFFFF
def outPrim : Nat := 0xFFFFFFFE
def noInst : Nat := 0xFFFFFF

/-- R359: the positions of the samples in a pixel. -/
def samplePos : List (Nat × Nat) := [(1, 5), (3, 13), (5, 1), (7, 9), (9, 7), (11, 15), (13, 3), (15, 11)]

/-- R359: the winner of a sample. Of a triangle and a procedural leaf that tie in key, primitive id and instance id R359 names
none: DESIGN CHOICE, the candidate that the trace processed first wins (log entry 70). -/
def Beam.sample (g : Beam) (w : BWork) (q : Pt) : Nat × Nat × Bool :=
  if !(g.lines ++ g.rect).all fun l => l.holds q then (outPrim, noInst, false)
  else
    let better (k : Nat) (c : Cand) (best : Option (Nat × Cand)) : Bool :=
      match best with
      | none => true
      | some (k', c') =>
        match (fp32.val k).cmp (fp32.val k') with
        | .gt => true
        | .lt => false
        | .eq => c.prim < c'.prim || (c.prim == c'.prim && c.inst < c'.inst)
    let best := w.cands.foldl (fun (b : Option (Nat × Cand)) c =>
      match g.candKey q c with
      | some k => if better k c b then some (k, c) else b
      | none => b) none
    match best with
    | some (_, c) => (c.prim, c.inst, c.isBox)
    | none => (missPrim, noInst, false)

/-- Adds units to the fragment of a winner. -/
def addFrag (who : Nat × Nat × Bool) (u : Int) : List Frag → List Frag
  | [] => [⟨who.1, who.2.1, who.2.2, u⟩]
  | f :: r => if (f.prim, f.inst, f.proc) == who then { f with units := f.units + u } :: r else f :: addFrag who u r

/-- R359: the fragments of a ray pixel. -/
def Beam.rayPixel (g : Beam) (w : BWork) (x y : Nat) : List Frag :=
  samplePos.foldl (fun fs s =>
    let q : Pt := (((16 * x + s.1) * 16 : Nat), ((16 * y + s.2) * 16 : Nat))
    addFrag (g.sample w q) (2 ^ 21) fs) []

/-! ### Coverage -/

/-- Sums of areas by winner. -/
def addArea (who : Nat × Nat) (a : Rat) : List ((Nat × Nat) × Rat) → List ((Nat × Nat) × Rat)
  | [] => [(who, a)]
  | e :: r => if e.1 == who then (who, e.2 + a) :: r else e :: addArea who a r

/-- The largest fragment; ties go to the lowest primitive id, then the lowest instance id. -/
def largest : List Frag → Option Frag
  | [] => none
  | f :: r =>
    match largest r with
    | none => some f
    | some g =>
      if f.units > g.units || (f.units == g.units && (f.prim < g.prim || (f.prim == g.prim && f.inst < g.inst))) then some f
      else some g

/-- R360: the fragments of an analytic pixel; the root cell covers `root` of it, in twice its area. -/
def analyticPixel (w : BWork) (x y : Nat) (root : Rat) : List Frag :=
  let sums := w.cells.foldl (fun acc c =>
    match clipAll (rectLines x y 1 1) c.poly with
    | [] => acc
    | p => addArea (match c.near with
        | some n => (n.prim, n.inst)
        | none => (missPrim, noInst)) (area2 p) acc) []
  let rest := 2 * 65536 - root
  let sums := if rest > 0 then addArea (outPrim, noInst) rest sums else sums
  let fs := sums.map fun e => (⟨e.1.1, e.1.2, false, ratRne (e.2 / 2 * 256)⟩ : Frag)
  let residue := 2 ^ 24 - (fs.map (·.units)).sum
  let fs := match largest fs with
    | some b => fs.map fun (f : Frag) => if f.prim == b.prim && f.inst == b.inst then { f with units := f.units + residue } else f
    | none => fs
  fs.filter (·.units != 0)

/-- Rising (primitive, instance) order. -/
def putFrag (f : Frag) : List Frag → List Frag
  | [] => [f]
  | g :: r =>
    if f.prim < g.prim || (f.prim == g.prim && (f.inst < g.inst || (f.inst == g.inst && !f.proc))) then f :: g :: r
    else g :: putFrag f r

/-- R361: a fragment record. -/
def fragWord (lane x y : Nat) (ray : Bool) (f : Frag) : BitVec 128 :=
  let bit (b : Bool) (k : Nat) : Nat := if b then 2 ^ k else 0
  BitVec.ofNat 128 (x + y * 2 ^ 16 + f.prim * 2 ^ 32 + f.inst * 2 ^ 64 + lane * 2 ^ 88 + (f.units.toNat % 2 ^ 24) * 2 ^ 96
    + bit ray 120 + bit (f.units < 2 ^ 24) 121 + bit (f.prim ≥ outPrim) 123 + bit f.proc 125)

/-- R361: an END record. -/
def endWord (lane : Nat) (poison : Bool) : BitVec 128 :=
  BitVec.ofNat 128 (2 ^ 124 + lane * 2 ^ 88 + if poison then 2 ^ 122 else 0)

/-- R360 to R362: the records of a finished walk, with the END records that fill the last line. -/
def Beam.records (g : Beam) (w : BWork) (lane : Nat) : List (BitVec 128) :=
  let recs := (pixelsOf g.rootPoly).flatMap fun ((x, y), a) =>
    let ray := w.ray.contains (x, y)
    let fs := if ray then g.rayPixel w x y else analyticPixel w x y a
    (fs.foldr putFrag []).map (fragWord lane x y ray)
  recs ++ List.replicate (8 - recs.length % 8) (endWord lane false)

end Sys2Proof.Machine
end

