-- ==== Sys2Proof/Machine/BeamOps.lean ====
section
/-! DEFINITION. The beam engine's instructions (R363 to R367), the walk of the scene (R353, R354), and the events of traces
(R362, R366, R368 to R370). -/

namespace Sys2Proof.Machine

/-! ### Records -/

/-- The records of a team's pool that neither a beam nor a cell of a trace holds (R213, R355). -/
def State.freeBeams (s : State) (t : Team) : List Nat :=
  (List.range t.card.beamRec).filter fun k =>
    (tget t.beams k).isNone && !s.traces.any fun x => x.uid == t.uid && x.held.contains k

def State.trace? (s : State) (id : Nat) : Option Trace := s.traces.find? (·.id == id)

def State.updTrace (s : State) (id : Nat) (f : Trace → Trace) : State :=
  { s with traces := updFirst (·.id == id) f s.traces }

/-- R355: a trace's cells take free records of the pool, of the device's choice (log entry 63). -/
def takeRecs (id uid : Nat) : Nat → State → State
  | 0, s => s
  | n + 1, s =>
    match s.team? uid with
    | none => s
    | some t =>
      let free := s.freeBeams t
      let (s, i) := s.choose free.length
      let k := free.getD i 0
      takeRecs id uid n ((s.updTeam uid (·.poolClear k)).updTrace id fun x => { x with held := x.held ++ [k] })

/-- R355: the records of the pool that a trace holds for n cells. -/
def State.holdCells (s : State) (tr : Trace) (n : Nat) : State :=
  if n ≤ tr.held.length then s.updTrace tr.id fun x => { x with held := x.held.take n }
  else takeRecs tr.id tr.uid (n - tr.held.length) s

/-- The node task of a scene's root. -/
def Beam.rootTask (g : Beam) : BTask := { ty := 1, cnt := 1, va := g.root, n := none, inst := noInst, depth := 64 }

/-- R355: a trace starts with its root cell, which takes a record. A record whose check fails is found at the trace's first event. -/
def State.startTrace (s : State) (tr : Trace) : State :=
  let s := s.poolVerify tr.uid [tr.recIdx]
  match s.team? tr.uid with
  | none => s
  | some t =>
    match (tget t.beams tr.recIdx).bind fun r => Beam.of r.image with
    | none => s
    | some g =>
      let w := g.start (s.freeBeams t).length
      (s.holdCells tr w.cells.length).updTrace tr.id fun x => { x with walk := some (w, [g.rootTask]) }

/-- R364: BNEW of one lane. -/
def bnewLane (a : Src) (s : State) (p : Pk) (l : Lane) : State × Except Trap (List (Nat × Nat)) :=
  match s.laneRead p l.idx (p.read64 l 0 a.spec) 256 64 with
  | (s, .mmx t) => (s, .error t)
  | (s, .fault) => (s, .ok [(l.idx, 0x80000043)])
  | (s, .ok b) =>
    match Beam.of b, (s.team? p.iss.uid).map s.freeBeams with
    | none, _ => (s, .ok [(l.idx, 0x80000042)])
    | some _, some (k :: _) =>
      (s.updTeam p.iss.uid fun t => { t.poolClear k with beams := tset t.beams k { image := b } }, .ok [(l.idx, k + 1)])
    | some _, _ => (s, .ok [(l.idx, 0x80000041)])

/-- R133: the lanes of a per-lane command; a helper lane's destination receives 0. -/
def cmdLanes (f : State → Pk → Lane → State × Except Trap (List (Nat × Nat))) (s : State) (p : Pk) (l : Lane) :
    State × Except Trap (List (Nat × Nat)) :=
  if l.helper then (s, .ok [(l.idx, 0)]) else f s p l

/-- The issue of a command that acts lane by lane and ends at its issue. -/
def laneIssue (i : Instr) (h : Hdr) (f : State → Pk → Lane → State × Except Trap (List (Nat × Nat))) (s : State) : Answer :=
  issue i h s fun s p =>
    let (s, vs, ts) := runLanes (fun s l => cmdLanes f s p l) s (p.active h)
    .next (finishLanes i h p s vs [] ts)

def execBnew (h : Hdr) (d : Spec) (a : Src) (s : State) : Answer := laneIssue (.bnew h d a) h (bnewLane a) s

/-- R367: BFREE of one lane. A record whose trace has not ended stays allocated until then. -/
def bfreeLane (a : Src) (s : State) (p : Pk) (l : Lane) : State × Except Trap (List (Nat × Nat)) :=
  let k := (p.read32 l 0 a.spec).toNat
  match (s.team? p.iss.uid).bind fun t => if k == 0 then none else tget t.beams (k - 1) with
  | none => (s, .ok [(l.idx, 0x80000044)])
  | some b =>
    (s.updTeam p.iss.uid fun t =>
      { t with beams := if b.traced then tset t.beams (k - 1) { b with freed := true } else tdel t.beams (k - 1) },
     .ok [(l.idx, 0)])

def execBfree (h : Hdr) (d : Spec) (a : Src) (s : State) : Answer := laneIssue (.bfree h d a) h (bfreeLane a) s

/-- R365: BTRACE of one lane starts its trace. -/
def btraceLane (i : Instr) (h : Hdr) (d : Spec) (a b c : Src) (mask : BitVec 8) (pkt : Nat) (s : State) (p : Pk) (l : Lane) :
    State × Except Trap (List (Nat × Nat)) :=
  let k := (p.read32 l 0 a.spec).toNat
  let ring := (p.read32 l 0 b.spec).toNat
  let n := (p.read32 l 0 c.spec).toNat
  let trap (c : Cause) (addr info : Dword) : State × Except Trap (List (Nat × Nat)) :=
    (s, .error { lane := l.idx, cause := c, addr := addr, info := info })
  if n < 1 || n > 65536 then trap cILLOPD 0 0
  else if ring % 128 != 0 then trap cMISALIGN (dword ring) 0
  else if let some a := p.team.scrLow ring (128 * n) then trap cSCRBOUND (dword a) 0
  else
    match (s.team? p.iss.uid).bind fun t => if k == 0 then none else tget t.beams (k - 1) with
    | none => trap cENGINEF 0 2
    | some r =>
      if r.traced then trap cENGINEF 0 2
      else
        let id := s.nextId
        let d' := match d with
          | .v x => some x.toNat
          | _ => none
        let (s, keys) := s.keysFor p.iss.uid p.iss.grp
        let tr : Trace :=
          { id := id, uid := p.iss.uid, grp := p.iss.grp, lane := l.idx, pc := p.iss.pc, d := d', flag := p.flag h
            pkt := pkt, recIdx := k - 1, ring := ring, n := n, mask := mask.toNat, keys := keys
            waitSince := s.unitCyc p.iss.uid }
        let s := { s with nextId := id + 1, traces := s.traces ++ [tr] }
        let s := s.updTeam p.iss.uid fun t => { t with beams := tset t.beams (k - 1) { r with traced := true } }
        let s := s.startTrace tr
        let s := (List.range n).foldl (fun (s : State) j =>
          s.lineAwait p.iss.uid (ring / 128 + j)) s
        let s := s.fork p (.engine id p.iss.uid p.iss.grp) [l.idx]
        let s := s.kill p [l.idx] (shapeKills i.shape)
        (s.reserve p h id (dstRegs d 1 [l.idx]), .ok [])

/-- The issue of a command that starts an engine operation in each of its lanes: the flag stays up until the last ends. -/
def startIssue (i : Instr) (h : Hdr) (lanes : Pk → List Lane)
    (f : Nat → State → Pk → Lane → State × Except Trap (List (Nat × Nat))) (rest : Pk → List (Nat × Nat)) (s : State) :
    Answer :=
  issue i h s fun s p =>
    let pkt := s.nextId
    let ls := lanes p
    let (s, vs, ts) := runLanes (fun s l => f pkt s p l) { s with nextId := pkt + 1 } ls
    let go := p.iss.lanes.filter fun l => !(ts.map (·.lane)).contains l
    let none? := ls.all fun l => (ts.map (·.lane)).contains l.idx
    .next (finishSome i h p s go (vs ++ rest p) [] (if none? then p.flag h else none) ts)

def execBtrace (h : Hdr) (d : Spec) (a b c : Src) (mask : BitVec 8) (s : State) : Answer :=
  let i := Instr.btrace h d a b c mask
  startIssue i h (fun p => p.workers h) (btraceLane i h d a b c mask)
    (fun p => ((p.active h).filter (·.helper)).map fun l => (l.idx, 0)) s

/-! ### The walk -/

/-- A walk in progress. -/
structure Walk3 where
  s : State
  w : BWork
  stop : Option NodeStop := none

/-- What a walk knows of its trace. -/
structure WalkCtx where
  g : Beam
  core : Nat
  ctx : Nat
  tr : Trace

def Trace.tid (t : Trace) : Tid := .engine t.id t.uid t.grp

/-- R369, R421: an access of a trace; a conflict is recorded and the trace goes on. -/
def State.traceTouch (s : State) (t : Trace) (va : Dword) (ws : List RWord) (write : Bool) : State :=
  s.engineTouch t.tid ws write fun s w info =>
    s.engineRecord t.uid t.grp { cause := cMMX, source := 4, lane := t.lane, pc := t.pc, addr := w.nodeAddr va, info := info }

/-- Fetches a node for a walk. -/
def Walk3.fetch (x : Walk3) (k : WalkCtx) (va n : Nat) : Walk3 × Bytes :=
  match fetchNode x.s .beam k.core k.ctx k.tr.keys va n with
  | (s, .error e) => ({ x with s := s, stop := some e }, [])
  | (s, .ok (b, ws)) => ({ x with s := s.traceTouch k.tr (dword va) ws false }, b)

def Walk3.bad (x : Walk3) (va : Nat) : Walk3 := { x with stop := some (.format (dword va)) }

/-- A triangle leaf of a walk: the 48 bytes of each of its records. R351 rounds the leaf's size up to a multiple of 64, and R368 does
not say whether a fetch reads those bytes too: DESIGN CHOICE, it does not (log entry 70). -/
def walkTris (k : WalkCtx) (x : Walk3) (va cnt : Nat) (n : Option Xform) (inst : Nat) : Walk3 :=
  match x.fetch k va (48 * cnt) with
  | (x, b) =>
    if x.stop.isSome then x
    else
      -- records are taken in order, so those before a malformed one count
      (List.range cnt).foldl (fun (x : Walk3) j =>
        if x.stop.isSome then x
        else
          match parseTris (b.drop (48 * j)) 1 with
          | some [t] =>
            let v0 := toWorld n t.v0
            let v1 := toWorld n t.v1
            let v2 := toWorld n t.v2
            if k.g.culled [v0, v1, v2] then x else { x with w := k.g.triangle x.w v0 v1 v2 t.prim inst t.cullcw }
          | _ => x.bad va) x

/-- A procedural leaf of a walk. -/
def walkProc (k : WalkCtx) (x : Walk3) (va : Nat) (n : Option Xform) (inst : Nat) : Walk3 :=
  match x.fetch k va 64 with
  | (x, b) =>
    if x.stop.isSome then x
    else
      match parseProc b with
      | none => x.bad va
      | some l =>
        if k.g.culled ((corners l.lo l.hi).map (toWorld n)) then x else { x with w := k.g.proc x.w l n inst }

/-- R353, R354: the visit of a node, and the nodes below it that are to be visited next; culled children are not. -/
def walkTask (k : WalkCtx) (x : Walk3) (v : BTask) : Walk3 × List BTask :=
  if v.depth == 0 then (x.bad v.va, [])
  else
    match v.ty with
    | 1 =>
      match x.fetch k v.va 128 with
      | (x, b) =>
        if x.stop.isSome then (x, [])
        else
          match parseNode b with
          | none => (x.bad v.va, [])
          | some cs => (x, (cs.filter fun c => !k.g.culled ((corners c.lo c.hi).map (toWorld v.n))).map fun c =>
              { ty := c.ty, cnt := c.cnt, va := c.addr, n := v.n, inst := v.inst, depth := v.depth - 1 })
    | 2 => (walkTris k x v.va v.cnt v.n v.inst, [])
    | 3 => (walkProc k x v.va v.n v.inst, [])
    | _ =>
      if v.n.isSome then (x.bad v.va, [])
      else
        match x.fetch k v.va 128 with
        | (x, b) =>
          if x.stop.isSome then (x, [])
          else
            match parseInst b with
            | none => (x.bad v.va, [])
            | some i =>
              (x, if i.mask &&& k.tr.mask == 0 || i.n.det == 0 then []
                else [{ ty := 1, cnt := 1, va := i.root, n := some i.n, inst := i.id, depth := v.depth - 1 }])

/-- Visits at most `fuel` nodes, depth first. A stop leaves its node to be visited again (R368). -/
def walkRun (k : WalkCtx) : Nat → Walk3 → List BTask → Walk3 × List BTask
  | 0, x, l => (x, l)
  | _ + 1, x, [] => (x, [])
  | n + 1, x, v :: r =>
    match walkTask k x v with
    | (x, below) => if x.stop.isSome then (x, v :: r) else walkRun k n x (below ++ r)

/-- The nodes that one event of a trace visits at most (log entry 27). -/
def walkFuel : Nat := 4096

/-- The walk of a trace, from where it stands: its records when it has ended, or why it stops; none while nodes are left. -/
def State.beamWalk (s : State) (tr : Trace) : State × Option (Except NodeStop (List (BitVec 128))) :=
  let s := s.poolVerify tr.uid (tr.recIdx :: tr.held)
  match s.team? tr.uid, s.group? tr.uid tr.grp with
  | some t, some g =>
    -- a record of the poison form ends the trace as a poisoned node does (log entry 63)
    if t.poolBad (tr.recIdx :: tr.held) then (s, some (.error (.poison 0)))
    else
    match (tget t.beams tr.recIdx).bind fun r => Beam.of r.image with
    | none => (s, some (.ok []))
    | some b =>
      let k : WalkCtx := { g := b, core := g.core, ctx := t.ctx, tr := tr }
      let free := (s.freeBeams t).length
      let (w, todo) : BWork × List BTask := match tr.walk with
        | some (w, l) => ({ w with free := free }, l)
        | none => (b.start free, [b.rootTask])
      let (x, todo) := walkRun k walkFuel { s := s, w := w } todo
      let s := (x.s.holdCells tr x.w.cells.length).updTrace tr.id fun t => { t with walk := some (x.w, todo) }
      (s, match x.stop with
        | some e => some (.error e)
        | none => if todo.isEmpty then some (.ok (b.records x.w tr.lane)) else none)
  | _, _ => (s, some (.ok []))

/-- The records of a trace: those of its finished walk, or of a walk that goes on now. -/
def State.beamOut (s : State) (tr : Trace) : State × Option (Except NodeStop (List (BitVec 128))) :=
  match tr.out with
  | some l => (s, some (.ok l))
  | none =>
    match s.beamWalk tr with
    | (s, some (.ok l)) => (s.updTrace tr.id fun t => { t with out := some l }, some (.ok l))
    | x => x

/-! ### Ring lines and ends -/

/-- R370: may a trace go on? -/
def State.traceRuns (s : State) (tr : Trace) : Bool :=
  tr.parked.isNone && match s.team? tr.uid with
    | some t => t.state == .running || t.state == .exited
    | none => false

/-- Writes a ring line and sets it full (R362, R369). -/
def State.ringLine (s : State) (tr : Trace) (line : Nat) (recs : List (BitVec 128)) : State :=
  let a := tr.ring + 128 * line
  let b := recs.flatMap fun r => leBytes r.toNat 16
  let s := s.traceTouch tr 0 ((List.range 32).map fun w => .scr tr.uid (a / 4 + w)) true
  let s := s.updTeam tr.uid fun t => { t with scr := t.scr.write a b }
  let s := ({ s with race := s.race.landed (scrBytes tr.uid a 128) } : State).lineArrive tr.uid (a / 128) tr.tid
  s.updTrace tr.id fun t => { t with lines := t.lines + 1, waitSince := s.unitCyc t.uid }

/-- R366: a trace ends with a status. -/
def State.endTrace (s : State) (id : Nat) (status : Nat) : State :=
  match s.trace? id with
  | none => s
  | some tr =>
    let rest := if status == 0 then [] else (List.range tr.n).drop tr.lines
    let s := rest.foldl (fun (s : State) j => s.ringLine tr j (List.replicate 8 (endWord tr.lane (status == 2)))) s
    let lines := tr.lines + rest.length
    let s := { s with traces := s.traces.filter (·.id != id) }
    let s := s.updTeam tr.uid fun t =>
      match tget t.beams tr.recIdx with
      | some r => { t with beams := if r.freed then tdel t.beams tr.recIdx
                                    else tset t.beams tr.recIdx { r with traced := false } }
      | none => t
    let s := s.deliverOwner tr.uid tr.grp id
      [(tr.lane, tr.d.getD 0, word (status * 2 ^ 28 + min lines 0xFFFFFF))]
    s.engineDone tr.tid tr.uid tr.grp tr.flag (!s.traces.any fun o => o.pkt == tr.pkt) tr.pkt

/-- The record of a trace's fault, with its status (R366, R417). -/
def State.traceRecord (s : State) (tr : Trace) (cause : Cause) (status : Nat) (addr info : Dword) : State :=
  s.engineRecord tr.uid tr.grp
    { cause := cause, source := 4, lane := tr.lane, pc := tr.pc, addr := addr, code := status, info := info }

/-- R362: BEAM_RING_LINE_WRITE: the next eight records go into their ring line, once it is empty. -/
def execBeamRingLineWrite (trace : Nat) (s : State) : Answer :=
  match s.trace? trace with
  | none => .next s
  | some tr =>
    if !s.traceRuns tr then .next s
    else
      match s.beamOut tr with
      | (s', none) => .next s'
      | (_, some (.error _)) => .next s
      | (s', some (.ok recs)) =>
        let eight := (recs.drop (8 * tr.lines)).take 8
        let line := tr.lines % tr.n
        if eight.isEmpty || s.lineFull tr.uid (tr.ring / 128 + line) then .next s else .next (s'.ringLine tr line eight)

/-- R366: BEAM_TRACE_END: every line has been written, or the walk has met a fault that ends the trace. -/
def execBeamTraceEnd (trace : Nat) (s : State) : Answer :=
  match s.trace? trace with
  | none => .next s
  | some tr =>
    if !s.traceRuns tr then .next s
    else
      match s.beamOut tr with
      | (s', none) => .next s'
      | (s', some (.ok recs)) => if 8 * tr.lines ≥ recs.length then .next (s'.endTrace trace 0) else .next s
      | (_, some (.error (.pagef _))) => .next s
      | (s', some (.error (.poison va))) => .next ((s'.traceRecord tr cPOISON 2 va 0).endTrace trace 2)
      | (s', some (.error (.format va))) => .next ((s'.traceRecord tr cENGINEF 3 va 9).endTrace trace 3)
      | (s', some (.error (.denied c va))) => .next ((s'.traceRecord tr c 4 va 4).endTrace trace 4)

/-- R368: BEAM_TRACE_PAGEF: a node fetch meets V = 0; the trace parks with a record. -/
def execBeamTracePagef (trace : Nat) (s : State) : Answer :=
  match s.trace? trace with
  | none => .next s
  | some tr =>
    if !s.traceRuns tr then .next s
    else
      match s.beamOut tr with
      | (s', some (.error (.pagef va))) =>
        let (s', h) := s'.newHandle (((s.team? tr.uid).map (·.ctx)).getD 0)
        let s' := s'.updTrace trace fun t => { t with parked := some h }
        .next (s'.engineRecord tr.uid tr.grp
          { cause := cPAGEF, source := 4, disp := 3, kind := 1, lane := tr.lane, pc := tr.pc, addr := va, handle := h
            info := 4 })
      | _ => .next s

/-- R366: BEAM_RING_TIMEOUT: a ring line stays full past the park limit, which counts service cycles. -/
def execBeamRingTimeout (trace : Nat) (s : State) : Answer :=
  match s.trace? trace with
  | none => .next s
  | some tr =>
    if !s.traceRuns tr then .next s
    else
      match s.beamOut tr with
      | (s', none) => .next s'
      | (_, some (.error _)) => .next s
      | (s', some (.ok recs)) =>
        let ctx := ((s.team? tr.uid).map fun (t : Team) => t.ctx).getD 0
        if 8 * tr.lines < recs.length && s.lineFull tr.uid (tr.ring / 128 + tr.lines % tr.n)
            && s.pastLimit ctx (s.unitCyc tr.uid - tr.waitSince)
        then .next ((s'.traceRecord tr cENGINEF 1 0 9).endTrace trace 1) else .next s

/-- R366: a kill of the unit ends its traces with KILLED, without records. -/
def State.killTraces (s : State) (uid : Nat) : State :=
  (s.traces.filter (·.uid == uid)).foldl (fun (s : State) t => s.endTrace t.id 5) s

end Sys2Proof.Machine
end

