-- ==== Sys2Proof/Machine/Ray.lean ====
section
/-! DEFINITION. Ray traversals: RTRACE and RRESUME (R372, R373), the state area (R378), the walk of the scene (R374 to R377),
its faults (R380), and the events of traversals. -/

namespace Sys2Proof.Machine

/-! ### The state area (R378) -/

/-- R378: a node entry. -/
def nodeEnt (addr ty cnt depth : Nat) (inst : Bool) : Nat :=
  depth % 128 * 2 ^ 57 + addr % 2 ^ 57 / 64 * 64 + (cnt - 1) % 4 * 16 + (if inst then 8 else 0) + ty

def entAddr (e : Nat) : Nat := (((BitVec.ofNat 57 (e % 2 ^ 57 / 64 * 64)).signExtend 64 : Dword)).toNat
def entType (e : Nat) : Nat := e % 8
def entCnt (e : Nat) : Nat := nbits e 5 4 + 1
def entInst (e : Nat) : Bool := e.testBit 3
def entDepth (e : Nat) : Nat := nbits e 63 57

/-- The entry of a root (R375, R378). -/
def rootEnt (root : Nat) : Nat := nodeEnt root 1 1 1 false

/-- R378: does an entry keep the layout? An instance below an instance does: its visit breaks R354. -/
def entOk (inact : Bool) (e : Nat) : Bool :=
  1 ≤ entDepth e && entDepth e ≤ 64 && 1 ≤ entType e && entType e ≤ 4
    && (entType e == 2 || nbits e 5 4 == 0) && (!entInst e || inact)

def wordsAt (b : Bytes) (off n : Nat) : List Nat := (List.range n).map fun k => leAt b (off + 4 * k) 4

/-- R378, R379: what an area holds; none when a field breaks the layout. -/
def RayState.of (b : Bytes) : Option RayState :=
  let com := wordsAt b 0x40 6
  let depth := leAt b 0x80 1
  let fl := leAt b 0x81 1
  let inact := fl.testBit 1
  let stack := (List.range depth).map fun k => leAt b (0x88 + 8 * k) 8
  let root := leAt b 0x58 8
  let iref := leAt b 0x78 8
  if depth > 15 || fl > 3 || leAt b 0x83 5 != 0 || leAt b 0x74 4 != 0 || nbits (leAt b 0x50 4) 29 24 != 0
      || leAt b 0x54 4 ≥ 512 || !stack.all (entOk inact) || !canonical (dword root) || root % 128 != 0
      || (inact && !(entOk false iref && entType iref == 4)) then none
  else some { world := wordsAt b 0 8, object := wordsAt b 0x20 8, com := com, root := root, cand := wordsAt b 0x60 6
              instref := iref, dropped := fl.testBit 0, inact := inact, stack := stack }

def wordBytes (l : List Nat) : Bytes := l.flatMap fun w => leBytes w 4

/-- R378: the bytes of the area, with STATE. What the layout gives no meaning at the moment (the object ray and INSTREF
while INACT = 0, a hit while VALID = 0, a candidate while not suspended, entries past DEPTH) is taken from `free`. -/
def RayState.bytes (r : RayState) (st : Nat) (free : Bytes) : Bytes :=
  let some? (c : Bool) (off : Nat) (b : Bytes) : Bytes := if c then b else (free.drop off).take b.length
  let hit := (r.com.getD 4 0).testBit 31
  let b := wordBytes (r.world.take 8) ++ some? r.inact 0x20 (wordBytes (r.object.take 8))
    ++ some? hit 0x40 (wordBytes (r.com.take 4))
    ++ (if hit then wordBytes [r.com.getD 4 0] else wordBytes [0]) ++ wordBytes [r.com.getD 5 0]
    ++ leBytes r.root 8 ++ some? (st == 1) 0x60 (wordBytes (r.cand.take 5)) ++ wordBytes [0]
    ++ some? r.inact 0x78 (leBytes r.instref 8)
    ++ leBytes r.stack.length 1 ++ leBytes ((if r.dropped then 1 else 0) + (if r.inact then 2 else 0)) 1
    ++ leBytes st 1 ++ leBytes 0 5 ++ r.stack.flatMap (fun e => leBytes e 8)
  b ++ (free.drop b.length).take (256 - b.length)

/-- 256 bytes without a stated value (log entry 7). -/
def State.freeArea (s : State) : State × Bytes :=
  ({ s with choices := s.choices + 1 },
   (List.range 32).flatMap fun k => leBytes (Config.freeWord (0x10000 + 32 * s.choices + k)).toNat 8)

/-! ### Numbers of a ray -/

/-- The order of binary32 patterns that are no NaN, as integers. -/
def f32Key (b : Nat) : Option Int :=
  let m : Nat := b % 2 ^ 31
  if m > 0x7F800000 then none else some (if b / 2 ^ 31 % 2 == 1 then -(Int.ofNat m) else Int.ofNat m)

/-- a < b on binary32 patterns; false with a NaN. -/
def f32Lt (a b : Nat) : Bool :=
  match f32Key a, f32Key b with
  | some x, some y => x < y
  | _, _ => false

/-- A vector of binary32 patterns; none when a component is not finite. -/
def v3Of (l : List Nat) : Option V3 :=
  match l.map f32Rat with
  | [some x, some y, some z] => some ⟨x, y, z⟩
  | _ => none

/-- A ray in use: origin and direction. -/
structure RayLine where
  o : V3
  d : V3
  deriving DecidableEq, Repr

/-- A ray of eight words, when it can meet something (R374). -/
def rayLine (w : List Nat) : Option RayLine :=
  match v3Of (w.take 3), v3Of ((w.drop 4).take 3) with
  | some o, some d => if d == ⟨0, 0, 0⟩ then none else some ⟨o, d⟩
  | _, _ => none

def RayState.tmin (r : RayState) : Nat := r.world.getD 3 0
def RayState.tmax (r : RayState) : Nat := r.world.getD 7 0

/-- Sets the current TMAX. -/
def RayState.cut (r : RayState) (t : Nat) : RayState :=
  { r with world := r.world.take 7 ++ [t], object := r.object.take 7 ++ [t] }

/-- The statuses of R377. -/
def rayHIT : Nat := 0
def rayMISS : Nat := 1
def raySUSPEND : Nat := 2
def rayPOISON : Nat := 3
def rayFORMAT : Nat := 4
def rayPROT : Nat := 5

/-- R374: the status with which a ray ends at once. -/
def RayState.atOnce (r : RayState) : Option Nat :=
  if (rayLine r.world).isNone || (f32Rat r.tmin).isNone || (f32Rat r.tmax).isNone || f32Lt r.tmin 0
      || !f32Lt r.tmin r.tmax then some rayMISS
  else if !canonical (dword r.root) || r.root % 128 != 0 then some rayFORMAT
  else none

def RayState.valid (r : RayState) : Bool := (r.com.getD 4 0).testBit 31
def RayState.mask (r : RayState) : Nat := r.com.getD 5 0 % 256
def RayState.first (r : RayState) : Bool := (r.com.getD 5 0).testBit 8

/-- R376: would a hit at t of a primitive of an instance be committed? -/
def RayState.betters (r : RayState) (t prim inst : Nat) : Bool :=
  let c := r.com.getD 0 0
  let eq := !f32Lt t c && !f32Lt c t
  f32Lt r.tmin t && (f32Lt t r.tmax || f32Key t == f32Key r.tmax)
    && (!r.valid || f32Lt t c
        || (eq && (prim < r.com.getD 3 0 || (prim == r.com.getD 3 0 && inst < r.com.getD 4 0 % 2 ^ 24))))

/-- R376, R379: commits a hit. -/
def RayState.commit (r : RayState) (t b1 b2 prim inst : Nat) (proc : Bool) : RayState :=
  ({ r with com := [t, b1, b2, prim, inst % 2 ^ 24 + (if proc then 2 ^ 30 else 0) + 2 ^ 31, r.com.getD 5 0] } : RayState).cut t

/-- One axis of the slab test: the interval of t, none when it is empty, and nothing when every t passes. -/
def slabAxis (o d lo hi : Rat) : Option (Option (Rat × Rat)) :=
  if d == 0 then (if lo ≤ o && o ≤ hi then some none else none)
  else
    let a := (lo - o) / d
    let b := (hi - o) / d
    some (some (if a ≤ b then (a, b) else (b, a)))

/-- R375: the entry and exit of a closed box, when it passes the test. -/
def boxTest (r : RayState) (l : RayLine) (lo hi : V3) : Option (Rat × Rat) :=
  match f32Rat r.tmin, f32Rat r.tmax with
  | some tmin, some tmax =>
    match slabAxis l.o.x l.d.x lo.x hi.x, slabAxis l.o.y l.d.y lo.y hi.y, slabAxis l.o.z l.d.z lo.z hi.z with
    | some a, some b, some c =>
      match [a, b, c].filterMap id with
      | [] => none
      | x :: rest =>
        let e := rest.foldl (fun m y => max m y.1) x.1
        let f := rest.foldl (fun m y => min m y.2) x.2
        if e ≤ f && e ≤ tmax && tmin < f && tmin < tmax then some (e, f) else none
    | _, _, _ => none
  | _, _ => none

/-- R376: where a ray meets a triangle: t, b1 and b2 rounded. -/
def triHit (l : RayLine) (t : TriRec) : Option (Nat × Nat × Nat) :=
  let e1 := t.v1.sub t.v0
  let e2 := t.v2.sub t.v0
  -- O + t Dr = v0 + b1 e1 + b2 e2
  let det := det3 e1 e2 (l.d.smul (-1))
  if e1.cross e2 == ⟨0, 0, 0⟩ || det == 0 then none
  else
    let s := solve3 e1 e2 (l.d.smul (-1)) (l.o.sub t.v0)
    if s.x < 0 || s.y < 0 || s.x + s.y > 1 then none else some (ratF32 s.z, ratF32 s.x, ratF32 s.y)

/-- R375: pushes an entry; the oldest of fifteen is dropped. -/
def RayState.push (r : RayState) (e : Nat) : RayState :=
  if r.stack.length ≥ 15 then { r with stack := r.stack.drop 1 ++ [e], dropped := true }
  else { r with stack := r.stack ++ [e] }

/-- Puts a child with its entry t into the order of pushing: the greatest entry first, a tie with the higher index first. -/
def putChild (x : Rat × Nat) : List (Rat × Nat) → List (Rat × Nat)
  | [] => [x]
  | y :: r => if x.1 ≥ y.1 then x :: y :: r else y :: putChild x r

/-! ### The walk -/

/-- What one node of a traversal comes to. -/
inductive RayStep where
  | go (r : RayState) (iid : Option Nat) (rst : Bool)
  | done (status : Nat) (r : RayState)
  | stop (e : NodeStop)
  deriving DecidableEq, Repr

/-- What a walk knows of its traversal. -/
structure RayCtx where
  core : Nat
  ctx : Nat
  tr : Traversal

def Traversal.tid (t : Traversal) : Tid := .engine t.id t.uid t.grp

/-- R381, R421: an access of a traversal; a conflict is recorded and the traversal goes on. -/
def State.rayTouch (s : State) (t : Traversal) (va : Dword) (ws : List RWord) (write : Bool) : State :=
  s.engineTouch t.tid ws write fun s w info =>
    s.engineRecord t.uid t.grp
      { cause := cMMX, source := 5, lane := t.lane, pc := t.pc, addr := w.nodeAddr va, nlanes := 1, info := info }

def rayFetch (k : RayCtx) (s : State) (va n : Nat) : State × Except NodeStop Bytes :=
  match fetchNode s .ray k.core k.ctx k.tr.keys va n with
  | (s, .error e) => (s, .error e)
  | (s, .ok (b, ws)) => (s.rayTouch k.tr (dword va) ws false, .ok b)

/-- The instance id that holds for an entry: none outside instances, else that of the active instance, whose node is read
when the id is not known. -/
def rayIid (k : RayCtx) (s : State) (r : RayState) (e : Nat) (iid : Option Nat) : State × Except NodeStop Nat :=
  if !entInst e then (s, .ok noInst)
  else
    match iid with
    | some i => (s, .ok i)
    | none =>
      let va := entAddr r.instref
      match rayFetch k s va 128 with
      | (s, .error e) => (s, .error e)
      | (s, .ok b) =>
        match parseInst b with
        | some n => (s, .ok n.id)
        | none => (s, .error (.format (dword va)))

/-- R375: an internal node: its children that pass are pushed. -/
def rayInner (r : RayState) (l : Option RayLine) (e : Nat) (cs : List Child) : RayState :=
  match l with
  | none => r
  | some l =>
    let ks := (cs.zip (List.range cs.length)).filterMap fun (c, i) => (boxTest r l c.lo c.hi).map fun x => (x.1, i)
    let ord := ks.foldl (fun a x => putChild x a) []
    ord.foldl (fun (r : RayState) x =>
      match cs.drop x.2 with
      | c :: _ => r.push (nodeEnt c.addr c.ty c.cnt (entDepth e + 1) (entInst e))
      | [] => r) r

/-- R376: a triangle leaf, whole and in record order; true when FIRST ends the traversal. -/
def rayTris (r : RayState) (l : Option RayLine) (inst : Nat) (ts : List TriRec) : RayState × Bool :=
  match l with
  | none => (r, false)
  | some l => ts.foldl (fun (x : RayState × Bool) t =>
      if x.2 then x
      else
        match triHit l t with
        | some (tt, b1, b2) =>
          if x.1.betters tt t.prim inst then (x.1.commit tt b1 b2 t.prim inst false, x.1.first) else x
        | none => x) (r, false)

/-- R374: the object ray of an instance. -/
def objectRay (r : RayState) (n : Xform) : List Nat :=
  match rayLine r.world with
  | none => r.world
  | some l =>
    let o := n.app l.o
    let d := n.lin l.d
    [ratF32 o.x, ratF32 o.y, ratF32 o.z, r.tmin, ratF32 d.x, ratF32 d.y, ratF32 d.z, r.tmax]

/-- R375 to R377: one node of a traversal. -/
def rayNode (k : RayCtx) (s : State) (r : RayState) (iid : Option Nat) (rst : Bool) : State × RayStep :=
  match r.stack.getLast? with
  | none =>
    if !r.dropped then (s, .done (if r.valid then rayHIT else rayMISS) r)
    else (s, .go { r with dropped := false, inact := false, stack := [rootEnt r.root] } none true)
  | some e =>
    let va := entAddr e
    let below := entInst e
    if entDepth e > 64 || entDepth e == 0 || (below && entType e == 4) then (s, .stop (.format (dword va)))
    else
      match rayIid k s r e iid with
      | (s, .error x) => (s, .stop x)
      | (s, .ok inst) =>
        let l := rayLine (if below then r.object else r.world)
        let size := match entType e with
          | 2 => 48 * entCnt e
          | 3 => 64
          | _ => 128
        match rayFetch k s va size with
        | (s, .error x) => (s, .stop x)
        | (s, .ok b) =>
          let r' : RayState := { r with stack := r.stack.dropLast, inact := r.inact && below }
          let iid' := if below then some inst else none
          let bad : State × RayStep := (s, .stop (.format (dword va)))
          match entType e with
          | 1 =>
            match parseNode b with
            | none => bad
            | some cs =>
              -- R354, R378: a child's path may have 64 nodes
              let q := rayInner r' l e cs
              if entDepth e == 64 && q != r' then bad else (s, .go q iid' rst)
          | 2 =>
            match parseTris b (entCnt e) with
            | none => bad
            | some ts =>
              let (r', stop) := rayTris r' l inst ts
              if stop then (s, .done rayHIT r') else (s, .go r' iid' rst)
          | 3 =>
            match parseProc b with
            | none => bad
            | some p =>
              match l.bind fun l => boxTest r' l p.lo p.hi with
              | none => (s, .go r' iid' rst)
              | some (a, z) =>
                let lo (q : Rat) : Nat := match f32Rat r'.tmin with
                  | some m => if q < m then r'.tmin else ratF32 q
                  | none => ratF32 q
                let hi (q : Rat) : Nat := match f32Rat r'.tmax with
                  | some m => if q > m then r'.tmax else ratF32 q
                  | none => ratF32 q
                (s, .done raySUSPEND { r' with cand := [p.prim, p.routine, inst, lo a, hi z, 0] })
          | _ =>
            match parseInst b with
            | none => bad
            | some n =>
              if n.mask &&& r.mask == 0 || n.n.det == 0 then (s, .go r' none rst)
              else
                let obj := objectRay r' n.n
                if (rayLine obj).isNone then (s, .go r' none rst)
                else if entDepth e == 64 then bad
                else
                  let r' := { r' with object := obj, inact := true, instref := e }
                  (s, .go (r'.push (nodeEnt n.root 1 1 (entDepth e + 1) true)) (some n.id) rst)

/-- Where a run of a traversal stands. -/
structure RayRun where
  s : State
  r : RayState
  rst : Bool
  iid : Option Nat := none
  /-- how it ended, when it did -/
  out : Option (Except NodeStop Nat) := none

/-- Visits at most `fuel` nodes. -/
def rayRun (k : RayCtx) : Nat → RayRun → RayRun
  | 0, x => x
  | n + 1, x =>
    match rayNode k x.s x.r x.iid x.rst with
    | (s, .go r iid rst) => rayRun k n { s := s, r := r, rst := rst, iid := iid }
    | (s, .done st r) => { x with s := s, r := r, out := some (.ok st) }
    | (s, .stop e) => { x with s := s, out := some (.error e) }

/-- The nodes that one event of a traversal visits at most (log entry 27). -/
def rayFuel : Nat := 4096

/-! ### Issue (R372, R373) -/

/-- The bytes of a lane's state area in scratch, and whether they are poisoned. -/
def Team.rayArea (t : Team) (a : Nat) : Bytes × Bool := (mreadN t.scr.bytes a 256, poisoned t.scr.poison a 256)

/-- The words of a range of scratch. -/
def scrWords (uid a n : Nat) : List RWord := (List.range (n / 4)).map fun w => .scr uid (a / 4 + w)

/-- R373: the checks of a lane; the address of its state area. -/
def rayChecks (resume : Bool) (d : Spec) (c : Src) (s : State) (p : Pk) (l : Lane) : Except Trap Nat :=
  let a := (p.read32 l 0 c.spec).toNat
  let trap (k : Cause) (addr info : Dword) : Except Trap Nat := .error { lane := l.idx, cause := k, addr := addr, info := info }
  let dOk := match d with
    | .v n => n.toNat % 8 == 0 && n.toNat ≤ 120
    | _ => false
  if !dOk then trap cILLOPD 0 0
  else if a % 256 != 0 then trap cMISALIGN (dword a) 0
  else if let some x := p.team.scrLow a 256 then trap cSCRBOUND (dword x) 0
  else if resume && (s.team? p.iss.uid).map (fun t => mreadN t.scr.bytes (a + 0x82) 1) != some [1] then trap cENGINEF 0 3
  else .ok a

/-- The start of a lane's traversal: an engine thread whose eight registers wait for its end. -/
def State.startRay (s : State) (p : Pk) (h : Hdr) (d : Spec) (kills : List Nat) (pkt : Nat) (l : Lane) (t : Traversal) : State :=
  let (s, keys) := s.keysFor p.iss.uid p.iss.grp
  let id := s.nextId
  let tr := { t with id := id, uid := p.iss.uid, grp := p.iss.grp, lane := l.idx, pc := p.iss.pc, flag := p.flag h, pkt := pkt
                     keys := keys }
  let s := { s with nextId := id + 1, traversals := s.traversals ++ [tr] }
  let s := s.fork p (.engine id p.iss.uid p.iss.grp) [l.idx]
  let s := s.kill p [l.idx] kills
  s.reserve p h id (dstRegs d 8 [l.idx])

/-- A traversal before it has its number and its issue's fields. -/
def rayNew (d : Spec) (area : Nat) (r : RayState) (early : Option Nat) : Traversal :=
  { id := 0, uid := 0, grp := 0, lane := 0, pc := 0, flag := none, pkt := 0, keys := 0
    d := match d with
      | .v n => some n.toNat
      | _ => none
    area := area, ray := r, early := early }

def nats (l : List Word) : List Nat := l.map (·.toNat)

/-- R372: RTRACE of one lane. -/
def rtraceLane (i : Instr) (first : Bool) (mask : BitVec 8) (h : Hdr) (d : Spec) (a b c : Src) (root : BitVec 8) (pkt : Nat)
    (s : State) (p : Pk) (l : Lane) : State × Except Trap (List (Nat × Nat)) :=
  match rayChecks false d c s p l with
  | .error t => (s, .error t)
  | .ok area =>
    let rt := if root == 0xC6 then p.team.argp
      else join64 (p.grp.sreg (root.toNat - 0x80)) (p.grp.sreg (root.toNat - 0x7F))
    let world := nats (p.read128 l a.spec) ++ nats (p.read128 l b.spec)
    let r : RayState :=
      { world := world, object := world, com := [0, 0, 0, 0, 0, mask.toNat + (if first then 256 else 0)], root := rt.toNat
        cand := [0, 0, 0, 0, 0, 0], stack := [rootEnt rt.toNat] }
    (s.startRay p h d (shapeKills i.shape) pkt l (rayNew d area r r.atOnce), .ok [])

def execRtrace (first : Bool) (mask : BitVec 8) (h : Hdr) (d : Spec) (a b c : Src) (root : BitVec 8) (s : State) : Answer :=
  let i := Instr.rtrace first mask h d a b c root
  startIssue i h (fun p => p.active h) (rtraceLane i first mask h d a b c root) (fun _ => []) s

/-- R379: what RRESUME makes of a state area. -/
def rayResumed (sh cm : Bool) (t : Nat) (attr : Dword) (r : RayState) : RayState × Option Nat :=
  match r.atOnce with
  | some st => (r, some st)
  | none =>
    let prim := r.cand.getD 0 0
    let inst := r.cand.getD 2 0
    let won := cm && r.betters t prim inst
    let r := if won then r.commit t (lo32 attr).toNat (hi32 attr).toNat prim inst true else r
    let r' := if sh && f32Lt t r.tmax then r.cut t else r
    if won && r.first then (r, some rayHIT) else (r', none)

/-- R372, R373, R379: RRESUME of one lane: the engine thread reads the area and sets STATE := 0. -/
def rresumeLane (i : Instr) (sh cm : Bool) (h : Hdr) (d : Spec) (a b c : Src) (pkt : Nat) (s : State) (p : Pk) (l : Lane) :
    State × Except Trap (List (Nat × Nat)) :=
  match rayChecks true d c s p l with
  | .error t => (s, .error t)
  | .ok area =>
    let s := s.scrVerify p.iss.uid area 256
    let (img, bad) := ((s.team? p.iss.uid).map fun (t : Team) => t.rayArea area).getD ([], true)
    let none' : RayState := { world := [], object := [], com := [], root := 0, cand := [], stack := [] }
    let (r, early) :=
      if bad then (none', some rayPOISON)
      else
        match RayState.of img with
        | none => (none', some rayFORMAT)
        | some r => rayResumed sh cm (p.read32 l 0 a.spec).toNat (p.read64 l 0 b.spec) r
    let id := s.nextId
    let s := s.startRay p h d (shapeKills i.shape) pkt l (rayNew d area r early)
    match s.traversals.find? (·.id == id) with
    | none => (s, .ok [])
    | some tr =>
      let s := s.rayTouch tr 0 (scrWords p.iss.uid area 256) false
      let s := s.rayTouch tr 0 [.scr p.iss.uid ((area + 0x80) / 4)] true
      let s := { s with race := s.race.landed (scrBytes p.iss.uid (area + 0x82) 1) }
      let s := s.updTeam p.iss.uid fun t => { t with scr := t.scr.write (area + 0x82) [0] }
      (s, .ok [])

def execRresume (sh cm : Bool) (h : Hdr) (d : Spec) (a b c : Src) (s : State) : Answer :=
  let i := Instr.rresume sh cm h d a b c
  startIssue i h (fun p => p.active h) (rresumeLane i sh cm h d a b c) (fun _ => []) s

/-! ### Ends and parks -/

def State.trav? (s : State) (id : Nat) : Option Traversal := s.traversals.find? (·.id == id)

def State.updTrav (s : State) (id : Nat) (f : Traversal → Traversal) : State :=
  { s with traversals := updFirst (·.id == id) f s.traversals }

/-- R381: may a traversal go on? -/
def State.rayRuns (s : State) (tr : Traversal) : Bool :=
  !tr.parked && match s.team? tr.uid with
    | some t => t.state == .running || t.state == .exited
    | none => false

/-- R377, R381: the traversal writes its lane's state area with a STATE. -/
def State.writeArea (s : State) (tr : Traversal) (r : RayState) (st : Nat) : State :=
  let (s, free) := s.freeArea
  let s := s.rayTouch tr 0 (scrWords tr.uid tr.area 256) true
  let s := { s with race := s.race.landed (scrBytes tr.uid tr.area 256) }
  s.updTeam tr.uid fun t => { t with scr := t.scr.write tr.area (r.bytes st free) }

/-- R377: the result registers. -/
def rayResult (st : Nat) (r : RayState) (rst : Bool) : List Nat :=
  let proc := st == rayHIT && (r.com.getD 4 0).testBit 30
  let sw := st + (if proc then 16 else 0) + (if rst then 32 else 0)
  let five :=
    if st == rayHIT then
      [r.com.getD 0 0, r.com.getD 1 0, r.com.getD 2 0, r.com.getD 3 0, r.com.getD 4 0 % 2 ^ 24]
    else if st == raySUSPEND then
      [r.cand.getD 3 0, r.cand.getD 4 0, r.cand.getD 1 0, r.cand.getD 0 0, r.cand.getD 2 0]
    else [0x7F800000, 0, 0, 0xFFFFFFFF, 0x00FFFFFF]
  five ++ [sw, 0, 0]

/-- The traversal's operation is over; without results, D stays unwritten and no longer waits (R380). -/
def State.dropRay (s : State) (tr : Traversal) (vals : List Nat) : State :=
  let s := { s with traversals := s.traversals.filter (·.id != tr.id) }
  let s := s.deliverOwner tr.uid tr.grp tr.id
    ((vals.zip (List.range 8)).map fun (v, k) => (tr.lane, tr.d.getD 0 + k, word v))
  s.engineDone tr.tid tr.uid tr.grp tr.flag (!s.traversals.any fun o => o.pkt == tr.pkt) tr.pkt

/-- R377: a traversal ends with a status. -/
def State.endRay (s : State) (tr : Traversal) (st : Nat) (r : RayState) (rst : Bool) : State :=
  let s := if st == raySUSPEND then s.writeArea tr r 1 else s
  s.dropRay tr (rayResult st r rst)

def State.rayRecord (s : State) (tr : Traversal) (cause : Cause) (disp kind handle : Nat) (addr info : Dword) : State :=
  s.engineRecord tr.uid tr.grp
    { cause := cause, source := 5, disp := disp, kind := kind, lane := tr.lane, pc := tr.pc, addr := addr, handle := handle
      nlanes := 1, info := info }

/-- The end of a traversal that ends before its next node. -/
def State.endEarly (s : State) (tr : Traversal) (st : Nat) : State :=
  (if st == rayPOISON then s.rayRecord tr cPOISON 0 0 0 (dword tr.area) 0 else s).endRay tr st tr.ray tr.rst

/-- The run of a traversal from where it stands: its state area read again after a park or a save (R380, R381), its early
end, or its next nodes. -/
def State.runRay (s : State) (tr : Traversal) : RayRun :=
  match s.team? tr.uid, s.group? tr.uid tr.grp with
  | some t, some g =>
    let k : RayCtx := { core := g.core, ctx := t.ctx, tr := tr }
    match tr.early with
    | some st =>
      if st == rayPOISON then
        { s := s, r := tr.ray, rst := tr.rst, out := some (.error (.poison (dword tr.area))) }
      else { s := s, r := tr.ray, rst := tr.rst, out := some (.ok st) }
    | none =>
      if !tr.reload then rayRun k rayFuel { s := s, r := tr.ray, rst := tr.rst }
      else
        let s := s.scrVerify tr.uid tr.area 256
        let (b, bad) := (((s.team? tr.uid).getD t).rayArea tr.area)
        let s := s.rayTouch tr 0 (scrWords tr.uid tr.area 256) false
        if bad then { s := s, r := tr.ray, rst := tr.rst, out := some (.error (.poison (dword tr.area))) }
        else
          match RayState.of b with
          | none => { s := s, r := tr.ray, rst := tr.rst, out := some (.ok rayFORMAT) }
          | some r =>
            if (rayLine r.world).isNone then { s := s, r := r, rst := tr.rst, out := some (.ok rayMISS) }
            else rayRun k rayFuel { s := s, r := r, rst := tr.rst }
  | _, _ => { s := s, r := tr.ray, rst := tr.rst }

/-- R375, R377, R380: RAY_TRAVERSAL_END: the traversal runs to its end; one that takes more nodes than an event visits keeps
its place. -/
def execRayTraversalEnd (trav : Nat) (s : State) : Answer :=
  match s.trav? trav with
  | none => .next s
  | some tr =>
    if !s.rayRuns tr then .next s
    else
      let x := s.runRay tr
      match x.out with
      | none => .next (x.s.updTrav trav fun t => { t with ray := x.r, rst := x.rst, reload := false })
      | some (.ok st) => .next (x.s.endRay tr st x.r x.rst)
      | some (.error (.format _)) => .next (x.s.endRay tr rayFORMAT x.r x.rst)
      | some (.error (.poison va)) => .next ((x.s.rayRecord tr cPOISON 0 0 0 va 0).endRay tr rayPOISON x.r x.rst)
      | some (.error (.denied c va)) => .next ((x.s.rayRecord tr c 0 0 0 va 4).endRay tr rayPROT x.r x.rst)
      | some (.error (.pagef _)) => .next s

/-- R380: RAY_TRAVERSAL_PAGEF: a node fetch meets V = 0; the node stays on the stack, the state area is written with
STATE 2, and the team parks. For a terminating team the traversal ends with no write. -/
def execRayTraversalPagef (trav : Nat) (s : State) : Answer :=
  match s.trav? trav with
  | none => .next s
  | some tr =>
    if !s.rayRuns tr then .next s
    else
      let x := s.runRay tr
      match x.out, s.team? tr.uid with
      | some (.error (.pagef va)), some t =>
        if t.kill then .next ((x.s.rayRecord tr cPAGEF 0 0 0 va 4).dropRay tr [])
        else
          let (s, h) := x.s.newHandle t.ctx
          let s := s.writeArea tr x.r 2
          let s := s.updTrav trav fun t => { t with ray := x.r, rst := x.rst, reload := true, parked := true }
          .next ((s.rayRecord tr cPAGEF 2 1 h va 4).beginSave tr.uid .traversal h)
      | _, _ => .next s

end Sys2Proof.Machine
end

