-- ==== Sys2Proof/Machine/Launch.lean ====
section
/-! DEFINITION. Launches at work: the commands LAUNCH, CANCEL and CNTRD (R197 to R200), the declared-operand walk (R194), the
ready pools and the dealing of chunks (R187 to R192), the start of a unit (R183), and the completion of a level (R185). -/

namespace Sys2Proof.Machine

/-! ### LAUNCH -/

/-- R198: LAUNCH.card of one lane. Accepted or not, it is a strong access of its thread (R234). -/
def launchCardLane (a : Src) (s : State) (p : Pk) (l : Lane) : State × Except Trap (List (Nat × Nat)) :=
  match s.laneRead p l.idx (p.read64 l 0 a.spec) 128 128 with
  | (s, .mmx t) => (s, .error t)
  | (s, .fault) => ((s.joinStrong (p.tid l.idx)).1, .ok [(l.idx, 0x80000004)])
  | (s, .ok b) =>
    let (s, clk) := s.joinStrong (p.tid l.idx)
    match Card.of b with
    | none => (s, .ok [(l.idx, 0x80000001)])
    | some c =>
      let (s, r) := s.submit p.team.ctx c [] clk
      (s, .ok [(l.idx, r)])

def execLaunchCard (h : Hdr) (d : Spec) (a : Src) (s : State) : Answer :=
  laneIssue (.launchCard h d a) h (launchCardLane a) s

/-- R198: LAUNCH.arm: the status, and the counter when it is armed. -/
def State.armCounter (s : State) (ctx i b c : Nat) : State × Nat :=
  let parent := if c.testBit 31 then some (c % 8192) else none
  if i > 8191 || b / 2 ^ 22 != 0 || nbits b 21 20 == 0 || b.testBit 19 || nbits c 30 13 != 0 then (s, 0x80000008)
  else if (s.counter i).state != .idle then (s, 0x80000007)
  else if s.refuseChild ctx parent != 0 then (s, s.refuseChild ctx parent)
  else
    let k : Counter := { state := .opened, owner := ctx, level := nbits b 21 20, pending := 1, parent := parent
                         donePort := b % 65536, doneDev := nbits b 18 16 }
    let s := { s with race := { s.race with cntClk := tdel s.race.cntClk i } }
    ((s.setCounter i k).addChild parent, 0)

def launchArmLane (a b c : Src) (s : State) (p : Pk) (l : Lane) : State × Except Trap (List (Nat × Nat)) :=
  let (s, _) := s.joinStrong (p.tid l.idx)
  let (s, r) := s.armCounter p.team.ctx (p.read32 l 0 a.spec).toNat (p.read32 l 0 b.spec).toNat (p.read32 l 0 c.spec).toNat
  (s, .ok [(l.idx, r)])

def execLaunchArm (h : Hdr) (d : Spec) (a b c : Src) (s : State) : Answer :=
  laneIssue (.launchArm h d a b c) h (launchArmLane a b c) s

/-- R198: LAUNCH.seal. An IDLE counter has no owner, so it counts as one that the context does not own: the rule does not say
which of 0x80000005 and 0x80000006 it gives (log entry 60). -/
def State.sealCounter (s : State) (ctx i : Nat) : State × Nat :=
  let k := s.counter i
  if i > 8191 then (s, 0x80000008)
  else if k.state == .idle || k.owner != ctx then (s, 0x80000006)
  else if k.state != .opened then (s, 0x80000005)
  else ((s.setCounter i { k with state := .sealed, pending := k.pending - 1 }).evalAll, 0)

def launchSealLane (a : Src) (s : State) (p : Pk) (l : Lane) : State × Except Trap (List (Nat × Nat)) :=
  let (s, clk) := s.joinStrong (p.tid l.idx)
  let i := (p.read32 l 0 a.spec).toNat
  let (s, r) := s.sealCounter p.team.ctx i
  let s := if r == 0 then
      { s with race := { s.race with cntClk := tset s.race.cntClk i (clkJoin (tgetD s.race.cntClk i []) clk) } } else s
  (s, .ok [(l.idx, r)])

def execLaunchSeal (h : Hdr) (d : Spec) (a : Src) (s : State) : Answer :=
  laneIssue (.launchSeal h d a) h (launchSealLane a) s

/-! ### CANCEL -/

/-- R196: kills a unit: its queued and parked copies, its traces and its waiting matrix entries end. An EXITED unit, or one
killed before, is left as it is. -/
def State.killUnit (s : State) (uid : Nat) : State :=
  match s.team? uid with
  | none => s
  | some t =>
    if t.state == .exited || (t.kill && !t.terminated) then s
    else (((s.killCmds uid).killTraces uid).dropEntries uid).terminate uid true

/-- R195: the cancel of one launch; one that waits for its operands is complete with it. -/
def State.cancelLaunch (s : State) (kill : Bool) (id : Nat) : State :=
  let waits := ((s.launch? id).map fun l => l.state == .waitOp).getD false
  let s := s.updLaunch id fun l => { l with state := .cancelling, ranges := [], cancelled := true, walkDue := false, handle := 0 }
  let mine := (s.units.filter (·.launch == id)).map (·.uid)
  let s := { s with units := s.units.map fun t => if t.launch == id then { t with cancelBit := true } else t }
  if waits then ((s.launch? id).map s.completeLaunch).getD s
  else if kill then mine.foldl State.killUnit s
  else s

/-- R198: the cancel of one counter: a seal hold is dropped. -/
def State.cancelCounter (s : State) (i : Nat) : State :=
  let k := s.counter i
  match k.state with
  | .idle => s
  | .opened => s.setCounter i { k with state := .cancelling, status := 2, pending := k.pending - 1 }
  | _ => s.setCounter i { k with state := .cancelling, status := 2 }

/-- R198: does a parent chain reach a counter? Chains have no cycles: a counter is armed only under an OPEN one. -/
def State.reaches (s : State) (i : Nat) : Nat → Option Nat → Bool
  | 0, _ => false
  | _ + 1, none => false
  | n + 1, some p => p == i || s.reaches i n (s.counter p).parent

/-- R198: CANCEL of a launch (`cnt` clear) or of a counter and all that is below it. -/
def State.cancel (s : State) (ctx : Nat) (cnt kill : Bool) (x : Nat) : State × Nat :=
  if cnt then
    let k := s.counter x
    if x > 8191 || k.state == .idle || k.owner != ctx then (s, 0x80000005)
    else
      let n := s.counters.length + 1
      let below := (s.counters.filter fun e => s.reaches x n e.2.parent).map (·.1)
      let ls := (s.launches.filter fun l => s.reaches x n l.card.parent).map (·.id)
      -- the counters' PENDING has fallen: START patterns that name them are evaluated again (R329)
      ((ls.foldl (fun s l => State.cancelLaunch s kill l) ((x :: below).foldl State.cancelCounter s)).evalAll, 0)
  else
    match s.launch? x with
    | some l => if l.ctx == ctx then ((s.cancelLaunch kill x).evalAll, 0) else (s, 0x80000005)
    | none => (s, 0x80000005)

def cancelLane (cnt kill : Bool) (a : Src) (s : State) (p : Pk) (l : Lane) : State × Except Trap (List (Nat × Nat)) :=
  let (s, _) := s.joinStrong (p.tid l.idx)
  let (s, r) := s.cancel p.team.ctx cnt kill (p.read32 l 0 a.spec).toNat
  (s, .ok [(l.idx, r)])

def execCancel (cnt kill : Bool) (h : Hdr) (d : Spec) (a : Src) (s : State) : Answer :=
  laneIssue (.cancel cnt kill h d a) h (cancelLane cnt kill a) s

/-! ### CNTRD -/

def cntCode : CntState → Nat
  | .idle => 0
  | .opened => 1
  | .sealed => 2
  | .cancelling => 3

def launchCode : LaunchState → Nat
  | .waitOp => 0
  | .ready => 1
  | .running => 2
  | .cancelling => 3

/-- R199: the pair, as one number with the high word above. -/
def State.cntRead (s : State) (ctx : Nat) (cnt : Bool) (x : Nat) : Nat :=
  if cnt then
    let k := s.counter x
    if x > 8191 || k.state == .idle || k.owner != ctx then 0
    else
      k.pending + cntCode k.state * 2 ^ 24 + k.status * 2 ^ 28
        + (k.level + (match k.parent with
            | some p => 2 ^ 15 + p * 2 ^ 16
            | none => 0)) * 2 ^ 32
  else
    match s.launch? x with
    | none => 0
    | some l =>
      if l.ctx != ctx then 0
      else
        let undealt := (l.ranges.map fun e => e.2.2 - e.2.1).sum
        let live := (s.units.filter fun t => t.launch == x && !s.complete t).length
        undealt % 2 ^ 32 + (live % 65536 + launchCode l.state * 65536) * 2 ^ 32

/-- The key of a completed counter's clock. -/
def cntDoneKey (i : Nat) : Nat := 8192 + i

/-- R199, R200: CNTRD of one lane: an acquire; it joins a completion that it reads: of a counter that is IDLE, or of a launch that is
no longer live. -/
def cntrdLane (cnt : Bool) (a : Src) (s : State) (p : Pk) (l : Lane) : State × Except Trap (List (Nat × Nat)) :=
  let x := (p.read32 l 0 a.spec).toNat
  let v := s.cntRead p.team.ctx cnt x
  let clk :=
    if cnt then (if (s.counter x).state == .idle then tgetD s.race.cntClk (cntDoneKey x) [] else [])
    else if (s.launch? x).isNone then tgetD s.race.doneClk x [] else []
  let (s, _) := s.joinStrong (p.tid l.idx)
  let s := ({ s with race := s.race.acquire (p.tid l.idx) clk } : State).acquired p.iss.uid p.iss.grp p.grp.core .dev
  (s, .ok [(l.idx, v)])

def execCntrd (cnt : Bool) (h : Hdr) (d : Spec) (a : Src) (s : State) : Answer :=
  laneIssue (.cntrd cnt h d a) h (cntrdLane cnt a) s

/-! ### The declared-operand walk (R194) -/

/-- The first bytes of the pages that n bytes from an address cover. -/
def pagesOf (a n : Nat) : List Dword :=
  if n == 0 then []
  else (rangeFrom (a / 4096) ((a + n - 1) / 4096 + 1 - a / 4096)).map fun k => dword (max a (4096 * k))

/-- The rows of a record's dimensions from d on, as offsets. -/
def rowOffs (r : TRec) (d : Nat) : List Nat :=
  (List.range (at5 r.ext d)).map fun i => i * at5 r.str d

/-- R194, R279: an address in every page that a record covers, over all extents of its dimensions. -/
def TRec.pages (r : TRec) : List Dword :=
  let offs := [2, 3, 4].foldl (fun l d => (rowOffs r d).flatMap fun o => l.map (· + o)) (rowOffs r 1)
  offs.flatMap fun o => pagesOf (r.base + o) (at5 r.ext 0 * r.n)

/-- R282: the descriptor of record k of a launch as loaded from RECTAB; none when the load fails or it is invalid. -/
def loadRec (s : State) (user : Option Nat) (ctx : Nat) (tab : Dword) (k : Nat) : State × Option Bytes :=
  if tab == 0 || tab.toNat % 64 != 0 then (s, none)
  else
    match devRead s user ctx (s.keysOf ctx) (tab + dword (64 * k)) 64 with
    | (s, .ok (_, b)) => (s, if recValid b then some b else none)
    | (s, .error _) => (s, none)

/-- Walks pages until one is absent. -/
def walkPages (ctx : Nat) (s : State) : List Dword → State × Option Dword
  | [] => (s, none)
  | va :: r =>
    if !canonical va then walkPages ctx s r
    else
      match translate s none ctx va.toNat false with
      | (s, .absent _) => (s, some va)
      | (s, _) => walkPages ctx s r

/-- Walks the declared records of a card. -/
def walkRecs (ctx : Nat) (tab : Dword) (s : State) : List Nat → State × Option Dword
  | [] => (s, none)
  | k :: r =>
    match loadRec s none ctx tab k with
    | (s, none) => walkRecs ctx tab s r
    | (s, some b) =>
      match walkPages ctx s (TRec.of b).pages with
      | (s, some va) => (s, some va)
      | (s, none) => walkRecs ctx tab s r

/-- R194: DECLARED_OPERAND_WALK: the launch becomes READY, or it waits with a record. -/
def execDeclaredOperandWalk (launch : Nat) (s : State) : Answer :=
  match s.launch? launch with
  | none => .next s
  | some l =>
    if l.state != .waitOp || !l.walkDue then .next s
    else
      match walkRecs l.ctx l.card.recTab s (l.card.decl.filter (· < 64)) with
      | (s, none) => .next (s.makeReady launch)
      | (s, some va) =>
        let (s, h) := s.newHandle l.ctx
        let s := s.updLaunch launch fun l => { l with walkDue := false, handle := h }
        .next (s.record l.ctx { cause := cPAGEF, source := 7, disp := 4, kind := 1, addr := va, launch := launch
                                handle := h })

/-! ### The start of a unit (R132, R183, R282) -/

/-- R132, R371: the thread index of a lane, and whether the card's mode lays threads out as pixels. -/
def threadIdx (mode g l : Nat) : Nat :=
  if mode == 3 then
    16 * (16 * g + 2 * (l / 32) + l / 2 % 2) + (2 * (l / 4 % 8) + l % 2)
  else 256 * g + l

/-- R132: a thread at its start: ordinary (false), a helper (true), or exited. -/
def threadStart (mode count g l : Nat) : Option Bool :=
  let ord (l : Nat) : Bool := threadIdx mode g l < count
  if mode == 0 || ord l then some false
  else if mode == 1 then none
  else if (rangeFrom (l / 4 * 4) 4).any ord then some true
  else none

/-- The lanes of a group that start. -/
def startLanes (c : Card) (count g : Nat) : List Lane :=
  (List.range 256).filterMap fun l => (threadStart c.helperMode count g l).map fun h => { idx := l, pc := c.entry, helper := h }

/-- The s-registers at the start (R13, R183, R331). -/
def startRegs (argp : Dword) (first count : Nat) (msgs : List Dword) : NMap Word :=
  let m := tput (tput (tput (tput [] 0 (lo32 argp) 0) 1 (hi32 argp) 0) 2 (word first) 0) 3 (word count) 0
  if msgs.isEmpty then m
  else
    let w := msgWords msgs
    (List.range w.length).foldl (fun m i => tput m (8 + i) (w.getD i 0) 0) m

/-- The smallest team instance id that no unit of a launch holds (R192). -/
def State.freshTeam (s : State) (launch : Nat) : Nat :=
  let used := (s.units.filter (·.launch == launch)).map (·.team)
  ((List.range (used.length + 1)).find? fun i => !used.contains i).getD used.length

/-- R282: loads the 64 records of a team. -/
def loadRecs (s : State) (user : Option Nat) (ctx : Nat) (tab : Dword) : State × NMap Bytes :=
  (List.range 64).foldl (fun (x : State × NMap Bytes) k =>
    match loadRec x.1 user ctx tab k with
    | (s, some b) => (s, tset x.2 k b)
    | (s, none) => (s, x.2)) (s, [])

/-- R183, R192, R200: admits a team and starts its unit. -/
def State.startUnit (s : State) (l : Launch) (stack cluster : Nat) (cores : List Nat) (first count : Nat) : State :=
  let c := l.card
  let argp := c.argBase + dword first * dword c.argStride.toNat
  let gs := (List.range c.groups).map fun g =>
    ({ idx := g, role := c.roleOf g, floor := c.regFloor, s := startRegs argp first count l.msgs
       lanes := startLanes c count g } : Group)
  let clk := tgetD s.race.launchClk l.id []
  -- R179: the start acquires what the launch's acceptance released
  let olds := ((s.ctx? l.ctx).map (·.tabOlds)).getD []
  let unseen := olds.filter fun o => !o.after.any fun e => decide (e.2 ≤ tgetD clk e.1 0)
  let gs := (placeGroups s cores c.k gs).map fun g => { g with tabOlds := unseen }
  let uid := s.nextUid
  let (s, recs) := loadRecs s cores.head? l.ctx c.recTab
  let t : Team :=
    { uid := uid, ctx := l.ctx, launch := l.id, team := s.freshTeam l.id, card := c, stack := stack, cluster := cluster
      cores := cores, first := first, count := count, argp := argp, groups := gs, recs := recs, admitSeq := s.nextSeq }
  let race := if clk.isEmpty then s.race else
    gs.foldl (fun (r : Race) g => g.lanes.foldl (fun (r : Race) ln => r.start (.lane uid g.idx ln.idx) clk) r) s.race
  let s := { s with units := s.units ++ [t], nextUid := uid + 1, nextSeq := s.nextSeq + 1, race := race }
  (cores.foldl State.l1Invalidate s).settle uid

/-! ### The ready pool (R187 to R190) -/

/-- R188: the team places of a launch on a stack. -/
def State.teamPlaces (s : State) (c : Card) (stack : Nat) : Nat :=
  ((rangeFrom (32 * stack) 32).filter (s.coreOpen c.client)).length / c.k * (32 / cdiv c.groups (4 * c.k))

/-- R188: the records of the next chunk. -/
def chunkLen (c : Card) (rem t : Nat) : Nat := min rem (max c.chunkMin (cdiv rem (c.chunkDiv * t)))

/-- R190: does launch a rank before launch b on a stack? -/
def State.ranksBefore (s : State) (stack : Nat) (a b : Launch) : Bool :=
  let ua := s.unmet a.card.client stack
  let ub := s.unmet b.card.client stack
  let pa := min a.card.prio (s.chan a.card.client).prioCap
  let pb := min b.card.prio (s.chan b.card.client).prioCap
  (ua && !ub) || (ua == ub && (pb < pa || (pa == pb && a.readySeq < b.readySeq)))

def State.putRanked (s : State) (stack : Nat) (a : Launch) : List Launch → List Launch
  | [] => [a]
  | x :: r => if s.ranksBefore stack a x then a :: x :: r else x :: s.putRanked stack a r

/-- The launches that a stack's pool may deal, by rank (R190, R431). -/
def State.pool (s : State) (stack : Nat) : List Launch :=
  (s.launches.filter fun l => l.readyOn stack && !s.heldChan l.card.client stack).foldr (s.putRanked stack) []

/-- R190: the cluster of a stack with the most free group slots. The rule does not say which of several with equally many is meant:
DESIGN CHOICE, the one with the lowest number (log entry 69). -/
def State.roomiest (s : State) (stack : Nat) : Nat :=
  let free (k : Nat) : Nat := ((rangeFrom (16 * k) 16).map fun q => (s.openSlots q).length).sum
  (stackClusters stack).foldl (fun b k => if free k > free b then k else b) (8 * stack)

/-- R188, R195: deals the next chunk of a launch to a cluster's cores. -/
def State.deal (s : State) (l : Launch) (stack cluster : Nat) (cores : List Nat) : State :=
  match tget l.ranges stack with
  | none => s
  | some (lo, hi) =>
    let n := chunkLen l.card (hi - lo) (s.teamPlaces l.card stack)
    let s := s.startUnit l stack cluster cores lo n
    s.updLaunch l.id fun l =>
      let ranges := tset l.ranges stack (lo + n, hi)
      { l with
        ranges := ranges
        passed := tdel l.passed stack
        state := if ranges.all fun e => e.2.1 ≥ e.2.2 then .running else l.state }

/-- R190: a launch that did not fit is passed over. -/
def State.passOver (s : State) (id stack : Nat) : State :=
  s.updLaunch id fun l =>
    { l with passed := if (tget l.passed stack).isSome then l.passed else tset l.passed stack (s.stackCyc stack, false) }

/-- R190: deals to the first launch of the ranking that fits; `shut`: clusters that take no team of the ranks that follow. -/
def dealTop (stack : Nat) : List Launch → List Nat → State → State
  | [], _, s => s
  | l :: r, shut, s =>
    match (stackClusters stack).findSome? fun k =>
        if shut.contains k then none else (s.fitNew l.card k).map fun c => (k, c) with
    | some (k, cores) => s.deal l stack k cores
    | none =>
      let blocking := ((tget l.passed stack).map (·.2)).getD false
      dealTop stack r (if blocking then s.roomiest stack :: shut else shut) (s.passOver l.id stack)

/-- R188, R192: CHUNK_DEAL: a stack's pool deals one chunk. A cluster to which a waiting frame can return takes no new team
(R193, R440). -/
def execChunkDeal (stack : Nat) (s : State) : Answer :=
  if stack ≥ 4 then .next s
  else
    let s := s.reap.serveWaits
    let shut := (stackClusters stack).filter fun k => (s.nextRestore k).isSome
    .next (dealTop stack (s.pool stack) shut s)

/-- R190: LAUNCH_BLOCKING: a launch passed over for more than 1,048,576 service cycles. -/
def execLaunchBlocking (stack launch : Nat) (s : State) : Answer :=
  match (s.launch? launch).bind fun l => tget l.passed stack with
  | some (since, false) =>
    if s.stackCyc stack - since > 1048576 then
      .next (s.updLaunch launch fun l => { l with passed := tset l.passed stack (since, true) })
    else .next s
  | _ => .next s


/-- R185: LEVEL_COMPLETION of a launch or a counter. -/
def execLevelCompletion (cnt : Bool) (id : Nat) (s : State) : Answer :=
  let s := s.reap
  if cnt then
    let k := s.counter id
    if !k.done then .next s
    else
      let clk := tgetD s.race.cntClk id []
      let s := s.postDone k.owner 0 k.donePort k.doneDev (doneMsg k.status k.level id) clk
      let s := s.endChild k.parent k.status clk
      let s := { s with race := { s.race with cntClk := tset (tdel s.race.cntClk id) (cntDoneKey id) clk } }
      .next (s.setCounter id {}).evalAll
  else
    match s.launch? id with
    | none => .next s
    | some l =>
      if !s.launchDone l then .next s
      else .next (s.completeLaunch l).evalAll

end Sys2Proof.Machine
end

