-- ==== Sys2Proof/Machine/Save.lean ====
section
/-! DEFINITION. Saves and restores of teams (R139, R318, R423 to R426, R435 to R440), RESUME (R427, R428), and the events by which
waits of groups end (R28, R35, R137). -/

namespace Sys2Proof.Machine

/-! ### Waits of groups -/

/-- R28: LINE_WAIT_RELEASE: a lane whose line's WAIT flags are clear passes its WAIT check. -/
def execLineWaitRelease (uid grp lane : Nat) (s : State) : Answer :=
  match s.team? uid with
  | some t => if t.state == .running && !t.kill then .next (releaseWaits s uid grp (some lane)) else .next s
  | none => .next s

/-- The results in flight that no engine owns. -/
def Group.results (g : Group) : List Pending := g.inflight.filter (·.owner.isNone)

/-- Delivers a result in flight. -/
def Group.deliverOne (g : Group) (q : Pending) : Group :=
  ({ g with inflight := g.inflight.eraseIdx ((g.inflight.findIdx? (· == q)).getD 0) } : Group).deliver q

/-- The lanes to which a result in flight goes. -/
def Pending.lanes (q : Pending) : List Nat := (q.regs.map (·.1) ++ q.preds.map (·.1)).eraseDups

/-- The lanes that receive their result together with a lane. -/
def Pending.setOf (q : Pending) (l : Nat) : List Nat := (q.sets.find? (·.contains l)).getD [l]

/-- A result in flight reaches one of its lanes and those that receive theirs with it; the rest of it, and its flag, stay in
flight. -/
def Group.deliverLane (g : Group) (q : Pending) (l : Nat) : Group :=
  let ls := q.setOf l
  let part : Pending :=
    { regs := q.regs.filter fun e => ls.contains e.1, preds := q.preds.filter fun e => ls.contains e.1, flag := none }
  let rest : Pending :=
    { q with regs := q.regs.filter fun e => !ls.contains e.1, preds := q.preds.filter fun e => !ls.contains e.1 }
  ({ g with inflight := updFirst (· == q) (fun _ => rest) g.inflight } : Group).deliver part

/-- R275: does a CCTL.map in flight wait for a lookup that was issued before it and read one of its lines? -/
def State.mapHeld (s : State) (q : Pending) : Bool :=
  !q.mapDrop.isEmpty && s.units.any fun t => t.groups.any fun g => g.inflight.any fun o =>
    o.seq < q.seq && o.mapRead.any q.mapDrop.contains

/-- Does a result arrive with another: of a load that was put off, the same registers of a lane of its set? -/
def Pending.arrivesWith (x q : Pending) : Bool :=
  q.pkt != 0 && x.pkt == q.pkt && x.regs.map (·.2.1) == q.regs.map (·.2.1)
    && q.lanes.any fun l => x.lanes.any (q.setOf l).contains

/-- Delivers results of a group by their numbers, their accesses performed. -/
def State.deliverAt (s : State) (uid grp : Nat) (g : Group) (ks : List Nat) : State :=
  (s.settleLates uid grp (ks.filterMap fun j => (g.results[j]?).filter (·.late.isSome))).updGroup uid grp fun g =>
    (ks.filterMap fun j => g.results[j]?).foldl (fun g q => g.deliverOne q) g

/-- The numbers of the results that arrive with a result, its own among them. -/
def Group.arriving (g : Group) (k : Nat) (q : Pending) : List Nat :=
  (List.range g.results.length).filter fun j => j == k || ((g.results[j]?).map (·.arrivesWith q)).getD false

/-- R34, R35, R125: LONG_LATENCY_COMPLETE: the registers of a long-latency instruction are written and its flag falls; an access
in flight is performed with it (R236). Numbers from the number of results on name a lane of a result: the lanes of a packet may
receive theirs at different times (R414), but for those of one set (R399). -/
def execLongLatencyComplete (uid grp k : Nat) (s : State) : Answer :=
  match s.group? uid grp with
  | none => .next s
  | some g =>
    match g.results[k]? with
    | some q =>
      if s.mapHeld q then .next s
      else .next ((if q.mapDrop.isEmpty then s else { s with filters := [] }).deliverAt uid grp g (g.arriving k q))
    | none =>
      match ((g.results.filter (·.late.isNone)).flatMap fun q => q.lanes.map fun l => (q, l))[k - g.results.length]? with
      | some (q, l) =>
        -- of a load that was put off, the lanes of a set have results of their own
        let j := g.results.findIdx (· == q)
        if (g.arriving j q).length > 1 then .next (s.deliverAt uid grp g (g.arriving j q))
        else .next (s.updGroup uid grp (·.deliverLane q l))
      | none => .next s

/-- R137: CLAIM_WAIT_SERVED. -/
def execClaimWaitServed (quad : Nat) (s : State) : Answer :=
  .next (s.serveQuad quad)

/-- R139: the youngest team with a group on a quadrant. -/
def State.youngestOn (s : State) (q : Nat) : Option Team :=
  let ts := s.units.filter fun t => t.state == .running && t.groups.any fun g => !g.lanes.isEmpty && g.quadNo == q
  let top := ts.foldl (fun a t => max a t.admitSeq) 0
  ts.find? (·.admitSeq == top)

/-- R139: is a quadrant in register shortage: one of its groups waits for a claim, and none has issued for 1,024 cycles of the
core's counter? -/
def State.shortage (s : State) (q : Nat) : Bool :=
  !(s.unserved q).isEmpty && s.coreCyc (q / 4) - tgetD s.issuedAt q 0 ≥ 1024

/-- R139: REGISTER_SHORTAGE: the quadrant's youngest team is force-saved. While a team of the quadrant is being saved, its
places are still to come free. R137: the waits that fit now are served first. -/
def execRegisterShortage (quad : Nat) (s0 : State) : Answer :=
  let s := s0.serveQuad quad
  let saving := s.units.any fun t => t.state == .saving && t.groups.any fun g => !g.lanes.isEmpty && g.quadNo == quad
  if !s.shortage quad || saving then .next s
  else
    match s.youngestOn quad with
    | none => .next s
    | some t =>
      if t.kill then .next s
      else
        let (s, h) := s.newHandle t.ctx
        .next (s.beginSave t.uid .forced h)

/-! ### The end of a save (R423, R435, R436) -/

/-- R121: the results in flight that no engine owns are delivered. -/
def Group.deliverAll (g : Group) : Group :=
  let mine := g.inflight.filter (·.owner.isNone)
  mine.foldl Group.deliver { g with inflight := g.inflight.filter (·.owner.isSome) }

/-- R222, R334: accesses and posts that wait are cancelled; a WAIT's pattern stays (R338). -/
def Group.cancelWaits (g : Group) : Group :=
  let gone := g.fes.filter fun w => !w.isWait
  gone.foldl (fun (g : Group) w => match w.flag with
    | some f => g.decFlag f
    | none => g) { g with fes := g.fes.filter (·.isWait) }

/-- R423 steps 2 and 3 for a group. R424 has no field for a YIELD that no issue has followed, so a save ends it (log entry 22). -/
def Group.quiesce (g : Group) : Group :=
  let g := g.deliverAll.cancelWaits
  { g with
    waits := [], yielded := [], lastLanes := []
    lanes := g.lanes.map fun l => { l with repN := none, line := none } }

/-- R436: a command's reads of its team's scratch or slots are completed. -/
def State.captureCmd (s : State) (c : Cmd) : State :=
  match c.cap, c.kind.src with
  | none, some sp =>
    let n := srcBytes c.kind c.trec
    let s := s.spotVerify c.uid c.id (some sp) 0 n
    let s := s.cmdTouch c (ownAddrs (s.spotWords c.uid c.id sp 0 n)) false
    s.updCmd c.id fun x => { x with cap := some (s.spotRead c.uid c.id sp 0 n) }
  | _, _ => s

/-- The commands of a team that have not ended. -/
def State.openCmds (s : State) (uid : Nat) : List Cmd := s.cmds.filter fun c => c.uid == uid && c.state != .ended

/-- R381: a traversal stops at a node boundary, its area written with STATE 2. One that ends before its next node has its result
(R435). -/
def State.suspendRay (s : State) (v : Traversal) : State :=
  match v.early with
  | some st => s.endEarly v st
  | none =>
    -- an area that waits to be read again holds what the last save left, or what software has put there since (R426)
    let s := if v.parked || v.reload then s else s.writeArea v v.ray 2
    s.updTrav v.id fun v => { v with reload := true }

/-- R425, R426: writes the FSTATE of a frame. -/
def State.setFstate (s : State) (uid st : Nat) : State :=
  match s.team? uid with
  | none => s
  | some t =>
    match t.frame with
    | none => s
    | some f =>
      let s := (devWrite s t.ctx (f.va + 4) ([BitVec.ofNat 8 st, BitVec.ofNat 8 f.reason.code] ++ leBytes t.card.groups 2)).1
      s.updTeam uid fun t => { t with frame := some { f with fstate := st } }

/-- R390: the CCTL.map operations of a team complete. -/
def State.mapsDone (s : State) (uid : Nat) : State :=
  if ((s.team? uid).map fun t => t.groups.any fun g => g.inflight.any fun q => !q.mapDrop.isEmpty).getD false then
    { s with filters := [] }
  else s

/-- R231: the checks of what a save reads: the team's windows, its slots and its beam pool. -/
def State.saveVerify (s : State) (uid : Nat) : State :=
  match s.team? uid with
  | none => s
  | some t =>
    let s := s.scrVerify uid 0 (2 ^ 25)
    let s := t.ops.foldl (fun s e => s.slotVerify uid false e.1 0 0 opBytes) s
    let s := t.accs.foldl (fun s e => s.slotVerify uid true e.1 0 0 accBytes) s
    s.poolVerify uid (List.range t.card.beamRec)

/-- R423 steps 3 to 5: the frame is written and the team's places come free. -/
def State.writeSave (s : State) (uid : Nat) : State :=
  let s := ((s.flushUnit uid).drainGranted uid).mapsDone uid
  let s := s.updTeam uid fun t => { t with groups := t.groups.map Group.quiesce }
  let s := (s.openCmds uid).foldl State.captureCmd s
  let s := ((s.travOf uid).foldl State.suspendRay s).saveVerify uid
  match s.team? uid with
  | none => s
  | some t =>
    match t.frame with
    | none => s
    | some f =>
      -- accesses that ended since the save began no longer count in FSIZE
      let size := t.frameSize (s.entriesOf uid) (s.travOf uid)
      let s := s.updTeam uid fun t => { t with frame := some { f with size := size } }
      let s := (devWrite s t.ctx f.va (t.frameBytes 1 f.reason.code (s.entriesOf uid) (s.travOf uid))).1
      let st : UnitState := match f.reason with
        | .trap | .traversal => .parked
        | .forced | .drain => .saved
      let s := (s.updTeam uid fun t => { t with state := st }).setFstate uid 2
      if f.resumed then s.setFstate uid 3 else s

/-- R275: does a CCTL.map of a team wait for another team's lookup of a line that it drops? -/
def State.mapsHeld (s : State) (t : Team) : Bool :=
  t.groups.any fun g => g.inflight.any fun q => ({ s with units := s.units.filter (·.uid != t.uid) } : State).mapHeld q

/-- R423: TEAM_SAVE_COMPLETE. The granted matrix entries of the team end first (R318). A CCTL.map of the team completes first (R275). Without a forwarding entry, parked copies
end with TERM, and the save waits for the copies into the team's scratch or slots (R437). -/
def execTeamSaveComplete (uid : Nat) (s : State) : Answer :=
  match s.team? uid with
  | none => .next s
  | some t =>
    if t.state != .saving then .next s
    else if s.mapsHeld t || s.granting uid then .next s
    else
      let bare := if (t.frame.bind (·.entry)).isSome then [] else (s.openCmds uid).filter (·.isCopy)
      let parked := bare.filter (·.state == .parked)
      if !parked.isEmpty then .next (parked.foldl (fun s c => s.endWith c 4) s)
      else if bare.any (·.kind.dst.isSome) then .next s
      else .next (s.writeSave uid)

/-! ### Restores (R426, R428, R439, R440) -/

/-- R428: the restore's check of a header: every field but FSTATE. -/
def headerOk (b mine : Bytes) : Bool :=
  let same (off n : Nat) : Bool := (b.drop off).take n == (mine.drop off).take n
  same 0 4 && same 5 0x1D && same 0x28 0x28 && same 0x80 0xA8

/-- R428: the check of a group section: its number, its size, and LIVE against U. -/
def sectionOk (g : Group) (b : Bytes) (size : Nat) : Bool :=
  leAt b 0 2 == g.idx && leAt b 4 4 == size && leAt b 8 2 == (bytesBits ((b.drop 0x28).take 16)).length
    && leAt b 8 2 == g.claims.length

/-- The sections of a team's groups in its frame, as read. -/
def groupSections (t : Team) (trav : List Traversal) (nent : Nat) (b : Bytes) : List (Group × Bytes × Nat) :=
  t.groups.map fun g =>
    (g, b.drop (t.sectionOff nent trav g.idx), g.gsize (trav.filter (·.grp == g.idx)).length)

/-- R428: does a frame pass the restore's check? -/
def frameOk (t : Team) (f : Frame) (trav : List Traversal) (nent : Nat) (b : Bytes) : Bool :=
  headerOk b (t.frameHeader f.size 4 f.reason.code nent)
    && (groupSections t trav nent b).all fun (g, x, n) => sectionOk g x n

/-- R435: a lane as it stands after a restore: waits that were cancelled execute again, entries repeat. A malformed PC that
software has written raises BRTGT at the first issue (R428). -/
def Lane.restart (now : Nat) (l : Lane) : Lane :=
  { l with
    cause := 0
    entry := match l.entry with
      | .none => if pcMalformed l.pc then .fresh false else .none
      | .fresh tr | .waiting tr | .passed tr => .fresh tr
    park := match l.park with
      | some (.wait, _) => some (.wait, now)
      | _ => none }

/-- R426, R439: a team rebuilt from the bytes of its frame, at new places. -/
def Team.rebuilt (t : Team) (s : State) (cores : List Nat) (trav : List Traversal) (nent : Nat) (b : Bytes) : Team :=
  let gs := (groupSections t trav nent b).map fun (g, x, _) =>
    let g := g.reload x
    g
  let scr := t.card.cols.foldl (fun w col => w.reload t.card.scratch col (b.drop (t.colOff nent trav col))) t.scr
  { t with
    state := .running
    frame := none
    cores := cores
    cluster := clusterOf (cores.headD 0)
    stack := stackOf (cores.headD 0)
    groups := (placeGroups s cores t.card.k gs).map fun g => { g with lanes := g.lanes.map (Lane.restart (s.coreCyc g.core)) }
    scr := scr
    admitSeq := s.nextSeq }

/-- The key of the clock that a RESUME of an object released. -/
def resumeKey (handle : Nat) : Nat := 2 ^ 20 + handle

/-- R427: the restart of a team acquires what its RESUME released: its lanes, and the operations that go on with its frame. -/
def State.joinResume (s : State) (uid handle : Nat) : State :=
  let clk := tgetD s.race.cntClk (resumeKey handle) []
  match s.team? uid with
  | none => s
  | some t =>
    let lanes := t.groups.flatMap fun g => g.lanes.map fun l => Tid.lane uid g.idx l.idx
    let ops := (s.travOf uid).map (fun v => Tid.engine v.id uid v.grp)
      ++ (s.traces.filter fun x => x.uid == uid && x.parked.isNone).map (fun x => Tid.engine x.id uid x.grp)
      ++ (s.matrix.filter (·.uid == uid)).map fun e => Tid.engine e.id uid e.grp
    let race := (lanes ++ ops).foldl (fun (r : Race) t => r.acquire t clk) s.race
    { s with race := { race with cntClk := tdel race.cntClk (resumeKey handle) } }

/-- R319, R370, R381: what a restored team had under way goes on: its matrix entries are posted anew, behind what the new
cluster's table holds, its traversals are submitted again, and the waits of its traces begin anew. The rules name no room in the
reservation table as a condition of a restore: DESIGN CHOICE, the saved entries are posted also where the table then holds more than 64
(log entry 69). -/
def State.reposted (s : State) (uid : Nat) : State :=
  let now := s.unitCyc uid
  { s with
    traversals := s.traversals.map fun v => if v.uid == uid then { v with parked := false } else v
    traces := s.traces.map fun t => if t.uid == uid then { t with waitSince := now } else t
    matrix := s.matrix.filter (·.uid != uid)
      ++ (s.matrix.filter (·.uid == uid)).map fun e => { e with posted := now, aged := false } }

/-- R427: the restart of a team is an acquire of device scope in each of its groups. -/
def State.restoreAcquires (s : State) (uid handle : Nat) : State :=
  let s := s.joinResume uid handle
  match s.team? uid with
  | none => s
  | some t => t.groups.foldl (fun s g => s.acquired uid g.idx g.core .dev) s

/-- R439, R440: TEAM_RESTORE: the first waiting frame that fits a cluster returns there. A frame that cannot be read, or that
fails the check, terminates its unit with a record (R428). -/
def execTeamRestore (uid cluster : Nat) (s : State) : Answer :=
  let s' := s.reap.serveWaits
  if cluster ≥ 32 then .next s
  else
    match s'.nextRestore cluster with
    | none => .next s
    | some (t, cores) =>
      match t.frame with
      | none => .next s
      | some f =>
        if t.uid != uid then .next s
        else
          let s := s'.setFstate uid 4
          let nent := s.entriesOf uid
          let trav := s.travOf uid
          let bad (s : State) : State :=
            (s.record t.ctx { cause := cENGINEF, source := 8, disp := 1, launch := t.launch, team := t.team
                              info := 11 }).terminate uid false
          match devRead s none t.ctx 0 f.va f.size with
          | (s, .error _) => .next (bad s)
          | (s, .ok (_, b)) =>
            if !frameOk t f trav nent b then .next (bad s)
            else
              -- R316: the windows of the new cluster that have passed knew nothing of the team
              let s := s.govSync cluster
              let s := { s.updTeam uid fun t => t.rebuilt s cores trav nent b with nextSeq := s.nextSeq + 1 }
              .next (((s.reposted uid).restoreAcquires uid f.handle).settle uid)

/-! ### RESUME (R427 to R429) -/

/-- A team frame that waits for RESUME (R428). -/
def Team.waitsResume (t : Team) : Bool :=
  match t.frame with
  | some f => (match f.reason with
      | .trap | .traversal => true
      | .forced | .drain => false) && !f.resumed && (f.fstate == 1 || f.fstate == 2)
  | none => false

/-- R428: resumes a team's frame: READY now, or at the end of the save. What the RESUME released is kept for the restore. -/
def State.resumeTeam (s : State) (t : Team) (clk : Clock) : State :=
  match t.frame with
  | some f =>
    let race := s.race
    let s : State := if clk.isEmpty then s else { s with race := { race with cntClk := tset race.cntClk (resumeKey f.handle) clk } }
    let s := s.updTeam t.uid fun t => { t with frame := some { f with resumed := true } }
    if f.fstate == 2 then s.setFstate t.uid 3 else s
  | none => s

/-- R427: the restart of an engine operation acquires what its RESUME released. -/
def State.restart (s : State) (t : Tid) (clk : Clock) : State := { s with race := s.race.acquire t clk }

/-- R428: a parked copy restarts; a collective goes back to its engine. R293 does not say where the copy then stands in its queue, or
whether it takes an entry: DESIGN CHOICE, it stands at its old place, ahead of the commands that were issued after it, also when 32
entries are held (log entry 43). -/
def State.resumeCmd (s : State) (c : Cmd) (clk : Clock) : State :=
  (s.restart c.tid clk).updCmd c.id fun c => { c with
    handle := 0
    since := s.stackCyc (stackOf c.core)
    state := match c.kind with
      | .coll .. => .collWait
      | _ => .queued }

/-- R368: a parked trace goes on. -/
def State.resumeTrace (s : State) (t : Trace) (clk : Clock) : State :=
  (s.restart (.engine t.id t.uid t.grp) clk).updTrace t.id fun t => { t with parked := none, waitSince := s.unitCyc t.uid }

/-- R194: the declared-operand walk of a launch is to be made again. What the RESUME released happens before the launch's
threads. -/
def State.resumeWalk (s : State) (l : Launch) (clk : Clock) : State :=
  let race := s.race
  let c := clkJoin (tgetD race.launchClk l.id []) clk
  ({ s with race := { race with launchClk := if clk.isEmpty then race.launchClk else tset race.launchClk l.id c } } : State).updLaunch l.id
    fun l => { l with walkDue := true, handle := 0 }

/-- What waits for RESUME: its handle and its launch, and what RESUME makes of the state (R428). -/
structure Waiter where
  handle : Nat
  launch : Nat
  go : Clock → State → State

/-- R428: the objects of a context that wait for RESUME. -/
def State.waiters (s : State) (ctx : Nat) : List Waiter :=
  let launchOf (uid : Nat) : Nat := ((s.team? uid).map (·.launch)).getD 0
  ((s.units.filter fun t => t.ctx == ctx && t.waitsResume).map fun t =>
      ({ handle := (t.frame.map (·.handle)).getD 0, launch := t.launch, go := fun c s => s.resumeTeam t c } : Waiter))
    ++ ((s.cmds.filter fun c => c.state == .parked && s.ctxOf c.uid == ctx).map fun c =>
      ({ handle := c.handle, launch := launchOf c.uid, go := fun k s => s.resumeCmd c k } : Waiter))
    ++ ((s.traces.filter fun t => t.parked.isSome && s.ctxOf t.uid == ctx).map fun t =>
      ({ handle := t.parked.getD 0, launch := launchOf t.uid, go := fun c s => s.resumeTrace t c } : Waiter))
    ++ ((s.launches.filter fun l => l.ctx == ctx && l.state == .waitOp && l.handle != 0).map fun l =>
      ({ handle := l.handle, launch := l.id, go := fun c s => s.resumeWalk l c } : Waiter))

/-- R427: resumes an object; its restart synchronises with the RESUME. -/
def State.resume (s : State) (w : Waiter) (clk : Clock) : State := w.go clk s

/-- R427: RESUME of the object that the 64 bytes of a record name. -/
def State.resumeRecord (s : State) (ctx : Nat) (b : Bytes) (clk : Clock) : State × Nat :=
  let h := leAt b 0x20 8
  if leAt b 3 1 == 0 || tget s.handles h != some ctx then (s, 0x80000053)
  else
    match (s.waiters ctx).find? (·.handle == h) with
    | none => (s, 0x80000051)
    | some w => (s.resume w clk, 0)

/-- R427: RESUME of every waiting object of a launch. -/
def State.resumeLaunch (s : State) (ctx launch : Nat) (clk : Clock) : State × Nat :=
  if !s.launches.any fun l => l.id == launch && l.ctx == ctx then (s, 0x80000055)
  else
    let ws := (s.waiters ctx).filter (·.launch == launch)
    (ws.foldl (fun s w => s.resume w clk) s, ws.length)

def resumeRecLane (a : Src) (s : State) (p : Pk) (l : Lane) : State × Except Trap (List (Nat × Nat)) :=
  match s.laneRead p l.idx (p.read64 l 0 a.spec) 64 64 with
  | (s, .mmx t) => (s, .error t)
  | (s, .fault) => ((s.joinStrong (p.tid l.idx)).1, .ok [(l.idx, 0x80000052)])
  | (s, .ok b) =>
    let (s, clk) := s.joinStrong (p.tid l.idx)
    let (s, r) := s.resumeRecord p.team.ctx b clk
    (s, .ok [(l.idx, r)])

def execResumeRec (h : Hdr) (d : Spec) (a : Src) (s : State) : Answer :=
  laneIssue (.resumeRec h d a) h (resumeRecLane a) s

def resumeLaunchLane (a : Src) (s : State) (p : Pk) (l : Lane) : State × Except Trap (List (Nat × Nat)) :=
  let (s, clk) := s.joinStrong (p.tid l.idx)
  let (s, r) := s.resumeLaunch p.team.ctx (p.read32 l 0 a.spec).toNat clk
  (s, .ok [(l.idx, r)])

def execResumeLaunch (h : Hdr) (d : Spec) (a : Src) (s : State) : Answer :=
  laneIssue (.resumeLaunch h d a) h (resumeLaunchLane a) s

/-- R429: a write of RESCTL: KIND and CTX are kept, and GO makes the RESUME. -/
def State.resCtl (s : State) (w : Word) : State :=
  let kind := nbits w.toNat 29 28
  let ctx := nbits w.toNat 23 16
  let s := { s with bar0 := { s.bar0 with resKind := kind, resCtx := ctx } }
  if !w.getLsbD 31 then s
  else
    let (s, r) :=
      if kind ≥ 2 then (s, 0x80000053)
      else if (s.ctx? ctx).isNone then (s, if kind == 0 then 0x80000053 else 0x80000055)
      else if kind == 1 then s.resumeLaunch ctx (s.bar0.resAddr.toNat % 2 ^ 32) []
      else if s.bar0.resAddr.toNat % 64 != 0 then (s, 0x80000052)
      else
        match devRead s none ctx 0 s.bar0.resAddr 64 with
        | (s, .error _) => (s, 0x80000052)
        | (s, .ok (_, b)) => s.resumeRecord ctx b []
    { s with bar0 := { s.bar0 with resStat := word r } }

end Sys2Proof.Machine
end

