-- ==== Sys2Proof/Machine/Bar0.lean ====
section
/-! DEFINITION. BAR0: the register map (R452, R466), what a register reads as, and what a write does to it, with the host's
events that are register writes. -/

namespace Sys2Proof.Machine

/-! ### The map -/

/-- The registers of BAR0 (R452, R453, R465, R466, R480). A counter is named by its offset. -/
inductive Reg where
  | devstat | uid | cfgid | vf (d i : Nat) | vfcur (d : Nat) | vfstat | pwrlim | pwrstat | cntclr | temp (n : Nat)
  | counter (off : Nat)
  | scfg (u : Nat) | sctl (u : Nat) | slo (u : Nat) | smin (u : Nat) | smax (u : Nat) | scount (u : Nat) | bin (u i : Nat)
  | vsplit | mgov | pwstat | linkstat | tlbiaddr | tlbictl | resaddr | resctl | resstat | ctxbase | ctxctl
  | devnum | peermap | bar4win | hdmsize | peerbase (d : Nat) | stkcnt (s : Nat)
  | chcfg (c : Nat) | chpre (c : Nat) | rsvmask (c s : Nat)
  | fbcfg (k : Nat) | fbstat (k : Nat) | fbbase (k : Nat)
  | hctl (h : Nat) | hbase (h : Nat) | hpitch (h : Nat) | hact (h : Nat) | htot (h : Nat) | hsync (h : Nat) | vsync (h : Nat)
  | pclk (h : Nat) | hstat (h : Nat)
  deriving DecidableEq, Repr

/-- The 64-bit registers. -/
def Reg.wide : Reg → Bool
  | .uid | .tlbiaddr | .resaddr | .ctxbase | .peerbase _ | .stkcnt _ | .fbbase _ | .hbase _ => true
  | _ => false

/-- R480: the registers of a sounding unit. -/
def soundingReg (u o : Nat) : Option Reg :=
  if o == 0 then some (.scfg u) else if o == 4 then some (.sctl u) else if o == 8 then some (.slo u)
  else if o == 0x10 then some (.smin u) else if o == 0x14 then some (.smax u) else if o == 0x18 then some (.scount u)
  else if 0x40 ≤ o && o % 4 == 0 then some (.bin u ((o - 0x40) / 4)) else none

/-- R465: the registers of a display head. -/
def headReg (h o : Nat) : Option Reg :=
  match o with
  | 0x00 => some (.hctl h)
  | 0x08 => some (.hbase h)
  | 0x10 => some (.hpitch h)
  | 0x14 => some (.hact h)
  | 0x18 => some (.htot h)
  | 0x1C => some (.hsync h)
  | 0x20 => some (.vsync h)
  | 0x24 => some (.pclk h)
  | 0x28 => some (.hstat h)
  | _ => none

/-- R466: the management registers at an offset below 0x4_0000. -/
def manageReg (off : Nat) : Option Reg :=
  if off % 4 != 0 then none
  else if off == 0 then some .devstat else if off == 8 then some .uid else if off == 0x10 then some .cfgid
  else if 0x100 ≤ off && off < 0x200 then some (.vf ((off - 0x100) / 0x40) (off % 0x40 / 4))
  else if 0x200 ≤ off && off < 0x210 then some (.vfcur ((off - 0x200) / 4))
  else if off == 0x210 then some .vfstat else if off == 0x218 then some .pwrlim else if off == 0x21C then some .pwrstat
  else if off == 0x220 then some .cntclr
  else if 0x1000 ≤ off && off < 0x1200 then
    if off % 0x80 / 0x20 < 3 then some (.temp ((off - 0x1000) / 0x80 * 24 + off % 0x80 / 0x20 * 8 + off % 0x20 / 4)) else none
  else if (0x2000 ≤ off && off < 0x2800) || (0x3000 ≤ off && off < 0x3810) then some (.counter off)
  else if 0x4000 ≤ off && off < 0x5000 then soundingReg ((off - 0x4000) / 0x80) (off % 0x80)
  else none

/-- R452: the host and fabric registers, by their offset from 0x4_0000. -/
def fabricReg (o : Nat) : Option Reg :=
  if o % 4 != 0 then none
  else if o == 0 then some .vsplit else if o == 0x08 then some .mgov else if o == 0x10 then some .pwstat
  else if o == 0x18 then some .linkstat else if o == 0x20 then some .tlbiaddr else if o == 0x28 then some .tlbictl
  else if o == 0x30 then some .resaddr else if o == 0x38 then some .resctl else if o == 0x3C then some .resstat
  else if o == 0x40 then some .ctxbase else if o == 0x48 then some .ctxctl else if o == 0x50 then some .devnum
  else if o == 0x54 then some .peermap else if o == 0x58 then some .bar4win else if o == 0x5C then some .hdmsize
  else if 0x60 ≤ o && o < 0xA0 then (if o % 8 == 0 then some (.peerbase ((o - 0x60) / 8)) else none)
  else if 0xA0 ≤ o && o < 0xC0 then (if o % 8 == 0 then some (.stkcnt ((o - 0xA0) / 8)) else none)
  else if 0x100 ≤ o && o < 0x500 then
    let c := (o - 0x100) / 0x40
    let r := o % 0x40
    if r == 0 then some (.chcfg c) else if r == 4 then some (.chpre c)
    else if 0x10 ≤ r && r < 0x20 then some (.rsvmask c ((r - 0x10) / 4)) else none
  else if 0x800 ≤ o && o < 0xC00 then
    let k := (o - 0x800) / 0x10
    let r := o % 0x10
    if r == 0 then some (.fbcfg k) else if r == 4 then some (.fbstat k) else if r == 8 then some (.fbbase k) else none
  else if 0x1000 ≤ o && o < 0x1100 then headReg ((o - 0x1000) / 0x40) (o % 0x40)
  else none

/-- R452: the register that begins at an offset; none at an offset that is not listed. -/
def regAt (off : Nat) : Option Reg :=
  if off < 0x40000 then manageReg off else if off < 0x4000000 then fabricReg (off - 0x40000) else none

/-! ### The board's record (R470) -/

/-- A 2-byte limit of domain d at an offset of LIM[d]. -/
def State.lim (s : State) (d o : Nat) : Nat := leAt s.board.record (0x28 + 16 * d + o) 2
def State.pwrMax (s : State) : Nat := leAt s.board.record 0x68 2
def State.tjMax (s : State) : Nat := leAt s.board.record 0x6A 2

/-- R472: the identity public key's bytes. -/
def State.identity (s : State) : Bytes := leBytes (Config.identityKey s.board.puf s.board.helper).toNat 57

/-- Has step 2 of start-up passed? -/
def State.step2 (s : State) : Bool := s.dev.stage ≥ 3

/-! ### Channels, heads, points -/

/-- R430, R432: STATE of CHPRE. A unit that has exited in its frame holds no place. -/
def State.chanState (s : State) (c : Nat) : Nat :=
  if (s.chan c).pre == 0 then 0
  else if s.units.any fun t => t.resident && !t.cores.isEmpty && !s.complete t && t.card.client == c then 1 else 2

def State.head (s : State) (h : Nat) : Head := tgetD s.heads h {}

def State.setHead (s : State) (h : Nat) (x : Head) : State := { s with heads := tput s.heads h x {} }

def State.fbRing (s : State) (k : Nat) : FbRing := tgetD s.fbRings k {}

def State.setFbRing (s : State) (k : Nat) (x : FbRing) : State := { s with fbRings := tput s.fbRings k x {} }

/-- R474: point i of domain d: MHz, mV and EN. -/
def State.vfPoint (s : State) (d i : Nat) : Nat × Nat × Bool := tgetD s.bar0.vf (16 * d + i) (0, 0, false)

/-- R475: the point in force. -/
def State.vfNow (s : State) (d : Nat) : Nat := tgetD s.bar0.vfCur d 15

/-- The points of a domain that may be used, in rising order. -/
def State.vfEnabled (s : State) (d : Nat) : List Nat := (List.range 16).filter fun i => (s.vfPoint d i).2.2

/-! ### Reads -/

/-- R476: the window over which the package power is taken, in service cycles. -/
def powerWindow : Nat := 1300000

/-- R476: the former values of PWRLIM that were in force in the window that ends now. -/
def State.pwrRecent (s : State) : List (Nat × Nat) := s.bar0.pwrHist.filter fun e => s.svc - e.1 < powerWindow

/-- R476: what the power over the window that ends now cannot exceed: the highest PWRLIM that was in force in it. -/
def State.pwrBound (s : State) : Nat := s.pwrRecent.foldl (fun m e => max m e.2) s.bar0.pwrLim

/-- R476: POWER: what the governor measured last, kept under the limits of the window. -/
def State.powerNow (s : State) : Nat := min s.bar0.power s.pwrBound

/-- R481: a sounding unit with the samples of every governor window that has ended. -/
def State.sounded (s : State) (u : Nat) : Sounding := s.govSyncAll.sounding u

/-- What a register reads as, by the tables of R208, R229, R317, R345, R391, R429, R430, R453, R465, R466 to R481. -/
def State.regRead (s : State) (r : Reg) : Nat :=
  let bit (b : Bool) (n : Nat) : Nat := if b then 2 ^ n else 0
  let b := s.bar0
  match r with
  | .devstat => bit s.dev.ready 31 + bit s.dev.fail 30 + s.dev.code * 2 ^ 8 + s.dev.stage
  | .uid => if s.step2 then (Config.shake256 s.identity).toNat % 2 ^ 64 else 0
  | .cfgid => if s.step2 then leAt s.board.record 6 2 * 2 ^ 16 + leAt s.board.record 4 2 else 0
  | r =>
    if !s.up then 0
    else
      match r with
      | .devstat | .uid | .cfgid | .cntclr => 0
      | .vf d i => let p := s.vfPoint d i
        p.1 * 2 ^ 16 + p.2.1 * 2 ^ 4 + bit p.2.2 0
      | .vfcur d => (s.vfPoint d (s.vfNow d)).1 * 2 ^ 16 + s.vfNow d
      | .vfstat => bit b.vfErr 31
      | .pwrlim => b.pwrLim
      | .pwrstat => bit b.throt 31 + bit b.therm 30 + bit b.droop 29 + b.pcap * 2 ^ 16 + s.powerNow
      | .temp n => match tget b.temps n with
        | some t => 2 ^ 31 + t.toNat
        | none => 0
      | .counter off => tgetD b.counters off 0
      | .scfg u => let k := s.sounding u
        k.src * 2 ^ 28 + k.sel * 2 ^ 20 + k.shift * 2 ^ 16
      | .sctl u => bit (s.sounding u).run 31
      | .slo u => (s.sounding u).lo.toNat
      | .smin u => (s.sounded u).smin.toNat
      | .smax u => (s.sounded u).smax.toNat
      | .scount u => (s.sounded u).count
      | .bin u i => tgetD (s.sounded u).bins i 0
      | .vsplit => bit b.vsBusy 31 + bit b.vsErr 30 + bit b.vsPend.isSome 29 + b.beam * 2 ^ 8 + b.scr
      | .mgov => bit b.govErr 30 + b.govAllow
      | .pwstat => b.noCtx * 2 ^ 16 + b.badSize
      | .linkstat => bit b.cxl 31 + b.linkWidth * 2 ^ 16 + b.linkRate * 2 ^ 8 + b.zdown.toNat
      | .tlbiaddr => b.tlbiAddr.toNat
      | .tlbictl => bit b.tlbiOp.isSome 30 + b.tlbiKind * 2 ^ 28 + b.tlbiCtx * 2 ^ 16 + b.tlbiCount
      | .resaddr => b.resAddr.toNat
      | .resctl => b.resKind * 2 ^ 28 + b.resCtx * 2 ^ 16
      | .resstat => b.resStat.toNat
      | .ctxbase => b.ctxBase.toNat
      | .ctxctl => bit b.ctxBusy.isSome 30 + b.ctxOp * 2 ^ 28 + b.ctxCtx * 2 ^ 16 + b.ctxStatus
      | .devnum => b.devNum
      | .peermap => b.peerMap.toNat
      | .bar4win => b.bar4Win
      | .hdmsize => if b.cxl then b.hdmSize else 0
      | .peerbase d => (tgetD b.peerBase d 0).toNat
      | .stkcnt k => (s.stackCyc k - s.dev.readySvc) % 2 ^ 64
      | .chcfg c => bit (s.chan c).rt 31 + (s.chan c).prioCap * 2 ^ 24
      | .chpre c => s.chanState c * 2 ^ 28 + (s.chan c).drainLim
      | .rsvmask c k => (tgetD (s.chan c).rsvMask k 0).toNat
      | .fbcfg k => let r := s.fbRing k
        bit r.en 31 + r.ctx * 2 ^ 16 + r.log2n
      | .fbstat k => bit (s.fbRing k).ovf 31 + (s.fbRing k).drops
      | .fbbase k => (s.fbRing k).base.toNat
      | .hctl h => let x := s.head h
        bit x.en 31 + bit x.err 30 + x.fmt * 2 ^ 27 + x.rate * 2 ^ 24 + x.lanes * 2 ^ 22
      | .hbase h => (s.head h).base
      | .hpitch h => (s.head h).pitch.toNat
      | .hact h => (s.head h).hact.toNat
      | .htot h => (s.head h).htot.toNat
      | .hsync h => (s.head h).hsync.toNat
      | .vsync h => (s.head h).vsync.toNat
      | .pclk h => (s.head h).pclk.toNat
      | .hstat h => let x := s.head h
        bit x.link 31 + bit x.flip 30 + bit x.under 29 + x.poisonPx

/-- R452: a host read of BAR0 at an offset: the bytes that it returns. An access of another size or alignment returns all
ones; an offset that is not listed reads 0. -/
def State.bar0Read (s : State) (off size : Nat) : Bytes :=
  if size == 8 && off % 8 == 0 then
    match regAt off with
    | some r => if r.wide then leBytes (s.regRead r) 8 else onesBytes 8
    | none => leBytes 0 8
  else if size == 4 && off % 4 == 0 then
    match regAt off, regAt (off - 4) with
    | some r, _ => leBytes (s.regRead r) 4
    | none, some r => if off % 8 == 4 && r.wide then leBytes (s.regRead r / 2 ^ 32) 4 else leBytes 0 4
    | none, none => leBytes 0 4
  else onesBytes size

/-! ### Writes of single registers -/

/-- R209: a write to VSPLIT. -/
def State.vsplitWrite (s : State) (w : Nat) : State :=
  let b := { s.bar0 with vsBusy := s.bar0.vsBusy && !w.testBit 31, vsErr := s.bar0.vsErr && !w.testBit 30 }
  let scr := nbits w 4 0
  let beam := nbits w 12 8
  let held := s.holders.any fun t => (t.card.scratch > 0 && !t.card.cols.isEmpty) || t.card.beamRec > 0
  { s with bar0 :=
      if scr == b.scr && beam == b.beam then b
      else if scr > 16 || beam == 0 || beam > 8 then { b with vsErr := true }
      else if held then { b with vsBusy := true }
      else if b.vsPend.isSome then { b with vsBusy := true }
      else { b with vsPend := some (scr, beam) } }

/-- R317: a write to MGOV. An accepted value applies from the next window of each cluster. -/
def State.mgovWrite (s : State) (w : Nat) : State :=
  let allow := nbits w 8 0
  if allow < 64 || allow > 256 then { s with bar0 := { s.bar0 with govErr := true } }
  else
    let s := s.govSyncAll
    let s := { s with bar0 := { s.bar0 with govErr := s.bar0.govErr && !w.testBit 30, govAllow := allow } }
    if w.testBit 31 then
      (List.range 32).foldl (fun (s : State) c => s.setGov c { s.gov c with stalls := 0 }) s
    else s

/-- R345: a write to PWSTAT. -/
def State.pwstatWrite (s : State) (w : Nat) : State :=
  if w.testBit 31 then { s with bar0 := { s.bar0 with noCtx := 0, badSize := 0 } } else s

/-- R229: a write to TLBICTL. GO starts a shoot-down with the fields as written; while one runs it is ignored. -/
def State.tlbiWrite (s : State) (w : Nat) : State :=
  let kind := nbits w 29 28
  let ctx := nbits w 23 16
  let count := nbits w 15 0
  let b := { s.bar0 with tlbiKind := kind, tlbiCtx := ctx, tlbiCount := count }
  let pages := if kind == 0 then 1 else if count == 0 then 65536 else count
  { s with bar0 :=
      if w.testBit 31 && b.tlbiOp.isNone then { b with tlbiOp := some (kind, ctx, b.tlbiAddr.toNat, pages) } else b }

/-- R430, R431, R433: a write to CHPRE. -/
def State.chpreWrite (s : State) (c w : Nat) : State :=
  let ch := { s.chan c with drainLim := nbits w 23 0 }
  s.setChan c <|
    if ch.pre == 0 then (if w.testBit 31 then { ch with pre := 1, arrived := [], saving := [] } else ch)
    else if w.testBit 30 then { ch with pre := 0, arrived := [], saving := [] }
    else ch

/-! ### Contexts (R454, R455) -/

/-- R454, R416: a descriptor that passes the check. -/
def descOk (b : Bytes) : Bool :=
  let u (o n : Nat) : Nat := leAt b o n
  u 0 8 % 4096 == 0
    && canonical (dword (u 8 8)) && u 8 8 % 64 == 0
    && canonical (dword (u 0x10 8)) && u 0x10 8 % 65536 == 0
    && canonical (dword (u 0x18 8)) && u 0x18 8 % 64 == 0
    && u 0x20 4 ≥ 1 && 1 ≤ u 0x32 1 && u 0x32 1 ≤ 64 && 4 ≤ u 0x33 1 && u 0x33 1 ≤ 16
    && (u 0x38 1 < 16 || u 0x38 1 == 0x1F) && (b.drop 0x39).all (· == 0)

/-- R214, R454, R455: create: the status, and the context made live with its fault port open. -/
def State.createContext (s : State) (c : Nat) : State × Nat :=
  if (s.ctx? c).isSome then (s, 2)
  else
    let pa := s.bar0.ctxBase.toNat + 128 * c
    let a := (paKey s pa).getD 0
    let s := if ownPa s pa then s.verifyN a 128 else s
    let b := s.readPa a 128
    if !ownPa s pa || s.poisonedPa a 128 || !descOk b then (s, 1)
    else
      let port := leAt b 0x30 2
      let depth := leAt b 0x32 1
      if s.storeUsed (portStack port) + depth + 64 > 16384 then (s, 5)
      else
        let x : Context :=
          { desc := a, root := leAt b 0 8, frBase := dword (leAt b 8 8), fpBase := dword (leAt b 0x10 8)
            psBase := dword (leAt b 0x18 8), fpSize := leAt b 0x20 4, psSize := leAt b 0x24 4, faultPort := port
            fpDepth := depth, frLog2n := leAt b 0x33 1 }
        let s := s.writePa (a + 0x34) (leBytes 0 4)
        ({ s with ctxs := tset s.ctxs c x
                  ports := tset s.ports (portKey c port) { depth := depth, act := .fault, hvis := true } }, 0)

/-- R455: destroy: the status; none when the removal begins. The patterns go at once, so that nothing fires any more. -/
def State.destroyContext (s : State) (c : Nat) : State × Option Nat :=
  let s := s.reap
  if (s.ctx? c).isNone then (s, some 3)
  else if s.launches.any (·.ctx == c) || s.counters.any (fun e => e.2.state != .idle && e.2.owner == c)
      || s.units.any (·.ctx == c) || s.remoteColl.any (·.ctx == c) then (s, some 4)
  else ((s.patterns.filter (·.ctx == c)).foldl State.removePattern s, none)

/-- R455: what a destroy leaves when it is complete. -/
def State.dropContext (s : State) (c : Nat) : State :=
  let s := s.shootDown 2 c 0 0
  { s with
    ctxs := tdel s.ctxs c
    ports := s.ports.filter fun e => e.1 / 65536 != c
    patterns := s.patterns.filter (·.ctx != c)
    handles := s.handles.filter fun e => e.2 != c }

/-- R453, R455: a write to CTXCTL. -/
def State.ctxWrite (s : State) (w : Nat) : State :=
  let op := nbits w 29 28
  let c := nbits w 23 16
  let s := { s with bar0 := { s.bar0 with ctxOp := op, ctxCtx := c } }
  if !w.testBit 31 || s.bar0.ctxBusy.isSome then s
  else
    let done (s : State) (st : Nat) : State := { s with bar0 := { s.bar0 with ctxStatus := st } }
    if op == 0 then
      match s.createContext c with
      | (s, st) => done s st
    else if op == 1 then
      match s.destroyContext c with
      | (s, some st) => done s st
      | (s, none) => { s with bar0 := { s.bar0 with ctxBusy := some c } }
    else done s 1

/-! ### Heads (R463 to R465) -/

/-- The payload of one lane in kbit/s, times 132 (log entry 8). -/
def lanePayload (rate : Nat) : Nat :=
  match rate with
  | 0 => 1296000 * 132
  | 1 => 2160000 * 132
  | 2 => 4320000 * 132
  | 3 => 6480000 * 132
  | 4 => 10000000 * 128
  | 5 => 13500000 * 128
  | _ => 20000000 * 128

/-- R465: is the enable of a head refused? -/
def Head.refused (s : State) (h : Head) : Bool :=
  let bpp := if h.fmt == 0 then 24 else 30
  h.fmt > 2 || h.rate == 7 || h.lanes == 3
    || h.pclk.toNat * bpp * 132 > lanePayload h.rate * 2 ^ h.lanes
    || !ownPa s h.base

/-- R465: a write to HCTL. -/
def State.hctlWrite (s : State) (k w : Nat) : State :=
  let old := s.head k
  let h := { old with err := old.err && !w.testBit 30, fmt := nbits w 29 27, rate := nbits w 26 24, lanes := nbits w 23 22 }
  s.setHead k <|
    if !w.testBit 31 then { h with en := false, link := false }
    else if h.refused s then { h with en := false, link := false, err := true }
    else { h with en := true, link := old.en && old.link && h.rate == old.rate && h.lanes == old.lanes }

/-- R464: a write of HBASE. -/
def State.hbaseWrite (s : State) (k v : Nat) : State := s.setHead k { s.head k with base := v / 4096 * 4096, flip := true }

/-- R465: a write to HSTAT. -/
def State.hstatWrite (s : State) (k w : Nat) : State :=
  let h := s.head k
  s.setHead k { h with under := h.under && !w.testBit 29, poisonPx := if w.testBit 28 then 0 else h.poisonPx }

/-- R465: mode registers take no write while EN = 1. -/
def State.modeWrite (s : State) (k : Nat) (f : Head → Head) : State :=
  if (s.head k).en then s else s.setHead k (f (s.head k))

/-! ### Points and limits (R474 to R476) -/

/-- Do the points of a list rise strictly in MHz and mV? -/
def vfRising : List (Nat × Nat × Bool) → Bool
  | a :: b :: r => a.1 < b.1 && a.2.1 < b.2.1 && vfRising (b :: r)
  | _ => true

/-- R477: while the thermal limit acts, the arithmetic domain runs at its lowest point in use. -/
def State.heldLow (s : State) : State :=
  match s.bar0.hot, (s.vfEnabled 0).head? with
  | true, some i => { s with bar0 := { s.bar0 with vfCur := tset s.bar0.vfCur 0 i } }
  | _, _ => s

/-- R474, R475: a write of a point. The point in force is left first, for the next lower point in use (log entry 9); a domain that the
thermal limit holds goes to its lowest (R477). -/
def State.vfWrite (s : State) (d i w : Nat) : State :=
  let p : Nat × Nat × Bool := (nbits w 31 16, nbits w 15 4, w.testBit 0)
  let vf := tput s.bar0.vf (16 * d + i) p (0, 0, false)
  let s' : State := { s with bar0 := { s.bar0 with vf := vf } }
  let on := (s'.vfEnabled d).map (s'.vfPoint d)
  let out := p.2.2 && (p.1 < s.lim d 0 || s.lim d 2 < p.1 || p.2.1 < s.lim d 4 || s.lim d 6 < p.2.1)
  if out || on.isEmpty || !vfRising on then { s with bar0 := { s.bar0 with vfErr := true } }
  else if i != s.vfNow d then s'.heldLow
  else
    let below := (s.vfEnabled d).filter (· < i)
    let cur := match below.getLast? with
      | some k => k
      | none => if p.2.2 then i else (s'.vfEnabled d).headD i
    ({ s' with bar0 := { s'.bar0 with vfCur := tset s'.bar0.vfCur d cur } } : State).heldLow

/-- R480: a write to SCFG. -/
def State.scfgWrite (s : State) (u w : Nat) : State :=
  let k := s.sounding u
  if k.run then s
  else
    let src := if nbits w 31 28 > 5 then 0 else nbits w 31 28
    let sel := nbits w 27 20
    s.setSounding u { k with src := src, sel := if src == 3 && sel > 95 then 0 else sel, shift := nbits w 19 16 }

/-- R480, R482: a write to SCTL. Governor windows that ended before it have their samples taken first (R481). -/
def State.sctlWrite (s : State) (u w : Nat) : State :=
  let s := s.govSyncAll
  let k := s.sounding u
  let k := if w.testBit 30 then { k with smin := 0x7FFFFFFF, smax := 0x80000000, count := 0, bins := [] } else k
  s.setSounding u { k with run := w.testBit 31 }

/-- R479: a write to CNTCLR. -/
def State.cntclrWrite (s : State) (w : Nat) : State :=
  let keep (off : Nat) : Bool :=
    !((w.testBit 0 && 0x2000 ≤ off && off < 0x2800) || (w.testBit 1 && 0x3000 ≤ off && off < 0x3800)
      || (w.testBit 2 && 0x3800 ≤ off && off < 0x3810))
  { s with bar0 := { s.bar0 with counters := s.bar0.counters.filter fun e => keep e.1 } }

/-! ### Writes of any register -/

/-- R452: a write takes effect on a register: each by its own rule; a read-only register ignores it (R7). -/
def State.regWrite (s : State) (r : Reg) (v : Nat) : State :=
  let b := s.bar0
  let put (b : Bar0) : State := { s with bar0 := b }
  match r with
  | .devstat | .uid | .cfgid | .vfcur _ | .temp _ | .counter _ | .smin _ | .smax _ | .scount _ | .bin .. | .linkstat
  | .resstat | .stkcnt _ => s
  | .vf d i => s.vfWrite d i v
  | .vfstat => put { b with vfErr := b.vfErr && !v.testBit 31 }
  | .pwrlim =>
    let w := nbits v 9 0
    if w > s.pwrMax || w < 100 then s
    else put { b with pwrLim := w, power := s.powerNow, pwrHist := (s.svc, b.pwrLim) :: s.pwrRecent }
  | .pwrstat =>
    put { b with throt := b.throt && !v.testBit 31, therm := b.therm && !v.testBit 30, droop := b.droop && !v.testBit 29 }
  | .cntclr => s.cntclrWrite v
  | .scfg u => s.scfgWrite u v
  | .sctl u => s.sctlWrite u v
  | .slo u => if (s.sounding u).run then s else s.setSounding u { s.sounding u with lo := word v }
  | .vsplit => s.vsplitWrite v
  | .mgov => s.mgovWrite v
  | .pwstat => s.pwstatWrite v
  | .tlbiaddr => put { b with tlbiAddr := dword (v / 4096 * 4096) }
  | .tlbictl => s.tlbiWrite v
  | .resaddr => put { b with resAddr := dword v }
  | .resctl => s.resCtl (word v)
  | .ctxbase => put { b with ctxBase := dword (v / 4096 * 4096) }
  | .ctxctl => s.ctxWrite v
  | .devnum => if s.ctxs.isEmpty then put { b with devNum := v % 8 } else s
  | .peermap => put { b with peerMap := BitVec.ofNat 8 v }
  | .bar4win => put { b with bar4Win := if v % 128 ≤ 119 then v % 128 else 0 }
  | .hdmsize => if s.ctxs.isEmpty && v % 128 ≤ 120 then put { b with hdmSize := v % 128 } else s
  | .peerbase d => put { b with peerBase := tput b.peerBase d (dword (v / 2 ^ 37 * 2 ^ 37)) 0 }
  | .chcfg c => s.setChan c { s.chan c with rt := v.testBit 31, prioCap := nbits v 26 24 }
  | .chpre c => s.chpreWrite c v
  | .rsvmask c k => s.setChan c { s.chan c with rsvMask := tput (s.chan c).rsvMask k (word v) 0 }
  | .fbcfg k =>
    let n := nbits v 4 0
    s.setFbRing k { s.fbRing k with en := v.testBit 31, ctx := nbits v 23 16, log2n := if 6 ≤ n && n ≤ 16 then n else 6 }
  | .fbstat k =>
    let r := s.fbRing k
    s.setFbRing k { r with ovf := r.ovf && !v.testBit 31, drops := if v.testBit 30 then 0 else r.drops }
  | .fbbase k => s.setFbRing k { s.fbRing k with base := dword v }
  | .hctl h => s.hctlWrite h v
  | .hbase h => s.hbaseWrite h v
  | .hpitch h => s.modeWrite h fun x => { x with pitch := word v }
  | .hact h => s.modeWrite h fun x => { x with hact := word v }
  | .htot h => s.modeWrite h fun x => { x with htot := word v }
  | .hsync h => s.modeWrite h fun x => { x with hsync := word v }
  | .vsync h => s.modeWrite h fun x => { x with vsync := word v }
  | .pclk h => s.modeWrite h fun x => { x with pclk := word v }
  | .hstat h => s.hstatWrite h v

/-- R452: a write to BAR0: one 4-byte or 8-byte access, or a staged half of a 64-bit register. -/
def State.bar0Write (s : State) (off size v : Nat) : State :=
  if size == 8 && off % 8 == 0 then
    match regAt off with
    | some r =>
      if r.wide then
        ({ s with bar0 := { s.bar0 with stage := tdel s.bar0.stage off } } : State).regWrite r (v % 2 ^ 64)
      else s
    | none => s
  else if size == 4 && off % 4 == 0 then
    match regAt off, regAt (off - 4) with
    | some r, _ =>
      if r.wide then { s with bar0 := { s.bar0 with stage := tset s.bar0.stage off (word v) } }
      else s.regWrite r (v % 2 ^ 32)
    | none, some r =>
      if off % 8 == 4 && r.wide then
        let low := ((tget s.bar0.stage (off - 4)).map (·.toNat)).getD (s.regRead r % 2 ^ 32)
        ({ s with bar0 := { s.bar0 with stage := tdel s.bar0.stage (off - 4) } } : State).regWrite r
          (v % 2 ^ 32 * 2 ^ 32 + low)
      else s
    | none, none => s
  else s

/-- R469: before READY and after FAIL every BAR0 register ignores writes. -/
def State.host (s : State) (f : State → State) : Answer := .next (if s.up then f s else s)

/-- R452: REGISTER_WRITE. -/
def execRegisterWrite (off size : Nat) (data : Dword) (s : State) : Answer := s.host (·.bar0Write off size data.toNat)

/-! ### The host's register events -/

/-- A write of a 32-bit register, made when its data is of the event's kind. -/
def State.regEvent (s : State) (r : Reg) (data : Word) (mine : Bool) : Answer :=
  s.host fun s => if mine then s.regWrite r data.toNat else s

/-- R209: VSPLIT_WRITE. -/
def execVsplitWrite (data : Word) (s : State) : Answer := s.regEvent .vsplit data true

/-- R209: VSPLIT_RESIZE_COMPLETE: the caches are written back and the new split applies. -/
def execVsplitResizeComplete (s : State) : Answer :=
  match s.bar0.vsPend with
  | some (scr, beam) => .next { s with bar0 := { s.bar0 with scr := scr, beam := beam, vsPend := none } }
  | none => .next s

/-- R317: MGOV_WRITE: a write without CLR. -/
def execMgovWrite (data : Word) (s : State) : Answer := s.regEvent .mgov data (!data.getLsbD 31)

/-- R317: MGOV_CLEAR_STALLS: a write with CLR. -/
def execMgovClearStalls (data : Word) (s : State) : Answer := s.regEvent .mgov data (data.getLsbD 31)

/-- R345: PWSTAT_CLEAR. -/
def execPwstatClear (data : Word) (s : State) : Answer := s.regEvent .pwstat data (data.getLsbD 31)

/-- A TLBICTL write with GO of a kind. -/
def tlbiGo (data : Word) (kind : Nat) : Bool := data.getLsbD 31 && nbits data.toNat 29 28 == kind

/-- R229: TLB_SHOOTDOWN_PAGE. -/
def execTlbShootdownPage (data : Word) (s : State) : Answer := s.regEvent .tlbictl data (tlbiGo data 0)

/-- R229: TLB_SHOOTDOWN_RANGE. -/
def execTlbShootdownRange (data : Word) (s : State) : Answer := s.regEvent .tlbictl data (tlbiGo data 1)

/-- R229: TLB_SHOOTDOWN_CONTEXT. -/
def execTlbShootdownContext (data : Word) (s : State) : Answer := s.regEvent .tlbictl data (tlbiGo data 2)

/-- R229: TLB_SHOOTDOWN_ALL. -/
def execTlbShootdownAll (data : Word) (s : State) : Answer := s.regEvent .tlbictl data (tlbiGo data 3)

/-- R229: TLB_SHOOTDOWN_COMPLETE: the matching entries have left every cache; BUSY falls. Accesses in flight that were translated
before are performed by then: those of every context, but for kind 2, which drops no entry with G = 1. -/
def execTlbShootdownComplete (s : State) : Answer :=
  match s.bar0.tlbiOp with
  | some (kind, ctx, va, n) =>
    let s := (s.units.filter fun t => kind != 2 || t.ctx == ctx).foldl (fun s t => s.flushUnit t.uid) s
    .next (({ s with bar0 := { s.bar0 with tlbiOp := none } } : State).shootDown kind ctx va n)
  | none => .next s

/-- R455: CONTEXT_CREATE. -/
def execContextCreate (data : Word) (s : State) : Answer :=
  s.regEvent .ctxctl data (data.getLsbD 31 && nbits data.toNat 29 28 == 0)

/-- R455: CONTEXT_DESTROY. -/
def execContextDestroy (data : Word) (s : State) : Answer :=
  s.regEvent .ctxctl data (data.getLsbD 31 && nbits data.toNat 29 28 == 1)

/-- R455: CONTEXT_DESTROY_COMPLETE: the context is live no more; BUSY falls with STATUS 0. -/
def execContextDestroyComplete (s : State) : Answer :=
  match s.bar0.ctxBusy with
  | some c =>
    let s := s.dropContext c
    .next { s with bar0 := { s.bar0 with ctxBusy := none, ctxStatus := 0 } }
  | none => .next s

/-- R429: HOST_RESUME_REC: the host's RESUME of a record. -/
def execHostResumeRec (data : Word) (s : State) : Answer :=
  s.regEvent .resctl data (data.getLsbD 31 && nbits data.toNat 29 28 == 0)

/-- R429: HOST_RESUME_LAUNCH: the host's RESUME of a launch. -/
def execHostResumeLaunch (data : Word) (s : State) : Answer :=
  s.regEvent .resctl data (data.getLsbD 31 && nbits data.toNat 29 28 == 1)

/-! ### Pre-emption (R430 to R434) -/

/-- R431: CHANNEL_PREEMPT: a write with GO. -/
def execChannelPreempt (chan : Nat) (data : Word) (s : State) : Answer :=
  s.regEvent (.chpre chan) data (chan < 16 && data.getLsbD 31)

/-- R433: CHANNEL_RELEASE: a write with REL. -/
def execChannelRelease (chan : Nat) (data : Word) (s : State) : Answer :=
  s.regEvent (.chpre chan) data (chan < 16 && data.getLsbD 30)

/-- R431: a GO of a channel arrives at a stack. -/
def State.goArrives (s : State) (chan stack : Nat) : State :=
  let ch := s.chan chan
  if chan < 16 && stack < 4 && ch.pre != 0 && (tget ch.arrived stack).isNone then
    s.setChan chan { ch with arrived := tset ch.arrived stack (s.stackCyc stack) }
  else s

/-- R431: PREEMPT_ARRIVAL_AT_STACK. -/
def execPreemptArrivalAtStack (chan stack : Nat) (s : State) : Answer := .next (s.goArrives chan stack)

/-- R452, R431: the host reads a register. A read of CHPRE returns after GO has arrived at every stack. -/
def State.hostRead (s : State) (off size : Nat) : State :=
  let s := match regAt (off / 4 * 4) with
    | some (.chpre c) => (List.range 4).foldl (fun (s : State) k => s.goArrives c k) s
    | _ => s
  s.answer (s.bar0Read off size)

/-- R431: a team of a channel that is resident on a stack and goes on. -/
def drainable (chan stack : Nat) (t : Team) : Bool :=
  t.state == .running && !t.kill && t.card.client == chan && t.stack == stack

/-- R431: DRAIN_LIMIT_EXPIRY: every team of the channel on the stack is saved with REASON 4. -/
def execDrainLimitExpiry (chan stack : Nat) (s : State) : Answer :=
  let ch := s.chan chan
  match tget ch.arrived stack with
  | none => .next s
  | some at_ =>
    if ch.drainLim == 0xFFFFFF || s.stackCyc stack - at_ < ch.drainLim * 256 then .next s
    else
      let s := s.setChan chan { ch with saving := sins ch.saving stack }
      .next (((s.units.filter (drainable chan stack)).map fun t => (t.uid, t.ctx)).foldl (fun (s : State) x =>
        let (s, h) := s.newHandle x.2
        s.beginSave x.1 .drain h) s)

/-! ### Feedback rings, heads, counters, points, soundings -/

/-- R391: FEEDBACK_CLEAR_DROPS. -/
def execFeedbackClearDrops (ring : Nat) (data : Word) (s : State) : Answer :=
  s.regEvent (.fbstat ring) data (ring < 64 && data.getLsbD 30)

/-- R465: HEAD_ENABLE: a write of HCTL with EN. -/
def execHeadEnable (head : Nat) (data : Word) (s : State) : Answer :=
  s.regEvent (.hctl head) data (head < 4 && data.getLsbD 31)

/-- R463: HEAD_LINK_TRAINED: the link of an enabled head is trained, and scan-out begins from HBASE. -/
def execHeadLinkTrained (head : Nat) (s : State) : Answer :=
  let h := s.head head
  if h.en && !h.link then .next (s.setHead head { h with link := true, active := h.base, flip := false }) else .next s

/-- R464: HBASE_WRITE. -/
def execHbaseWrite (head : Nat) (data : Dword) (s : State) : Answer :=
  s.host fun s => if head < 4 then s.bar0Write (0x41008 + 0x40 * head) 8 data.toNat else s

/-- R464: VERTICAL_BLANK: a pending base takes effect. -/
def execVerticalBlank (head : Nat) (s : State) : Answer :=
  let h := s.head head
  if h.en && h.link then .next (s.setHead head { h with active := h.base, flip := false }) else .next s

/-- R465: HSTAT_CLEAR. -/
def execHstatClear (head : Nat) (data : Word) (s : State) : Answer :=
  s.regEvent (.hstat head) data (head < 4 && data.getLsbD 28)

/-- R479: CNTCLR_GDDR. -/
def execCntclrGddr (s : State) : Answer := s.regEvent .cntclr 1 true

/-- R479: CNTCLR_CORE. -/
def execCntclrCore (s : State) : Answer := s.regEvent .cntclr 2 true

/-- R479: CNTCLR_INTEG. -/
def execCntclrInteg (s : State) : Answer := s.regEvent .cntclr 4 true

/-- R474: VF_POINT_WRITE. -/
def execVfPointWrite (domain point : Nat) (data : Word) (s : State) : Answer :=
  s.regEvent (.vf domain point) data (domain < 4 && point < 16)

/-- R480: SOUNDING_CLEAR: a write of SCTL with CLR. -/
def execSoundingClear (unit : Nat) (data : Word) (s : State) : Answer :=
  s.regEvent (.sctl unit) data (unit < 32 && data.getLsbD 30)

/-- R482: SOUNDING_RUN: a write of SCTL without CLR. -/
def execSoundingRun (unit : Nat) (data : Word) (s : State) : Answer :=
  s.regEvent (.sctl unit) data (unit < 32 && !data.getLsbD 30)

/-- R481: SOUNDING_SAMPLE: a sample of a read's latency or of the supply's droop, which the device measures. The samples of
the other sources are taken where they arise. -/
def execSoundingSample (unit : Nat) (x : Word) (s : State) : Answer :=
  let k := s.sounding unit
  if unit < 32 && k.run && (k.src == 1 || k.src == 4) then
    .next (s.setSounding unit (k.sample (if k.src == 4 then max x.toInt 0 else x.toInt)))
  else .next s

end Sys2Proof.Machine
end

