-- ==== Sys2Proof/Machine/Window.lean ====
section
/-! DEFINITION. Memory as the outside reaches it: the BAR4 window (R457), host-managed device memory (R459), and peers' accesses
(R461). -/

namespace Sys2Proof.Machine

/-- R457, R231, R232: a read of n bytes of device memory from an address, by the host or a peer: bytes at or above 120 GiB read as
ones, the sectors are checked as they leave, and poison goes with the data. -/
def State.homeRead (s : State) (pa n : Nat) : State × Bytes × Bool :=
  let k := min n (devBytes - pa)
  let s := s.verifyN pa k
  (s, s.readPa pa k ++ onesBytes (n - k), s.poisonedPa pa k)

/-- R231: a write checks the sectors that it covers in part. -/
def State.verifyEdges (s : State) (pa n : Nat) : State :=
  let s := if pa % 32 == 0 then s else s.verify pa
  if (pa + n) % 32 == 0 || n == 0 then s else s.verify (pa + n - 1)

/-- R457, R231: a write of device memory from outside: bytes at or above 120 GiB are dropped. It takes earlier releases out of
its bytes (R238), and cores that hold a copy may go on seeing the copy's own bytes (R217, R248). -/
def State.homeWrite (s : State) (pa : Nat) (b : Bytes) : State :=
  let b := b.take (devBytes - pa)
  let s := (s.verifyEdges pa b.length).writePa pa b
  { s with race := s.race.landed (memBytes pa b.length), l1 := l1Noted s.l1 pa b.length true }

/-- The device address of a BAR4 offset. -/
def State.bar4Pa (s : State) (off : Nat) : Nat := s.bar0.bar4Win * 2 ^ 30 + off

/-- R457: the size of BAR4. -/
def State.bar4Size (s : State) : Nat := 2 ^ (28 + s.bar0.bar4Step.val)

/-- R457, R469: HOST_BAR4_READ. -/
def execHostBar4Read (off n : Nat) (s : State) : Answer :=
  if off + n > s.bar4Size then .next s
  else if !s.up then .next (s.answer (onesBytes n))
  else
    let (s, b, p) := s.homeRead (s.bar4Pa off) n
    .next (s.answer b p)

/-- R457, R469: HOST_BAR4_WRITE. -/
def execHostBar4Write (off : Nat) (data : Bytes) (s : State) : Answer :=
  if off + data.length > s.bar4Size || !s.up then .next s else .next (s.homeWrite (s.bar4Pa off) data)

/-- R461, R460: PEER_MEMORY_ACCESS: a peer's read or write of this device's memory. -/
def execPeerMemoryAccess (write : Bool) (pa n : Nat) (data : Bytes) (s : State) : Answer :=
  if !s.up || !s.bar0.cxl then .next s
  else if write then .next (s.homeWrite pa data)
  else
    let (s, b, p) := s.homeRead pa n
    .next (s.answer b p)

/-- R459: a CXL.mem write of the host is the write-back of its own copies: its caches hold the lines modified no longer. -/
def State.hdmWrite (s : State) (pa : Nat) (b : Bytes) : State :=
  let s := s.homeWrite pa b
  { s with hostLines := s.hostLines.filter fun e => !(128 * e.1 < pa + b.length && pa < 128 * (e.1 + 1)) }

/-- R459, R460: HOST_MANAGED_MEMORY_ACCESS: a CXL.mem access below HDMSIZE, served as a BAR4 access is. -/
def execHostManagedMemoryAccess (write : Bool) (pa n : Nat) (data : Bytes) (s : State) : Answer :=
  let len := if write then data.length else n
  if !s.up || !s.bar0.cxl || pa + len > s.bar0.hdmSize * 2 ^ 30 then .next s
  else if write then .next (s.hdmWrite pa data)
  else
    let (s, b, p) := s.homeRead pa n
    .next (s.answer b p)

end Sys2Proof.Machine
end

