-- ==== Sys2Proof/Machine/Board.lean ====
section
/-! DEFINITION. Binnacle and the board: start-up (R467 to R470), the DOE mailbox (R473), sensors and the power governor (R476,
R477), link and memory errors (R233, R449, R478), and the scan-out of display heads (R464). -/

namespace Sys2Proof.Machine

/-! ### Start-up -/

/-- R467: what a reset leaves: the outside's memory, the board, the negotiated link, and the model's own counters. -/
def State.cold (s : State) : State :=
  { State.reset with
    arith := s.arith
    svc := s.svc
    agenda := s.agenda
    turn := s.turn
    choices := s.choices
    mem := s.mem.filter fun c => devBytes ≤ c.1
    poison := s.poison.filter fun k => devBytes ≤ k * 32
    board := s.board
    bar0 := { cxl := s.bar0.cxl, linkWidth := s.bar0.linkWidth, linkRate := s.bar0.linkRate }
    out := s.out }

/-- The bits set in a number of 64 bits. -/
def bitCount (n : Nat) : Nat := ((List.range 64).filter fun i => n.testBit i).length

/-- R470: the limits of a domain. -/
def limOk (s : State) (d : Nat) : Bool :=
  s.lim d 0 + 15 ≤ s.lim d 8 && s.lim d 8 ≤ s.lim d 2 && s.lim d 4 + 15 ≤ s.lim d 0xA && s.lim d 0xA ≤ s.lim d 6
    && s.lim d 0xC == 0 && s.lim d 0xE == 0

/-- R470: the configuration record that step 2 accepts. -/
def recordOk (s : State) : Bool :=
  let r := s.board.record
  r.length == 0x172 && Config.heholtVerify (r.take 0x100) (r.drop 0x100) && leAt r 0 4 == 0x52454352
    && Config.versionKnown (leAt r 4 2) && ((List.range 4).all fun k => bitCount (leAt r (8 + 8 * k) 8) == 32)
    && s.pwrMax ≤ 500 && (List.range 4).all (limOk s)

/-- R467: the outcome of start-up. -/
def startUp (s : State) : DevStat :=
  let b := s.board
  let stop (stage code : Nat) : DevStat := { fail := true, code := code, stage := stage }
  if !Config.heholtVerify b.firmware b.firmwareSig then stop 1 0x01
  else if !recordOk s then stop 2 0x02
  else if !b.identityOk then stop 2 0x03
  else if !b.pllOk then stop 3 0x10
  else if !b.zwilerOk then stop 3 0x11
  else if !b.gddrOk then stop 3 0x12
  else if !b.sramOk then stop 4 0x13
  else { ready := true, stage := 5, readyAt := s.arith, readySvc := s.svc }

/-- R474: the points that Binnacle loads. -/
def loadPoints (s : State) : NMap (Nat × Nat × Bool) :=
  (List.range 64).foldl (fun m k =>
    let d := k / 16
    let i := k % 16
    let mhz := s.lim d 0 + i * (s.lim d 8 - s.lim d 0) / 15
    let mv := s.lim d 4 + i * (s.lim d 0xA - s.lim d 4) / 15
    tput m k (mhz % 65536, mv % 4096, true) (0, 0, false)) []

/-- R467: POWER_ON_RESET: power-on or a fundamental reset, up to READY or to the step that fails. -/
def execPowerOnReset (s : State) : Answer :=
  let s := s.cold
  let d := startUp s
  .next { s with
    dev := d
    bar0 := if d.ready then { s.bar0 with vf := loadPoints s, pwrLim := s.pwrMax } else s.bar0 }

/-! ### The DOE mailbox (R469, R473) -/

/-- R473: the signed part of an attestation report. -/
def reportBody (s : State) (nonce : Bytes) : Bytes :=
  let digest (b : Bytes) : Bytes := leBytes (Config.shake256 b).toNat 64
  [0, BitVec.ofNat 8 s.dev.stage] ++ leBytes 0 6 ++ digest s.board.firmware
    ++ (if s.step2 then digest (s.board.record.take 0x172) else leBytes 0 64)
    ++ (if s.step2 then s.identity else leBytes 0 57) ++ nonce

/-- R473: ATTESTATION_REQUEST. The mailbox answers from the end of step 1. -/
def execAttestationRequest (nonce : Bytes) (s : State) : Answer :=
  if s.dev.stage < 2 then .next s
  else
    let b :=
      if nonce.length == 32 then
        let body := reportBody s nonce
        body ++ (if s.step2 then leBytes (Config.identitySign s.board.puf s.board.helper body).toNat 114 else leBytes 0 114)
      else leBytes 1 8
    .next { s with out := .doe b :: s.out }

/-- R473: DOE_DISCOVERY: vendor, protocol and next index, as the PCIe base specification lays them out (log entry 13). -/
def execDoeDiscovery (index : Nat) (s : State) : Answer :=
  if s.dev.stage < 2 then .next s
  else
    let w :=
      if index == 0 then 1 + 0 * 2 ^ 16 + 1 * 2 ^ 24
      else if index == 1 then s.board.vendor % 65536 + 1 * 2 ^ 16
      else 0xFFFF
    .next { s with out := .doe (leBytes w 4) :: s.out }

/-! ### The host link and the Zwiler links -/

/-- R453, R460: HOST_LINK_TRAINING: what the link negotiates. -/
def execHostLinkTraining (cxl : Bool) (width rate : Nat) (s : State) : Answer :=
  if [4, 8, 16].contains width && [16, 32, 64].contains rate then
    .next { s with bar0 := { s.bar0 with cxl := cxl, linkWidth := width, linkRate := rate } }
  else .next s

/-- R449: ZWILER_FLIT_CRC_FAIL: the flit is replayed, which changes latency alone; a link that cannot retrain is marked. -/
def execZwilerFlitCrcFail (link : Nat) (retrained : Bool) (s : State) : Answer :=
  if link < 8 && !retrained && s.up then
    .next { s with bar0 := { s.bar0 with zdown := s.bar0.zdown ||| BitVec.ofNat 8 (2 ^ link) } }
  else .next s

/-! ### Temperatures, power and droop (R475 to R477) -/

/-- R477: a thermal trip stops every stack; all work is lost. The size of BAR4 stands until a reset (R456). -/
def State.trip (s : State) : State :=
  { s.cold with dev := { s.dev with fail := true, code := 0x30 }, bar0 := { s.cold.bar0 with bar4Step := s.bar0.bar4Step } }

/-- R477: SENSOR_REFRESH, with the limit and the trip. -/
def execSensorRefresh (sensor : Nat) (value : BitVec 16) (s : State) : Answer :=
  if sensor ≥ 96 || !s.up then .next s
  else
    let s := s.sampleAll 3 sensor value.toInt
    let temps := tset s.bar0.temps sensor value
    let tj : Int := s.tjMax
    let hits := temps.any fun e => e.2.toInt ≥ tj
    let hot := hits || (s.bar0.hot && !temps.all fun e => e.2.toInt < tj - 40)
    let s := ({ s with bar0 := { s.bar0 with temps := temps, hot := hot, therm := s.bar0.therm || hits } } : State).heldLow
    .next (if value.toInt ≥ tj + 80 then s.trip else s)

/-- R476: SUPPLY_DROOP: the arithmetic clock stretches its periods. -/
def execSupplyDroop (s : State) : Answer :=
  if s.up then .next { s with bar0 := { s.bar0 with droop := true, drooping := true } } else .next s

/-- R476: DROOP_PASSED. -/
def execDroopPassed (s : State) : Answer := .next { s with bar0 := { s.bar0 with drooping := false } }

/-- R476, R477: POWER_GOVERNOR_UPDATE: the governor's choice of a point in use per domain and of PCAP, and the power that it
measured: at most the highest PWRLIM of the window that it is taken over; PWRLIM is at most 500 W (R2, R474).
While the thermal limit acts, the arithmetic domain stays at its lowest point. -/
def execPowerGovernorUpdate (points : List Nat) (pcap power : Nat) (s : State) : Answer :=
  let ds := (List.range 4).zip points
  let ok := points.length == 4 && ds.all (fun x => (s.vfEnabled x.1).contains x.2)
    && 64 ≤ pcap && pcap ≤ 256 && power ≤ s.pwrBound
  if !s.up || !ok then .next s
  else
    let held (d : Nat) : Bool := d == 0 && s.bar0.hot
    let cur := ds.foldl (fun m x => tset m x.1 (if held x.1 then (s.vfEnabled x.1).headD x.2 else x.2)) s.bar0.vfCur
    let low := ds.any fun x => !held x.1 && some x.2 != (s.vfEnabled x.1).getLast?
    let s := s.govSyncAll
    .next { s with bar0 := { s.bar0 with vfCur := cur, throt := s.bar0.throt || low, pcap := pcap, power := power } }

/-! ### Memory errors (R233, R231, R478) -/

/-- The BAR0 offset of a GDDR 7 counter. -/
def gddrOff (dev chan n : Nat) : Nat := 0x2000 + 0x40 * dev + 0x10 * chan + 4 * n

/-- R233: GDDR_TRANSFER_RETRY: a transfer is retried; past the retry limit its sector is poisoned. -/
def execGddrTransferRetry (dev chan : Nat) (write : Bool) (failed : Option Nat) (s : State) : Answer :=
  if dev ≥ 32 || chan ≥ 4 || !s.up then .next s
  else
    let s := s.countAt (gddrOff dev chan (if write then 1 else 0))
    match failed with
    | some pa => if pa < devBytes && homeColumn pa / 32 == dev / 8 then .next (s.integFail pa) else .next s
    | none => .next s

/-- R478: COMMAND_ADDRESS_PARITY_ERROR. -/
def execCommandAddressParityError (dev chan : Nat) (retrain : Bool) (s : State) : Answer :=
  if dev ≥ 32 || chan ≥ 4 || !s.up then .next s
  else
    let s := s.countAt (gddrOff dev chan 2)
    .next (if retrain then s.countAt (gddrOff dev chan 3) else s)

/-! ### Scan-out (R464) -/

/-- R464: a binary16 component clamped to [0, 1] and rounded to 10 bits; a NaN gives a value that the manual does not name. -/
def tenBits (s : State) (bits : Nat) : State × Nat :=
  match fp16.val bits with
  | .nan _ => s.choose 1024
  | .inf neg => (s, if neg then 0 else 1023)
  | .fin neg m e =>
    let d := 2 ^ (-e).toNat
    if neg then (s, 0)
    else if e ≥ 0 then (s, if m == 0 then 0 else 1023)
    else if m ≥ d then (s, 1023)
    else
      let q := m * 1023 / d
      let r := m * 1023 % d
      (s, if 2 * r > d || (2 * r == d && q % 2 == 1) then q + 1 else q)

/-- R464: the three components of a pixel's bytes (log entry 8). -/
def pixelOf (s : State) (fmt : Nat) (b : Bytes) : State × List Nat :=
  match fmt with
  | 0 => (s, [leAt b 0 1, leAt b 1 1, leAt b 2 1])
  | 1 => (s, [nbits (leNat b) 9 0, nbits (leNat b) 19 10, nbits (leNat b) 29 20])
  | _ =>
    let (s, r) := tenBits s (leAt b 0 2)
    let (s, g) := tenBits s (leAt b 2 2)
    let (s, b) := tenBits s (leAt b 4 2)
    (s, [r, g, b])

/-- Three components of which nothing is known. -/
def freePixel (s : State) (n : Nat) : State × List Nat :=
  let (s, r) := s.choose n
  let (s, g) := s.choose n
  let (s, b) := s.choose n
  (s, [r, g, b])

/-- R464: SCAN_OUT_READ: an enabled head with a trained link sends one pixel. A base that was flipped outside this device's memory while
the head is enabled is read from nowhere: no rule says what is sent, and the components are free values (log entry 8). -/
def execScanOutRead (head x y : Nat) (late : Bool) (s : State) : Answer :=
  let h := s.head head
  if !h.en || !h.link || h.hact.toNat % 65536 ≤ x || h.hact.toNat / 65536 ≤ y then .next s
  else
    let n := if h.fmt == 2 then 8 else 4
    let at_ := h.active + y * h.pitch.toNat + x * n
    let own := ownPa s at_
    let pa := (paKey s at_).getD 0
    let s := if own then s.verifyN pa n else s
    let bad := own && s.poisonedPa pa n
    let h := { h with under := h.under || late
                      poisonPx := if bad && !late then min 0xFFFFFF (h.poisonPx + 1) else h.poisonPx }
    let s := s.setHead head h
    let (s, px) :=
      if late || bad then (s, [0, 0, 0])
      else if own then pixelOf s h.fmt (s.readPa pa n)
      else freePixel s (if h.fmt == 0 then 256 else 1024)
    .next { s with out := .pixel head x y px :: s.out }

/-! ### Unassigned opcodes (R61) -/

/-- R61: UNASSIGNED_OPCODE_ISSUE: ILLOP for every lane of the packet. -/
def execUnassignedOpcodeIssue (h : Hdr) (op : BitVec 9) (s : State) : Answer :=
  issue (.unassignedOpcodeIssue h op) h s fun s p => .next (s.trapPk p (trapAll p.lanes cILLOP))

end Sys2Proof.Machine
end

