-- ==== Sys2Proof/Machine/Collective.lean ====
section
/-! DEFINITION. Collectives (R287 to R289) and the page faults of copy and collective commands (R295). -/

namespace Sys2Proof.Machine

/-- R288: another device's participant, or the source of one that was announced. -/
def putRemote (c : RemoteColl) (l : List RemoteColl) : List RemoteColl :=
  let same (r : RemoteColl) : Bool := r.ctx == c.ctx && r.desc == c.desc && r.data.isNone
  if c.data.isSome && l.any same then updFirst same (fun _ => c) l else l ++ [c]

/-- R287, R289, R293: COLL reads its descriptor and enters its core's copy queue, from which it is handed to the collective engine of
its stack. -/
def execColl (op : CollOp) (ty : FoldTy) (o : CpyOp) (s : State) : Answer :=
  let i := Instr.coll op ty o
  issue i o.h s fun s p =>
    let act := p.active o.h
    match p.workers o.h with
    | [] => .next (finishLanes i o.h p s [] [] [])
    | w :: _ =>
      match s.laneRead p w.idx (p.read64 w 0 o.a.spec) 64 64 with
      | (s', .mmx t) => .next (finishLanes i o.h p s' [] [] (act.map fun l => { t with lane := l.idx }))
      | (s', r) =>
        if p.grp.idx != p.team.card.producer then .next (finishLanes i o.h p s [] [] (trapsOf act cCPYPERM))
        else
          let s := s'
          let id := s.nextId
          let desc := match r with
            | .ok b => b
            | _ => []
          let (s, keys) := s.keysFor p.iss.uid p.iss.grp
          let first := !s.putOff && (s.queueHead p.grp.core).isNone
          let s := { s with putOff := false }
          let full := first && s.collsFull p.team.ctx (stackOf p.grp.core) (CollDesc.of desc).cid
          let cmd : Cmd :=
            { id := id, uid := p.iss.uid, grp := p.iss.grp, lane := w.idx, pc := p.iss.pc, core := p.grp.core
              kind := .coll op ty desc, flag := p.flag o.h, port := if o.im.pv then some o.im.port.toNat else none
              tag := p.read32 w 0 o.tag, keys := keys, since := s.stackCyc (stackOf p.grp.core)
              state := if first then .collWait else .queued }
          let s := ({ s with nextId := id + 1, cmds := s.cmds ++ [cmd] } : State).fork p (.engine id p.iss.uid p.iss.grp)
            (act.map (·.idx))
          let s := finishSome i o.h p s p.iss.lanes [] [] none []
          .next (if desc.isEmpty || !collValid desc then s.endWith cmd 16
            else if full then s.endWith cmd 32
            else if first then s.announceColl p.team.ctx op ty desc none
            else s)

/-! ### The collective engine -/

/-- A participant: the command, when it is one of this device, its operation and descriptor, and a remote one's data. -/
structure Part where
  cmd : Option Cmd
  op : CollOp
  ty : FoldTy
  desc : CollDesc
  raw : Bytes
  /-- what its source holds, when that is known here -/
  data : Option (List (Byte × Bool)) := none

/-- The participants of (context, CID) that have reached their engines, a command parked on a page of its source among them:
first the commands of this device whose collective has started. Without CXL no other device's participant is there (R460). -/
def State.parts (s : State) (ctx cid : Nat) : List Part :=
  let mine := s.cmds.filterMap fun c =>
    match c.kind with
    | .coll op ty b =>
      let d := CollDesc.of b
      if c.result.isNone && s.collOf c == some (ctx, cid) then
        some { cmd := some c, op := op, ty := ty, desc := d, raw := b, data := c.cap } else none
    | _ => none
  let others := s.remoteColl.filterMap fun r =>
    let d := CollDesc.of r.desc
    if s.bar0.cxl && r.ctx == ctx && d.cid == cid then
      some { cmd := none, op := r.op, ty := r.ty, desc := d, raw := r.desc, data := r.data }
    else none
  mine.filter (·.data.isSome) ++ others ++ mine.filter (·.data.isNone)

/-- R288: the participants with which a collective starts, when it can, and whether they agree. -/
def startSet (ps : List Part) : Option (List Part × Bool) :=
  match ps with
  | [] => none
  | a :: _ =>
    if a.desc.npart ≤ ps.length then
      let l := ps.take a.desc.npart
      let same := l.all fun b => b.op == a.op && b.ty == a.ty && b.desc.npart == a.desc.npart
        && b.desc.bytes == a.desc.bytes && b.desc.root == a.desc.root
      let ranks := l.map (·.desc.rank)
      some (l, same && ranks.eraseDups.length == l.length)
    else if ps.any fun b => b.desc.npart ≤ ps.length then some (ps, false) else none

/-- The bytes that a participant supplies. -/
def Part.need (p : Part) : Nat :=
  match p.op with
  | .rscat => p.desc.npart * p.desc.bytes
  | .bcast => if p.desc.rank == p.desc.root then p.desc.bytes else 0
  | _ => p.desc.bytes

/-- The addresses of n bytes, word by word. -/
def wordVas (a n : Nat) : List Dword := (List.range (n / 4)).map fun i => dword (a + 4 * i)

/-- Reads the sources of this device's participants; the fault of the first command that meets one. -/
def readParts (s : State) : List Part → State × Except (Cmd × Cause × Dword) (List Part)
  | [] => (s, .ok [])
  | p :: r =>
    let one : State × Except (Cmd × Cause × Dword) Part :=
      match p.cmd, p.data with
      | none, _ | _, some _ => (s, .ok p)
      | some c, none =>
        match gatherElems s c 4 [] ((wordVas p.desc.src p.need).map some) with
        | (s, (_, ws), some (k, va)) => (s.cmdTouch c ws false, .error (c, k, va))
        | (s, (b, ws), none) => (s.cmdTouch c ws false, .ok { p with data := some b })
    match one with
    | (s, .error e) => (s, .error e)
    | (s, .ok p) =>
      match readParts s r with
      | (s, .error e) => (s, .error e)
      | (s, .ok l) => (s, .ok (p :: l))

/-- R288: one step of a fold on words. `.rscat` names no operation: the rule gives its destination "the fold of s_r[q × e + i] over r",
and the model folds with the sum (log entry 42). -/
def foldWord (op : CollOp) (ty : FoldTy) (a b : Nat) : Nat :=
  match op, ty with
  | .min, .f32 => (fp32.minMax false a b).val
  | .max, .f32 => (fp32.minMax true a b).val
  | _, .f32 => (fp32.add .rn (fp32.val a) (fp32.val b)).val
  | .min, .s32 => if (word a).toInt ≤ (word b).toInt then a else b
  | .max, .s32 => if (word a).toInt ≥ (word b).toInt then a else b
  | .min, .u32 => min a b
  | .max, .u32 => max a b
  | _, _ => (a + b) % 2 ^ 32

/-- A word of a participant's data, and whether it is poisoned. -/
def Part.word (p : Part) (i : Nat) : Nat × Bool :=
  let b := ((p.data.getD []).drop (4 * i)).take 4
  (leNat (b.map (·.1)), b.any (·.2))

/-- R288: the fold of word i over the participants in rising rank order. -/
def foldParts (op : CollOp) (ty : FoldTy) (ps : List Part) (i : Nat) : List (Byte × Bool) :=
  match ps with
  | [] => []
  | a :: r =>
    let x := r.foldl (fun (x : Nat × Bool) p => (foldWord op ty x.1 (p.word i).1, x.2 || (p.word i).2)) (a.word i)
    (leBytes x.1 4).map fun b => (b, x.2)

/-- Participants in rising rank order. -/
def byRank (ps : List Part) : List Part :=
  (List.range ps.length).filterMap fun q => ps.find? (·.desc.rank == q)

/-- R288: what the destination of rank q receives. A `.bcast` whose ROOT is no participant's rank sends words that the manual does not
state, taken from `free` on (log entry 42). -/
def collResult (ps : List Part) (free q : Nat) : List (Byte × Bool) :=
  let l := byRank ps
  match l with
  | [] => []
  | a :: _ =>
    let e := a.desc.bytes / 4
    match a.op with
    | .gather => l.flatMap fun p => p.data.getD []
    | .bcast =>
      match l.find? fun p => p.desc.rank == a.desc.root with
      | some p => p.data.getD []
      | none => (List.range e).flatMap fun i => (leBytes (Config.freeWord (2 ^ 50 + free * 2 ^ 32 + i)).toNat 4).map fun x => (x, false)
    | .rscat => (List.range e).flatMap fun i => foldParts a.op a.ty l (q * e + i)
    | op => (List.range e).flatMap fun i => foldParts op a.ty l i

/-- Takes the first announcement of a remote participant off the list. -/
def dropRemote (ctx : Nat) (d : Bytes) : List RemoteColl → List RemoteColl
  | [] => []
  | r :: l => if r.ctx == ctx && r.desc == d then l else r :: dropRemote ctx d l

/-- R288: COLLECTIVE_START: the participants are checked and the sources of this device's are read, and sent to the devices of
the others; once every source is here, each destination's bytes are known. A page that is not present, or a command parked on
one, holds the collective back; another fault ends the command that meets it. -/
def execCollectiveStart (ctx cid : Nat) (s : State) : Answer :=
  match startSet (s.parts ctx cid) with
  | none => .next s
  | some (ps, agree) =>
    let gone (s : State) : State :=
      { s with remoteColl := (ps.filter (·.cmd.isNone)).foldl (fun l p => dropRemote ctx p.raw l) s.remoteColl }
    if !agree then
      .next (gone (ps.foldl (fun (s : State) p => match p.cmd with
        | some c => s.updCmd c.id (fun c => { c with status := c.status ||| 16, result := some [] })
        | none => s) s))
    else
      if ps.any fun p => ((p.cmd.map (·.state)).getD .collWait) == .parked then .next s
      else
        match readParts s ps with
        | (s', .error (c, k, va)) => if k == cPAGEF then .next s else .next (s'.cmdTerm c k va false)
        | (s, .ok qs) =>
          let sent := (ps.filter fun p => p.data.isNone && p.cmd.isSome).map fun p => p.raw
          let s := if qs.any (·.cmd.isNone) then qs.foldl (fun (s : State) p =>
              if sent.contains p.raw then s.announceColl ctx p.op p.ty p.raw p.data else s) s else s
          if qs.any fun p => p.data.isNone then
            .next (qs.foldl (fun (s : State) p => match p.cmd with
              | some c => s.updCmd c.id fun c => { c with cap := p.data }
              | none => s) s)
          else
            let (s, free) := ({ s with choices := s.choices + 1 }, s.choices)
            .next (gone (qs.foldl (fun (s : State) p => match p.cmd with
              | some c =>
                let b := collResult qs free p.desc.rank
                s.updCmd c.id fun c => { c with result := some b, status := if b.any (·.2) then c.status ||| 2 else c.status }
              | none => s) s))

/-- R289: COLLECTIVE_TIMEOUT: participants are lacking past the park limit, in service cycles of the issuing stack's counter since a
participant reached its engine. -/
def execCollectiveTimeout (ctx cid : Nat) (s : State) : Answer :=
  let ps := s.parts ctx cid
  let late := ps.any fun p => match p.cmd with
    | some c => s.pastLimit ctx (s.stackCyc (stackOf c.core) - c.since)
    | none => false
  if (startSet ps).isNone && late then
    let s := { s with remoteColl := s.remoteColl.filter fun r => !(r.ctx == ctx && (CollDesc.of r.desc).cid == cid) }
    .next (ps.foldl (fun (s : State) p => match p.cmd with
      | some c => s.endWith c 64
      | none => s) s)
  else .next s

/-- The writes of a collective's participant, up to the first that faults. -/
def collWrite (s : State) (c : Cmd) (d : CollDesc) (b : List (Byte × Bool)) : State × Option (Cause × Dword) :=
  let n := b.length / 4
  let l := (List.range n).map fun i => (dword (d.dst + 4 * i), (b.drop (4 * i)).take 4)
  let (s, rs, e) := placeElems s c l
  ((s.cmdTouch c (placedWords l rs) true).landRuns (s.landClusters c) (joinRuns rs), e)

/-- R288, R289: COLLECTIVE_COMPLETE: a participant's destination is written and its completion object shows. -/
def execCollectiveComplete (cmd : Nat) (s : State) : Answer :=
  match s.cmd? cmd with
  | none => .next s
  | some c =>
    match c.kind, c.result with
    | .coll _ _ desc, some b =>
      if c.state != .collWait then .next s
      else if c.status.getLsbD 4 then .next (s.endWith c 16)
      else
        match collWrite s c (CollDesc.of desc) b with
        | (s, none) => .next (s.endCmd cmd 0)
        | (s', some (k, va)) => if k == cPAGEF then .next s else .next (s'.cmdTerm c k va true)
    | _, _ => .next s

/-- R295: COPY_PAGE_FAULT: a command needs a page with V = 0 and parks. What it had issued before has landed. -/
def execCopyPageFault (cmd : Nat) (s : State) : Answer :=
  match s.cmd? cmd with
  | none => .next s
  | some c =>
    match c.kind with
    | .coll _ _ desc =>
      if c.state != .collWait then .next s
      else
        match c.result with
        | some b =>
          match collWrite s c (CollDesc.of desc) b with
          | (s', some (k, va)) => if k == cPAGEF && !c.status.getLsbD 4 then .next (s'.cmdPark c va true) else .next s
          | (_, none) => .next s
        | none =>
          match startSet (s.parts (s.ctxOf c.uid) (CollDesc.of desc).cid) with
          | some (ps, true) =>
            match readParts s ps with
            | (s', .error (c', k, va)) => if k == cPAGEF && c'.id == cmd then .next (s'.cmdPark c va false) else .next s
            | (_, .ok _) => .next s
          | _ => .next s
    | k =>
      match s.moving c with
      | none => .next s
      | some s1 =>
        match runPieces s1 cmd c.left with
        | (s', some (cause, va)) => if cause == cPAGEF then .next (s'.cmdPark c va (k.writesMem || s'.inFrame c.uid va)) else .next s
        | (_, none) => .next s

end Sys2Proof.Machine
end

