-- ==== Sys2Proof/Machine/Control.lean ====
section
/-! DEFINITION. The control instructions: transfers with the return stack (R80 to R86), EXIT, NOP, TRAP and BKPT (R87, R88),
CONV and YIELD (R153 to R155), and REP (R89 to R92). -/

namespace Sys2Proof.Machine

/-! ### Transfers -/

/-- What a transfer makes of its entry: the entry's state, and the line's content when it has been fetched. -/
abbrev Landing := Entry × Option (BitVec 512)

/-- R80: a lane after a non-sequential transfer. -/
def Lane.jump (l : Lane) (pc : Dword) (e : Landing) : Lane := { l with pc := pc, entry := e.1, line := e.2 }

/-- R20, R26, R84 step 2: the check of a transfer's target: the entry that the transfer makes, or its trap. A line word or a parity
that fails ends the transfer, with ILLINE at the entered PC (R26 steps 2 and 3); only a target line that cannot be fetched stops
the lane at the entered PC after the transfer (R30). Each lane of a packet makes the check for itself, and counts its own soft error at
a line of wrong parity (log entry 64). -/
def State.target (s : State) (p : Pk) (lane : Nat) (pc : Dword) : State × Except Trap Landing :=
  let bad : Trap := { lane := lane, cause := cBRTGT, addr := pc }
  if pcMalformed pc then (s, .error bad)
  else
    match enterLine s p.grp.core p.team.ctx pc with
    | (s, .error c) =>
      if c == cILLINE then (s, .error { lane := lane, cause := cILLINE, pc := some pc }) else (s, .ok (.fresh true, none))
    | (s, .ok l) => (s.lineSeen p.iss.uid p.iss.grp pc l,
        if lineTgt (lineWord l) (pc.toNat % 8) then .ok (.waiting true, some l) else .error bad)

/-- What a transfer does to one lane, or its trap. -/
abbrev LaneAct := State → Pk → Lane → State × Except Trap (Lane → Lane)

/-- Applies an effect to each lane of a list; the traps of those that have one. -/
def State.eachLane (s : State) (p : Pk) (f : LaneAct) : List Lane → State × List Trap
  | [] => (s, [])
  | l :: r =>
    match f s p l with
    | (s, .ok u) => (s.updPkLanes p [l.idx] u).eachLane p f r
    | (s, .error t) =>
      let (s, ts) := s.eachLane p f r
      (s, t :: ts)

/-- The issue of a transfer: each active lane transfers or traps, the others go on in sequence (R80). -/
def transfer (i : Instr) (h : Hdr) (f : LaneAct) (s : State) : Answer :=
  issueWith i h (fun _ => []) (fun p => p.lanes.filter (!·.guard h)) s fun s p =>
    let (s, ts) := s.eachLane p f (p.active h)
    let ok := ((p.active h).map (·.idx)).filter fun l => !(ts.map (·.lane)).contains l
    let s := s.kill p ok (shapeKills i.shape)
    .next ((s.advance p ((p.lanes.filter (!·.guard h)).map (·.idx))).trapPk p ts)

/-- R56: the direct target of an instruction. -/
def directTarget (pc : Dword) (loff : BitVec 29) (tslot : BitVec 3) : Dword :=
  dword (pc.toNat / 64 * 64) + (loff.signExtend 64 <<< 6) + tslot.setWidth 64

/-- A plain jump to a lane's target. -/
def jumpTo (tgt : Pk → Lane → Dword) : LaneAct := fun s p l =>
  match s.target p l.idx (tgt p l) with
  | (s, .ok e) => (s, .ok fun l => l.jump (tgt p l) e)
  | (s, .error t) => (s, .error t)

def execBra (h : Hdr) (loff : BitVec 29) (tslot : BitVec 3) (s : State) : Answer :=
  transfer (.bra h loff tslot) h (jumpTo fun p _ => directTarget p.iss.pc loff tslot) s

def execBrx (h : Hdr) (t : Src) (s : State) : Answer :=
  transfer (.brx h t) h (fun s p l =>
    let pc := p.read64 l 0 t.spec
    jumpTo (fun _ _ => pc) s p l) s

/-! ### Calls and returns -/

/-- R82: the address of entry k of a thread's return-spill area. -/
def Pk.spillAt (p : Pk) (lane k : Nat) : Dword :=
  let tid := (p.team.team * p.team.card.groups + p.grp.idx) * 256 + lane
  p.team.card.rsBase + dword (tid * p.team.card.rsSize.toNat + 8 * k)

/-- R82: the capacity of a thread's spill area in entries. -/
def Pk.spillCap (p : Pk) : Nat :=
  if p.team.team < p.team.card.rsTeams.toNat then p.team.card.rsSize.toNat / 8 else 0

/-- R83: RSBASE or RSSIZE is no multiple of 8. -/
def Pk.spillMisaligned (p : Pk) : Bool := p.team.card.rsBase.toNat % 8 != 0 || p.team.card.rsSize.toNat % 8 != 0

/-- R83: the place of a spill access of 8 bytes, or its trap. -/
def State.spillPlace (s : State) (p : Pk) (lane : Nat) (k : AKind) (va : Dword) : State × Except Trap Loc :=
  s.placePieces p lane k [(va, 8)]

/-- R83, R84: the spill write of a CALL: its checks are made, and it is performed, or put off (R236). Of a packet that is put off, the
number comes when all of its lanes have called (`State.joinSpills`). -/
def State.spillWrite (s : State) (p : Pk) (i : Instr) (lane k : Nat) (v : Dword) : State × Option Trap :=
  match s.spillPlace p lane .store (p.spillAt lane k) with
  | (s, .error t) => (s, some t)
  | (s, .ok loc) =>
    let e : Late := { instr := i, lane := lane, loc := loc, d := v.toNat, bytes := 8 }
    if s.putOff then (s.fly p { regs := [], preds := [], flag := none, late := some e }, none)
    else ((s.orderSpill p.iss.uid p.iss.grp lane loc).spillStore p loc v.toNat, none)

/-- R83, R85: reads a spilled entry: a weak load, exempt from detection. -/
def State.spillRead (s : State) (p : Pk) (lane k : Nat) : State × Except Trap Dword :=
  let va := p.spillAt lane k
  if p.spillMisaligned then (s, .error { lane := lane, cause := cMISALIGN, addr := va })
  else
    match s.spillPlace p lane .load va with
    | (s, .error t) => (s, .error t)
    | (s, .ok loc) =>
      let s := s.orderSpill p.iss.uid p.iss.grp lane loc
      match s.readPoison p.iss.uid p.grp.core true loc with
      | some va => (s, .error (addrTrap lane cPOISON va .load))
      | none =>
        let (s, b) := s.locLoad p false 0 loc
        (s, .ok (dword (leNat b)))

/-- R84: pushes a return PC; `spill`: the oldest on-chip entry has gone to memory. -/
def Lane.push (l : Lane) (ret : Dword) (spill : Bool) : Lane :=
  { l with rstack := ret :: (if spill then l.rstack.take 3 else l.rstack)
           spilled := if spill then l.spilled + 1 else l.spilled }

/-- R81, R84: a call to a target. -/
def callTo (i : Instr) (tgt : Pk → Lane → Dword) : LaneAct := fun s p l =>
  let ret := nextPc p.iss.pc
  let pc := tgt p l
  if !canonical ret then (s, .error { lane := l.idx, cause := cBRTGT, addr := ret })
  else
    match s.target p l.idx pc with
    | (s, .error t) => (s, .error t)
    | (s, .ok e) =>
      if l.rstack.length < 4 then (s, .ok fun l => (l.push ret false).jump pc e)
      else if p.spillMisaligned then
        (s, .error { lane := l.idx, cause := cMISALIGN, addr := p.spillAt l.idx l.spilled })
      else if l.spilled ≥ p.spillCap then (s, .error { lane := l.idx, cause := cSTACKOVF })
      else
        match s.spillWrite p i l.idx l.spilled ((l.rstack.getLast?).getD 0) with
        | (s, some t) => (s, .error t)
        | (s, none) => (s, .ok fun l => (l.push ret true).jump pc e)

/-- The pieces of memory that the spills of a packet write together, from the state before its CALL to the one after it. -/
def State.spillCover (s t : State) (p : Pk) : List (Nat × Nat) :=
  p.lanes.flatMap fun l =>
    if ((t.lane? p.iss.uid p.iss.grp l.idx).map (·.spilled)).getD 0 == l.spilled + 1 then
      (match (s.spillPlace p l.idx .store (p.spillAt l.idx l.spilled)).2 with
      | .ok loc => loc.pieces
      | .error _ => [])
    else []

/-- R83, R120: the sectors that the spills of a packet have covered together are poisoned no longer. -/
def State.sweepSpills (s t : State) : State :=
  match t.poison, pk? s with
  | _ :: _, some p => t.sweep (s.spillCover t p)
  | _, _ => t

/-- The spill writes of a packet that are put off are one packet's, with what they cover together; a save has performed them. -/
def State.joinSpills (s t : State) : State :=
  match pk? s with
  | none => t
  | some p =>
    let mine (q : Pending) : Bool := q.pkt == 0 && (q.late.map (·.isSpill)).getD false
    if ((t.group? p.iss.uid p.iss.grp).map (·.inflight.any mine)).getD false then
      ({ t with nextId := t.nextId + 1, putOff := false } : State).updGroup p.iss.uid p.iss.grp fun g =>
        { g with inflight := g.inflight.map fun q => if mine q then { q with pkt := t.nextId, cover := s.spillCover t p } else q }
    else s.sweepSpills { t with putOff := false }

/-- R84: CALL and CALLX. -/
def callIssue (i : Instr) (h : Hdr) (tgt : Pk → Lane → Dword) (s : State) : Answer :=
  match transfer i h (callTo i tgt) s with
  | .next t => .next (if s.putOff then s.joinSpills t else s.sweepSpills t)
  | a => a

def execCall (h : Hdr) (loff : BitVec 29) (tslot : BitVec 3) (s : State) : Answer :=
  callIssue (.call h loff tslot) h (fun p _ => directTarget p.iss.pc loff tslot) s

def execCallx (h : Hdr) (t : Src) (s : State) : Answer :=
  callIssue (.callx h t) h (fun p l => p.read64 l 0 t.spec) s

/-- R85: a return. A lane that holds only spilled entries (after a restore) reads the newest of them first. -/
def retLane : LaneAct := fun s p l =>
  match l.rstack with
  | [] =>
    if l.spilled == 0 then (s, .error { lane := l.idx, cause := cSTACKOVF })
    else
      match s.spillRead p l.idx (l.spilled - 1) with
      | (s, .error t) => (s, .error t)
      | (s, .ok pc) =>
        match s.target p l.idx pc with
        | (s, .error t) => (s, .error t)
        | (s, .ok e) => (s, .ok fun l => { l with spilled := l.spilled - 1 }.jump pc e)
  | pc :: rest =>
    match s.target p l.idx pc with
    | (s, .error t) => (s, .error t)
    | (s, .ok e) =>
      if rest.isEmpty && l.spilled > 0 then
        match s.spillRead p l.idx (l.spilled - 1) with
        | (s, .error t) => (s, .error t)
        | (s, .ok old) => (s, .ok fun l => { l with rstack := [old], spilled := l.spilled - 1 }.jump pc e)
      else (s, .ok fun l => { l with rstack := rest }.jump pc e)

def execRet (h : Hdr) (s : State) : Answer := transfer (.ret h) h retLane s

/-! ### Exit, no-op and traps by instruction -/

def execNop (h : Hdr) (s : State) : Answer :=
  issue (.nop h) h s fun s p => .next ((s.advance p p.iss.lanes).trapPk p [])

/-- R87: the active lanes exit, the others go on. -/
def execExit (h : Hdr) (s : State) : Answer :=
  issueWith (.exit h) h (fun _ => []) (fun p => p.lanes.filter (!·.guard h)) s fun s p =>
    let stay := (p.lanes.filter (!·.guard h)).map (·.idx)
    let s := s.advance p stay
    let act := (p.active h).map (·.idx)
    .next ((if act.isEmpty then s else s.exitLanes p.iss.uid p.iss.grp act).trapPk p [])

/-- R87, R88: every active lane traps; the others go on. -/
def trapInstr (i : Instr) (h : Hdr) (c : Cause) (code : Nat) (s : State) : Answer :=
  issue i h s fun s p =>
    let s := s.advance p ((p.lanes.filter (!·.guard h)).map (·.idx))
    .next (s.trapPk p ((p.active h).map fun l => { lane := l.idx, cause := c, code := code }))

def execTrap (h : Hdr) (code : BitVec 16) (s : State) : Answer := trapInstr (.trap h code) h cTRAPI code.toNat s

def execBkpt (h : Hdr) (s : State) : Answer := trapInstr (.bkpt h) h cBKPT 0 s

/-! ### Convergence and yielding -/

/-- R153, R154: each active lane parks at the CONV; the last arrival releases the group. -/
def execConv (h : Hdr) (s : State) : Answer :=
  issue (.conv h) h s fun s p =>
    let s := s.advance p ((p.lanes.filter (!·.guard h)).map (·.idx))
    let now := s.coreCyc p.grp.core
    let s := s.updPkLanes p ((p.active h).map (·.idx)) fun l => { l with park := some (.conv, now) }
    .next ((s.trapPk p []).checkConv p.iss.uid p.iss.grp)

/-- R155: at the next issue the lanes that were not active here go first. -/
def execYield (h : Hdr) (s : State) : Answer :=
  issue (.yield h) h s fun s p =>
    let s := s.updGroup p.iss.uid p.iss.grp fun g => { g with yielded := (p.active h).map (·.idx) }
    .next ((s.advance p p.iss.lanes).trapPk p [])

/-! ### The repeat prefix -/

/-- R21, R45, R61: the fault of a REP for every lane of its packet, before anything else: the BRTGT of a REP in slot 4 of the last
line, then ILLOP for an encoding fault, a place without a governed instruction or one that REP may not govern, then ILLOPD. -/
def repFault (i : Instr) (p : Pk) : Option (List Trap) :=
  if p.iss.seqBad then some (p.lanes.map fun l => p.iss.seqTrap l.idx)
  else if encFault i p.iss == some cILLOP || !p.iss.repPlaced then some (trapAll p.lanes cILLOP)
  else (encFault i p.iss).map (trapAll p.lanes)

/-- R89 to R92: one issue of a REP. Its checks are made; lanes without an iteration left go past the governed instruction;
for the others the governed instruction of this iteration is to issue next. -/
def execRep (h : Hdr) (n : Src) (stride : BitVec 3) (mask : BitVec 4) (s : State) : Answer :=
  match pk? s with
  | none => .fault .noPacket
  | some p =>
    let kills := shapeKills (Instr.rep h n stride mask).shape
    match repFault (.rep h n stride mask) p with
    | some ts => .next ((s.commit p).trapPk p ts)
    | none =>
      let w := p.iss.next.getD 0
      let act := p.lanes.filter (·.inRep h)
      let cnts := (act.map fun l => p.repCount l n).eraseDups
      let badCnts := cnts.filter fun k => !repOk w stride.toNat mask k
      let bad := act.filter fun l => badCnts.contains (p.repCount l n)
      let scalar := match decode w with
        | .ok i => i.scalarDst
        | .error _ => false
      let ts := (trapAll bad cILLOPD) ++
        (if scalar && cnts.length > 1 then trapAll (p.lanes.filter fun l => !bad.contains l) cILLCONV else [])
      let live := p.lanes.filter fun l => !(ts.map (·.lane)).contains l.idx
      let gone := live.filter fun l => l.inRep h && p.repCount l n ≤ l.rep
      let go := live.filter fun l => !gone.contains l
      -- R21: the lanes that go past the governed instruction
      let past : Issue := { p.iss with rep := some p.iss.pc }
      let stop := if past.seqBad then gone else []
      let ts := ts ++ stop.map fun l => past.seqTrap l.idx
      let gone := gone.filter fun l => !stop.contains l
      let goIdx := go.map (·.idx)
      let s := if go.isEmpty then s.commit p else s
      let s := s.updPkLanes p goIdx fun l => { l with repN := if l.inRep h then some (p.repCount l n) else none }
      let s := s.updPkLanes p (gone.map (·.idx)) fun l => { (l.unmap kills).repDone with w := 0 }
      let s := s.trapPk p ts
      if go.isEmpty then .next s
      else
        let rep := ((go.head?).map (·.rep)).getD 0
        let iss := { p.iss with lanes := goIdx, rep := some p.iss.pc, repKill := kills }
        let w' := repShift w mask (rep * stride.toNat)
        match decode w' with
        | .ok i => .next { s with repNext := some (iss, i) }
        | .error e => .next (trapEncoding s iss w' e)

end Sys2Proof.Machine
end

