-- ==== Sys2Proof/Machine/Convert.lean ====
section
/-! DEFINITION. The conversions (R114). -/

namespace Sys2Proof.Machine

/-- Bits and signedness of an integer type. -/
def ityBits : ITy → Nat
  | .s32 | .u32 => 32
  | .s64 | .u64 => 64
  | .s16 | .u16 => 16
  | .s8 | .u8 => 8

def itySigned : ITy → Bool
  | .s32 | .s64 | .s16 | .s8 => true
  | _ => false

def ityMin (t : ITy) : Int := if itySigned t then -(2 ^ (ityBits t - 1)) else 0
def ityMax (t : ITy) : Int := if itySigned t then 2 ^ (ityBits t - 1) - 1 else 2 ^ ityBits t - 1

/-- The integer that the low bits of a value hold in a type. -/
def ityVal (t : ITy) (x : Nat) : Int :=
  let y := x % 2 ^ ityBits t
  if itySigned t && y.testBit (ityBits t - 1) then (y : Int) - 2 ^ ityBits t else y

/-- R114: an integer of a type as it is written: extended to 32 bits, or to 64. -/
def ityOut (t : ITy) (x : Int) : Nat := if ityBits t == 64 then lo64i x else lo32i x

/-- R114: the bits of a float source; `hi` reads bits 31:16. -/
def floatSrc (f : FFmt) (hi : Bool) (x : Nat) : Nat :=
  match f with
  | .f16 | .bf16 => if hi then x / 2 ^ 16 % 2 ^ 16 else x % 2 ^ 16
  | _ => x

/-- R114: F2I. -/
def f2i (rnd : Rnd) (sf : FFmt) (dt : ITy) (x : Nat) : Res :=
  match (fmtOf sf).val x with
  | .nan _ => ⟨0, fNV⟩
  | .inf n => ⟨ityOut dt (if n then ityMin dt else ityMax dt), fNV⟩
  | .fin n m e =>
    let (k, inexact) := roundAt rnd n m e false 0
    let v : Int := if n then -(k : Int) else k
    if v < ityMin dt then ⟨ityOut dt (ityMin dt), fNV⟩
    else if v > ityMax dt then ⟨ityOut dt (ityMax dt), fNV⟩
    else ⟨ityOut dt v, fpBit inexact fNX⟩

/-- R114: I2F. -/
def i2f (rnd : Rnd) (sty : ITy) (df : FFmt) (x : Nat) : Res :=
  let v := ityVal sty x
  if v == 0 then ⟨0, 0⟩ else (fmtOf df).round rnd (v < 0) v.natAbs 0

/-- R114: F2F. -/
def f2f (rnd : Rnd) (sf df : FFmt) (x : Nat) : Res :=
  let f := fmtOf sf
  let d := fmtOf df
  match f.val x with
  | .nan sg => d.nanRes sg
  | .inf n => ⟨d.signed n d.infBits, 0⟩
  | .fin n m e => if m == 0 then ⟨d.signed n 0, 0⟩ else d.round rnd n m e

/-- R114: I2I. -/
def i2i (sty dt : ITy) (sat : Bool) (x : Nat) : Nat :=
  let v := ityVal sty x
  ityOut dt (if sat then min (max v (ityMin dt)) (ityMax dt) else ityVal dt (lo64i v))

def execF2i (rnd : Rnd) (sf : FFmt) (dt : ITy) (hi : Bool) (o : Op1) (s : State) : Answer :=
  alu (.f2i rnd sf dt hi o) o.h o.imm (fun _ _ v => f2i rnd sf dt (floatSrc sf hi (v.getD 0 0))) s

def execI2f (rnd : Rnd) (st1 : ITy) (df : FFmt) (o : Op1) (s : State) : Answer :=
  alu (.i2f rnd st1 df o) o.h o.imm (fun _ _ v => i2f rnd st1 df (v.getD 0 0)) s

def execF2f (rnd : Rnd) (sf df : FFmt) (hi : Bool) (o : Op1) (s : State) : Answer :=
  alu (.f2f rnd sf df hi o) o.h o.imm (fun _ _ v => f2f rnd sf df (floatSrc sf hi (v.getD 0 0))) s

def execI2i (st1 dt : ITy) (sat : Bool) (o : Op1) (s : State) : Answer :=
  alu (.i2i st1 dt sat o) o.h o.imm (fun _ _ v => Res.of (i2i st1 dt sat (v.getD 0 0))) s

end Sys2Proof.Machine
end

