-- ==== Sys2Proof/Machine/Approx.lean ====
section
/-! DEFINITION. The special functions of FSPEC (R112, R113). The exact value of a function is computed to well over 300 bits
in fixed point; the device's own result bits, which are not published, are taken from `Config.fspecBits` as far as they lie
within the bounds of R112 (log entry 2). -/

namespace Sys2Proof.Machine

/-- Fractional bits of the fixed-point values. -/
def fxP : Nat := 512

/-- A fixed-point value: the integer x stands for x / 2^512. -/
abbrev Fx := Int

def fxOne : Fx := 2 ^ fxP
def fxMul (a b : Fx) : Fx := a * b / fxOne
def fxDiv (a b : Fx) : Fx := a * fxOne / b

/-- 1 + x + x^2/2! + ..., n terms from the k-th on; t: the term before. -/
def expSum (x : Fx) (t : Fx) (k : Nat) : Nat → Fx
  | 0 => 0
  | n + 1 =>
    let t' := fxMul t x / k
    t' + expSum x t' (k + 1) n

/-- e^x for |x| at most 1. -/
def fxExp1 (x : Fx) : Fx := fxOne + expSum x fxOne 1 110

/-- z + z^3/3 + z^5/5 + ... (s = 1), or with alternating signs (s = -1). -/
def atanSum (s : Int) (z2 t : Fx) (k : Nat) : Nat → Fx
  | 0 => 0
  | n + 1 => t / k + atanSum s z2 (s * fxMul t z2) (k + 2) n

/-- atanh z for |z| at most 1/3. -/
def fxAtanh (z : Fx) : Fx := atanSum 1 (fxMul z z) z 1 170

/-- ln 2 = 2 atanh (1/3). -/
def fxLn2 : Fx := 2 * fxAtanh (fxOne / 3)

/-- arctan (1/n) for n at least 5. -/
def fxAtanInv (n : Int) : Fx := atanSum (-1) (fxOne / (n * n)) (fxOne / n) 1 120

/-- pi by Machin's formula. -/
def fxPi : Fx := 16 * fxAtanInv 5 - 4 * fxAtanInv 239

/-- Terms of a sine or cosine series: t, -t x^2/((k+1)(k+2)), ... -/
def trigSum (x2 t : Fx) (k : Nat) : Nat → Fx
  | 0 => 0
  | n + 1 => t + trigSum x2 (-(fxMul t x2 / ((k + 1) * (k + 2) : Nat))) (k + 2) n

/-- sin x and cos x for |x| at most pi. -/
def fxSin (x : Fx) : Fx := trigSum (fxMul x x) x 1 70
def fxCos (x : Fx) : Fx := trigSum (fxMul x x) fxOne 0 70

/-- x reduced to the interval from -pi to pi. -/
def fxReduce (x : Fx) : Fx :=
  let r := x % (2 * fxPi)
  if r > fxPi then r - 2 * fxPi else r

/-- Squares a value n times. -/
def fxSquare (x : Fx) : Nat → Fx
  | 0 => x
  | n + 1 => fxSquare (fxMul x x) n

/-- The value m * 2^e in fixed point; e is at least -512. -/
def fxOf (neg : Bool) (m : Nat) (e : Int) : Fx :=
  let x : Fx := m * 2 ^ (e + fxP).toNat
  if neg then -x else x

/-- An exact value for all purposes of R112: num / 2^512 * 2^k. -/
structure Exact where
  num : Fx
  k : Int
  deriving DecidableEq, Repr

/-- The function's value on a finite argument of its domain. -/
def fspecExact (fn : FFn) (neg : Bool) (m : Nat) (e : Int) : Exact :=
  match fn with
  | .rcp => ⟨(if neg then -1 else 1) * (2 ^ (2 * fxP) / m : Nat), -(e + fxP)⟩
  | .rsq =>
    -- 1 / sqrt (m 2^e), with an even exponent
    let (m, e) := if e % 2 == 0 then (m, e) else (2 * m, e - 1)
    ⟨Nat.sqrt (2 ^ (4 * fxP) / m), -(e / 2 + fxP)⟩
  | .sqrt => ⟨0, 0⟩
  | .ex2 =>
    let x := fxOf neg m e
    let k := x / fxOne
    ⟨fxExp1 (fxMul (x - k * fxOne) fxLn2), k⟩
  | .lg2 =>
    let l := bitLen m - 1
    let f : Fx := fxOne * m / 2 ^ l
    ⟨(e + l) * fxOne + fxDiv (2 * fxAtanh (fxDiv (f - fxOne) (f + fxOne))) fxLn2, 0⟩
  | .sin => ⟨fxSin (fxReduce (fxOf neg m e)), 0⟩
  | .cos => ⟨fxCos (fxReduce (fxOf neg m e)), 0⟩
  | .tanh =>
    let x := fxOf false m e
    let t := if x ≥ 64 * fxOne then 0 else fxSquare (fxExp1 (-(2 * x) / 128)) 7
    -- below 1 for every finite a
    let y := if t == 0 then fxOne - 1 else fxDiv (fxOne - t) (fxOne + t)
    ⟨if neg then -y else y, 0⟩

/-- The magnitude's leading exponent. -/
def Exact.top (x : Exact) : Int := (bitLen x.num.natAbs : Int) - 1 - fxP + x.k

/-- The exponent of the ulp of an exact result, subnormal spacing included (R112). -/
def Exact.ulpExp (x : Exact) : Int := max x.top fp32.emin - fp32.mb

/-- R112: the maximum error as a number c of units 2^q. -/
def fspecBound (fn : FFn) (m : Nat) (e : Int) (x : Exact) : Nat × Int :=
  match fn with
  | .rcp | .rsq => (1, x.ulpExp)
  | .lg2 =>
    -- a in [0.5, 2]: absolute error
    let t : Int := (bitLen m : Int) - 1 + e
    if t == -1 || t == 0 || (t == 1 && m == 2 ^ (bitLen m - 1)) then (1, -22) else (2, x.ulpExp)
  | .sin | .cos => if x.top ≥ -10 then (2, x.ulpExp) else (1, -22)
  | _ => (2, x.ulpExp)

/-- The exponent of a bound on the error of the fixed-point value, which lies far below the distance of the exact value from any
bound of R112. A hyperbolic tangent that has run out of bits stands for every value between 1 - 2^-183 and 1, and needs none. -/
def fspecErr (fn : FFn) (m : Nat) (e : Int) (x : Exact) : Option Int :=
  match fn with
  | .tanh => if x.num.natAbs + 1 == fxOne.natAbs then none else some (-490)
  | .sin | .cos => some (max 0 ((bitLen m : Int) + e) - 490)
  | _ => some (x.k - 490)

/-- Is a finite binary32 within c * 2^q of an exact result that is known up to an error? -/
def Exact.near (x : Exact) (bits : Nat) (c : Nat) (q : Int) (err : Option Int) : Bool :=
  match fp32.val bits with
  | .fin n m e =>
    let base : Int := -1200
    let y : Int := (if n then -1 else 1) * (m * 2 ^ (e - base).toNat : Nat)
    let z : Int := x.num * 2 ^ (x.k - fxP - base).toNat
    let tol : Int := c * 2 ^ (q - base).toNat + ((err.map fun k => 2 ^ (k - base).toNat).getD 0 : Nat)
    (y - z).natAbs ≤ tol.natAbs
  | _ => false

/-- The exact result in binary32, to nearest. -/
def Exact.nearest (x : Exact) : Nat :=
  if x.num == 0 then 0 else (fp32.round .rn (x.num < 0) x.num.natAbs (x.k - fxP)).val

/-- R112: is the exact result representable? A power of two below 2^-149 is not. -/
def fspecExactCase (fn : FFn) (neg : Bool) (m : Nat) (e : Int) : Bool :=
  let pow2 := m == 2 ^ (bitLen m - 1)
  match fn with
  | .rcp => pow2
  | .rsq => pow2 && ((bitLen m : Int) - 1 + e) % 2 == 0
  | .ex2 => (e ≥ 0 || m % 2 ^ (-e).toNat == 0) && (!neg || m * 2 ^ e.toNat / 2 ^ (-e).toNat ≤ 149)
  | .lg2 => pow2
  | _ => false

/-- The code of a function, as FN codes it. -/
def ffnCode : FFn → Nat
  | .rcp => 0
  | .rsq => 1
  | .sqrt => 2
  | .ex2 => 3
  | .lg2 => 4
  | .sin => 5
  | .cos => 6
  | .tanh => 7

/-- R112: the correctly rounded square root of a positive finite value. -/
def fp32Sqrt (rnd : Rnd) (m : Nat) (e : Int) : Res :=
  let (m, e) := if e % 2 == 0 then (m, e) else (2 * m, e - 1)
  let r := Nat.sqrt (m * 2 ^ 64)
  fp32.round rnd false r (e / 2 - 32) (r * r != m * 2 ^ 64)

/-- R112: the result on a finite argument, not zero, inside the function's domain. -/
def fspecFinite (fn : FFn) (rnd : Rnd) (a : Nat) (neg : Bool) (m : Nat) (e : Int) : Res :=
  if fn == .sqrt then fp32Sqrt rnd m e
  else if fn == .ex2 && (bitLen m : Int) + e > 8 then
    -- |a| of at least 256: far above the largest finite value, or far below the smallest subnormal
    if neg then
      let b := (Config.fspecBits 3 (word a)).toNat
      ⟨if [0, 1, 2, 0x80000000, 0x80000001].contains b then b else 0, fUF ||| fNX⟩
    else ⟨fp32.infBits, fOF ||| fNX⟩
  else
    let x := fspecExact fn neg m e
    if x.top ≥ 128 then ⟨fp32.signed (x.num < 0) fp32.infBits, fOF ||| fNX⟩
    else if fspecExactCase fn neg m e then ⟨x.nearest, 0⟩
    else
      let (c, q) := fspecBound fn m e x
      let own := (Config.fspecBits (ffnCode fn) (word a)).toNat
      let b := if x.near own c q (fspecErr fn m e x) then own else x.nearest
      let tiny := b % fp32.signBit < 2 ^ fp32.mb
      ⟨b, fNX ||| fpBit tiny fUF⟩

/-- R113: the special operands; the rest goes to `fspecFinite`. -/
def fspecRes (fn : FFn) (rnd : Rnd) (a : Nat) : Res :=
  let inf (n : Bool) : Nat := fp32.signed n fp32.infBits
  let one (n : Bool) : Nat := fp32.signed n fp32.oneBits
  match fp32.val a with
  | .nan s => fp32.nanRes s
  | .inf n =>
    match fn with
    | .rcp => ⟨fp32.signed n 0, 0⟩
    | .rsq => if n then fp32.nanRes true else ⟨0, 0⟩
    | .sqrt | .lg2 => if n then fp32.nanRes true else ⟨inf false, 0⟩
    | .ex2 => ⟨if n then 0 else inf false, 0⟩
    | .sin | .cos => fp32.nanRes true
    | .tanh => ⟨one n, 0⟩
  | .fin n m e =>
    if m == 0 then
      match fn with
      | .rcp | .rsq => ⟨inf n, fDZ⟩
      | .sqrt | .sin | .tanh => ⟨a, 0⟩
      | .ex2 | .cos => ⟨one false, 0⟩
      | .lg2 => ⟨inf true, fDZ⟩
    else if n && (fn == .rsq || fn == .sqrt || fn == .lg2) then fp32.nanRes true
    else fspecFinite fn rnd a n m e

end Sys2Proof.Machine
end

