-- ==== Sys2Proof/Machine/FloatOps.lean ====
section
/-! DEFINITION. The binary32, paired-half and binary64 instructions and FSPEC (R103 to R113). -/

namespace Sys2Proof.Machine

/-! ### Shapes of effect -/

def FMod.a (m : FMod) (f : FpFmt) (x : Nat) : Nat := f.mods m.aa m.na x
def FMod.b (m : FMod) (f : FpFmt) (x : Nat) : Nat := f.mods m.ab m.nb x
def FMod.c (m : FMod) (f : FpFmt) (x : Nat) : Nat := f.mods m.ac m.nc x

/-- A two-operand instruction in a format: sign modifiers, operation, saturation. -/
def fp2 (i : Instr) (f : FpFmt) (m : FMod) (o : Op2) (g : Nat → Nat → Res) (s : State) : Answer :=
  alu i o.h o.imm (fun _ _ v => f.sat m.sat (g (FMod.a m f (v.getD 0 0)) (FMod.b m f (v.getD 1 0)))) s

/-- A three-operand instruction in a format. -/
def fp3 (i : Instr) (f : FpFmt) (m : FMod) (o : Op3) (g : Nat → Nat → Nat → Res) (s : State) : Answer :=
  alu i o.h o.imm (fun _ _ v =>
    f.sat m.sat (g (FMod.a m f (v.getD 0 0)) (FMod.b m f (v.getD 1 0)) (FMod.c m f (v.getD 2 0)))) s

/-- The format of the halves (R109). -/
def FMod.half (m : FMod) : FpFmt := if m.bf then bf16 else fp16

/-- R109: a paired-half operation: half 0 in bits 15:0, half 1 in bits 31:16. -/
def halves (g : Nat → Res) : Res :=
  let x := g 0
  let y := g 1
  ⟨x.val + y.val * 2 ^ 16, x.fp ||| y.fp⟩

def halfOf (x k : Nat) : Nat := x / 2 ^ (16 * k) % 2 ^ 16

def half2 (i : Instr) (m : FMod) (o : Op2) (g : FpFmt → Nat → Nat → Res) (s : State) : Answer :=
  let f := FMod.half m
  alu i o.h o.imm (fun _ _ v => halves fun k =>
    f.sat m.sat (g f (FMod.a m f (halfOf (v.getD 0 0) k)) (FMod.b m f (halfOf (v.getD 1 0) k)))) s

/-! ### binary32 -/

def execFadd (m : FMod) (o : Op2) (s : State) : Answer :=
  fp2 (.fadd m o) fp32 m o (fun a b => fp32.add m.rnd (fp32.val a) (fp32.val b)) s

def execFmul (m : FMod) (o : Op2) (s : State) : Answer :=
  fp2 (.fmul m o) fp32 m o (fun a b => fp32.mul m.rnd (fp32.val a) (fp32.val b)) s

def execFfma (m : FMod) (o : Op3) (s : State) : Answer :=
  fp3 (.ffma m o) fp32 m o (fun a b c => fp32.fma m.rnd (fp32.val a) (fp32.val b) (fp32.val c)) s

def execFmin (m : FMod) (o : Op2) (s : State) : Answer := fp2 (.fmin m o) fp32 m o (fp32.minMax false) s

def execFmax (m : FMod) (o : Op2) (s : State) : Answer := fp2 (.fmax m o) fp32 m o (fp32.minMax true) s

def execFset (cmp : FCmp) (bop : BOp) (m : FMod) (o : OpCmp) (s : State) : Answer :=
  OpCmp.alu (.fset cmp bop m o) bop o (fun a b => fp32.test cmp (FMod.a m fp32 a) (FMod.b m fp32 b)) s

def execFsetv (cmp : FCmp) (m : FMod) (o : Op2) (s : State) : Answer :=
  fp2 (.fsetv cmp m o) fp32 m o (fun a b =>
    let t := fp32.test cmp a b
    ⟨if t.1 then 0xFFFFFFFF else 0, t.2⟩) s

def execFrnd (m : FMod) (o : Op1) (s : State) : Answer :=
  alu (.frnd m o) o.h o.imm (fun _ _ v => fp32.toIntegral m.rnd (FMod.a m fp32 (v.getD 0 0))) s

/-- R107: a 16-bit format reads bits 15:0 of its source. -/
def execFclass (fmt : FFmt) (o : Op1) (s : State) : Answer :=
  let f := fmtOf fmt
  alu (.fclass fmt o) o.h o.imm (fun _ _ v => Res.of (2 ^ f.cls (v.getD 0 0 % 2 ^ (1 + f.eb + f.mb)))) s

def execFscale (m : FMod) (o : Op2) (s : State) : Answer :=
  alu (.fscale m o) o.h o.imm (fun _ _ v =>
    fp32.sat m.sat (fp32.scale m.rnd (FMod.a m fp32 (v.getD 0 0)) (sg32 (v.getD 1 0)))) s

/-- R112: FSPEC is long-latency; its `fpst` bits come with its issue, its result when the approximation is done. -/
def execFspec (fn : FFn) (m : FMod) (o : Op1) (s : State) : Answer :=
  let i := Instr.fspec fn m o
  issue i o.h s fun s p =>
    let act := if i.scalarDst then (p.active o.h).take 1 else p.active o.h
    let rs := act.map fun l => (l.idx, fspecRes fn m.rnd (FMod.a m fp32 (p.read32 l o.imm o.a.spec).toNat))
    let s := s.updGroup p.iss.uid p.iss.grp (·.orFpst (rs.foldl (fun a r => a ||| r.2.fp) 0))
    .next (finishLanes i o.h p s (rs.map fun r => (r.1, r.2.val)) [] [])

/-! ### Paired halves -/

def execHadd2 (m : FMod) (o : Op2) (s : State) : Answer :=
  half2 (.hadd2 m o) m o (fun f a b => f.add m.rnd (f.val a) (f.val b)) s

def execHmul2 (m : FMod) (o : Op2) (s : State) : Answer :=
  half2 (.hmul2 m o) m o (fun f a b => f.mul m.rnd (f.val a) (f.val b)) s

def execHfma2 (m : FMod) (o : Op3) (s : State) : Answer :=
  let f := FMod.half m
  alu (.hfma2 m o) o.h o.imm (fun _ _ v => halves fun k =>
    f.sat m.sat (f.fma m.rnd (f.val (FMod.a m f (halfOf (v.getD 0 0) k))) (f.val (FMod.b m f (halfOf (v.getD 1 0) k)))
      (f.val (FMod.c m f (halfOf (v.getD 2 0) k))))) s

def execHmin2 (m : FMod) (o : Op2) (s : State) : Answer := half2 (.hmin2 m o) m o (fun f => f.minMax false) s

def execHmax2 (m : FMod) (o : Op2) (s : State) : Answer := half2 (.hmax2 m o) m o (fun f => f.minMax true) s

def execHset2 (cmp : FCmp) (m : FMod) (o : Op2) (s : State) : Answer :=
  half2 (.hset2 cmp m o) m o (fun f a b =>
    let t := f.test cmp a b
    ⟨if t.1 then 0xFFFF else 0, t.2⟩) s

/-- R110: two exact products and an addend, rounded once to binary32. -/
def hdot2 (rnd : Rnd) (a0 b0 a1 b1 c : FVal) : Res :=
  let (x, bad) := a0.mul b0
  let (y, bad') := a1.mul b1
  fp32.addTerms rnd (bad || bad' || a0.sig || b0.sig || a1.sig || b1.sig || c.sig) [x, y, c]

def execHdot2 (m : FMod) (o : Op3) (s : State) : Answer :=
  let f := FMod.half m
  alu (.hdot2 m o) o.h o.imm (fun _ _ v =>
    let a (k : Nat) := f.val (FMod.a m f (halfOf (v.getD 0 0) k))
    let b (k : Nat) := f.val (FMod.b m f (halfOf (v.getD 1 0) k))
    fp32.sat m.sat (hdot2 m.rnd (a 0) (b 0) (a 1) (b 1) (fp32.val (FMod.c m fp32 (v.getD 2 0))))) s

/-! ### binary64 -/

def execDadd (m : FMod) (o : Op2) (s : State) : Answer :=
  fp2 (.dadd m o) fp64 m o (fun a b => fp64.add m.rnd (fp64.val a) (fp64.val b)) s

def execDmul (m : FMod) (o : Op2) (s : State) : Answer :=
  fp2 (.dmul m o) fp64 m o (fun a b => fp64.mul m.rnd (fp64.val a) (fp64.val b)) s

def execDfma (m : FMod) (o : Op3) (s : State) : Answer :=
  fp3 (.dfma m o) fp64 m o (fun a b c => fp64.fma m.rnd (fp64.val a) (fp64.val b) (fp64.val c)) s

def execDmin (m : FMod) (o : Op2) (s : State) : Answer := fp2 (.dmin m o) fp64 m o (fp64.minMax false) s

def execDmax (m : FMod) (o : Op2) (s : State) : Answer := fp2 (.dmax m o) fp64 m o (fp64.minMax true) s

def execDset (cmp : FCmp) (bop : BOp) (m : FMod) (o : OpCmp) (s : State) : Answer :=
  OpCmp.alu (.dset cmp bop m o) bop o (fun a b => fp64.test cmp (FMod.a m fp64 a) (FMod.b m fp64 b)) s

end Sys2Proof.Machine
end

