-- ==== Sys2Proof/Machine/Memory.lean ====
section
/-! DEFINITION. The memory instructions: loads, stores, atomics, fences, prefetch, full/empty and cache control (R116 to
R121, R254 to R275), and KEYSET (R276). -/

namespace Sys2Proof.Machine

/-- The issue of a memory instruction that acts lane by lane. -/
def memIssue (i : Instr) (m : MemOp) (f : State → Pk → Lane → State × Except Trap (List (Nat × Nat))) (s : State) :
    Answer :=
  issue i m.h s fun s p =>
    let (s, vs, ts) := runLanes (fun s l => f s p l) s (p.active m.h)
    .next (finishLanes i m.h p s vs [] ts)

/-- Is no sector poisoned that a packet's stores could cover? -/
def State.clean (s : State) (uid : Nat) : Bool :=
  s.poison.isEmpty && ((s.team? uid).map fun t => t.scr.poison.isEmpty).getD true

/-- The pieces that a packet's stores write. -/
def State.storeCover (s : State) (p : Pk) (m : MemOp) (ls : List Lane) : List (Nat × Nat) :=
  ls.flatMap fun l => match (s.locate p l.idx m.space (p.ea l m) m.width.bytes .store).2 with
    | .ok loc => loc.pieces
    | .error _ => []

/-- R120: the pieces of a packet's stores, over the lanes that store. -/
def coverOf (i : Instr) (m : MemOp) (s : State) (p : Pk) (traps : List Trap) : List (Nat × Nat) :=
  match i with
  | .st _ => s.storeCover p m ((p.workers m.h).filter fun l => !(traps.map (·.lane)).contains l.idx)
  | _ => []

/-- The checks of a packet's accesses, lane by lane in rising order: what is in flight, and the traps. -/
def checkLanes (i : Instr) (m : MemOp) (p : Pk) : List Lane → State → State × List Late × List Trap
  | [], s => (s, [], [])
  | l :: r, s =>
    match checkLane i m (s.orderAcc i m p l false) p l with
    | (s, .ok loc) =>
      let mine := latesOf i m p l loc
      let (s, was) := if mine.any (·.strong) then
          let (r, c) := s.race.forked (p.tid l.idx)
          (({ s with race := r } : State), some c)
        else (s, none)
      let (s, es, ts) := checkLanes i m p r s
      (s, mine.map (fun e => { e with was := was }) ++ es, ts)
    | (s, .error t) =>
      let (s, es, ts) := checkLanes i m p r s
      (s, es, t :: ts)

/-- R202, R399: the lanes of a load that receive their values together: those whose bytes begin in one 128-byte line. The rules' tables
show lanes that load records of one line, or the same words, going on together; that a line's lanes do is the model's reading (log
entry 61). -/
def Pk.loadSets (p : Pk) (i : Instr) (m : MemOp) : List (List Nat) :=
  match i with
  | .ld _ => setsByKey ((p.active m.h).map fun l => (l.idx, (match m.space with
      | .loc => p.localVa l.idx (p.ea l m).toNat
      | _ => p.ea l m).toNat / 128))
  | _ => []

/-- R236: a packet whose accesses are put off: their checks are made, and each is in flight by itself. -/
def putOffLanes (i : Instr) (m : MemOp) (s : State) (p : Pk) : State :=
  let (s, es, ts) := checkLanes i m p ((p.active m.h).filter fun l => !suppressedFor i l) { s with putOff := false }
  let pkt := s.nextId
  let cover := coverOf i m s p ts
  let d := if givesValue i then m.d else .zero
  let s := es.foldl (fun s e =>
    s.fly p { regs := e.regs d, preds := [], flag := none, pkt := pkt, late := some e, cover := cover, idle := p.idle m.h
              sets := p.loadSets i m })
    { s with nextId := pkt + 1 }
  let zeros := ((p.active m.h).filter (suppressedFor i)).map fun l => (l.idx, 0)
  finishSome i m.h p s (p.iss.lanes.filter fun l => !(ts.map (·.lane)).contains l) (if givesValue i then zeros else []) []
    (p.flag m.h) ts pkt

/-- The issue of LD, ST or an atomic (R116, R262): each lane's access is performed at once, or put off. -/
def accIssueLanes (i : Instr) (m : MemOp) (s : State) : Answer :=
  issue i m.h s fun s p =>
    if s.putOff then .next (putOffLanes i m s p)
    else
      let (s, vs, ts) := runLanes (fun s l => accTurn i m s p l) s (p.active m.h)
      let cover := if s.clean p.iss.uid then [] else coverOf i m s p ts
      let s := if cover.isEmpty then s else s.locSweep p.iss.uid (m.space == .scr) cover
      .next ((finishLanes i m.h p s vs [] ts).arriveSets p (p.inflightOf s) (p.loadSets i m))

def execLd (m : MemOp) (s : State) : Answer :=
  if m.space == .scr then feIssue (.ld m) m .load (fun p => p.active m.h) s else accIssueLanes (.ld m) m s

def execSt (m : MemOp) (s : State) : Answer :=
  if m.fe then feIssue (.st m) m .store (fun p => p.workers m.h) s else accIssueLanes (.st m) m s

def execAtom (m : MemOp) (s : State) : Answer := accIssueLanes (.atom m) m s

def execAtomf (m : MemOp) (s : State) : Answer := accIssueLanes (.atomf m) m s

def execCas (m : MemOp) (s : State) : Answer := accIssueLanes (.cas m) m s

def execRed (m : MemOp) (s : State) : Answer := accIssueLanes (.red m) m s

/-! ### Fences, prefetch, full/empty, cache control -/

/-- R251: the end of a lane's region at a scope. -/
def State.fenceLane (s : State) (p : Pk) (lane : Nat) (sc : Scope) : State :=
  { s with race := s.race.boundary (p.tid lane) (scopeHolds s p.iss.uid p.iss.grp sc) }

/-- The issue of a memory instruction that no lane's trap stops. -/
def lanesIssue (i : Instr) (m : MemOp) (f : State → Pk → Lane → State) (s : State) : Answer :=
  memIssue i m (fun s p l => (f s p l, .ok [])) s

/-- R269: earlier accesses have all been performed when the fence issues. -/
def execFence (m : MemOp) (s : State) : Answer :=
  lanesIssue (.fence m) m (fun s p l => s.fenceLane p l.idx m.scope) s

/-- R270: the physical place of a prefetch, when nothing would fault; the walk sets no A bit. -/
def State.prefPlace (s : State) (p : Pk) (l : Lane) (m : MemOp) : Option Nat :=
  let ea := p.ea l m
  let va := if m.space == .loc then p.localVa l.idx ea.toNat else ea
  let c := p.team.card
  let ok := ea.toNat % 4 == 0 && canonical va
    && (m.space != .loc || (c.lBase.toNat % 4 == 0 && c.lSize.toNat % 4 == 0 && ea.toNat + 4 ≤ c.lSize.toNat
        && p.team.team < c.lTeams.toNat))
  if !ok then none
  else
    match (walkRoot s none p.team.ctx va.toNat false false).2 with
    | .leaf e lv =>
      match paKey s (leafPa e lv va.toNat) with
      | some pa =>
        if paUnreach s (leafPa e lv va.toNat) || keyDenies (s.keysOf p.team.ctx) (ptKey e) .load || ptPOI e || s.poisonedPa pa 4
            || !l1Holds ⟨pa, ptMT e, false⟩ then none
        else some pa
      | none => none
    | _ => none

/-- R270: a prefetch fills the L1 line with CACHE 0, or the device drops it. The memory-side cache holds nothing that its
home does not serve (R216), so a fill there leaves no trace. -/
def execPref (m : MemOp) (s : State) : Answer :=
  lanesIssue (.pref m) m (fun s p l =>
    match s.prefPlace p l m with
    | some pa =>
      if m.cache != 0 then s
      else
        let (s, c) := s.choose 2
        if c == 0 then s
        else (List.range 4).foldl (fun s k => s.l1Fill p.grp.core (pa / 128 * 128 + 32 * k)) s
    | none => s) s

def execFewait (m : MemOp) (s : State) : Answer := feIssue (.fewait m) m .load (fun p => p.active m.h) s

def execFeset (m : MemOp) (s : State) : Answer := feIssue (.feset m) m .store (fun p => p.workers m.h) s

/-- R273: the physical address of a cache-control operation; none when its address would fault: its checks are those of a 4-byte load.
The rule does not say whether poison is such a fault: DESIGN CHOICE, neither a poisoned sector nor POI = 1 keeps the operation from being
carried out (log entry 41). -/
def State.cctlPa (s : State) (p : Pk) (l : Lane) (m : MemOp) : State × Option Nat :=
  match s.locate p l.idx .glb (p.ea l m) 4 .load with
  | (s, .ok (.mem ((x, _, _) :: _))) => (s, some x.pa)
  | (s, _) => (s, none)

/-- R273: a cache-control operation on the line of each active lane's address, which ends the lane's region. -/
def cctlIssue (i : Instr) (m : MemOp) (f : State → Pk → Nat → State) (s : State) : Answer :=
  lanesIssue i m (fun s p l =>
    match s.cctlPa p l m with
    | (s, some pa) => (f s p pa).fenceLane p l.idx m.scope
    | (s, none) => s) s

def execCctlL1 (m : MemOp) (s : State) : Answer :=
  cctlIssue (.cctlL1 m) m (fun s p pa => s.l1DropLine p.grp.core pa) s

/-- R273: `.l1all` acts for the packet, and ends the region of each active lane. -/
def execCctlL1all (m : MemOp) (s : State) : Answer :=
  lanesIssue (.cctlL1all m) m (fun s p l =>
    ({ s with l1 := s.l1.filter fun e => e.1 / coreSpan != p.grp.core }).fenceLane p l.idx m.scope) s

/-- R237: is a core inside a scope of a core? -/
def coreIn (sc : Scope) (me c : Nat) : Bool :=
  match sc with
  | .grp | .core => c == me
  | .clu => clusterOf c == clusterOf me
  | .stk => stackOf c == stackOf me
  | .dev | .sys => true

/-- R273, R274: drops a code line from the instruction caches inside the scope. -/
def execCctlIc (m : MemOp) (s : State) : Answer :=
  cctlIssue (.cctlIc m) m (fun s p pa =>
    { s with icache := s.icache.filter fun e =>
        !(e.1 % coreSpan == pa / 64 && coreIn m.scope p.grp.core (e.1 / coreSpan)) }) s

/-- R273, R275, R390: drops lines from every residency-map cache. It completes when the lookups that read them have delivered
their results, and its completion clears every feedback filter. -/
def execCctlMap (m : MemOp) (s : State) : Answer :=
  let i := Instr.cctlMap m
  issue i m.h s fun s p =>
    let (s, lines) := (p.active m.h).foldl (fun (x : State × List Nat) l => match x.1.cctlPa p l m with
      | (s, some pa) =>
        (({ s with mapLines := s.mapLines.filter fun x => x.line != pa / 128 } : State).fenceLane p l.idx m.scope, x.2 ++ [pa / 128])
      | (s, none) => (s, x.2)) (s, [])
    if lines.isEmpty then .next (finishLanes i m.h p s [] [] [])
    else
      let s := ({ s with nextSeq := s.nextSeq + 1 } : State).fly p
        { regs := [], preds := [], flag := p.flag m.h, seq := s.nextSeq, mapDrop := lines }
      .next (finishSome i m.h p s p.iss.lanes [] [] none [])

/-! ### Protection keys -/

/-- R276: the two deny bits of key k. -/
def setKey (keys : Dword) (k v : Nat) : Dword :=
  (keys &&& ~~~((3 : Dword) <<< (2 * k))) ||| (dword (v % 4) <<< (2 * k))

/-- R276: KEYSET acts once for a packet with an active lane that is no helper. The rule does not say which lanes a value above 3
traps: the model traps the packet's active lanes, as for other uniform operands (log entry 38). -/
def execKeyset (h : Hdr) (a : Src) (k : BitVec 5) (s : State) : Answer :=
  let val (p : Pk) : Nat := match p.lanes with
    | l :: _ => (p.read32 l 0 a.spec).toNat
    | [] => 0
  issue (.keyset h a k) h s (chk := fun p => if !(p.workers h).isEmpty && val p ≥ 4 then trapAll (p.active h) cILLOPD else []) fun s p =>
    let s := if (p.workers h).isEmpty then s
      else s.setKeys p.team.ctx (some (p.iss.uid, p.iss.grp)) fun w => setKey w k.toNat (val p)
    .next ((s.advance p p.iss.lanes).trapPk p [])

end Sys2Proof.Machine
end

