-- ==== Sys2Proof/Machine/Pred.lean ====
section
/-! DEFINITION. The predicate instructions (R79). -/

namespace Sys2Proof.Machine

def execPtern (lut : BitVec 8) (h : Hdr) (pd : BitVec 3) (pa pb pc : PSrc) (s : State) : Answer :=
  aluPred (.ptern lut h pd pa pb pc) h 0 pd (fun _ l _ =>
    (lut.getLsbD ((l.psrc pa).toNat + 2 * (l.psrc pb).toNat + 4 * (l.psrc pc).toNat), 0)) s

def execP2v (h : Hdr) (d : Spec) (s : State) : Answer :=
  alu (.p2v h d) h 0 (fun _ l _ => Res.of l.preds.toNat) s

/-- R79: V2P writes the predicates that B selects from the bits of A. -/
def execV2p (h : Hdr) (a b : Src) (imm : Word) (s : State) : Answer :=
  let i := Instr.v2p h a b imm
  issue i h s fun s p =>
    let act := (p.active h).map fun l => (l.idx, p.read32 l imm a.spec, p.read32 l imm b.spec)
    let s := s.kill p (act.map (·.1)) (shapeKills i.shape)
    let names (m : Word) : List Nat := (List.range 7).filter fun k => m.getLsbD k
    let s := act.foldl (fun (s : State) e => s.updGroup p.iss.uid p.iss.grp (·.supersedeP [e.1] (names e.2.2))) s
    let s := s.updGroup p.iss.uid p.iss.grp fun g =>
      { g with lanes := g.lanes.map fun l =>
          match act.find? (·.1 == l.idx) with
          | some (_, x, m) =>
            { l with preds := (l.preds &&& ~~~(m.setWidth 7)) ||| (x.setWidth 7 &&& m.setWidth 7) }
          | none => l }
    .next ((s.advance p p.iss.lanes).trapPk p [])

end Sys2Proof.Machine
end

