-- ==== Sys2Proof/Machine/System.lean ====
section
/-! DEFINITION. The special registers: MFS and MTS (R93 to R96). REGGIVE and REGCLAIM stand with the group instructions,
KEYSET with the memory instructions. -/

namespace Sys2Proof.Machine

/-- R93: the arithmetic cycle count of a core; each core counts from a moment of its own (R6; log entry 7). -/
def State.clk (s : State) (core : Nat) : Dword := Config.freeWord core + dword (s.coreCyc core)

/-- R93: bits 6i+5 to 6i hold the count of flag i. -/
def Group.flagWord (g : Group) : Nat := ((List.range 12).map fun i => g.flag i * 2 ^ (6 * i)).sum

/-- R93: the value of a special register for a lane. `footprint` is read before the instruction's own destination takes its
place: an unmapped D of an MFS is not counted yet (log entry 12). -/
def State.special (s : State) (p : Pk) (l : Lane) (num : Nat) : Nat :=
  match num with
  | 0x00 => l.idx
  | 0x01 => p.grp.idx
  | 0x02 => p.team.team
  | 0x03 => p.grp.role
  | 0x04 => p.grp.core
  | 0x05 => clusterOf p.grp.core
  | 0x06 => stackOf p.grp.core
  | 0x07 => s.bar0.devNum
  | 0x08 => p.team.first
  | 0x09 => p.team.count
  | 0x0A => p.team.launch
  | 0x0B => if p.team.cancelBit then 1 else 0
  | 0x0C => (s.clk p.grp.core).toNat
  | 0x10 => p.grp.fpst.toNat
  | 0x11 => (s.seed p.grp.quadNo).toNat
  | 0x12 => (s.keysOf p.team.ctx).toNat
  | 0x13 => p.grp.footprint
  | 0x14 => p.grp.floor
  | 0x15 => p.grp.flagWord
  | 0x16 => (s.govWord (clusterOf p.grp.core)).toNat
  | 0x17 => l.rstack.length + l.spilled
  | _ => p.grp.cmpsel.toNat

/-- R95: MFS takes the value at its issue. -/
def execMfs (h : Hdr) (d : Spec) (num : BitVec 16) (s : State) : Answer :=
  alu (.mfs h d num) h 0 (fun p l _ => .of (s.special p l num.toNat)) s

/-- R96: a write of a special register by the packet. -/
def State.setSpecial (s : State) (p : Pk) (num : Nat) (x : Word) : State :=
  match num with
  | 0x10 => s.updGroup p.iss.uid p.iss.grp fun g => { g with fpst := x.setWidth 5 }
  | 0x11 => { s with seeds := tput s.seeds p.grp.quadNo x 1 }
  | 0x18 => s.updGroup p.iss.uid p.iss.grp fun g => { g with cmpsel := x.setWidth 3 }
  | _ => s

/-- R96: MTS executes once for its packet when a lane is active. -/
def execMts (h : Hdr) (a : Src) (num : BitVec 16) (s : State) : Answer :=
  issue (.mts h a num) h s fun s p =>
    let s := if (p.active h).isEmpty then s else s.setSpecial p num.toNat (word (p.uniform a))
    .next ((s.advance p p.iss.lanes).trapPk p [])

end Sys2Proof.Machine
end

