-- ==== Sys2Proof/Machine/Texture.lean ====
section
/-! DEFINITION. Texture lookups: descriptors and texels (R382, R383), coordinates (R384), the level (R385), the filters (R386),
residency (R387 to R389), feedback (R390, R391), and TEX, TEXG, TEXQ and LODLD (R392 to R394). -/

namespace Sys2Proof.Machine

/-! ### Descriptors (R382) -/

structure TexDesc where
  base : Nat
  w : Nat
  h : Nat
  l : Nat
  fmt : Nat
  top : Nat
  umode : Nat
  vmode : Nat
  maxA : Nat
  pin : Nat
  lodres : Bool
  bias : Rat
  minLod : Rat
  maxLod : Rat
  map : Nat
  rid : Nat
  ring : Nat
  border : List Nat
  deriving DecidableEq, Repr

/-- The descriptor of 64 bytes; none when it is malformed. -/
def TexDesc.of (b : Bytes) : Option TexDesc :=
  match f32Rat (leAt b 0x14 4), f32Rat (leAt b 0x18 4), f32Rat (leAt b 0x1C 4) with
  | some bias, some lo, some hi =>
    let w := leAt b 8 2 + 1
    let h := leAt b 0xA 2 + 1
    let top := leAt b 0xF 1
    let adr := leAt b 0x10 1
    let maxA := leAt b 0x11 1
    let flags := leAt b 0x13 1
    let map := leAt b 0x20 8
    let ring := leAt b 0x2C 1
    if leAt b 0 8 % 65536 != 0 || w > 32768 || h > 32768 || leAt b 0xE 1 > 6 || top ≥ bitLen (max w h) || adr ≥ 16
        || !([1, 2, 4, 8, 16].contains maxA) || leAt b 0x12 1 > top || flags > 1 || lo > hi || (flags == 0 && map != 0)
        || (ring ≥ 64 && ring != 0xFF) || leAt b 0x2D 3 != 0 then none
    else some { base := leAt b 0 8, w := w, h := h, l := leAt b 0xC 2 + 1, fmt := leAt b 0xE 1, top := top
                umode := adr % 4, vmode := adr / 4, maxA := maxA, pin := leAt b 0x12 1, lodres := flags == 1
                bias := bias, minLod := lo, maxLod := hi, map := map, rid := leAt b 0x28 4, ring := ring
                border := [leAt b 0x30 4, leAt b 0x34 4, leAt b 0x38 4, leAt b 0x3C 4] }
  | _, _, _ => none

/-! ### Texels (R383) -/

def TexDesc.wAt (d : TexDesc) (l : Nat) : Nat := max 1 (d.w / 2 ^ l)
def TexDesc.hAt (d : TexDesc) (l : Nat) : Nat := max 1 (d.h / 2 ^ l)
def TexDesc.tx (d : TexDesc) (l : Nat) : Nat := cdiv (d.wAt l) (texTile d.fmt).1
def TexDesc.ty (d : TexDesc) (l : Nat) : Nat := cdiv (d.hAt l) (texTile d.fmt).2.1

/-- The address of texel (x, y) of layer z at a level. -/
def TexDesc.addr (d : TexDesc) (l z x y : Nat) : Nat :=
  let (tw, th, n) := texTile d.fmt
  let levels := ((List.range l).map fun k => d.tx k * d.ty k * d.l * 65536).sum
  (d.base + levels + ((z * d.ty l + y / th) * d.tx l + x / tw) * 65536 + (y % th * tw + x % tw) * n) % 2 ^ 64

/-! ### Coordinates (R384) -/

/-- A coordinate as a real; an infinity is taken far outside the clamp. -/
def coord (bits : Nat) : Rat :=
  match tvalOf fp32 bits with
  | .real q => q
  | .inf n => if n then -(2 ^ 400 : Nat) else (2 ^ 400 : Nat)
  | .nan => 0

/-- The texel index and fraction of a coordinate on an axis of n texels. -/
def texIndex (u : Rat) (n : Nat) (point : Bool) : Int × Rat :=
  let lim : Rat := (2 ^ 24 : Nat)
  let s := u * n - (if point then 0 else mkRat 1 2)
  let s := max (-lim) (min lim s)
  (s.floor, mkRat ((s - s.floor) * 256).floor 256)

/-- A texel index placed by an addressing mode; none: the border. -/
def texPlace (mode : Nat) (i : Int) (n : Nat) : Option Nat :=
  match mode with
  | 0 => some (i % n).toNat
  | 1 => some (max 0 (min i (n - 1))).toNat
  | 2 =>
    let m := (i % (2 * n)).toNat
    some (if m < n then m else 2 * n - 1 - m)
  | _ => if 0 ≤ i && i < n then some i.toNat else none

/-- The texel of the sample centre at a level, with border treated as clamp (R387). -/
def TexDesc.centre (d : TexDesc) (u v : Rat) (l : Nat) : Nat × Nat :=
  let clampMode (m : Nat) : Nat := if m == 3 then 1 else m
  ((texPlace (clampMode d.umode) (texIndex u (d.wAt l) true).1 (d.wAt l)).getD 0,
   (texPlace (clampMode d.vmode) (texIndex v (d.hAt l) true).1 (d.hAt l)).getD 0)

/-! ### The level (R385) -/

/-- A level number before its clamp. -/
inductive Lam where
  | neg | pos
  | fin (k : Int)
  deriving DecidableEq, Repr

/-- floor (256 (log2 (sqrt s) - sh + bias)) for a positive s. -/
def lamOf (s : Rat) (sh : Nat) (bias : Rat) : Int :=
  let pow2 (n : Nat) : Bool := 2 ^ (bitLen n - 1) == n
  if pow2 s.num.natAbs && pow2 s.den then
    (128 * ((bitLen s.num.natAbs : Int) - bitLen s.den : Rat) + 256 * (bias - sh)).floor
  else
    let lg (m : Nat) : Fx := (fspecExact .lg2 false m 0).num
    (128 * mkRat (lg s.num.natAbs - lg s.den) (2 ^ fxP) + 256 * (bias - sh)).floor

/-- λ8 in units of 1/256, after BIAS and the clamp. -/
def TexDesc.lam8 (d : TexDesc) (x : Lam) : Int :=
  let lo := (256 * d.minLod).floor
  let hi := (256 * min d.maxLod d.top).floor
  match x with
  | .neg => min lo hi
  | .pos => hi
  | .fin k => min (max k lo) hi

/-- What the level's choice gives: λ8 times 256, N, and M. -/
structure TexLod where
  k : Int
  n : Nat
  m : Rat × Rat
  deriving DecidableEq, Repr

/-- The smallest power of two N, at most `maxA`, with N^2 small at least big. -/
def anisoN (big small : Rat) (maxA n : Nat) : Nat → Nat
  | 0 => n
  | f + 1 => if n < maxA && (n * n : Nat) * small < big then anisoN big small maxA (2 * n) f else n

/-- The level from gradients gxu, gxv, gyu, gyv (binary32 bits); `c`: the factor of `.foot`, whose root scales the lengths;
`tie`: which of two equally long gradients is the major one. -/
def TexDesc.lod (d : TexDesc) (aniso tie : Bool) (g : List Nat) (c : Rat) : TexLod :=
  let vs := g.map (tvalOf fp32)
  if vs.any fun (v : TVal) => match v with
      | .inf _ => true
      | _ => false then ⟨d.lam8 .pos, if aniso then d.maxA else 1, (0, 0)⟩
  else
    let q := vs.map fun (v : TVal) => match v with
      | .real x => x
      | _ => 0
    let at_ (k : Nat) : Rat := q.getD k 0
    let len (a b : Rat) : Rat := ((a * d.w) * (a * d.w) + (b * d.h) * (b * d.h)) * c
    let sx := len (at_ 0) (at_ 1)
    let sy := len (at_ 2) (at_ 3)
    let big := max sx sy
    let small := min sx sy
    let xMajor := if sx == sy then tie else sx > sy
    let root := mkRat (Nat.sqrt (c.num.natAbs * 2 ^ 2000 / c.den)) (2 ^ 1000)
    let n := if !aniso then 1 else if small == 0 then d.maxA else anisoN big small d.maxA 1 4
    let m : Rat × Rat := if !aniso then (0, 0)
      else if xMajor then (root * at_ 0, root * at_ 1) else (root * at_ 2, root * at_ 3)
    ⟨d.lam8 (if big == 0 then .neg else .fin (lamOf big (bitLen n - 1) d.bias)), n, m⟩

/-- The level under `.level`. -/
def TexDesc.lodLevel (d : TexDesc) (w : Nat) : TexLod :=
  let x : Lam := match tvalOf fp32 w with
    | .real q => .fin (256 * (q + d.bias)).floor
    | .inf n => if n then .neg else .pos
    | .nan => .fin (256 * (d.minLod + d.bias)).floor
  ⟨d.lam8 x, 1, (0, 0)⟩

/-- The requested level and φ. -/
def TexDesc.request (d : TexDesc) (tri : Bool) (k : Int) : Nat × Rat :=
  if tri then
    let rq := (max 0 (k / 256)).toNat
    (rq, if k < 0 || rq == d.top then 0 else mkRat k 256 - rq)
  else ((min (max ((k + 128) / 256) 0) d.top).toNat, 0)

/-! ### Footprints (R386) -/

/-- A texel of a footprint, none at the border, with its weight. -/
structure Tap where
  at_ : Option (Nat × Nat)
  wt : Rat
  deriving DecidableEq, Repr

/-- The centres of the taps with their weights. -/
def tapCentres (u v : Rat) (x : TexLod) : List (Rat × Rat × Rat) :=
  (List.range x.n).map fun (k : Nat) =>
    let o : Rat := mkRat (2 * (k : Int) + 1) (2 * x.n) - mkRat 1 2
    (u + o * x.m.1, v + o * x.m.2, mkRat 1 x.n)

/-- The texels of a level, in the order (i, j), (i + 1, j), (i, j + 1), (i + 1, j + 1) of each tap. -/
def TexDesc.taps (d : TexDesc) (cs : List (Rat × Rat × Rat)) (l : Nat) (point : Bool) : List Tap :=
  cs.flatMap fun (u, v, w) =>
    let (i, f) := texIndex u (d.wAt l) point
    let (j, g) := texIndex v (d.hAt l) point
    let tap (a b : Nat) (wt : Rat) : Tap :=
      { at_ := match texPlace d.umode (i + a) (d.wAt l), texPlace d.vmode (j + b) (d.hAt l) with
          | some x, some y => some (x, y)
          | _, _ => none
        wt := wt * w }
    if point then [tap 0 0 1]
    else [tap 0 0 ((1 - f) * (1 - g)), tap 1 0 (f * (1 - g)), tap 0 1 ((1 - f) * g), tap 1 1 (f * g)]

/-! ### Reads -/

/-- R393: the descriptor of a lane: a weak 64-byte load; a malformed one raises ENGINEF. -/
def State.texDesc (s : State) (p : Pk) (lane : Nat) (va : Dword) : State × Except Trap TexDesc :=
  if va.toNat % 64 != 0 then (s, .error (addrTrap lane cMISALIGN va .load))
  else
    match s.placePieces p lane .load [(va, 32), (va + 32, 32)] with
    | (s, .error t) => (s, .error t)
    | (s, .ok loc) =>
      match s.readPoison p.iss.uid p.grp.core true loc with
      | some a => (s, .error (addrTrap lane cPOISON a .load))
      | none =>
        match s.raceLoad p lane loc with
        | (s, some t) => (s, .error t)
        | (s, none) =>
          let (s, b) := s.locLoad p false 0 loc
          match TexDesc.of b with
          | some d => (s, .ok d)
          | none => (s, .error { lane := lane, cause := cENGINEF, info := 5 })

/-- The place of a map byte. -/
def State.mapPlace (s : State) (p : Pk) (va : Dword) : State × Except Cause Place :=
  let (s, keys) := s.keysFor p.iss.uid p.iss.grp
  place s (some (unitTlb .texture p.grp.core)) p.team.ctx keys .load va

/-- R387, R389: the map byte of a tile; none when the read meets poison. R231: a line is checked as a whole when it fills a map cache.
R458: no line of host memory is held. -/
def State.mapByte (s : State) (p : Pk) (lane : Nat) (va : Dword) : State × Except Trap (Option Nat) :=
  let core := p.grp.core
  match s.mapPlace p va with
  | (s, .error c) => (s, .error (addrTrap lane c va .load))
  | (s, .ok x) =>
    if x.poi || s.poisonedPa x.pa 1 then (s, .ok none)
    else
      let line := x.pa / 128
      match s.mapLines.find? fun m => m.core == core && m.line == line && s.stackCyc (stackOf core) - m.since < 0x100000 with
      | some m => (s, .ok (some (leAt m.bytes (x.pa % 128) 1)))
      | none =>
        let s := (s.verifyN (128 * line) 128).hostReq { x with pa := 128 * line } 128 .read
        let b := s.readPa (128 * line) 128
        let rest := s.mapLines.filter fun m => !(m.core == core && m.line == line)
        ({ s with mapLines := if paHost x.pa then rest
                    else rest ++ [{ core := core, line := line, since := s.stackCyc (stackOf core), bytes := b }] },
         .ok (some (leAt b (x.pa % 128) 1)))

/-- The addresses that a footprint reads at a level, in rising order. -/
def TexDesc.reads (d : TexDesc) (l z : Nat) (ts : List Tap) : List Nat :=
  (ts.filterMap fun t => t.at_.map fun (x, y) => d.addr l z x y).foldl sins []

/-- R387: the first address whose page has V = 0, and the page's NR. -/
def State.absentPage (s : State) (p : Pk) : List Nat → State × Option (Dword × Bool)
  | [] => (s, none)
  | k :: r =>
    let va := dword k
    if !canonical va then s.absentPage p r
    else
      match translate s (some (unitTlb .texture p.grp.core)) p.team.ctx va.toNat false with
      | (s, .absent nr) => (s, some (va, nr))
      | (s, _) => s.absentPage p r

/-- The delivered level of a lookup, and whether a PTE moved it (R387). -/
def State.texLevel (s : State) (p : Pk) (lane : Nat) (d : TexDesc) (foot : Nat → List Nat) (e : Nat) (stale : Bool) :
    Nat → State × Except Trap (Nat × Bool)
  | 0 => (s, .ok (e, stale))
  | n + 1 =>
    match s.absentPage p (foot e) with
    | (s, none) => (s, .ok (e, stale))
    | (s, some (va, nr)) =>
      if d.lodres && nr && e < d.pin then s.texLevel p lane d foot (e + 1) true n
      else (s, .error (addrTrap lane cPAGEF va .load))

/-- The place of a texel, or its trap (R393). -/
def State.texAt (s : State) (p : Pk) (lane : Nat) (va : Nat) : State × Except Trap Place :=
  let (s, keys) := s.keysFor p.iss.uid p.iss.grp
  match place s (some (unitTlb .texture p.grp.core)) p.team.ctx keys .load (dword va) with
  | (s, .error c) => (s, .error (addrTrap lane c (dword va) .load))
  | (s, .ok x) => (s, .ok x)

/-- The places of texels, in their order. Of the faults of several, R45 names one. -/
def State.texPlaces (s : State) (p : Pk) (lane n : Nat) : List Nat → State × Except Trap (List (Place × Nat × Dword))
  | [] => (s, .ok [])
  | va :: r =>
    match s.texAt p lane va with
    | (s, .error e) =>
      match s.texPlaces p lane n r with
      | (s, .error e') => (s, .error (firstTrap e e'))
      | (s, .ok _) => (s, .error e)
    | (s, .ok x) =>
      match s.texPlaces p lane n r with
      | (s, .error e) => (s, .error e)
      | (s, .ok xs) => (s, .ok ((x, n, dword va) :: xs))

/-! ### Status and feedback (R388, R390) -/

/-- R387: the status of a lookup without poison. -/
def texStatus (d : TexDesc) (rq e : Nat) (stale : Bool) : Nat :=
  if stale then 3 else if e == d.pin && e > rq then 2 else if e > rq then 1 else 0

def texWord (st e rq : Nat) : Nat := st + e * 2 ^ 8 + rq * 2 ^ 16

/-- R390: the feedback that a lookup makes: its ring and its record's key. -/
def texFeed (l : Lane) (d : TexDesc) (st rq x y z : Nat) : Option (Nat × FbKey) :=
  if 1 ≤ st && st ≤ 3 && !l.helper && d.ring != 0xFF then
    some (d.ring, { rid := word d.rid, level := rq, tx := x / (texTile d.fmt).1, ty := y / (texTile d.fmt).2.1, layer := z })
  else none

/-! ### Lookups -/

/-- The map step of R387: the map byte; an outer none for poison, an inner one when no map is read. -/
def State.mapStep (s : State) (p : Pk) (lane : Nat) (d : TexDesc) (x y z : Nat) :
    State × Except Trap (Option (Option Nat)) :=
  if !d.lodres then (s, .ok (some none))
  else
    let (tw, th, _) := texTile d.fmt
    match s.mapByte p lane (dword (d.map + (z * d.ty 0 + y / th) * d.tx 0 + x / tw)) with
    | (s, .error t) => (s, .error t)
    | (s, .ok none) => (s, .ok none)
    | (s, .ok (some m)) => (s, .ok (some (some m)))

/-- R385: the gradients of a lane, and the factor of `.foot`. -/
def texGrads (lodm : LodMode) (p : Pk) (act : List Lane) (l : Lane) (o : TexOp) : List Nat × Rat :=
  let quadA (x : Lane) : List Nat := (p.read128 x o.a.spec).map (·.toNat)
  match lodm with
  | .quad =>
    let diff (y : Bool) (k : Nat) : Nat :=
      let (lo, hi) := qdiffPair y false l.idx
      match act.find? (·.idx == lo), act.find? (·.idx == hi) with
      | some a, some b =>
        (fp32.add .rn (fp32.val ((quadA b).getD k 0)) (fp32.val (fp32.mods false true ((quadA a).getD k 0)))).val
      | _, _ => 0
    ([diff false 0, diff false 1, diff true 0, diff true 1], 1)
  | .foot =>
    let c := match f32Rat ((quadA l).getD 3 0) with
      | some c => if 0 < c && c ≤ 1 then c else 1
      | none => 1
    ((p.read128 l o.c.spec).map (·.toNat), c)
  | _ => ((p.read128 l o.c.spec).map (·.toNat), 1)

/-- What a lookup delivers: its colours, its status word, the map byte and N. -/
inductive TexKind where
  | sample | query
  | gather (comp : Nat)
  deriving DecidableEq, Repr

/-- R393: the words of a lookup without texels. -/
def texWords (k : TexKind) (lam sw map n : Nat) : Nat :=
  match k with
  | .query => natWords [lam, sw, map, n]
  | _ => natWords [0, 0, 0, 0, sw, 0, 0, 0]

/-- R393: the checks of one lane's lookup, and what it is still to read: TEX, TEXG, TEXQ. -/
def texPlan (k : TexKind) (flt : TexFlt) (lodm : LodMode) (o : TexOp) (act : List Lane) (s : State) (p : Pk) (l : Lane) :
    State × Except Trap (Loc × Look) :=
  match s.texDesc p l.idx (p.read64 l 0 o.b.spec) with
  | (s, .error t) => (s, .error t)
  | (s, .ok d) =>
    let a := (p.read128 l o.a.spec).map (·.toNat)
    let u := coord (a.getD 0 0)
    let v := coord (a.getD 1 0)
    let z := min (a.getD 2 0) (d.l - 1)
    let (s, tie) := s.choose 2
    let x := if lodm == .level then d.lodLevel (a.getD 3 0)
      else
        let (g, c) := texGrads lodm p act l o
        d.lod (flt == .ani) (tie == 0) g c
    let (rq, phi) := d.request (flt == .tri || flt == .ani) x.k
    let lam := ratF32 (mkRat x.k 256)
    let (cx, cy) := d.centre u v 0
    match s.mapStep p l.idx d cx cy z with
    | (s, .error t) => (s, .error t)
    | (s, .ok none) =>
      let (s, e) := s.choose 16
      (s, .ok (.mem [], { out := .fixed (texWords k lam (texWord 4 e rq) 0xFF x.n) }))
    | (s, .ok (some m)) =>
      let cs := tapCentres u v x
      let foot (e : Nat) : List Tap := d.taps cs e (flt == .pt)
      let e0 := match m with
        | some m => max rq (min m d.pin)
        | none => rq
      match s.texLevel p l.idx d (fun e => d.reads e z (foot e)) e0 false 17 with
      | (s, .error t) =>
        -- without a residency map, the other level of a trilinear lookup may lack a page at a lower address (R45, R417)
        if d.lodres || phi == 0 then (s, .error t)
        else
          match s.absentPage p (d.reads (e0 + 1) z (foot (e0 + 1))) with
          | (s, some (va, _)) => (s, .error (firstTrap t (addrTrap l.idx cPAGEF va .load)))
          | (s, none) => (s, .error t)
      | (s, .ok (e, stale)) =>
        let phi := if e > rq then 0 else phi
        let st := texStatus d rq e stale
        let (s, second) := if phi == 0 then (s, none) else s.absentPage p (d.reads (e + 1) z (foot (e + 1)))
        if let (some (va, _), false) := (second, d.lodres) then (s, .error (addrTrap l.idx cPAGEF va .load))
        else
        let phi := if second.isSome then 0 else phi
        let (fx, fy) := d.centre u v rq
        let feed := texFeed l d st rq fx fy z
        if k == .query then (s, .ok (.mem [], { out := .fixed (texWords k lam (texWord st e rq) (m.getD 0xFF) x.n), feed := feed }))
        else
          let low := foot e
          let high := if phi == 0 then [] else foot (e + 1)
          let vas (e : Nat) (ts : List Tap) : List Nat := ts.filterMap fun t => t.at_.map fun (x, y) => d.addr e z x y
          match s.texPlaces p l.idx (texTile d.fmt).2.2 (vas e low ++ vas (e + 1) high) with
          | (s, .error t) => (s, .error t)
          | (s, .ok ps) =>
            let weights (w : Rat) (ts : List Tap) : List (Rat × Bool) := ts.map fun t => (t.wt * w, t.at_.isSome)
            (s, .ok (.mem ps,
              { out := match k with
                  | .gather c => .gather c
                  | _ => .rgba
                fmt := d.fmt, border := d.border, taps := weights (1 - phi) low ++ weights phi high
                tail := [texWord st e rq, 0, 0, 0], sick := texWords k lam (texWord 4 e rq) 0 0, feed := feed }))

/-- R275: the residency-map line that a lookup reads, by its number. -/
def State.mapLineOf (s : State) (p : Pk) (d : TexDesc) (x y z : Nat) : List Nat :=
  let (tw, th, _) := texTile d.fmt
  match d.lodres, (s.mapPlace p (dword (d.map + (z * d.ty 0 + y / th) * d.tx 0 + x / tw))).2 with
  | true, .ok x => [x.pa / 128]
  | _, _ => []

/-- The line that a TEX, TEXG or TEXQ of a lane reads, from the state in which its lookup begins. -/
def texMaps (o : TexOp) (s : State) (p : Pk) (l : Lane) : List Nat :=
  match s.texDesc p l.idx (p.read64 l 0 o.b.spec) with
  | (s, .ok d) =>
    let a := (p.read128 l o.a.spec).map (·.toNat)
    let (cx, cy) := d.centre (coord (a.getD 0 0)) (coord (a.getD 1 0)) 0
    (s.choose 2).1.mapLineOf p d cx cy (min (a.getD 2 0) (d.l - 1))
  | (_, .error _) => []

/-! ### The issue of a lookup -/

/-- A lookup instruction: the address of a lane's descriptor, the residency-map lines that the lane reads, and its checks. -/
structure Lookup where
  desc : Pk → Lane → Dword
  maps : State → Pk → Lane → List Nat
  plan : State → Pk → Lane → State × Except Trap (Loc × Look)

/-- Where a lane's lookup reads: its descriptor, its map lines, its texels. -/
def Lookup.locs (u : Lookup) (s : State) (p : Pk) (l : Lane) : List Loc :=
  (match (s.placePieces p l.idx .load [(u.desc p l, 32), (u.desc p l + 32, 32)]).2 with
    | .ok loc => [loc]
    | .error _ => [])
  ++ (u.maps s p l).map (fun k => .mem [({ pa := 128 * k, mt := 0, poi := false }, 128, 0)])
  ++ (match (u.plan s p l).2 with
    | .ok (loc, _) => [loc]
    | .error _ => [])

/-- R44, R236: before a lane's lookup takes its turn, what the lane has in flight and the lookup comes after is performed: what
acquires, and what shares a byte with what the lookup reads, which may be other bytes when a store to its descriptor or map has
been performed. -/
def Lookup.order (u : Lookup) (p : Pk) (l : Lane) : Nat → State → State
  | 0, s => s
  | n + 1, s =>
    let locs := u.locs s p l
    let before (e : Late) : Bool := e.lane == l.idx && !e.isConfig && (locs.any e.loc.meets || (!e.isSpill && e.acquires))
    if ((s.group? p.iss.uid p.iss.grp).map fun g => g.inflight.any fun q => (q.late.map before).getD false).getD false then
      u.order p l n (s.flushWhere p.iss.uid p.iss.grp before)
    else s

/-- The checks of a lane's lookup at its turn. -/
def Lookup.check (u : Lookup) (s : State) (p : Pk) (l : Lane) : State × Except Trap (Loc × Look) :=
  u.plan (u.order p l (p.inflightOf s) s) p l

/-- A lane's lookup, performed. -/
def Lookup.lane (u : Lookup) (s : State) (p : Pk) (l : Lane) : State × Except Trap (List (Nat × Nat)) :=
  match u.plan s p l with
  | (s, .error t) => (s, .error t)
  | (s, .ok (loc, k)) =>
    let (s, v) := s.performLook p loc k
    (s, .ok [(l.idx, v)])

/-- The turn of a lane's lookup that is not put off. -/
def Lookup.turn (u : Lookup) (s : State) (p : Pk) (l : Lane) : State × Except Trap (List (Nat × Nat)) :=
  u.lane (u.order p l (p.inflightOf s) s) p l

/-- The checks of a packet's lookups, lane by lane in rising order: what is in flight, and the traps. -/
def Lookup.checks (u : Lookup) (i : Instr) (d : Spec) (p : Pk) : List Lane → State → State × List Late × List Trap
  | [], s => (s, [], [])
  | l :: r, s =>
    match u.check s p l with
    | (s, .ok (loc, k)) =>
      let (s, es, ts) := u.checks i d p r s
      (s, { instr := i, lane := l.idx, loc := loc, look := some k
            reg := match d with
              | .v n => n.toNat
              | _ => 0 } :: es, ts)
    | (s, .error t) =>
      let (s, es, ts) := u.checks i d p r s
      (s, es, t :: ts)

/-- R275: the residency-map lines that the lookups of a packet's lanes read, lane by lane in rising order; a lane that traps reads none. -/
def Lookup.lines (u : Lookup) (p : Pk) : State → List Lane → List Nat
  | _, [] => []
  | s, l :: r =>
    let s := u.order p l (p.inflightOf s) s
    match u.lane s p l with
    | (s', .ok _) => u.maps s p l ++ u.lines p s' r
    | (s', .error _) => u.lines p s' r

/-- R236, R389: a packet of lookups whose texel reads are put off: their checks are made, and each is in flight by itself. -/
def putOffLooks (i : Instr) (h : Hdr) (u : Lookup) (s : State) (p : Pk) : State :=
  let d := i.shape.dst.getD ⟨.zero, 1, false⟩
  let (s, es, ts) := u.checks i d.spec p (p.active h) { s with putOff := false }
  let pkt := s.nextId
  let s := es.foldl (fun s e =>
    s.fly p { regs := regWrites d.spec d.w [(e.lane, 0)], preds := [], flag := none, pkt := pkt, late := some e, idle := p.idle h })
    { s with nextId := pkt + 1 }
  finishSome i h p s (p.iss.lanes.filter fun l => !(ts.map (·.lane)).contains l) [] [] (p.flag h) ts pkt

/-- The issue of a lookup by every active lane: each reads its texels at once, or later (R389). -/
def texIssue (i : Instr) (h : Hdr) (u : Pk → Lookup) (s : State) : Answer :=
  issue i h s fun s p =>
    let act := p.active h
    let lines := ((u p).lines p s act).eraseDups
    if s.putOff && !i.scalarDst then .next ((putOffLooks i h (u p) s p).readMaps p (p.inflightOf s) lines)
    else
      let (s, vs, ts) := runLanes (fun s l => (u p).turn s p l) s act
      .next ((finishLanes i h p s vs [] ts).readMaps p (p.inflightOf s) lines)

/-- TEX, TEXG and TEXQ of a packet. -/
def texLookup (k : TexKind) (flt : TexFlt) (lodm : LodMode) (o : TexOp) (act : List Lane) : Lookup :=
  { desc := fun p l => p.read64 l 0 o.b.spec, maps := texMaps o, plan := texPlan k flt lodm o act }

def execTex (flt : TexFlt) (lodm : LodMode) (st : Bool) (o : TexOp) (s : State) : Answer :=
  texIssue (.tex flt lodm st o) o.h (fun p => texLookup .sample flt lodm o (p.active o.h)) s

def execTexg (comp : BitVec 2) (lodm : LodMode) (st : Bool) (o : TexOp) (s : State) : Answer :=
  texIssue (.texg comp lodm st o) o.h (fun p => texLookup (.gather comp.toNat) .bil lodm o (p.active o.h)) s

def execTexq (flt : TexFlt) (lodm : LodMode) (o : TexOp) (s : State) : Answer :=
  texIssue (.texq flt lodm o) o.h (fun p => texLookup .query flt lodm o (p.active o.h)) s

/-- R394: the checks of LODLD's read for one lane, and its texel: the map step, the level. -/
def lodldRead (m : MemOp) (d : TexDesc) (idx xw : Nat) (s : State) (p : Pk) (l : Lane) : State × Except Trap (Loc × Look) :=
  let n := (texTile d.fmt).2.2
  let rq := min (xw % 16) d.top
  let z := min (xw / 2 ^ 16) (d.l - 1)
  let tx := min (idx % 2 ^ 16) (d.wAt rq - 1)
  let ty := min (idx / 2 ^ 16) (d.hAt rq - 1)
  let at_ (e : Nat) : Nat × Nat :=
    (min (tx / 2 ^ (e - rq)) (d.wAt e - 1), min (ty / 2 ^ (e - rq)) (d.hAt e - 1))
  let sick (e : Nat) : Nat := natWords [0, 0, texWord 4 e rq, 0]
  match s.mapStep p l.idx d (tx * 2 ^ rq) (ty * 2 ^ rq) z with
  | (s, .error t) => (s, .error t)
  | (s, .ok none) =>
    let (s, e) := s.choose 16
    (s, .ok (.mem [], { out := .fixed (sick e) }))
  | (s, .ok (some mb)) =>
    let e0 := match mb with
      | some b => max rq (min b d.pin)
      | none => rq
    match s.texLevel p l.idx d (fun e => [d.addr e z (at_ e).1 (at_ e).2]) e0 false 17 with
    | (s, .error t) => (s, .error t)
    | (s, .ok (e, stale)) =>
      match s.texPlaces p l.idx n [d.addr e z (at_ e).1 (at_ e).2] with
      | (s, .error t) => (s, .error t)
      | (s, .ok ps) =>
        let st := texStatus d rq e stale
        (s, .ok (.mem ps, { out := .raw m.width, tail := [texWord st e rq, 0], sick := sick e
                            feed := texFeed l d st rq tx ty z }))

/-- R394: the checks of LODLD for one lane. R45: the faults of its map byte and of its texel come before the ENGINEF of a width that
is not the texel's. -/
def lodldPlan (m : MemOp) (s : State) (p : Pk) (l : Lane) : State × Except Trap (Loc × Look) :=
  let idx := (p.read32 l 0 m.idx.spec).toNat
  let xw := (p.read32 l 0 m.x.spec).toNat
  if nbits xw 15 4 != 0 then (s, .error { lane := l.idx, cause := cILLOPD })
  else
    match s.texDesc p l.idx (p.read64 l 0 m.adr.spec) with
    | (s, .error t) => (s, .error t)
    | (s, .ok d) =>
      match lodldRead m d idx xw s p l with
      | (s, .error t) => (s, .error t)
      | (s', .ok v) =>
        if m.width.bytes != (texTile d.fmt).2.2 then (s, .error { lane := l.idx, cause := cENGINEF, info := 5 }) else (s', .ok v)

/-- The line that an LODLD of a lane reads. -/
def lodldMaps (m : MemOp) (s : State) (p : Pk) (l : Lane) : List Nat :=
  match s.texDesc p l.idx (p.read64 l 0 m.adr.spec) with
  | (s, .ok d) =>
    let idx := (p.read32 l 0 m.idx.spec).toNat
    let xw := (p.read32 l 0 m.x.spec).toNat
    let rq := min (xw % 16) d.top
    s.mapLineOf p d (min (idx % 2 ^ 16) (d.wAt rq - 1) * 2 ^ rq) (min (idx / 2 ^ 16) (d.hAt rq - 1) * 2 ^ rq)
      (min (xw / 2 ^ 16) (d.l - 1))
  | (_, .error _) => []

/-- LODLD. -/
def lodldLookup (m : MemOp) : Lookup :=
  { desc := fun p l => p.read64 l 0 m.adr.spec, maps := lodldMaps m, plan := lodldPlan m }

def execLodld (m : MemOp) (s : State) : Answer := texIssue (.lodld m) m.h (fun _ => lodldLookup m) s

/-- R389: MAP_LINE_EXPIRY: a map line is dropped, at the latest 1,048,576 service cycles after its fill. -/
def execMapLineExpiry (line : Nat) (s : State) : Answer :=
  match s.mapLines.drop line with
  | [] => .next s
  | m :: _ =>
    if s.stackCyc (stackOf m.core) - m.since < 0x100000 then .next s
    else .next { s with mapLines := s.mapLines.take line ++ s.mapLines.drop (line + 1) }

end Sys2Proof.Machine
end

