-- ==== Sys2Proof/Machine/Dispatch.lean ====
section
/-! DEFINITION. The one dispatch from an instruction or event to its meaning. -/

namespace Sys2Proof.Machine

/-- The meaning of every constructor of `Instr`. -/
def exec (i : Instr) (s : State) : Host.Outcome State Fault Refusal :=
  match i with
  | .nop h => Sys2Proof.Machine.execNop h s
  | .bra h loff tslot => Sys2Proof.Machine.execBra h loff tslot s
  | .brx h t => Sys2Proof.Machine.execBrx h t s
  | .call h loff tslot => Sys2Proof.Machine.execCall h loff tslot s
  | .callx h t => Sys2Proof.Machine.execCallx h t s
  | .ret h => Sys2Proof.Machine.execRet h s
  | .exit h => Sys2Proof.Machine.execExit h s
  | .conv h => Sys2Proof.Machine.execConv h s
  | .yield h => Sys2Proof.Machine.execYield h s
  | .rep h n stride mask => Sys2Proof.Machine.execRep h n stride mask s
  | .trap h code => Sys2Proof.Machine.execTrap h code s
  | .bkpt h => Sys2Proof.Machine.execBkpt h s
  | .iadd sat o => Sys2Proof.Machine.execIadd sat o s
  | .isub sat o => Sys2Proof.Machine.execIsub sat o s
  | .iaddc po h d a b pi imm => Sys2Proof.Machine.execIaddc po h d a b pi imm s
  | .imul o => Sys2Proof.Machine.execImul o s
  | .imulh u o => Sys2Proof.Machine.execImulh u o s
  | .imad o => Sys2Proof.Machine.execImad o s
  | .imadw u o => Sys2Proof.Machine.execImadw u o s
  | .imin u o => Sys2Proof.Machine.execImin u o s
  | .imax u o => Sys2Proof.Machine.execImax u o s
  | .iabs sat o => Sys2Proof.Machine.execIabs sat o s
  | .tern lut o => Sys2Proof.Machine.execTern lut o s
  | .shl w o => Sys2Proof.Machine.execShl w o s
  | .shr w o => Sys2Proof.Machine.execShr w o s
  | .sar w o => Sys2Proof.Machine.execSar w o s
  | .shf l w o => Sys2Proof.Machine.execShf l w o s
  | .bfe sg o => Sys2Proof.Machine.execBfe sg o s
  | .bfi o => Sys2Proof.Machine.execBfi o s
  | .popc o => Sys2Proof.Machine.execPopc o s
  | .clz o => Sys2Proof.Machine.execClz o s
  | .brev o => Sys2Proof.Machine.execBrev o s
  | .byperm o => Sys2Proof.Machine.execByperm o s
  | .iset u cmp bop o => Sys2Proof.Machine.execIset u cmp bop o s
  | .isetv u cmp o => Sys2Proof.Machine.execIsetv u cmp o s
  | .iadd64 o => Sys2Proof.Machine.execIadd64 o s
  | .isub64 o => Sys2Proof.Machine.execIsub64 o s
  | .lea k o => Sys2Proof.Machine.execLea k o s
  | .lea64 u k o => Sys2Proof.Machine.execLea64 u k o s
  | .idp4 sat ua ub o => Sys2Proof.Machine.execIdp4 sat ua ub o s
  | .isad u o => Sys2Proof.Machine.execIsad u o s
  | .shl64 o => Sys2Proof.Machine.execShl64 o s
  | .shr64 ar o => Sys2Proof.Machine.execShr64 ar o s
  | .mov p o => Sys2Proof.Machine.execMov p o s
  | .sel h d a b pc imm => Sys2Proof.Machine.execSel h d a b pc imm s
  | .ptern lut h pd pa pb pc => Sys2Proof.Machine.execPtern lut h pd pa pb pc s
  | .p2v h d => Sys2Proof.Machine.execP2v h d s
  | .v2p h a b imm => Sys2Proof.Machine.execV2p h a b imm s
  | .fadd m o => Sys2Proof.Machine.execFadd m o s
  | .fmul m o => Sys2Proof.Machine.execFmul m o s
  | .ffma m o => Sys2Proof.Machine.execFfma m o s
  | .fmin m o => Sys2Proof.Machine.execFmin m o s
  | .fmax m o => Sys2Proof.Machine.execFmax m o s
  | .fset cmp bop m o => Sys2Proof.Machine.execFset cmp bop m o s
  | .fsetv cmp m o => Sys2Proof.Machine.execFsetv cmp m o s
  | .frnd m o => Sys2Proof.Machine.execFrnd m o s
  | .fclass fmt o => Sys2Proof.Machine.execFclass fmt o s
  | .fspec fn m o => Sys2Proof.Machine.execFspec fn m o s
  | .fscale m o => Sys2Proof.Machine.execFscale m o s
  | .hadd2 m o => Sys2Proof.Machine.execHadd2 m o s
  | .hmul2 m o => Sys2Proof.Machine.execHmul2 m o s
  | .hfma2 m o => Sys2Proof.Machine.execHfma2 m o s
  | .hmin2 m o => Sys2Proof.Machine.execHmin2 m o s
  | .hmax2 m o => Sys2Proof.Machine.execHmax2 m o s
  | .hset2 cmp m o => Sys2Proof.Machine.execHset2 cmp m o s
  | .hdot2 m o => Sys2Proof.Machine.execHdot2 m o s
  | .dadd m o => Sys2Proof.Machine.execDadd m o s
  | .dmul m o => Sys2Proof.Machine.execDmul m o s
  | .dfma m o => Sys2Proof.Machine.execDfma m o s
  | .dmin m o => Sys2Proof.Machine.execDmin m o s
  | .dmax m o => Sys2Proof.Machine.execDmax m o s
  | .dset cmp bop m o => Sys2Proof.Machine.execDset cmp bop m o s
  | .f2i rnd sf dt hi o => Sys2Proof.Machine.execF2i rnd sf dt hi o s
  | .i2f rnd st1 df o => Sys2Proof.Machine.execI2f rnd st1 df o s
  | .f2f rnd sf df hi o => Sys2Proof.Machine.execF2f rnd sf df hi o s
  | .i2i st1 dt sat o => Sys2Proof.Machine.execI2i st1 dt sat o s
  | .qpack fmt sr pk ct o => Sys2Proof.Machine.execQpack fmt sr pk ct o s
  | .qunpk fmt ct o => Sys2Proof.Machine.execQunpk fmt ct o s
  | .qscal mu sel o => Sys2Proof.Machine.execQscal mu sel o s
  | .cmpld kind tbl h a b => Sys2Proof.Machine.execCmpld kind tbl h a b s
  | .ld m => Sys2Proof.Machine.execLd m s
  | .st m => Sys2Proof.Machine.execSt m s
  | .atom m => Sys2Proof.Machine.execAtom m s
  | .atomf m => Sys2Proof.Machine.execAtomf m s
  | .cas m => Sys2Proof.Machine.execCas m s
  | .red m => Sys2Proof.Machine.execRed m s
  | .fence m => Sys2Proof.Machine.execFence m s
  | .pref m => Sys2Proof.Machine.execPref m s
  | .fewait m => Sys2Proof.Machine.execFewait m s
  | .feset m => Sys2Proof.Machine.execFeset m s
  | .cctlL1 m => Sys2Proof.Machine.execCctlL1 m s
  | .cctlL1all m => Sys2Proof.Machine.execCctlL1all m s
  | .cctlIc m => Sys2Proof.Machine.execCctlIc m s
  | .cctlMap m => Sys2Proof.Machine.execCctlMap m s
  | .lodld m => Sys2Proof.Machine.execLodld m s
  | .vote f h pa => Sys2Proof.Machine.execVote f h pa s
  | .xlane mode seg o => Sys2Proof.Machine.execXlane mode seg o s
  | .qdiff rnd y crs o => Sys2Proof.Machine.execQdiff rnd y crs o s
  | .gfold op ty o => Sys2Proof.Machine.execGfold op ty o s
  | .scan op ty exc o => Sys2Proof.Machine.execScan op ty exc o s
  | .rdlane o => Sys2Proof.Machine.execRdlane o s
  | .matchLanes cnt w o => Sys2Proof.Machine.execMatchLanes cnt w o s
  | .elect h pd => Sys2Proof.Machine.execElect h pd s
  | .barSync h a b imm => Sys2Proof.Machine.execBarSync h a b imm s
  | .barArrive h a b imm => Sys2Proof.Machine.execBarArrive h a b imm s
  | .barWait h a imm => Sys2Proof.Machine.execBarWait h a imm s
  | .trset h d a recN => Sys2Proof.Machine.execTrset h d a recN s
  | .cpy kind tr side o => Sys2Proof.Machine.execCpy kind tr side o s
  | .cpys kind tr side o => Sys2Proof.Machine.execCpys kind tr side o s
  | .cpyg kind o => Sys2Proof.Machine.execCpyg kind o s
  | .coll op ty o => Sys2Proof.Machine.execColl op ty o s
  | .fillScr o => Sys2Proof.Machine.execFillScr o s
  | .fillMem o => Sys2Proof.Machine.execFillMem o s
  | .tclaim acc h pd first n => Sys2Proof.Machine.execTclaim acc h pd first n s
  | .trel acc h first n => Sys2Proof.Machine.execTrel acc h first n s
  | .mslot fmt sp ct h a slot => Sys2Proof.Machine.execMslot fmt sp ct h a slot s
  | .mma o => Sys2Proof.Machine.execMma o s
  | .mmas o => Sys2Proof.Machine.execMmas o s
  | .mzero h acc => Sys2Proof.Machine.execMzero h acc s
  | .mrd h d b acc => Sys2Proof.Machine.execMrd h d b acc s
  | .mwr h a b acc => Sys2Proof.Machine.execMwr h a b acc s
  | .bnew h d a => Sys2Proof.Machine.execBnew h d a s
  | .btrace h d a b c mask => Sys2Proof.Machine.execBtrace h d a b c mask s
  | .bfree h d a => Sys2Proof.Machine.execBfree h d a s
  | .rtrace first mask h d a b c root => Sys2Proof.Machine.execRtrace first mask h d a b c root s
  | .rresume sh cm h d a b c => Sys2Proof.Machine.execRresume sh cm h d a b c s
  | .tex flt lodm st1 o => Sys2Proof.Machine.execTex flt lodm st1 o s
  | .texg comp lodm st1 o => Sys2Proof.Machine.execTexg comp lodm st1 o s
  | .texq flt lodm o => Sys2Proof.Machine.execTexq flt lodm o s
  | .post h a port => Sys2Proof.Machine.execPost h a port s
  | .postn h d a port => Sys2Proof.Machine.execPostn h d a port s
  | .wait pri h ports => Sys2Proof.Machine.execWait pri h ports s
  | .take h d pc port => Sys2Proof.Machine.execTake h d pc port s
  | .patset h d a b c => Sys2Proof.Machine.execPatset h d a b c s
  | .patclr h d a => Sys2Proof.Machine.execPatclr h d a s
  | .portcfg h d a port c => Sys2Proof.Machine.execPortcfg h d a port c s
  | .launchCard h d a => Sys2Proof.Machine.execLaunchCard h d a s
  | .launchArm h d a b c => Sys2Proof.Machine.execLaunchArm h d a b c s
  | .launchSeal h d a => Sys2Proof.Machine.execLaunchSeal h d a s
  | .cancel cnt kill h d a => Sys2Proof.Machine.execCancel cnt kill h d a s
  | .cntrd cnt h d a => Sys2Proof.Machine.execCntrd cnt h d a s
  | .resumeRec h d a => Sys2Proof.Machine.execResumeRec h d a s
  | .resumeLaunch h d a => Sys2Proof.Machine.execResumeLaunch h d a s
  | .mfs h d num => Sys2Proof.Machine.execMfs h d num s
  | .mts h a num => Sys2Proof.Machine.execMts h a num s
  | .regclaim h n => Sys2Proof.Machine.execRegclaim h n s
  | .reggive h n => Sys2Proof.Machine.execReggive h n s
  | .keyset h a k => Sys2Proof.Machine.execKeyset h a k s
  | .lineWaitRelease uid grp lane => Sys2Proof.Machine.execLineWaitRelease uid grp lane s
  | .longLatencyComplete uid grp k => Sys2Proof.Machine.execLongLatencyComplete uid grp k s
  | .claimWaitServed quad => Sys2Proof.Machine.execClaimWaitServed quad s
  | .registerShortage quad => Sys2Proof.Machine.execRegisterShortage quad s
  | .teamSaveComplete uid => Sys2Proof.Machine.execTeamSaveComplete uid s
  | .teamRestore uid cluster => Sys2Proof.Machine.execTeamRestore uid cluster s
  | .convParklimit uid grp lane => Sys2Proof.Machine.execConvParklimit uid grp lane s
  | .barParklimit uid grp => Sys2Proof.Machine.execBarParklimit uid grp s
  | .fullEmptyParklimit uid grp lane => Sys2Proof.Machine.execFullEmptyParklimit uid grp lane s
  | .postParklimit uid grp lane => Sys2Proof.Machine.execPostParklimit uid grp lane s
  | .waitParklimit uid grp => Sys2Proof.Machine.execWaitParklimit uid grp s
  | .fullEmptySetServed uid grp lane => Sys2Proof.Machine.execFullEmptySetServed uid grp lane s
  | .postRetry uid grp lane => Sys2Proof.Machine.execPostRetry uid grp lane s
  | .chunkDeal stack => Sys2Proof.Machine.execChunkDeal stack s
  | .launchBlocking stack launch => Sys2Proof.Machine.execLaunchBlocking stack launch s
  | .declaredOperandWalk launch => Sys2Proof.Machine.execDeclaredOperandWalk launch s
  | .levelCompletion cnt id => Sys2Proof.Machine.execLevelCompletion cnt id s
  | .copyLineArrival cmd line => Sys2Proof.Machine.execCopyLineArrival cmd line s
  | .copyPageFault cmd => Sys2Proof.Machine.execCopyPageFault cmd s
  | .copyComplete cmd => Sys2Proof.Machine.execCopyComplete cmd s
  | .collectiveStart ctx cid => Sys2Proof.Machine.execCollectiveStart ctx cid s
  | .collectiveTimeout ctx cid => Sys2Proof.Machine.execCollectiveTimeout ctx cid s
  | .collectiveComplete cmd => Sys2Proof.Machine.execCollectiveComplete cmd s
  | .matrixEntryGrant cluster => Sys2Proof.Machine.execMatrixEntryGrant cluster s
  | .matrixEntryAged entry => Sys2Proof.Machine.execMatrixEntryAged entry s
  | .matrixEntryEnd cluster => Sys2Proof.Machine.execMatrixEntryEnd cluster s
  | .governorWindow cluster => Sys2Proof.Machine.execGovernorWindow cluster s
  | .governorAllowanceReached cluster => Sys2Proof.Machine.execGovernorAllowanceReached cluster s
  | .beamRingLineWrite trace => Sys2Proof.Machine.execBeamRingLineWrite trace s
  | .beamTraceEnd trace => Sys2Proof.Machine.execBeamTraceEnd trace s
  | .beamTracePagef trace => Sys2Proof.Machine.execBeamTracePagef trace s
  | .beamRingTimeout trace => Sys2Proof.Machine.execBeamRingTimeout trace s
  | .rayTraversalEnd trav => Sys2Proof.Machine.execRayTraversalEnd trav s
  | .rayTraversalPagef trav => Sys2Proof.Machine.execRayTraversalPagef trav s
  | .mapLineExpiry line => Sys2Proof.Machine.execMapLineExpiry line s
  | .portArrival k => Sys2Proof.Machine.execPortArrival k s
  | .hostPortWrite off size data => Sys2Proof.Machine.execHostPortWrite off size data s
  | .hostPortRead off size => Sys2Proof.Machine.execHostPortRead off size s
  | .peerPostArrival ctx port msg => Sys2Proof.Machine.execPeerPostArrival ctx port msg s
  | .hostBar4Read off n => Sys2Proof.Machine.execHostBar4Read off n s
  | .hostBar4Write off data => Sys2Proof.Machine.execHostBar4Write off data s
  | .peerMemoryAccess write pa n data => Sys2Proof.Machine.execPeerMemoryAccess write pa n data s
  | .vsplitWrite data => Sys2Proof.Machine.execVsplitWrite data s
  | .vsplitResizeComplete => Sys2Proof.Machine.execVsplitResizeComplete s
  | .mgovWrite data => Sys2Proof.Machine.execMgovWrite data s
  | .mgovClearStalls data => Sys2Proof.Machine.execMgovClearStalls data s
  | .pwstatClear data => Sys2Proof.Machine.execPwstatClear data s
  | .tlbShootdownPage data => Sys2Proof.Machine.execTlbShootdownPage data s
  | .tlbShootdownRange data => Sys2Proof.Machine.execTlbShootdownRange data s
  | .tlbShootdownContext data => Sys2Proof.Machine.execTlbShootdownContext data s
  | .tlbShootdownAll data => Sys2Proof.Machine.execTlbShootdownAll data s
  | .tlbShootdownComplete => Sys2Proof.Machine.execTlbShootdownComplete s
  | .hostResumeRec data => Sys2Proof.Machine.execHostResumeRec data s
  | .hostResumeLaunch data => Sys2Proof.Machine.execHostResumeLaunch data s
  | .contextCreate data => Sys2Proof.Machine.execContextCreate data s
  | .contextDestroy data => Sys2Proof.Machine.execContextDestroy data s
  | .channelPreempt chan data => Sys2Proof.Machine.execChannelPreempt chan data s
  | .preemptArrivalAtStack chan stack => Sys2Proof.Machine.execPreemptArrivalAtStack chan stack s
  | .drainLimitExpiry chan stack => Sys2Proof.Machine.execDrainLimitExpiry chan stack s
  | .channelRelease chan data => Sys2Proof.Machine.execChannelRelease chan data s
  | .feedbackClearDrops ring data => Sys2Proof.Machine.execFeedbackClearDrops ring data s
  | .headEnable head data => Sys2Proof.Machine.execHeadEnable head data s
  | .headLinkTrained head => Sys2Proof.Machine.execHeadLinkTrained head s
  | .hbaseWrite head data => Sys2Proof.Machine.execHbaseWrite head data s
  | .verticalBlank head => Sys2Proof.Machine.execVerticalBlank head s
  | .hstatClear head data => Sys2Proof.Machine.execHstatClear head data s
  | .cntclrGddr => Sys2Proof.Machine.execCntclrGddr s
  | .cntclrCore => Sys2Proof.Machine.execCntclrCore s
  | .cntclrInteg => Sys2Proof.Machine.execCntclrInteg s
  | .vfPointWrite domain point data => Sys2Proof.Machine.execVfPointWrite domain point data s
  | .soundingClear unit data => Sys2Proof.Machine.execSoundingClear unit data s
  | .soundingRun unit data => Sys2Proof.Machine.execSoundingRun unit data s
  | .soundingSample unit x => Sys2Proof.Machine.execSoundingSample unit x s
  | .registerWrite off size data => Sys2Proof.Machine.execRegisterWrite off size data s
  | .powerOnReset => Sys2Proof.Machine.execPowerOnReset s
  | .attestationRequest nonce => Sys2Proof.Machine.execAttestationRequest nonce s
  | .doeDiscovery index => Sys2Proof.Machine.execDoeDiscovery index s
  | .hostLinkTraining cxl width rate => Sys2Proof.Machine.execHostLinkTraining cxl width rate s
  | .sensorRefresh sensor value => Sys2Proof.Machine.execSensorRefresh sensor value s
  | .supplyDroop => Sys2Proof.Machine.execSupplyDroop s
  | .powerGovernorUpdate points pcap power => Sys2Proof.Machine.execPowerGovernorUpdate points pcap power s
  | .zwilerFlitCrcFail link retrained => Sys2Proof.Machine.execZwilerFlitCrcFail link retrained s
  | .gddrTransferRetry dev chan write failed => Sys2Proof.Machine.execGddrTransferRetry dev chan write failed s
  | .unassignedOpcodeIssue h op => Sys2Proof.Machine.execUnassignedOpcodeIssue h op s
  | .commandAddressParityError dev chan retrain => Sys2Proof.Machine.execCommandAddressParityError dev chan retrain s
  | .scanOutRead head x y late => Sys2Proof.Machine.execScanOutRead head x y late s
  | .hostManagedMemoryAccess write pa n data => Sys2Proof.Machine.execHostManagedMemoryAccess write pa n data s
  | .contextDestroyComplete => Sys2Proof.Machine.execContextDestroyComplete s
  | .droopPassed => Sys2Proof.Machine.execDroopPassed s

end Sys2Proof.Machine
end

