-- ==== Sys2Proof/Machine/Auto.lean ====
section
/-! DEFINITION. The default order of acts, which runs when the schedule lays down none: the acts that the state calls for,
taken in turn (log entry 4). An act that cannot happen yet leaves the state as it is. -/

namespace Sys2Proof.Machine

/-! ### The instruction that a REP governs -/

/-- R90: the governed instruction that a REP left: its packet and its group's quadrant, while the group goes on. -/
def repLive (s : State) : Option (Issue × Instr × Nat) :=
  match s.repNext with
  | some (iss, i) =>
    match s.team? iss.uid, s.group? iss.uid iss.grp with
    | some t, some g => if t.resident && !t.kill && !g.lanes.isEmpty then some (iss, i, g.quadNo) else none
    | _, _ => none
  | none => none

/-- R87, R196: the accesses in flight of ending units are performed before their lanes exit. -/
def State.flushKilled (s : State) : State := (s.units.filter (·.kill)).foldl (fun s t => s.flushUnit t.uid) s

/-- The instruction that a quadrant's issue opportunity comes to: the one that a REP left for it, or the quadrant's choice.
Between a REP and its governed instruction no other quadrant issues, which orders nothing that can be seen. -/
def chosenIssue (q : Nat) (s : State) : Sel :=
  match repLive s with
  | some (iss, i, k) => if k == q then
      .run { s with cur := some iss, repNext := none, issuedAt := tset s.issuedAt q (s.coreCyc (q / 4)) } i
    else .idle s
  | none => select { s.flushKilled with repNext := none } q

/-- What an issue opportunity comes to. An instruction that follows accesses in flight of its lanes finds them performed (R236). -/
def nextIssue (q : Nat) (s : State) : Sel :=
  match chosenIssue q s with
  | .run s i => .run (match s.cur with
      | some iss => s.orderLates iss i
      | none => s) i
  | .idle s => .idle s

/-! ### What the state calls for -/

/-- The events of groups: results that arrive, waits that end. -/
def groupActs (s : State) (t : Team) (g : Group) : List Act :=
  let fes := g.fes.flatMap fun w => w.lanes.map fun e =>
    if w.isPost then Act.event (.postRetry t.uid g.idx e.1) else .event (.fullEmptySetServed t.uid g.idx e.1)
  let parks := g.lanes.filterMap fun l => match l.park with
    | some (.conv, _) => some (Act.event (.convParklimit t.uid g.idx l.idx))
    | some (.fullEmpty, _) => some (.event (.fullEmptyParklimit t.uid g.idx l.idx))
    | some (.post, _) => some (.event (.postParklimit t.uid g.idx l.idx))
    | some (.wait, _) => some (.event (.waitParklimit t.uid g.idx))
    | some (.bar .., _) => some (.event (.barParklimit t.uid g.idx))
    | _ => none
  let fly := if g.inflight.any (·.owner.isNone) then [Act.event (.longLatencyComplete t.uid g.idx 0)] else []
  let claim := if !g.waits.isEmpty then [Act.event (.claimWaitServed g.quadNo), .event (.registerShortage g.quadNo)] else []
  fly ++ fes ++ claim ++ (if s.parkLim t.ctx == 0 then [] else parks)

/-- The events of a team. -/
def teamActs (s : State) (t : Team) : List Act :=
  match t.state with
  | .saving => [.event (.teamSaveComplete t.uid)]
  | .parked | .saved => (List.range 32).map fun c => .event (.teamRestore t.uid c)
  | _ => t.groups.flatMap (groupActs s t)

/-- The events of launches and counters. -/
def launchActs (s : State) : List Act :=
  (s.launches.flatMap fun l => match l.state with
    | .waitOp => if l.walkDue then [Act.event (.declaredOperandWalk l.id)] else []
    | .ready => l.passed.map fun e => .event (.launchBlocking e.1 l.id)
    | .running | .cancelling => [.event (.levelCompletion false l.id)])
  ++ ((List.range 4).filter fun k => s.launches.any (·.readyOn k)).map (fun k => .event (.chunkDeal k))
  ++ (s.counters.filter (·.2.done)).map fun e => .event (.levelCompletion true e.1)

/-- The events of the engines. -/
def engineActs (s : State) : List Act :=
  (s.cmds.flatMap fun c => match c.kind, c.state with
    | .coll _ _ d, .collWait =>
      let ctx := s.ctxOf c.uid
      let cid := (CollDesc.of d).cid
      [Act.event (.collectiveStart ctx cid), .event (.collectiveTimeout ctx cid), .event (.collectiveComplete c.id),
        .event (.copyPageFault c.id)]
    | _, .queued => [.event (.copyComplete c.id), .event (.copyPageFault c.id)]
    | _, _ => [])
  ++ (((s.cmds.map (·.core)).eraseDups.filter fun k => ((s.queueHead k).map fun c => !c.isCopy).getD false).map Act.handColl)
  ++ (s.matrix.flatMap fun e => match s.team? e.uid with
    | some t => [Act.event (.matrixEntryGrant t.cluster), .event (.matrixEntryEnd t.cluster), .event (.matrixEntryAged e.id),
        .event (.governorAllowanceReached t.cluster), .event (.governorWindow t.cluster)]
    | none => [])
  ++ (s.traces.flatMap fun t => [Act.event (.beamRingLineWrite t.id), .event (.beamTraceEnd t.id),
      .event (.beamTracePagef t.id), .event (.beamRingTimeout t.id)])
  ++ (s.traversals.flatMap fun t => [Act.event (.rayTraversalEnd t.id), .event (.rayTraversalPagef t.id)])
  ++ (List.range s.mapLines.length).map fun k => .event (.mapLineExpiry k)

/-- The events of the join units, the channels and the BAR0 registers. -/
def deviceActs (s : State) : List Act :=
  (if s.joinQ.isEmpty then [] else [Act.event (.portArrival 0)])
  ++ (if s.bar0.vsPend.isSome then [.event .vsplitResizeComplete] else [])
  ++ (if s.bar0.tlbiOp.isSome then [.event .tlbShootdownComplete] else [])
  ++ (if s.bar0.ctxBusy.isSome then [.event .contextDestroyComplete] else [])
  ++ s.chans.flatMap fun e =>
    if e.2.pre == 0 then []
    else (List.range 4).flatMap fun k =>
      [.event (.preemptArrivalAtStack e.1 k), .event (.drainLimitExpiry e.1 k)]

/-- The acts that the state calls for. -/
def enabledActs (s : State) : List Act :=
  if s.dev.fail then []
  else if !s.dev.ready then [.event .powerOnReset]
  else
    match repLive s with
    | some (_, _, q) => [.issue q]
    | none =>
      (readyQuads s).map Act.issue ++ s.units.flatMap (teamActs s) ++ launchActs s ++ engineActs s ++ deviceActs s

/-- The act of a step in the default order. -/
def defaultAct (s : State) : Act :=
  match enabledActs s with
  | [] => .idle
  | l => (l[s.turn % l.length]?).getD .idle

end Sys2Proof.Machine
end

