-- ==== Sys2Proof/Machine/Place.lean ====
section
/-! DEFINITION. A program's first instruction put in place from outside the machine (log entry 5): the device is started,
context 0 is live with its page tables, one launch has dealt one unit of one group whose lane 0 stands at a code line. -/

namespace Sys2Proof.Machine

/-- What a bit error makes of the check marks of sectors (R230, R231): the stored check value changes by a pattern, and the
sector is right, has the poison form, or fails its check. -/
def upsetMark (poison : List Nat) (flaw : NMap Nat) (k pattern : Nat) : List Nat × NMap Nat :=
  let x := (if poison.contains k then 0xFFFF else tgetD flaw k 0) ^^^ (pattern % 2 ^ 16)
  (if x == 0xFFFF then sins poison k else sdel poison k, if x == 0 || x == 0xFFFF then tdel flaw k else tset flaw k x)

/-- R231: bit errors in the check value of a sector of memory, of a team's scratch, or of a core's L1 copy. -/
def State.upset (s : State) (pa pattern : Nat) : State :=
  if paLocal pa then
    let (p, f) := upsetMark s.poison s.flaw (pa / 32) pattern
    { s with poison := p, flaw := f }
  else s

def State.upsetScr (s : State) (uid sector pattern : Nat) : State :=
  s.updTeam uid fun t =>
    let (p, f) := upsetMark t.scr.poison t.scr.flaw sector pattern
    if t.scrOk (32 * sector) 32 then { t with scr := { t.scr with poison := p, flaw := f } } else t

def State.upsetL1 (s : State) (core sector pattern : Nat) : State :=
  match tget s.l1 (core * coreSpan + sector) with
  | some c => { s with l1 := tset s.l1 (core * coreSpan + sector) { c with flaw := c.flaw ^^^ (pattern % 2 ^ 16) } }
  | none => s

/-- R231, R299: the same of a sector of a claimed slot. -/
def State.upsetSlot (s : State) (uid : Nat) (acc : Bool) (n sector pattern : Nat) : State :=
  s.updTeam uid fun t =>
    match tget (if acc then t.accs else t.ops) n with
    | none => t
    | some x =>
      let (p, f) := upsetMark x.poison x.flaw sector pattern
      if 32 * sector < (if acc then accBytes else opBytes) then t.setSlotFor acc n 0 { x with poison := p, flaw := f } else t

/-- R230, R231: the same of a sector of a team's beam pool. -/
def State.upsetBeam (s : State) (uid sector pattern : Nat) : State :=
  s.updTeam uid fun t =>
    let (p, f) := upsetMark t.poolPoison t.poolFlaw sector pattern
    if sector < 8 * t.card.beamRec then { t with poolPoison := p, poolFlaw := f } else t

/-- R227, R295: a copy engine translates the next page of a command's memory side, in the order of R280, before it needs it; of a page
that is not present, or whose address is not canonical, it learns nothing. -/
def State.walkAhead (s : State) (cmd : Nat) : State :=
  match (s.cmd? cmd).bind fun c => (s.nextAhead c).map fun x => (c, x) with
  | some (c, page, k) =>
    let s := s.updCmd cmd fun c => { c with ahead := k + 1 }
    if canonical (dword (4096 * page)) then (translate s (some c.user) (s.ctxOf c.uid) (4096 * page) false).1 else s
  | none => s

/-- R248, R459: the host or a peer writes memory of its own. -/
def State.ownStore (s : State) (pa : Nat) (b : Bytes) : State :=
  if paLocal pa || (pa + b.length - 1) / 2 ^ 47 != pa / 2 ^ 47 then s
  else
    let s := s.writePa pa b
    { s with race := s.race.landed (memBytes pa b.length) }

/-- R459: the host's caches hold a line of host-managed memory modified. -/
def State.hostCache (s : State) (line : Nat) (b : Bytes) : State :=
  if s.bar0.cxl && 128 * (line + 1) ≤ s.bar0.hdmSize * 2 ^ 30 && b.length == 128 then
    { s with hostLines := tset s.hostLines line b }
  else s

/-- What the device does of its own accord, and what reaches it outside the opcode table: cached copies dropped or fetched
(R24, R217, R227, R389), counters that run apart (R6), accesses put off (R236), bit errors (R231), the host's reads of registers
(R452), its own stores and those of peers (R248, R459), and other devices' participants of collectives (R288). -/
def freedom (a : Act) (s : State) : State :=
  match a with
  | .dropL1 core sector => { s with l1 := tdel s.l1 (core * coreSpan + sector) }
  | .dropIc core line =>
    if s.icHeld core (core * coreSpan + line) then s else { s with icache := tdel s.icache (core * coreSpan + line) }
  | .fillIc core line =>
    if s.icHeld core (core * coreSpan + line) then s
    else
      let s := s.verifyN (64 * line) 64
      s.icFill core (64 * line) (lineOf s (64 * line))
  | .dropTlb k => { s with tlb := s.tlb.eraseIdx k }
  | .dropMap k => { s with mapLines := s.mapLines.eraseIdx k }
  | .runAhead counter n => { s with aheadArith := tput s.aheadArith counter (tgetD s.aheadArith counter 0 + n) 0 }
  | .runAheadSvc stack n => { s with aheadSvc := tput s.aheadSvc stack (tgetD s.aheadSvc stack 0 + n) 0 }
  | .putOff => { s with putOff := true }
  | .handColl core => s.handFirst core
  | .walkAhead cmd => s.walkAhead cmd
  | .upset pa pattern => s.upset pa pattern
  | .upsetScr uid sector pattern => s.upsetScr uid sector pattern
  | .upsetL1 core sector pattern => s.upsetL1 core sector pattern
  | .upsetSlot uid acc n sector pattern => s.upsetSlot uid acc n sector pattern
  | .upsetBeam uid sector pattern => s.upsetBeam uid sector pattern
  | .retrain dev chan => if dev < 32 && chan < 4 && s.up then s.countAt (gddrOff dev chan 3) else s
  | .resizeBar4 n => { s with bar0 := { s.bar0 with bar4Step := n } }
  | .hostClean line =>
    match tget s.hostLines line with
    | some b => s.hdmWrite (128 * line) b
    | none => s
  | .corrected core kind => if core < 128 && kind < 3 then s.countAt (0x3000 + 0x10 * core + 4 * kind) else s
  | .ownStore pa data => s.ownStore pa data
  | .hostCache line data => s.hostCache line data
  | .readReg off size => s.hostRead off size
  | .announce c => if !s.bar0.cxl then s else { s with remoteColl := putRemote c s.remoteColl }
  | .issue _ | .event _ | .idle => s

/-- The bytes of a code line from its five slots and the line word's low 31 bits; PAR is set as R25 says. -/
def lineBytes (slots : List (BitVec 96)) (w : Nat) : Bytes :=
  let body := slots.flatMap (fun x => leBytes x.toNat 12)
  let b := body ++ leBytes w 4
  if parityFold (leNat b) 9 == 0 then b else body ++ leBytes (w + 2 ^ 31) 4

/-- A NOP word (R54, R55). -/
def nopWord : BitVec 96 := 0x00000000_00000000_C0C00E00

/-- The code line of a placed instruction: the word in slot 0, NOPs after it, every slot a target, FA = f0, FB = f1, no
WAIT. -/
def placedLine (w : BitVec 96) : Bytes :=
  lineBytes [w, nopWord, nopWord, nopWord, nopWord] (0x01F00000 + 0x00010000)

/-- Page-table entries that map the first GiB of virtual addresses to the first GiB of device memory (R223, R224). -/
def placedTables : List (Nat × Nat) := [(0x1000, 0x2009), (0x2000, 0x3009), (0x3000, 0x9F)]

/-- The address of the placed line, virtual and physical. -/
def placedPc : Nat := 0x10000

def placedCard : Card := { entry := dword placedPc, argCount := 1, regPeak := 128, donePort := 0xFFFF }

def placedTeam : Team :=
  { uid := 1, ctx := 0, launch := 1, team := 0, card := placedCard
    groups := [{ idx := 0, lanes := [{ idx := 0, pc := dword placedPc }], s := [(3, 1)] }] }

def placedCtx : Context :=
  { desc := 0x8000, root := 0x1000, frBase := 0x20000, fpBase := 0x100000, psBase := 0, fpSize := 16, psSize := 0
    faultPort := 0, fpDepth := 4, frLog2n := 4 }

/-- The state with a word placed as the next instruction. -/
def placeWord (s : State) (w : BitVec 96) : State :=
  { s with
    dev := { ready := true, fail := false, code := 0, stage := 5 }
    mem := mwriteN (placedTables.foldl (fun m e => mwriteN m e.1 (leBytes e.2 8)) s.mem) placedPc (placedLine w)
    ctxs := tset s.ctxs 0 placedCtx
    ports := tset s.ports 0 { depth := 4, act := .fault, hvis := true }
    launches := [{ id := 1, ctx := 0, card := placedCard, state := .running }]
    units := [placedTeam]
    nextUid := 2
    nextLaunch := 2
    icache := []
    tlb := []
    issuedAt := []
    agenda := [{ act := .issue 0 }] }

end Sys2Proof.Machine
end

