-- ==== Sys2Proof/Machine/Step.lean ====
section
/-! DEFINITION. One step of the device: the next move of the schedule, or, where none is laid down, an act of the default
order. -/

namespace Sys2Proof.Machine

/-- The packet is done with its instruction. -/
def endPacket (a : Answer) : Answer :=
  match a with
  | .next s => .next { s with cur := none }
  | .fault f => .fault f
  | .refused r => .refused r

/-- What a quadrant's issue opportunity does. -/
def issueQuad (q : Nat) (s : State) : Answer :=
  match nextIssue q s with
  | .idle s => .next s
  | .run s i => endPacket (exec i s)

/-- Performs an act. -/
def perform (a : Act) (s : State) : Answer :=
  match a with
  | .issue q => issueQuad q s
  | .event i => if i.cls == .event && i.hdr.isNone then endPacket (exec i { s with cur := none }) else .next s
  | a => .next (freedom a s)

/-- The cycles that a move lets pass. -/
def State.tick (s : State) (arith svc : Nat) : State := { s with arith := s.arith + arith, svc := s.svc + svc }

/-- One step. -/
def step (s : State) : Answer :=
  match s.agenda with
  | m :: rest => perform m.act ({ s with agenda := rest }.tick m.arith m.svc)
  | [] => perform (defaultAct s) ({ s with turn := s.turn + 1 }.tick 1 1)

/-- The state with an instruction placed where the next step fetches it (log entry 5). -/
def State.withFetchWord (s : State) (nbits w : Nat) : State := placeWord s (BitVec.ofNat 96 (w % 2 ^ nbits))

end Sys2Proof.Machine
end

