-- ==== Sys2Proof/Safety.lean ====
section
/-! DEFINITION. The terms in which statements about the machine are made: the canonical form of memory, when an instruction
issues with its own effect, the state in which that effect begins, and what a state shows of a lane, a group and memory. -/

namespace Sys2Proof.Machine

/-! ### The invariant -/

/-- Memory is in canonical form: addresses rise strictly, and no listed byte reads as an unlisted one. -/
def State.memOk (s : State) : Prop := memWf s.mem = true

/-! ### The issue of an instruction with its own effect -/

/-- The v-names that an instruction writes at an issue: none when no lane is active. -/
def Pk.names (p : Pk) (h : Hdr) (names : List Nat) : List Nat := if (p.active h).isEmpty then [] else names

/-- R136: the names that a write adds to the claims of the group. -/
def Pk.fresh (p : Pk) (names : List Nat) : List Nat := (names.filter fun x => !p.grp.claims.contains x).eraseDups

/-- When the instruction of a packet issues with its own effect: the next PC in sequence is well formed (R21), the encoding
holds no fault (R37, R61), a group-collective instruction has gathered its group (R131), the register limit and the register
pool allow the names that it writes (R136, R137), and its completion flag stands below 63 (R35). -/
def Pk.issues (p : Pk) (i : Instr) (h : Hdr) (names : List Nat) (s : State) : Bool :=
  !p.iss.seqBad && (encFault i p.iss).isNone && (!i.collective || p.gather == .go)
    && ((p.fresh (p.names h names)).isEmpty
        || p.grp.footprint + (p.fresh (p.names h names)).length ≤ p.team.card.regPeak)
    && s.canClaim p.grp p.place (p.grp.capacity (p.names h names))
    && (match flagOf p.iss h.cf with
        | none => true
        | some f => (p.active h).isEmpty || p.grp.flag f < 63)

/-- The state in which the instruction's own effect begins: the issue is counted for the lanes of the group (R127, R128), a
wait for registers has ended (R137), and the completion flag has risen when a lane is active (R35). -/
def State.issued (s : State) (p : Pk) (h : Hdr) (names : List Nat) : State :=
  let s' := s.commit p
  let s' := if p.grp.capacity (p.names h names) == 0 then s' else s'.endClaimWait p.iss.uid p.iss.grp p.place
  match flagOf p.iss h.cf with
  | none => s'
  | some f => if (p.active h).isEmpty then s' else s'.updGroup p.iss.uid p.iss.grp (·.incFlag f)

/-! ### What a state shows -/

/-- A lane of the packet that is active, as the group holds it. -/
def Pk.actsOn (p : Pk) (h : Hdr) (l : Lane) : Prop := l ∈ p.active h ∧ p.grp.lane? l.idx = some l

/-- The value of a v-register of a lane; 0 where there is no such lane. -/
def State.vregOf (s : State) (uid grp lane r : Nat) : Word := ((s.lane? uid grp lane).map (·.vreg r)).getD 0

/-- The value of an s-register of a group; 0 where there is no such group. -/
def State.sregOf (s : State) (uid grp r : Nat) : Word := ((s.group? uid grp).map (·.sreg r)).getD 0

/-- The value of a predicate of a lane. -/
def State.predOf (s : State) (uid grp lane : Nat) (n : BitVec 3) : Bool := ((s.lane? uid grp lane).map (·.pred n)).getD false

/-- The PC of a lane, when there is one. -/
def State.pcOf (s : State) (uid grp lane : Nat) : Option Dword := (s.lane? uid grp lane).map (·.pc)

/-- The result of an instruction that computes `val` for each active lane stands in its destination of w registers: in each
active lane's v-registers, or, from the lowest active lane, in the group's s-registers (R41, R74); `zero` takes nothing (R40).
A name that the kill bit of a REP unmaps after the iteration is left out (R91). -/
def Pk.wrote (p : Pk) (t : State) (h : Hdr) (d : Spec) (w : Nat) (val : Lane → Nat) : Prop :=
  match d with
  | .v n => ∀ l, p.actsOn h l → ∀ k, k < w → n.toNat + k ∉ p.iss.repKill →
      t.vregOf p.iss.uid p.iss.grp l.idx (n.toNat + k) = word (val l / 2 ^ (32 * k))
  | .s n => ∀ l, (p.active h).head? = some l → ∀ k, k < w →
      t.sregOf p.iss.uid p.iss.grp (n.toNat + k) = word (val l / 2 ^ (32 * k))
  | _ => True

/-- Every lane of the packet has gone on: to the next PC in sequence, or, under a REP, to its next iteration or past the
governed instruction (R21, R90). -/
def Pk.wentOn (p : Pk) (t : State) : Prop :=
  ∀ l ∈ p.lanes, t.pcOf p.iss.uid p.iss.grp l.idx = (p.grp.lane? l.idx).map fun l => (l.advance p.iss).pc

/-- A 32-bit and a 64-bit source of a lane, as a number (R38, R39). -/
def Pk.x32 (p : Pk) (l : Lane) (imm : Word) (a : Src) : Nat := (p.read32 l imm a.spec).toNat
def Pk.x64 (p : Pk) (l : Lane) (imm : Word) (a : Src) : Nat := (p.read64 l imm a.spec).toNat

/-- The instruction completes: whenever nothing holds its issue back, it answers a next state in which the result `val` of every
active lane stands in the destination and every lane of the packet has gone on. -/
def Pk.gives (p : Pk) (s : State) (i : Instr) (h : Hdr) (d : Spec) (w : Nat) (val : Lane → Nat) : Prop :=
  p.issues i h (instrDst i) s = true → ∃ t, exec i s = .next t ∧ p.wrote t h d w val ∧ p.wentOn t

/-- The sticky floating-point flags of a group (R17). -/
def State.fpstOf (s : State) (uid grp : Nat) : BitVec 5 := ((s.group? uid grp).map (·.fpst)).getD 0

/-- The same for an instruction that also raises exception bits: those of every lane that it computes for, the lowest active one
on the scalar path, are ORed into the group's `fpst` (R17). -/
def Pk.givesFp (p : Pk) (s : State) (i : Instr) (h : Hdr) (d : Spec) (w : Nat) (res : Lane → Res) : Prop :=
  p.issues i h (instrDst i) s = true → ∃ t, exec i s = .next t ∧ p.wrote t h d w (fun l => (res l).val) ∧ p.wentOn t
    ∧ t.fpstOf p.iss.uid p.iss.grp
        = ((if d.isS then (p.active h).take 1 else p.active h).map res).foldl (fun a r => a ||| r.fp) p.grp.fpst

/-- The same for an instruction that writes the predicate pd of every active lane (R51); pt takes nothing (R14). -/
def Pk.givesPred (p : Pk) (s : State) (i : Instr) (h : Hdr) (pd : BitVec 3) (val : Lane → Bool) : Prop :=
  p.issues i h (instrDst i) s = true → ∃ t, exec i s = .next t ∧ p.wentOn t
    ∧ ∀ l, p.actsOn h l → t.predOf p.iss.uid p.iss.grp l.idx pd = (pd == 7 || val l)

/-- The same for a comparison that also raises exception bits: those of every active lane are ORed into the group's `fpst`. -/
def Pk.givesPredFp (p : Pk) (s : State) (i : Instr) (h : Hdr) (pd : BitVec 3) (val : Lane → Bool × BitVec 5) : Prop :=
  p.issues i h (instrDst i) s = true → ∃ t, exec i s = .next t ∧ p.wentOn t
    ∧ (∀ l, p.actsOn h l → t.predOf p.iss.uid p.iss.grp l.idx pd = (pd == 7 || (val l).1))
    ∧ t.fpstOf p.iss.uid p.iss.grp = (p.active h).foldl (fun a l => a ||| (val l).2) p.grp.fpst

/-- The value that is on its way to a v-register of a lane (R34); none when nothing is. -/
def State.inFlight (s : State) (uid grp lane r : Nat) : Option Word :=
  (s.group? uid grp).bind fun g =>
    ((g.inflight.flatMap (·.regs)).find? fun e => e.1 == lane && e.2.1 == r).map (·.2.2)

/-- The values of a long-latency instruction, by lane, are on their way to its destination of w registers (R34); an s-register takes
the first of them at once (R41). -/
def Pk.sends (p : Pk) (t : State) (d : Spec) (w : Nat) (vals : List (Nat × Nat)) : Prop :=
  match d with
  | .v n => ∀ l v, vals.find? (·.1 == l) = some (l, v) → ∀ k, k < w →
      t.inFlight p.iss.uid p.iss.grp l (n.toNat + k) = some (word (v / 2 ^ (32 * k)))
  | .s n => ∀ e, vals.head? = some e → ∀ k, k < w →
      t.sregOf p.iss.uid p.iss.grp (n.toNat + k) = word (e.2 / 2 ^ (32 * k))
  | _ => True

/-! ### Lanes -/

/-- The packet's lane of its number: the group holds no other lane of that number, and the packet holds this one. -/
def Pk.sole (p : Pk) (l : Lane) : Prop := p.grp.lanes.filter (·.idx == l.idx) = [l] ∧ l.idx ∈ p.iss.lanes

/-- The packet's lane of a number, as a state holds it. -/
def Pk.now (p : Pk) (t : State) (k : Nat) : Option Lane := t.lane? p.iss.uid p.iss.grp k

/-- A lane of the packet's group stands at a CONV once the packet's CONV has issued: it is active in the packet, or it parked at a CONV
in an earlier one (R153). -/
def Pk.atConv (p : Pk) (h : Hdr) (l : Lane) : Prop := l ∈ p.active h ∨ (l.idx ∉ p.iss.lanes ∧ ∃ c, l.park = some (.conv, c))

/-- The group of the packet, as a state holds it. -/
def Pk.grpNow (p : Pk) (t : State) : Option Group := t.group? p.iss.uid p.iss.grp

/-- The traps that the active lanes of a transfer raise (R20, R84, R85). -/
def Pk.transferTraps (p : Pk) (s : State) (h : Hdr) (f : LaneAct) : List Trap :=
  ((s.issued p h []).eachLane p f (p.active h)).2

/-! ### Frames -/

/-- Nothing outside one group of one team has changed: t is s with an update of that group. -/
def State.onlyGroup (s t : State) (u g : Nat) : Prop :=
  ∃ f : Group → Group, (∀ x, (f x).idx = x.idx) ∧ t = s.updGroup u g f

/-- A lane after the issue of its packet is counted (R127, R128). -/
def Lane.committed (l : Lane) (iss : Issue) : Lane :=
  if iss.lanes.contains l.idx then { l with w := 0, entry := .none }
  else if iss.others.contains l.idx then { l with w := l.w + 1 }
  else l

/-! ### Instructions that act lane by lane -/

/-- What the lanes of an instruction come to, one after another, from the state in which its own effect begins: the state after them,
the results by lane, and the traps (R11, R46). -/
def Pk.runs (p : Pk) (s : State) (i : Instr) (h : Hdr)
    (f : State → Pk → Lane → State × Except Trap (List (Nat × Nat))) (ls : List Lane) :
    State × List (Nat × Nat) × List Trap :=
  runLanes (fun s l => f s p l) (s.issued p h (instrDst i)) ls

/-- Nothing of what the lanes' effect `r` left has been changed by the end of the instruction, but in the packet's own group: its
results are on their way to the destination that the instruction's shape names. -/
def Pk.endsWith (p : Pk) (t r : State) (i : Instr) (vals : List (Nat × Nat)) : Prop :=
  r.onlyGroup t p.iss.uid p.iss.grp ∧ match i.shape.dst with
    | some d => p.sends t d.spec d.w vals
    | none => True

/-- A lane-by-lane instruction completes: when nothing holds its issue back and no lane of it traps, it answers a next state in
which its lanes' effects stand, its results are on their way and every lane of the packet has gone on. -/
def Pk.lanesDo (p : Pk) (s : State) (i : Instr) (h : Hdr)
    (f : State → Pk → Lane → State × Except Trap (List (Nat × Nat))) : Prop :=
  p.issues i h (instrDst i) s = true → (p.runs s i h f (p.active h)).2.2 = [] →
    ∃ t, exec i s = .next t ∧ p.wentOn t ∧ p.endsWith t (p.runs s i h f (p.active h)).1 i (p.runs s i h f (p.active h)).2.1

/-- What the lanes of LD, ST or an atomic come to when each performs its access at its issue; the sectors that the packet's stores
cover together are poisoned no longer (R120). -/
def Pk.accRuns (p : Pk) (s : State) (i : Instr) (m : MemOp) : State × List (Nat × Nat) × List Trap :=
  let r := p.runs s i m.h (accTurn i m) (p.active m.h)
  let cover := if r.1.clean p.iss.uid then [] else coverOf i m r.1 p r.2.2
  (if cover.isEmpty then r.1 else r.1.locSweep p.iss.uid (m.space == .scr) cover, r.2)

/-- What the checks come to of a packet whose accesses are put off: the state, the accesses, and the traps (R235, R236). -/
def Pk.accPutOff (p : Pk) (s : State) (i : Instr) (m : MemOp) : State × List Late × List Trap :=
  checkLanes i m p ((p.active m.h).filter fun l => !suppressedFor i l)
    { s.issued p m.h (instrDst i) with putOff := false }

/-- LD, ST and the atomics complete when nothing holds their issue back and no lane of them traps: their accesses are performed and
their results are on their way, or, when the device puts them off, the accesses are in flight; every lane has gone on. -/
def Pk.accDoes (p : Pk) (s : State) (i : Instr) (m : MemOp) : Prop :=
  p.issues i m.h (instrDst i) s = true →
    (s.putOff = false → (p.accRuns s i m).2.2 = [] →
      ∃ t, exec i s = .next t ∧ p.wentOn t ∧ p.endsWith t (p.accRuns s i m).1 i (p.accRuns s i m).2.1)
    ∧ (s.putOff = true → (p.accPutOff s i m).2.2 = [] →
      ∃ t, exec i s = .next t ∧ p.wentOn t
        ∧ ({ (p.accPutOff s i m).1 with nextId := (p.accPutOff s i m).1.nextId + 1 } : State).onlyGroup t p.iss.uid p.iss.grp
        ∧ ∀ e ∈ (p.accPutOff s i m).2.1, ∃ g q, p.grpNow t = some g ∧ q ∈ g.inflight ∧ q.late = some e)

/-- What the checks come to of a packet whose lookups read their texels later: the state, the lookups, and the traps (R236, R389). -/
def Pk.looksOff (p : Pk) (s : State) (i : Instr) (h : Hdr) (u : Lookup) : State × List Late × List Trap :=
  u.checks i (i.shape.dst.getD ⟨.zero, 1, false⟩).spec p (p.active h) { s.issued p h (instrDst i) with putOff := false }

/-- A lookup completes lane by lane in the same way; the lines of a residency map that it reads are noted with its results (R275). When
the device puts it off, its checks are made and its texel reads are in flight. -/
def Pk.looksUp (p : Pk) (s : State) (i : Instr) (h : Hdr) (u : Lookup) : Prop :=
  p.issues i h (instrDst i) s = true →
    (s.putOff = false → (p.runs s i h u.turn (p.active h)).2.2 = [] →
      ∃ t, exec i s = .next t ∧ p.wentOn t
        ∧ p.endsWith t { (p.runs s i h u.turn (p.active h)).1 with nextSeq := t.nextSeq } i (p.runs s i h u.turn (p.active h)).2.1)
    ∧ (s.putOff = true → i.scalarDst = false → (p.looksOff s i h u).2.2 = [] →
      ∃ t, exec i s = .next t ∧ p.wentOn t
        ∧ ({ (p.looksOff s i h u).1 with
              nextId := (p.looksOff s i h u).1.nextId + 1, nextSeq := t.nextSeq } : State).onlyGroup t p.iss.uid p.iss.grp
        ∧ ∀ e ∈ (p.looksOff s i h u).2.1, ∃ g q, p.grpNow t = some g ∧ q ∈ g.inflight ∧ q.late = some e)

/-- R221: what a full/empty operation comes to: the state after serving the sets, the outcome, and the lanes that wait. -/
def Pk.feRuns (p : Pk) (s : State) (i : Instr) (m : MemOp) (k : AKind) (act : List Lane) : State × FeOut × List FeLane :=
  let x := (s.issued p m.h (instrDst i)).feLocate p m k act
  x.1.feAll p i m (feSets x.2.1 [])

/-- A full/empty operation completes at once: every set is in the state that it waits for and no lane traps. -/
def Pk.feDoes (p : Pk) (s : State) (i : Instr) (m : MemOp) (k : AKind) (act : List Lane) : Prop :=
  p.issues i m.h (instrDst i) s = true → ((s.issued p m.h (instrDst i)).feLocate p m k act).2.2 = [] →
    (p.feRuns s i m k act).2.1.traps = [] → (p.feRuns s i m k act).2.2 = [] →
    ∃ t, exec i s = .next t ∧ p.wentOn t ∧ p.endsWith t (p.feRuns s i m k act).1 i (p.feRuns s i m k act).2.1.vals

/-- R244, R245: an access by a thread to a word completes a conflict with a remembered access: another thread's, to a word that it shares, one of
the two a write, the two not both strong inside each other's scope, the remembered one not before it, and its region still open: no
boundary at or after that region (of a strong access whose own scope does not hold the thread, after it) has been performed at a
scope that holds the thread. -/
def Race.conflict (r : Race) (w : RWord) (t : Tid) (write : Bool) (strong : Option Holds) (a : Acc) : Prop :=
  rwHit a.word w = true ∧ a.tid ≠ t ∧ (a.write = true ∨ write = true)
    ∧ (∀ ha hb, a.strong = some ha → strong = some hb → inHolds ha t = false ∨ inHolds hb a.tid = false)
    ∧ tgetD (r.thread t).clk a.num 0 < a.region
    ∧ ∃ x, r.threads.find? (·.tid == a.tid) = some x ∧ ∀ e ∈ x.bounds, inHolds e.1 t = true →
        e.2 < match a.strong with
          | some h => if inHolds h t then a.region else a.region + 1
          | none => a.region

/-- The virtual addresses that an access of n bytes translates: its own, or those of its words in the local area; none in scratch
(R118, R119, R210). -/
def Pk.vasOf (p : Pk) (lane : Nat) (sp : Space) (ea : Dword) (n : Nat) : List Nat :=
  match sp with
  | .glb => [ea.toNat]
  | .loc => (List.range (cdiv n 4)).map fun w => (p.localVa lane (ea.toNat + 4 * w)).toNat
  | .scr => []

/-- No byte of memory has changed but the A and D bits of page-table entries at the indexes of these virtual addresses: an entry of
level l stands in its table at 8 times the address's index, and a table is aligned to 4 KiB (R223, R224, R226). -/
def State.onlyAD (s t : State) (vas : List Nat) : Prop :=
  ∀ a, mread t.mem a = mread s.mem a ∨ (mread t.mem a &&& 0xE7 = mread s.mem a &&& 0xE7
    ∧ ∃ va ∈ vas, ∃ l table, l ≤ 4 ∧ table % 4096 = 0 ∧ a = table + 8 * vaIndex va l)

/-- The root of a context's page table is aligned to 4 KiB (R223, R454). -/
def State.rootOk (s : State) (c : Nat) : Prop := ∀ x, s.ctx? c = some x → x.root % 4096 = 0

/-- Two pieces of memory do not overlap. -/
def apart (a b : Place × Nat × Dword) : Prop := a.1.pa + a.2.1 ≤ b.1.pa ∨ b.1.pa + b.2.1 ≤ a.1.pa

/-- An address outside every piece of a place. -/
def Loc.outside : Loc → Nat → Prop
  | .mem ps, a => ∀ e ∈ ps, a < e.1.pa ∨ e.1.pa + e.2.1 ≤ a
  | .scr .., _ => True

/-- The pieces of a place do not overlap. -/
def Loc.simple : Loc → Prop
  | .mem ps => ps.Pairwise apart
  | .scr .. => True

/-! ### Engine operations -/

/-- The command that a copy instruction of the packet hands to its engine (R283, R290). -/
def Pk.command (p : Pk) (s : State) (o : CpyOp) (kind : CmdKind) (w : Lane) : Cmd :=
  { id := s.nextId, uid := p.iss.uid, grp := p.iss.grp, lane := w.idx, pc := p.iss.pc, core := p.grp.core, kind := kind
    desc := (tget p.team.recs o.im.recN.toNat).getD [], flag := p.flag o.h
    port := if o.im.pv then some o.im.port.toNat else none, tag := p.read32 w 0 o.tag, keys := (s.keysFor p.iss.uid p.iss.grp).2, since := s.unitCyc p.iss.uid }

/-- A copy instruction completes: when it issues, some active lane is no helper and its checks pass, its command is queued behind the
others, the scratch lines that the command will fill are empty, and its lanes go on. -/
def Pk.queues (p : Pk) (s : State) (i : Instr) (o : CpyOp) (kind : CmdKind) (chk : Pk → CmdCheck) : Prop :=
  ∀ w ws, p.issues i o.h [] s = true → p.workers o.h = w :: ws →
    cmdTraps o.h o.im.recN.toNat chk true p = [] → cmdTraps o.h o.im.recN.toNat chk false p = [] →
    ∃ t, exec i s = .next t ∧ p.wentOn t ∧ t.mem = s.mem ∧ t.cmds = s.cmds ++ [p.command s o kind w]
      ∧ ∀ a, kind.dst = some (.scr a) → ∀ line, line ∈ scrLines a (cmdBytes kind (p.command s o kind w).trec) →
          t.lineFull p.iss.uid line = false

/-- A matrix instruction completes: its entry waits at the end of the reservation table, and its lanes go on (R311, R313). -/
def Pk.posts (p : Pk) (s : State) (i : Instr) (h : Hdr) (kind : MatKind) : Prop :=
  ∃ t, exec i s = .next t ∧ p.wentOn t ∧ t.mem = s.mem ∧ ∃ lane, t.matrix =
    ((s.issued p h (instrDst i)).govSync p.team.cluster).matrix ++
    [{ id := s.nextId, uid := p.iss.uid, grp := p.iss.grp, lane := lane, pc := p.iss.pc, flag := p.flag h, kind := kind,
       posted := s.stackCyc (p.team.cluster / 8) }]

/-- What the lanes of a command come to that starts an engine operation in each of them; the packet has a number of its own. -/
def Pk.startRuns (p : Pk) (s : State) (i : Instr) (h : Hdr)
    (f : Nat → State → Pk → Lane → State × Except Trap (List (Nat × Nat))) (ls : List Lane) :
    State × List (Nat × Nat) × List Trap :=
  runLanes (fun s' l => f s.nextId s' p l) { s.issued p h (instrDst i) with nextId := s.nextId + 1 } ls

/-- A command that starts an operation in each of its lanes completes when no lane traps. `rest`: the lanes that get a value at once. -/
def Pk.startsDo (p : Pk) (s : State) (i : Instr) (h : Hdr)
    (f : Nat → State → Pk → Lane → State × Except Trap (List (Nat × Nat))) (ls : List Lane) (rest : List (Nat × Nat)) : Prop :=
  p.issues i h (instrDst i) s = true → (p.startRuns s i h f ls).2.2 = [] →
    ∃ t, exec i s = .next t ∧ p.wentOn t ∧ p.endsWith t (p.startRuns s i h f ls).1 i ((p.startRuns s i h f ls).2.1 ++ rest)

/-- A command that acts once for its packet completes when it does not trap: every active lane receives its result; 0 and nothing
else when every active lane is a helper (R133, R332). -/
def Pk.packetDoes (p : Pk) (s : State) (i : Instr) (h : Hdr) (f : State → Pk → State × Except (List Trap) Nat) : Prop :=
  p.issues i h (instrDst i) s = true →
    (p.workers h = [] → ∃ t, exec i s = .next t ∧ p.wentOn t
      ∧ p.endsWith t (s.issued p h (instrDst i)) i ((p.active h).map fun l => (l.idx, 0)))
    ∧ ∀ s₁ v, p.workers h ≠ [] → f (s.issued p h (instrDst i)) p = (s₁, .ok v) →
      ∃ t, exec i s = .next t ∧ p.wentOn t ∧ p.endsWith t s₁ i ((p.active h).map fun l => (l.idx, v))

/-- The predicates that an instruction writes. -/
def writesPred (i : Instr) (n : BitVec 3) : Bool :=
  match i with
  | .iset _ _ _ o | .fset _ _ _ o | .dset _ _ _ o => o.pd == n
  | .iaddc po .. => po == n
  | .ptern _ _ pd .. | .elect _ pd | .vote (.all pd) .. | .vote (.any pd) .. | .vote (.eq pd) .. => pd == n
  | .v2p .. => true
  | _ => false

/-- The instructions that may raise floating-point exception bits when they issue (R17, R102). -/
def floats (i : Instr) : Bool :=
  match i with
  | .fadd .. | .fmul .. | .ffma .. | .fmin .. | .fmax .. | .fset .. | .fsetv .. | .frnd .. | .fclass .. | .fspec .. | .fscale ..
  | .hadd2 .. | .hmul2 .. | .hfma2 .. | .hmin2 .. | .hmax2 .. | .hset2 .. | .hdot2 .. | .dadd .. | .dmul .. | .dfma .. | .dmin ..
  | .dmax .. | .dset .. | .f2i .. | .i2f .. | .f2f .. | .qdiff .. | .gfold .. | .scan .. | .qpack .. => true
  | _ => false

/-- The instructions that compute a result per lane and write it when they issue: those of the ALU class but FSPEC, QUNPK and
CMPLD, the data exchanges of a group, and MFS. -/
def computes (i : Instr) : Bool :=
  match i with
  | .fspec .. | .qunpk .. | .cmpld .. => false
  | .vote .. | .xlane .. | .qdiff .. | .gfold .. | .scan .. | .rdlane .. | .matchLanes .. | .elect .. | .mfs .. => true
  | _ => i.cls == .alu

/-- What such an instruction leaves as it was: everything outside its packet's group, and in the group everything but its
destination, the names that kill bits unmap (R42), its completion flag (R35), the predicates and the exception bits that it writes,
and the lanes' places in the program. -/
def Pk.frame (p : Pk) (s t : State) (i : Instr) (h : Hdr) : Prop :=
  s.onlyGroup t p.iss.uid p.iss.grp ∧ ∃ g, p.grpNow t = some g
    ∧ g.idx = p.grp.idx ∧ g.role = p.grp.role ∧ g.core = p.grp.core ∧ g.quad = p.grp.quad ∧ g.slot = p.grp.slot
    ∧ g.cmpsel = p.grp.cmpsel ∧ g.floor = p.grp.floor ∧ g.fes = p.grp.fes
    ∧ (floats i = false → g.fpst = p.grp.fpst)
    ∧ (∀ n, (∀ d m, i.shape.dst = some d → d.spec = .s m → n < m.toNat ∨ m.toNat + d.w ≤ n) → g.sreg n = p.grp.sreg n)
    ∧ (∀ f, flagOf p.iss h.cf ≠ some f → g.flag f = p.grp.flag f)
    ∧ g.lanes.map (·.idx) = p.grp.lanes.map (·.idx)
    ∧ ∀ k l, p.grp.lane? k = some l → ∃ l', g.lane? k = some l'
      ∧ l'.rstack = l.rstack ∧ l'.spilled = l.spilled ∧ l'.helper = l.helper ∧ l'.park = l.park ∧ l'.cause = l.cause
      ∧ (∀ r, r ∉ instrDst i → r ∉ shapeKills i.shape → r ∉ p.iss.repKill → l'.vreg r = l.vreg r)
      ∧ (∀ n, writesPred i n = false → l'.pred n = l.pred n)
      ∧ (k ∉ p.iss.lanes → l'.pc = l.pc ∧ l'.preds = l.preds ∧ ∀ r, l'.vreg r = l.vreg r)

/-- An instruction completes: whenever nothing holds its issue back, it answers a next state in which every lane of the packet has
gone on and nothing has changed but what such an instruction writes. -/
def Pk.completes (p : Pk) (s : State) (i : Instr) (h : Hdr) : Prop :=
  p.issues i h (instrDst i) s = true → ∃ t, exec i s = .next t ∧ p.wentOn t ∧ p.frame s t i h

/-! ### Writes of BAR0 registers -/

/-- The register that a host's register event writes, with the data, when the data is of the event's kind (R209, R229, R317, R345,
R391, R429, R431, R433, R455, R465, R474, R479, R480, R482). -/
def hostWrite (i : Instr) : Option (Reg × Nat) :=
  let put (r : Reg) (d : Word) (mine : Bool) : Option (Reg × Nat) := if mine then some (r, d.toNat) else none
  match i with
  | .vsplitWrite d => put .vsplit d true
  | .mgovWrite d => put .mgov d (!d.getLsbD 31)
  | .mgovClearStalls d => put .mgov d (d.getLsbD 31)
  | .pwstatClear d => put .pwstat d (d.getLsbD 31)
  | .tlbShootdownPage d => put .tlbictl d (d.getLsbD 31 && nbits d.toNat 29 28 == 0)
  | .tlbShootdownRange d => put .tlbictl d (d.getLsbD 31 && nbits d.toNat 29 28 == 1)
  | .tlbShootdownContext d => put .tlbictl d (d.getLsbD 31 && nbits d.toNat 29 28 == 2)
  | .tlbShootdownAll d => put .tlbictl d (d.getLsbD 31 && nbits d.toNat 29 28 == 3)
  | .contextCreate d => put .ctxctl d (d.getLsbD 31 && nbits d.toNat 29 28 == 0)
  | .contextDestroy d => put .ctxctl d (d.getLsbD 31 && nbits d.toNat 29 28 == 1)
  | .hostResumeRec d => put .resctl d (d.getLsbD 31 && nbits d.toNat 29 28 == 0)
  | .hostResumeLaunch d => put .resctl d (d.getLsbD 31 && nbits d.toNat 29 28 == 1)
  | .channelPreempt c d => put (.chpre c) d (c < 16 && d.getLsbD 31)
  | .channelRelease c d => put (.chpre c) d (c < 16 && d.getLsbD 30)
  | .feedbackClearDrops k d => put (.fbstat k) d (k < 64 && d.getLsbD 30)
  | .headEnable h d => put (.hctl h) d (h < 4 && d.getLsbD 31)
  | .hstatClear h d => put (.hstat h) d (h < 4 && d.getLsbD 28)
  | .cntclrGddr => some (.cntclr, 1)
  | .cntclrCore => some (.cntclr, 2)
  | .cntclrInteg => some (.cntclr, 4)
  | .vfPointWrite d i w => put (.vf d i) w (d < 4 && i < 16)
  | .soundingClear u d => put (.sctl u) d (u < 32 && d.getLsbD 30)
  | .soundingRun u d => put (.sctl u) d (u < 32 && !d.getLsbD 30)
  | _ => none

end Sys2Proof.Machine
end

