-- ==== Sys2Proof/Certificates/Slice0/Obligations.lean ====
section
/-! DEFINITION. The statements about the machine that are to be proved. -/

open Sys2Proof Sys2Proof.Machine

/-! ### Instructions that compute a result per lane -/

/-- R76 to R78: the integer sums, products, minima and maxima. Every result is reduced to the destination's width; the saturating
forms stop at the bounds of their type. -/
def Obligations.IntegerArithmeticResults : Prop :=
  ∀ (s : State) (p : Pk), pk? s = some p →
    (∀ o : Op2, p.gives s (.iadd .wrap o) o.h o.d 1 fun l => p.x32 l o.imm o.a + p.x32 l o.imm o.b)
    ∧ (∀ o : Op2, p.gives s (.iadd .unsigned o) o.h o.d 1 fun l => min (p.x32 l o.imm o.a + p.x32 l o.imm o.b) (2 ^ 32 - 1))
    ∧ (∀ o : Op2, p.gives s (.iadd .signed o) o.h o.d 1 fun l =>
        lo32i (min (max (sg32 (p.x32 l o.imm o.a) + sg32 (p.x32 l o.imm o.b)) (-2 ^ 31)) (2 ^ 31 - 1)))
    ∧ (∀ o : Op2, p.gives s (.isub .wrap o) o.h o.d 1 fun l => p.x32 l o.imm o.a + 2 ^ 32 - p.x32 l o.imm o.b)
    ∧ (∀ o : Op2, p.gives s (.isub .unsigned o) o.h o.d 1 fun l => p.x32 l o.imm o.a - p.x32 l o.imm o.b)
    ∧ (∀ o : Op2, p.gives s (.isub .signed o) o.h o.d 1 fun l =>
        lo32i (min (max (sg32 (p.x32 l o.imm o.a) - sg32 (p.x32 l o.imm o.b)) (-2 ^ 31)) (2 ^ 31 - 1)))
    ∧ (∀ po h d a b pi imm, p.gives s (.iaddc po h d a b pi imm) h d 1 fun l =>
        p.x32 l imm a + p.x32 l imm b + (l.psrc pi).toNat)
    ∧ (∀ o : Op2, p.gives s (.imul o) o.h o.d 1 fun l => p.x32 l o.imm o.a * p.x32 l o.imm o.b)
    ∧ (∀ o : Op2, p.gives s (.imulh true o) o.h o.d 1 fun l => p.x32 l o.imm o.a * p.x32 l o.imm o.b / 2 ^ 32)
    ∧ (∀ o : Op2, p.gives s (.imulh false o) o.h o.d 1 fun l =>
        lo32i (sg32 (p.x32 l o.imm o.a) * sg32 (p.x32 l o.imm o.b) / 2 ^ 32))
    ∧ (∀ o : Op3, p.gives s (.imad o) o.h o.d 1 fun l =>
        p.x32 l o.imm o.a * p.x32 l o.imm o.b + p.x32 l o.imm o.c)
    ∧ (∀ o : Op3, p.gives s (.imadw true o) o.h o.d 2 fun l =>
        (p.x32 l o.imm o.a * p.x32 l o.imm o.b + p.x64 l o.imm o.c) % 2 ^ 64)
    ∧ (∀ o : Op3, p.gives s (.imadw false o) o.h o.d 2 fun l =>
        lo64i (sg32 (p.x32 l o.imm o.a) * sg32 (p.x32 l o.imm o.b) + sg64 (p.x64 l o.imm o.c)))
    ∧ (∀ o : Op2, p.gives s (.imin true o) o.h o.d 1 fun l => min (p.x32 l o.imm o.a) (p.x32 l o.imm o.b))
    ∧ (∀ o : Op2, p.gives s (.imax true o) o.h o.d 1 fun l => max (p.x32 l o.imm o.a) (p.x32 l o.imm o.b))
    ∧ (∀ o : Op2, p.gives s (.imin false o) o.h o.d 1 fun l =>
        lo32i (min (sg32 (p.x32 l o.imm o.a)) (sg32 (p.x32 l o.imm o.b))))
    ∧ (∀ o : Op2, p.gives s (.imax false o) o.h o.d 1 fun l =>
        lo32i (max (sg32 (p.x32 l o.imm o.a)) (sg32 (p.x32 l o.imm o.b))))
    ∧ (∀ o : Op1, p.gives s (.iabs false o) o.h o.d 1 fun l => (sg32 (p.x32 l o.imm o.a)).natAbs)
    ∧ (∀ o : Op1, p.gives s (.iabs true o) o.h o.d 1 fun l => min (sg32 (p.x32 l o.imm o.a)).natAbs (2 ^ 31 - 1))
    ∧ (∀ sat ua ub (o : Op3), p.gives s (.idp4 sat ua ub o) o.h o.d 1 fun l =>
        idp4 sat ua ub (p.x32 l o.imm o.a) (p.x32 l o.imm o.b) (p.x32 l o.imm o.c))
    ∧ (∀ o : Op3, p.gives s (.isad true o) o.h o.d 1 fun l =>
        natDist (p.x32 l o.imm o.a) (p.x32 l o.imm o.b) + p.x32 l o.imm o.c)
    ∧ (∀ o : Op3, p.gives s (.isad false o) o.h o.d 1 fun l =>
        (sg32 (p.x32 l o.imm o.a) - sg32 (p.x32 l o.imm o.b)).natAbs + p.x32 l o.imm o.c)
    ∧ (∀ o : Op2, p.gives s (.iadd64 o) o.h o.d 2 fun l => (p.x64 l o.imm o.a + p.x64 l o.imm o.b) % 2 ^ 64)
    ∧ (∀ o : Op2, p.gives s (.isub64 o) o.h o.d 2 fun l => (p.x64 l o.imm o.a + 2 ^ 64 - p.x64 l o.imm o.b) % 2 ^ 64)
    ∧ (∀ k (o : Op2), p.gives s (.lea k o) o.h o.d 1 fun l => p.x32 l o.imm o.a + p.x32 l o.imm o.b * 2 ^ k.toNat)
    ∧ (∀ k (o : Op2), p.gives s (.lea64 true k o) o.h o.d 2 fun l =>
        (p.x64 l o.imm o.a + p.x32 l o.imm o.b * 2 ^ k.toNat) % 2 ^ 64)
    ∧ (∀ k (o : Op2), p.gives s (.lea64 false k o) o.h o.d 2 fun l =>
        lo64i (p.x64 l o.imm o.a + sg32 (p.x32 l o.imm o.b) * 2 ^ k.toNat))

/-- R76, R77: the shifts, the bit-field and byte instructions, the bit counts, and the moves. A count of the width or more
shifts everything out, or, with `.w`, counts modulo 32. -/
def Obligations.ShiftAndFieldResults : Prop :=
  ∀ (s : State) (p : Pk), pk? s = some p →
    (∀ lut (o : Op3), p.gives s (.tern lut o) o.h o.d 1 fun l => bitsNat (fun j =>
        lut.getLsbD (((p.x32 l o.imm o.a).testBit j).toNat + 2 * ((p.x32 l o.imm o.b).testBit j).toNat
          + 4 * ((p.x32 l o.imm o.c).testBit j).toNat)) 32)
    ∧ (∀ w (o : Op2), p.gives s (.shl w o) o.h o.d 1 fun l =>
        p.x32 l o.imm o.a * 2 ^ (if w then p.x32 l o.imm o.b % 32 else min (p.x32 l o.imm o.b) 32))
    ∧ (∀ w (o : Op2), p.gives s (.shr w o) o.h o.d 1 fun l =>
        p.x32 l o.imm o.a / 2 ^ (if w then p.x32 l o.imm o.b % 32 else min (p.x32 l o.imm o.b) 32))
    ∧ (∀ w (o : Op2), p.gives s (.sar w o) o.h o.d 1 fun l =>
        lo32i (sg32 (p.x32 l o.imm o.a) / 2 ^ (if w then p.x32 l o.imm o.b % 32 else min (p.x32 l o.imm o.b) 31)))
    ∧ (∀ w (o : Op3), p.gives s (.shf true w o) o.h o.d 1 fun l =>
        (p.x32 l o.imm o.b * 2 ^ 32 + p.x32 l o.imm o.a)
          * 2 ^ (if w then p.x32 l o.imm o.c % 32 else min (p.x32 l o.imm o.c) 32) / 2 ^ 32)
    ∧ (∀ w (o : Op3), p.gives s (.shf false w o) o.h o.d 1 fun l =>
        (p.x32 l o.imm o.b * 2 ^ 32 + p.x32 l o.imm o.a)
          / 2 ^ (if w then p.x32 l o.imm o.c % 32 else min (p.x32 l o.imm o.c) 32))
    ∧ (∀ sg (o : Op2), p.gives s (.bfe sg o) o.h o.d 1 fun l => bfe sg (p.x32 l o.imm o.a) (p.x32 l o.imm o.b))
    ∧ (∀ o : Op3, p.gives s (.bfi o) o.h o.d 1 fun l => bfi (p.x32 l o.imm o.a) (p.x32 l o.imm o.b) (p.x32 l o.imm o.c))
    ∧ (∀ o : Op1, p.gives s (.popc o) o.h o.d 1 fun l =>
        ((List.range 32).filter fun j => (p.x32 l o.imm o.a).testBit j).length)
    ∧ (∀ o : Op1, p.gives s (.clz o) o.h o.d 1 fun l =>
        if p.x32 l o.imm o.a = 0 then 32 else 31 - Nat.log2 (p.x32 l o.imm o.a))
    ∧ (∀ o : Op1, p.gives s (.brev o) o.h o.d 1 fun l => bitsNat (fun j => (p.x32 l o.imm o.a).testBit (31 - j)) 32)
    ∧ (∀ o : Op3, p.gives s (.byperm o) o.h o.d 1 fun l =>
        byperm (p.x32 l o.imm o.a) (p.x32 l o.imm o.b) (p.x32 l o.imm o.c))
    ∧ (∀ o : Op2, p.gives s (.shl64 o) o.h o.d 2 fun l =>
        if p.x32 l o.imm o.b ≥ 64 then 0 else p.x64 l o.imm o.a * 2 ^ p.x32 l o.imm o.b % 2 ^ 64)
    ∧ (∀ o : Op2, p.gives s (.shr64 false o) o.h o.d 2 fun l =>
        if p.x32 l o.imm o.b ≥ 64 then 0 else p.x64 l o.imm o.a / 2 ^ p.x32 l o.imm o.b)
    ∧ (∀ o : Op2, p.gives s (.shr64 true o) o.h o.d 2 fun l =>
        lo64i (sg64 (p.x64 l o.imm o.a) / 2 ^ min (p.x32 l o.imm o.b) 63))
    ∧ (∀ o : Op1, p.gives s (.mov false o) o.h o.d 1 fun l => p.x32 l o.imm o.a)
    ∧ (∀ o : Op1, p.gives s (.mov true o) o.h o.d 2 fun l => p.x64 l o.imm o.a)
    ∧ (∀ h d a b pc imm, p.gives s (.sel h d a b pc imm) h d 1 fun l =>
        if l.psrc pc then p.x32 l imm a else p.x32 l imm b)

/-- R51, R78, R79, R108: the comparisons and the predicate instructions; IADDC with an s-register D computes one carry for its
packet (R41), and the exception bits of FSET and DSET join `fpst` (R17, R102). Where the manual leaves a point open, this is the
model's reading (log entry 12). -/
def Obligations.PredicateResults : Prop :=
  ∀ (s : State) (p : Pk), pk? s = some p →
    (∀ u cmp bop (o : OpCmp), p.givesPred s (.iset u cmp bop o) o.h o.pd fun l =>
        bopSel bop (icmp u cmp (p.x32 l o.imm o.a) (p.x32 l o.imm o.b)) (o.pc.map l.psrc))
    ∧ (∀ u cmp (o : Op2), p.gives s (.isetv u cmp o) o.h o.d 1 fun l =>
        if icmp u cmp (p.x32 l o.imm o.a) (p.x32 l o.imm o.b) then 0xFFFFFFFF else 0)
    ∧ (∀ cmp bop m (o : OpCmp), p.givesPredFp s (.fset cmp bop m o) o.h o.pd fun l =>
        let t := fp32.test cmp (FMod.a m fp32 (p.x32 l o.imm o.a)) (FMod.b m fp32 (p.x32 l o.imm o.b))
        (bopSel bop t.1 (o.pc.map l.psrc), t.2))
    ∧ (∀ cmp bop m (o : OpCmp), p.givesPredFp s (.dset cmp bop m o) o.h o.pd fun l =>
        let t := fp64.test cmp (FMod.a m fp64 (p.x64 l o.imm o.a)) (FMod.b m fp64 (p.x64 l o.imm o.b))
        (bopSel bop t.1 (o.pc.map l.psrc), t.2))
    ∧ (∀ lut h pd pa pb pc, p.givesPred s (.ptern lut h pd pa pb pc) h pd fun l =>
        lut.getLsbD ((l.psrc pa).toNat + 2 * (l.psrc pb).toNat + 4 * (l.psrc pc).toNat))
    ∧ (∀ h d, p.gives s (.p2v h d) h d 1 fun l => l.preds.toNat)
    ∧ (∀ h a b imm (n : BitVec 3), n ≠ 7 → p.givesPred s (.v2p h a b imm) h n fun l =>
        if (p.x32 l imm b).testBit n.toNat then (p.x32 l imm a).testBit n.toNat else l.pred n)
    ∧ (∀ po h d a b pi imm, p.givesPred s (.iaddc po h d a b pi imm) h po fun l =>
        let j := if d.isS then ((p.active h).head?).getD l else l
        p.x32 j imm a + p.x32 j imm b + (j.psrc pi).toNat ≥ 2 ^ 32)

/-- R103 to R108: the binary32 instructions: the sign modifiers on the operands, one rounding of the exact result, saturation,
and the exception bits ORed into `fpst`. -/
def Obligations.Binary32Results : Prop :=
  ∀ (s : State) (p : Pk), pk? s = some p →
    (∀ m (o : Op2), p.givesFp s (.fadd m o) o.h o.d 1 fun l =>
        fp32.sat m.sat (fp32.add m.rnd (fp32.val (FMod.a m fp32 (p.x32 l o.imm o.a))) (fp32.val (FMod.b m fp32 (p.x32 l o.imm o.b)))))
    ∧ (∀ m (o : Op2), p.givesFp s (.fmul m o) o.h o.d 1 fun l =>
        fp32.sat m.sat (fp32.mul m.rnd (fp32.val (FMod.a m fp32 (p.x32 l o.imm o.a))) (fp32.val (FMod.b m fp32 (p.x32 l o.imm o.b)))))
    ∧ (∀ m (o : Op3), p.givesFp s (.ffma m o) o.h o.d 1 fun l =>
        fp32.sat m.sat (fp32.fma m.rnd (fp32.val (FMod.a m fp32 (p.x32 l o.imm o.a)))
          (fp32.val (FMod.b m fp32 (p.x32 l o.imm o.b))) (fp32.val (FMod.c m fp32 (p.x32 l o.imm o.c)))))
    ∧ (∀ m (o : Op2), p.givesFp s (.fmin m o) o.h o.d 1 fun l =>
        fp32.sat m.sat (fp32.minMax false (FMod.a m fp32 (p.x32 l o.imm o.a)) (FMod.b m fp32 (p.x32 l o.imm o.b))))
    ∧ (∀ m (o : Op2), p.givesFp s (.fmax m o) o.h o.d 1 fun l =>
        fp32.sat m.sat (fp32.minMax true (FMod.a m fp32 (p.x32 l o.imm o.a)) (FMod.b m fp32 (p.x32 l o.imm o.b))))
    ∧ (∀ cmp m (o : Op2), p.givesFp s (.fsetv cmp m o) o.h o.d 1 fun l =>
        let t := fp32.test cmp (FMod.a m fp32 (p.x32 l o.imm o.a)) (FMod.b m fp32 (p.x32 l o.imm o.b))
        fp32.sat m.sat ⟨if t.1 then 0xFFFFFFFF else 0, t.2⟩)
    ∧ (∀ m (o : Op1), p.givesFp s (.frnd m o) o.h o.d 1 fun l =>
        fp32.toIntegral m.rnd (FMod.a m fp32 (p.x32 l o.imm o.a)))
    ∧ (∀ fmt (o : Op1), p.givesFp s (.fclass fmt o) o.h o.d 1 fun l =>
        Res.of (2 ^ (fmtOf fmt).cls (if fmt = .f64 then p.x64 l o.imm o.a
          else p.x32 l o.imm o.a % 2 ^ (1 + (fmtOf fmt).eb + (fmtOf fmt).mb))))
    ∧ (∀ m (o : Op2), p.givesFp s (.fscale m o) o.h o.d 1 fun l =>
        fp32.sat m.sat (fp32.scale m.rnd (FMod.a m fp32 (p.x32 l o.imm o.a)) (sg32 (p.x32 l o.imm o.b))))

/-- R109, R110, R111: the paired halves, each half computed as the binary32 instructions compute theirs, HDOT2 with one rounding
of its exact sum, and the binary64 instructions. Where the manual leaves a point open, this is the model's reading (log entry
17). -/
def Obligations.HalfAndDoubleResults : Prop :=
  ∀ (s : State) (p : Pk), pk? s = some p →
    (∀ m (o : Op2), p.givesFp s (.hadd2 m o) o.h o.d 1 fun l => halves fun k =>
        (FMod.half m).sat m.sat ((FMod.half m).add m.rnd ((FMod.half m).val (FMod.a m (FMod.half m) (halfOf (p.x32 l o.imm o.a) k)))
          ((FMod.half m).val (FMod.b m (FMod.half m) (halfOf (p.x32 l o.imm o.b) k)))))
    ∧ (∀ m (o : Op2), p.givesFp s (.hmul2 m o) o.h o.d 1 fun l => halves fun k =>
        (FMod.half m).sat m.sat ((FMod.half m).mul m.rnd ((FMod.half m).val (FMod.a m (FMod.half m) (halfOf (p.x32 l o.imm o.a) k)))
          ((FMod.half m).val (FMod.b m (FMod.half m) (halfOf (p.x32 l o.imm o.b) k)))))
    ∧ (∀ m (o : Op3), p.givesFp s (.hfma2 m o) o.h o.d 1 fun l => halves fun k =>
        (FMod.half m).sat m.sat ((FMod.half m).fma m.rnd ((FMod.half m).val (FMod.a m (FMod.half m) (halfOf (p.x32 l o.imm o.a) k)))
          ((FMod.half m).val (FMod.b m (FMod.half m) (halfOf (p.x32 l o.imm o.b) k)))
          ((FMod.half m).val (FMod.c m (FMod.half m) (halfOf (p.x32 l o.imm o.c) k)))))
    ∧ (∀ m (o : Op2), p.givesFp s (.hmin2 m o) o.h o.d 1 fun l => halves fun k =>
        (FMod.half m).sat m.sat ((FMod.half m).minMax false (FMod.a m (FMod.half m) (halfOf (p.x32 l o.imm o.a) k)) (FMod.b m (FMod.half m) (halfOf (p.x32 l o.imm o.b) k))))
    ∧ (∀ m (o : Op2), p.givesFp s (.hmax2 m o) o.h o.d 1 fun l => halves fun k =>
        (FMod.half m).sat m.sat ((FMod.half m).minMax true (FMod.a m (FMod.half m) (halfOf (p.x32 l o.imm o.a) k)) (FMod.b m (FMod.half m) (halfOf (p.x32 l o.imm o.b) k))))
    ∧ (∀ cmp m (o : Op2), p.givesFp s (.hset2 cmp m o) o.h o.d 1 fun l => halves fun k =>
        let t := (FMod.half m).test cmp (FMod.a m (FMod.half m) (halfOf (p.x32 l o.imm o.a) k)) (FMod.b m (FMod.half m) (halfOf (p.x32 l o.imm o.b) k))
        (FMod.half m).sat m.sat ⟨if t.1 then 0xFFFF else 0, t.2⟩)
    ∧ (∀ m (o : Op3), p.givesFp s (.hdot2 m o) o.h o.d 1 fun l =>
        let a (k : Nat) := (FMod.half m).val (FMod.a m (FMod.half m) (halfOf (p.x32 l o.imm o.a) k))
        let b (k : Nat) := (FMod.half m).val (FMod.b m (FMod.half m) (halfOf (p.x32 l o.imm o.b) k))
        fp32.sat m.sat (hdot2 m.rnd (a 0) (b 0) (a 1) (b 1) (fp32.val (FMod.c m fp32 (p.x32 l o.imm o.c)))))
    ∧ (∀ m (o : Op2), p.givesFp s (.dadd m o) o.h o.d 2 fun l =>
        fp64.sat m.sat (fp64.add m.rnd (fp64.val (FMod.a m fp64 (p.x64 l o.imm o.a))) (fp64.val (FMod.b m fp64 (p.x64 l o.imm o.b)))))
    ∧ (∀ m (o : Op2), p.givesFp s (.dmul m o) o.h o.d 2 fun l =>
        fp64.sat m.sat (fp64.mul m.rnd (fp64.val (FMod.a m fp64 (p.x64 l o.imm o.a))) (fp64.val (FMod.b m fp64 (p.x64 l o.imm o.b)))))
    ∧ (∀ m (o : Op3), p.givesFp s (.dfma m o) o.h o.d 2 fun l =>
        fp64.sat m.sat (fp64.fma m.rnd (fp64.val (FMod.a m fp64 (p.x64 l o.imm o.a)))
          (fp64.val (FMod.b m fp64 (p.x64 l o.imm o.b))) (fp64.val (FMod.c m fp64 (p.x64 l o.imm o.c)))))
    ∧ (∀ m (o : Op2), p.givesFp s (.dmin m o) o.h o.d 2 fun l =>
        fp64.sat m.sat (fp64.minMax false (FMod.a m fp64 (p.x64 l o.imm o.a)) (FMod.b m fp64 (p.x64 l o.imm o.b))))
    ∧ (∀ m (o : Op2), p.givesFp s (.dmax m o) o.h o.d 2 fun l =>
        fp64.sat m.sat (fp64.minMax true (FMod.a m fp64 (p.x64 l o.imm o.a)) (FMod.b m fp64 (p.x64 l o.imm o.b))))

/-- R101, R102, R114: the conversions, each rounded once and clamped to its destination as the type says; a 16-bit source reads the half
that `.h` selects; FSPEC aside, the exception bits join `fpst`. -/
def Obligations.ConversionResults : Prop :=
  ∀ (s : State) (p : Pk), pk? s = some p →
    (∀ rnd sf dt hi (o : Op1), p.givesFp s (.f2i rnd sf dt hi o) o.h o.d dt.regs fun l =>
        f2i rnd sf dt (floatSrc sf hi (if sf = .f64 then p.x64 l o.imm o.a else p.x32 l o.imm o.a)))
    ∧ (∀ rnd ty df (o : Op1), p.givesFp s (.i2f rnd ty df o) o.h o.d df.regs fun l =>
        i2f rnd ty df (if ty.regs = 2 then p.x64 l o.imm o.a else p.x32 l o.imm o.a))
    ∧ (∀ rnd sf df hi (o : Op1), p.givesFp s (.f2f rnd sf df hi o) o.h o.d df.regs fun l =>
        f2f rnd sf df (floatSrc sf hi (if sf = .f64 then p.x64 l o.imm o.a else p.x32 l o.imm o.a)))
    ∧ (∀ ty dt sat (o : Op1), p.givesFp s (.i2i ty dt sat o) o.h o.d dt.regs fun l =>
        Res.of (i2i ty dt sat (if ty.regs = 2 then p.x64 l o.imm o.a else p.x32 l o.imm o.a)))

/-- R101: a magnitude rounded to a multiple of 2^q: to nearest, no multiple is nearer and a tie takes the even one; toward
zero, up and down, it is the multiple on that side of the value. R98, R101: a finite value that a format holds rounds to its
own bits in every rounding mode and raises nothing. -/
def Obligations.RoundingOfExactValues : Prop :=
  (∀ (m sh : Nat) (e : Int), 0 < sh →
    (∀ neg, let n := (roundAt .rn neg m e false (e + sh)).1
      2 * natDist (n * 2 ^ sh) m ≤ 2 ^ sh ∧ (2 * natDist (n * 2 ^ sh) m = 2 ^ sh → n % 2 = 0))
    ∧ (∀ neg, let n := (roundAt .rz neg m e false (e + sh)).1
      n * 2 ^ sh ≤ m ∧ m < (n + 1) * 2 ^ sh)
    ∧ (let n := (roundAt .ru false m e false (e + sh)).1
      m ≤ n * 2 ^ sh ∧ n * 2 ^ sh < m + 2 ^ sh)
    ∧ (let n := (roundAt .ru true m e false (e + sh)).1
      n * 2 ^ sh ≤ m ∧ m < (n + 1) * 2 ^ sh)
    ∧ (let n := (roundAt .rd true m e false (e + sh)).1
      m ≤ n * 2 ^ sh ∧ n * 2 ^ sh < m + 2 ^ sh)
    ∧ (let n := (roundAt .rd false m e false (e + sh)).1
      n * 2 ^ sh ≤ m ∧ m < (n + 1) * 2 ^ sh))
  ∧ (∀ (f : FpFmt) (rnd : Rnd) (bits : Nat) (neg : Bool) (m : Nat) (e : Int),
    f = fp32 ∨ f = fp64 ∨ f = fp16 ∨ f = bf16 → bits < 2 * f.signBit → f.val bits = .fin neg m e → m ≠ 0 →
      f.round rnd neg m e = ⟨bits, 0⟩)

/-! ### Block formats and group instructions -/

/-- R170, R171, R175 to R180: the block-format instructions, whenever the compander table serves the format and the operands
pass their checks: QPACK quantises each block of 16 lanes, absent lanes counting as 0, and ORs the exception bits of all 16
blocks into `fpst`; when rounding is stochastic it advances the seed of its quadrant once, and no other, and takes its random
numbers from it; QUNPK expands one code; QSCAL gathers scale bytes; CMPLD installs a table of the context. Where the
manual leaves a point open, this is the model's reading (log entry 35). -/
def Obligations.BlockFormatResults : Prop :=
  ∀ (s : State) (p : Pk), pk? s = some p →
    (∀ fmt sr pk ct (o : Op1), (s.tableFor p (ctNum ct p.grp)).serves fmt = true →
      let c := s.tableFor p (ctNum ct p.grp)
      let x := if sr then advanceSeed (s.seed p.grp.quadNo) else s.seed p.grp.quadNo
      let val (k : Nat) : Nat × Option Nat :=
        ((((p.active o.h).find? (·.idx == k)).map fun l => p.x32 l o.imm o.a).getD 0, if sr then some (laneRandom x k) else none)
      let block (b : Nat) := quantise c fmt ((List.range 16).map fun e => val (16 * b + e))
      p.issues (.qpack fmt sr pk ct o) o.h (instrDst (.qpack fmt sr pk ct o)) s = true →
      ∃ t, exec (.qpack fmt sr pk ct o) s = .next t ∧ p.wentOn t
        ∧ ((∀ l ∈ p.grp.lanes, l.idx < 256) →
            p.wrote t o.h o.d 1 fun l => (block (l.idx / 16)).laneWord fmt pk (l.idx % 16))
        ∧ t.fpstOf p.iss.uid p.iss.grp = (List.range 16).foldl (fun a b => a ||| (block b).fp) p.grp.fpst
        ∧ t.seed p.grp.quadNo = x ∧ ∀ q, q ≠ p.grp.quadNo → t.seed q = s.seed q)
    ∧ (∀ fmt ct (o : Op3), (s.tableFor p (ctNum ct p.grp)).serves fmt = true →
      p.gives s (.qunpk fmt ct o) o.h o.d 1 fun l =>
        qunpk (s.tableFor p (ctNum ct p.grp)) fmt (p.x32 l o.imm o.a) (p.x32 l o.imm o.b) (p.x32 l o.imm o.c))
    ∧ (∀ mu sel (o : Op2) l0 src, p.lanes.head? = some l0 → p.x32 l0 o.imm o.b % 16 = 0 → p.x32 l0 o.imm o.b ≤ 240 →
      p.issues (.qscal mu sel o) o.h (instrDst (.qscal mu sel o)) s = true →
      ∃ t, exec (.qscal mu sel o) s = .next t ∧ p.wentOn t
        ∧ ∀ n l, o.d = .v n → p.actsOn o.h l → p.actsOn o.h src → n.toNat ∉ p.iss.repKill →
          p.x32 l0 o.imm o.b ≤ l.idx → l.idx < p.x32 l0 o.imm o.b + 16 → src.idx = 16 * (l.idx - p.x32 l0 o.imm o.b) →
          (t.vregOf p.iss.uid p.iss.grp l.idx n.toNat).toNat / 2 ^ (8 * sel.toNat) % 256
            = p.x32 src o.imm o.a / 2 ^ (if mu then 16 else 8) % 256)
    ∧ (∀ kind tbl h a b l0, p.lanes.head? = some l0 → p.active h ≠ [] → cmpldChk h kind a b p = [] →
      p.issues (.cmpld kind tbl h a b) h [] s = true →
      ∃ t, exec (.cmpld kind tbl h a b) s = .next t ∧ p.wentOn t
        ∧ ∀ c, s.ctx? p.team.ctx = some c → ∃ c', t.ctx? p.team.ctx = some c'
          ∧ tgetD c'.tables tbl.toNat {} = ⟨kind, if kind = .lin then [] else p.read128 l0 a.spec ++ p.read128 l0 b.spec⟩
          ∧ ∀ k, k ≠ tbl.toNat → tgetD c'.tables k {} = tgetD c.tables k {})

/-- R145 to R152: the data exchanges of a group. A lane that a vote, a shuffle or a fold reads takes part when it is active. QDIFF,
GFOLD and SCAN in binary32 OR the exception bits of their rounding steps into `fpst` (R17, R102). The value of a GFOLD is that of the
lane positions 0 to 255: no lane of a group has another number (R12, R122). That RDLANE takes its B from the lowest active lane is
the model's reading (log entry 12). -/
def Obligations.GroupExchangeResults : Prop :=
  ∀ (s : State) (p : Pk), pk? s = some p →
    (∀ pd h pa, p.givesPred s (.vote (.all pd) h pa) h pd fun _ => (p.active h).all (·.psrc pa))
    ∧ (∀ pd h pa, p.givesPred s (.vote (.any pd) h pa) h pd fun _ => (p.active h).any (·.psrc pa))
    ∧ (∀ pd h pa, p.givesPred s (.vote (.eq pd) h pa) h pd fun _ =>
        (p.active h).all (·.psrc pa) || (p.active h).all (! ·.psrc pa))
    ∧ (∀ d b imm h pa, p.gives s (.vote (.ballot d b imm) h pa) h d 1 fun l => bitsNat (fun n =>
        (p.active h).any fun j => j.idx == 32 * (p.x32 l imm b % 8) + n && j.psrc pa) 32)
    ∧ (∀ mode seg (o : Op2), p.gives s (.xlane mode seg o) o.h o.d 1 fun l =>
        let w := 2 ^ (seg.val + 2)
        let b := p.x32 l o.imm o.b
        let i := l.idx % w
        let src : Option Nat := match mode with
          | .at => some (l.idx - i + b % w)
          | .back => if b ≤ i then some (l.idx - b) else none
          | .fwd => if i + b < w then some (l.idx + b) else none
          | .xor => some (l.idx - i + (b ^^^ i) % 256 % w)
        p.x32 ((src.bind fun k => (p.active o.h).find? (·.idx == k)).getD l) o.imm o.a)
    ∧ (∀ rnd y crs (o : Op1), p.givesFp s (.qdiff rnd y crs o) o.h o.d 1 fun l =>
        match (p.active o.h).find? (·.idx == (qdiffPair y crs l.idx).1), (p.active o.h).find? (·.idx == (qdiffPair y crs l.idx).2) with
        | some a, some b => (fp32.add rnd (fp32.val (p.x32 b o.imm o.a)) (fp32.val (fp32.mods false true (p.x32 a o.imm o.a))))
        | _, _ => .of 0)
    ∧ (∀ op ty (o : Op1), (∀ l ∈ p.grp.lanes, l.idx < 256) → p.givesFp s (.gfold op ty o) o.h o.d 1 fun _ =>
        (foldTree op ty ((List.range 256).map fun k =>
          ((p.active o.h).find? (·.idx == k)).map fun l => Res.of (p.x32 l o.imm o.a)) 8).getD (.of 0))
    ∧ (∀ op ty exc (o : Op1), p.issues (.scan op ty exc o) o.h (instrDst (.scan op ty exc o)) s = true →
        let r := scanLanes op ty exc none ((p.active o.h).map fun j => (j.idx, p.x32 j o.imm o.a))
        ∃ t, exec (.scan op ty exc o) s = .next t ∧ p.wentOn t
          ∧ p.wrote t o.h o.d 1 (fun l => ((r.1.find? (·.1 == l.idx)).map (·.2)).getD 0)
          ∧ t.fpstOf p.iss.uid p.iss.grp = p.grp.fpst ||| (r.2.map (·.fp)).getD 0)
    ∧ (∀ o : Op2, p.gives s (.rdlane o) o.h o.d 1 fun l =>
        let b := ((p.active o.h).head?.map fun j => p.x32 j o.imm o.b).getD 0
        p.x32 (((p.active o.h).find? (·.idx == b % 256)).getD l) o.imm o.a)
    ∧ (∀ w (o : Op1), p.gives s (.matchLanes true w o) o.h o.d 1 fun l =>
        ((p.active o.h).filter fun j => (if w then p.x64 j o.imm o.a else p.x32 j o.imm o.a)
          == (if w then p.x64 l o.imm o.a else p.x32 l o.imm o.a)).length)
    ∧ (∀ w (o : Op1), p.gives s (.matchLanes false w o) o.h o.d 1 fun l =>
        ((((p.active o.h).filter fun j => (if w then p.x64 j o.imm o.a else p.x32 j o.imm o.a)
          == (if w then p.x64 l o.imm o.a else p.x32 l o.imm o.a)).head?).map (·.idx)).getD l.idx)
    ∧ (∀ h pd, p.givesPred s (.elect h pd) h pd fun l =>
        ((((p.active h).find? (! ·.helper)).or (p.active h).head?).map (·.idx)) == some l.idx)

/-- R131, R145, R148 to R152: the votes, shuffles, quad differences, folds, scans and matches of a group complete: in any state in
which such an instruction issues, one that the whole group has gathered at, it answers a next state; every lane of its packet has gone
on, and nothing outside its destination, its completion flag and the exception bits has changed. -/
def Obligations.GroupExchangesComplete : Prop :=
  ∀ (s : State) (p : Pk), pk? s = some p →
    (∀ form h pa, p.completes s (.vote form h pa) h)
    ∧ (∀ mode seg (o : Op2), p.completes s (.xlane mode seg o) o.h)
    ∧ (∀ rnd y crs (o : Op1), p.completes s (.qdiff rnd y crs o) o.h)
    ∧ (∀ op ty (o : Op1), p.completes s (.gfold op ty o) o.h)
    ∧ (∀ op ty exc (o : Op1), p.completes s (.scan op ty exc o) o.h)
    ∧ (∀ cnt w (o : Op1), p.completes s (.matchLanes cnt w o) o.h)

/-! ### Control -/

/-- R56, R80, R84, R85: the transfers. Each active lane whose target passes its checks stands at its target, a call has pushed
the PC in sequence, a return has popped one; the other lanes of the packet have gone on in sequence. R20, R25, R26: a transfer
into a line that is in order traps exactly when its PC is malformed or its slot is no target, and the lane then waits for the
line's WAIT flags; a line whose check or line word fails ends the transfer with ILLINE, and one that cannot be fetched does not;
whatever the line, a malformed target is BRTGT with the target as ADDR. Where the manual leaves a point open,
this is the model's reading (log entry 11). -/
def Obligations.Transfers : Prop :=
  (∀ (s : State) (p : Pk), pk? s = some p →
    (∀ h loff tslot, p.issues (.bra h loff tslot) h [] s = true →
      p.transferTraps s h (jumpTo fun p _ => directTarget p.iss.pc loff tslot) = [] →
      ∃ t, exec (.bra h loff tslot) s = .next t ∧ ∀ l, p.sole l → ∃ l', p.now t l.idx = some l'
        ∧ l'.pc = (if l.guard h then directTarget p.iss.pc loff tslot else (l.advance p.iss).pc)
        ∧ l'.rstack = l.rstack ∧ l'.spilled = l.spilled)
    ∧ (∀ h t₀, p.issues (.brx h t₀) h [] s = true →
      p.transferTraps s h (jumpTo fun p l => p.read64 l 0 t₀.spec) = [] →
      ∃ t, exec (.brx h t₀) s = .next t ∧ ∀ l, p.sole l → ∃ l', p.now t l.idx = some l'
        ∧ l'.pc = (if l.guard h then p.read64 l 0 t₀.spec else (l.advance p.iss).pc)
        ∧ l'.rstack = l.rstack ∧ l'.spilled = l.spilled)
    ∧ (∀ h loff tslot, p.issues (.call h loff tslot) h [] s = true →
      p.transferTraps s h (callTo (.call h loff tslot) fun p _ => directTarget p.iss.pc loff tslot) = [] →
      ∃ t, exec (.call h loff tslot) s = .next t ∧ ∀ l, p.sole l → ∃ l', p.now t l.idx = some l'
        ∧ (l.guard h = false → l'.pc = (l.advance p.iss).pc ∧ l'.rstack = l.rstack ∧ l'.spilled = l.spilled)
        ∧ (l.guard h = true → l'.pc = directTarget p.iss.pc loff tslot
          ∧ l'.rstack = nextPc p.iss.pc :: l.rstack.take (if l.rstack.length < 4 then 4 else 3)
          ∧ l'.spilled = l.spilled + if l.rstack.length < 4 then 0 else 1))
    ∧ (∀ h t₀, p.issues (.callx h t₀) h [] s = true →
      p.transferTraps s h (callTo (.callx h t₀) fun p l => p.read64 l 0 t₀.spec) = [] →
      ∃ t, exec (.callx h t₀) s = .next t ∧ ∀ l, p.sole l → ∃ l', p.now t l.idx = some l'
        ∧ (l.guard h = false → l'.pc = (l.advance p.iss).pc ∧ l'.rstack = l.rstack ∧ l'.spilled = l.spilled)
        ∧ (l.guard h = true → l'.pc = p.read64 l 0 t₀.spec
          ∧ l'.rstack = nextPc p.iss.pc :: l.rstack.take (if l.rstack.length < 4 then 4 else 3)
          ∧ l'.spilled = l.spilled + if l.rstack.length < 4 then 0 else 1))
    ∧ (∀ h, p.issues (.ret h) h [] s = true → p.transferTraps s h retLane = [] →
      ∃ t, exec (.ret h) s = .next t ∧ ∀ l, p.sole l → ∃ l', p.now t l.idx = some l'
        ∧ (l.guard h = false → l'.pc = (l.advance p.iss).pc ∧ l'.rstack = l.rstack ∧ l'.spilled = l.spilled)
        ∧ (l.guard h = true → ∀ pc rest, l.rstack = pc :: rest → l'.pc = pc
          ∧ (rest ≠ [] ∨ l.spilled = 0 → l'.rstack = rest ∧ l'.spilled = l.spilled)
          ∧ (rest = [] → 0 < l.spilled → l'.rstack.length = 1 ∧ l'.spilled = l.spilled - 1))
        ∧ (l.guard h = true → l.rstack = [] → 0 < l.spilled ∧ l'.rstack = [] ∧ l'.spilled = l.spilled - 1)))
  ∧ (∀ (s : State) (p : Pk) (lane : Nat) (pc : Dword),
    (pcMalformed pc = true → (s.target p lane pc).2 = .error { lane := lane, cause := cBRTGT, addr := pc })
    ∧ (∀ s' l, pcMalformed pc = false → enterLine s p.grp.core p.team.ctx pc = (s', .ok l) →
        s.target p lane pc = (s'.lineSeen p.iss.uid p.iss.grp pc l, if (lineWord l).getLsbD (20 + pc.toNat % 8) then .ok (.waiting true, some l)
          else .error { lane := lane, cause := cBRTGT, addr := pc }))
    ∧ (∀ s' c, pcMalformed pc = false → enterLine s p.grp.core p.team.ctx pc = (s', .error c) →
        s.target p lane pc = (s', if c = cILLINE then .error { lane := lane, cause := cILLINE, pc := some pc }
          else .ok (.fresh true, none)))
    ∧ (∀ i tgt l, l.rstack.length ≥ 4 → p.spillMisaligned = false → p.spillCap ≤ l.spilled → canonical (nextPc p.iss.pc) = true →
        (∃ s' e, s.target p l.idx (tgt p l) = (s', .ok e)) →
        ∃ s', callTo i tgt s p l = (s', .error { lane := l.idx, cause := cSTACKOVF }))
    ∧ (∀ l, l.rstack = [] → l.spilled = 0 → retLane s p l = (s, .error { lane := l.idx, cause := cSTACKOVF })))

/-- R87, R88, R153 to R155: the other control instructions. NOP and YIELD go on, YIELD remembering its active lanes; EXIT
takes its active lanes out of the group; a CONV that all of the group has reached, the other lanes parked at it since earlier
packets, lets all of it go on; one that some lane has still to reach parks its active lanes; and when the whole group stands at
CONVs of differing PCs every lane traps with ILLCONV, its PC at its own CONV (R154); TRAP and BKPT take their trap in every active lane. Where the manual leaves a point
open, this is the model's reading (log entry 32). -/
def Obligations.ControlInstructionEffects : Prop :=
  ∀ (s : State) (p : Pk), pk? s = some p →
    (∀ h, p.issues (.nop h) h [] s = true → ∃ t, exec (.nop h) s = .next t ∧ p.wentOn t)
    ∧ (∀ h, p.issues (.yield h) h [] s = true → ∃ t, exec (.yield h) s = .next t ∧ p.wentOn t
        ∧ ∃ g, p.grpNow t = some g ∧ g.yielded = (p.active h).map (·.idx))
    ∧ (∀ h, p.issues (.exit h) h [] s = true → ∃ t, exec (.exit h) s = .next t
        ∧ (p.active h = [] → p.wentOn t) ∧ ∀ l ∈ p.active h, p.now t l.idx = none)
    ∧ (∀ h, p.issues (.conv h) h [] s = true → ∃ t, exec (.conv h) s = .next t
        ∧ ((∀ l ∈ p.grp.lanes, p.atConv h l ∧ l.pc = p.iss.pc) →
            ∀ l ∈ p.grp.lanes, ∃ l', p.now t l.idx = some l' ∧ l'.pc = nextPc p.iss.pc ∧ l'.park = none)
        ∧ (∀ l0, (∀ l ∈ p.grp.lanes, p.atConv h l) → p.grp.lanes.head? = some l0 → (∃ l ∈ p.grp.lanes, l.pc ≠ l0.pc) →
            ∃ s₁, (s.issued p h []).onlyGroup s₁ p.iss.uid p.iss.grp
              ∧ (∃ g, p.grpNow s₁ = some g ∧ g.lanes.map (fun l => (l.idx, l.pc)) = p.grp.lanes.map fun l => (l.idx, l.pc))
              ∧ t = takeTraps s₁ p.iss.uid p.iss.grp l0.pc (p.grp.lanes.map fun l => { lane := l.idx, cause := cILLCONV }))
        ∧ ((∃ j ∈ p.grp.lanes, (∀ l ∈ p.active h, l.idx ≠ j.idx) ∧ ∀ c, j.park ≠ some (.conv, c)) →
            ∀ l, p.sole l → l.guard h = true → ∃ l', p.now t l.idx = some l' ∧ l'.park = some (.conv, s.coreCyc p.grp.core) ∧ l'.pc = l.pc))
    ∧ (∀ h code, p.issues (.trap h code) h [] s = true → exec (.trap h code) s =
        .next (takeTraps ((s.issued p h []).advance p ((p.lanes.filter (!·.guard h)).map (·.idx))) p.iss.uid p.iss.grp p.iss.pc
          (sortTraps ((p.active h).map fun l => { lane := l.idx, cause := cTRAPI, code := code.toNat }))))
    ∧ (∀ h, p.issues (.bkpt h) h [] s = true → exec (.bkpt h) s =
        .next (takeTraps ((s.issued p h []).advance p ((p.lanes.filter (!·.guard h)).map (·.idx))) p.iss.uid p.iss.grp p.iss.pc
          (sortTraps ((p.active h).map fun l => { lane := l.idx, cause := cBKPT }))))

/-- R89 to R92: a REP whose checks pass leaves the governed instruction of its lanes' iteration k to issue next, each selected
register field moved on by k strides, and the lanes remember the count; when no iteration is left the lanes go past the governed
instruction. Where the manual leaves a point open, this is the model's reading (log entry 33). -/
def Obligations.RepeatPrefix : Prop :=
  ∀ (s : State) (p : Pk), pk? s = some p →
    ∀ h n stride mask w N k, p.iss.seqBad = false → encFault (.rep h n stride mask) p.iss = none → p.iss.next = some w →
      opGoverned (Raw.unpack w).op.toNat = true → repOk w stride.toNat mask N = true → p.lanes ≠ [] →
      (∀ l ∈ p.lanes, l.inRep h = true ∧ p.repCount l n = N ∧ l.rep = k) →
      (∀ i, k < N → decode (repShift w mask (k * stride.toNat)) = .ok i →
        ∃ t, exec (.rep h n stride mask) s = .next t
          ∧ t.repNext = some ({ p.iss with lanes := p.lanes.map (·.idx), rep := some p.iss.pc,
                                           repKill := shapeKills (Instr.rep h n stride mask).shape }, i)
          ∧ ∀ l, p.sole l → ∃ l', p.now t l.idx = some l' ∧ l'.repN = some N ∧ l'.pc = l.pc)
      ∧ (N ≤ k → canonical (nextPc (p.iss.pc + 1)) = true → ∃ t, exec (.rep h n stride mask) s = .next t
          ∧ ∀ l, p.sole l → ∃ l', p.now t l.idx = some l' ∧ l'.pc = nextPc (l.pc + 1) ∧ l'.rep = 0)

/-! ### Barriers, special registers and register capacity -/

/-- R156 to R158: the barrier instructions on a barrier that passes R157's checks. With a count C other than 0 the arrival that reaches C
completes the generation, with the count 0 the one after which every live group has arrived; before it `.sync` parks the group and
`.arrive` goes on. A pending arrival makes all three forms park and counts once; without one `.wait` goes on. R158: a barrier with a
count completes exactly when ARR equals it, one without when every live group has arrived; completing it adds one to GEN modulo
2^32 and clears ARR and PEND. That a `.arrive` whose group's arrival is pending parks whatever its count is the model's choice (log
entry 65). -/
def Obligations.Barriers : Prop :=
  (∀ (s : State) (p : Pk), pk? s = some p →
    (∀ h a b imm, let i := p.uni imm a.spec
      let bar := s.barrier p.iss.uid i
      let last : Prop := ∀ g ∈ p.team.groups, g.lanes ≠ [] → g.idx = p.iss.grp ∨ g.idx ∈ bar.pend
      p.issues (.barSync h a b imm) h [] s = true → p.active h ≠ [] → barChk s h a b imm p = [] →
      ∃ t, exec (.barSync h a b imm) s = .next t
        ∧ (bar.pend.contains p.iss.grp = true → (p.team.checkBarrier i).2 = false →
            t.barrier p.iss.uid i = bar
            ∧ ∀ l, p.sole l → ∃ l', p.now t l.idx = some l' ∧ l'.park = some (.bar i false, s.coreCyc p.grp.core) ∧ l'.pc = l.pc)
        ∧ (bar.pend.contains p.iss.grp = false → p.uni imm b.spec = 0 → ¬ last →
            t.barrier p.iss.uid i = { gen := bar.gen, arr := bar.arr + 1, cnt := 0, pend := sins bar.pend p.iss.grp }
            ∧ ∀ l, p.sole l → ∃ l', p.now t l.idx = some l' ∧ l'.park = some (.bar i false, s.coreCyc p.grp.core) ∧ l'.pc = l.pc)
        ∧ (bar.pend.contains p.iss.grp = false → p.uni imm b.spec = 0 → last →
            t.barrier p.iss.uid i = { gen := (bar.gen + 1) % 2 ^ 32, arr := 0, cnt := 0, pend := [] }
            ∧ ∀ l, p.sole l → ∃ l', p.now t l.idx = some l' ∧ l'.park = none ∧ l'.pc = nextPc l.pc)
        ∧ (bar.pend.contains p.iss.grp = false → p.uni imm b.spec ≠ 0 → bar.arr + 1 ≠ p.uni imm b.spec →
            t.barrier p.iss.uid i = { gen := bar.gen, arr := bar.arr + 1, cnt := p.uni imm b.spec, pend := sins bar.pend p.iss.grp }
            ∧ ∀ l, p.sole l → ∃ l', p.now t l.idx = some l' ∧ l'.park = some (.bar i false, s.coreCyc p.grp.core) ∧ l'.pc = l.pc)
        ∧ (bar.pend.contains p.iss.grp = false → p.uni imm b.spec ≠ 0 → bar.arr + 1 = p.uni imm b.spec →
            t.barrier p.iss.uid i = { gen := (bar.gen + 1) % 2 ^ 32, arr := 0, cnt := p.uni imm b.spec, pend := [] }
            ∧ ∀ l, p.sole l → ∃ l', p.now t l.idx = some l' ∧ l'.park = none ∧ l'.pc = nextPc l.pc))
    ∧ (∀ h a b imm, let i := p.uni imm a.spec
      let bar := s.barrier p.iss.uid i
      let last : Prop := ∀ g ∈ p.team.groups, g.lanes ≠ [] → g.idx = p.iss.grp ∨ g.idx ∈ bar.pend
      p.issues (.barArrive h a b imm) h [] s = true → p.active h ≠ [] → barChk s h a b imm p = [] →
      ∃ t, exec (.barArrive h a b imm) s = .next t
        ∧ (bar.pend.contains p.iss.grp = false → p.uni imm b.spec = 0 → ¬ last →
            t.barrier p.iss.uid i = { gen := bar.gen, arr := bar.arr + 1, cnt := 0, pend := sins bar.pend p.iss.grp })
        ∧ (bar.pend.contains p.iss.grp = false → p.uni imm b.spec = 0 → last →
            t.barrier p.iss.uid i = { gen := (bar.gen + 1) % 2 ^ 32, arr := 0, cnt := 0, pend := [] })
        ∧ (bar.pend.contains p.iss.grp = true →
            t.barrier p.iss.uid i = bar
            ∧ ∀ l, p.sole l → ∃ l', p.now t l.idx = some l' ∧ l'.park = some (.bar i true, s.coreCyc p.grp.core) ∧ l'.pc = l.pc)
        ∧ (bar.pend.contains p.iss.grp = false → p.uni imm b.spec ≠ 0 → bar.arr + 1 ≠ p.uni imm b.spec →
            t.barrier p.iss.uid i = { gen := bar.gen, arr := bar.arr + 1, cnt := p.uni imm b.spec, pend := sins bar.pend p.iss.grp })
        ∧ (bar.pend.contains p.iss.grp = false → p.uni imm b.spec ≠ 0 → bar.arr + 1 = p.uni imm b.spec →
            t.barrier p.iss.uid i = { gen := (bar.gen + 1) % 2 ^ 32, arr := 0, cnt := p.uni imm b.spec, pend := [] }))
    ∧ (∀ h a imm, let i := p.uni imm a.spec
      p.issues (.barWait h a imm) h [] s = true → p.active h ≠ [] → i ≤ 15 →
      ∃ t, exec (.barWait h a imm) s = .next t ∧ t.barrier p.iss.uid i = s.barrier p.iss.uid i
        ∧ ((s.barrier p.iss.uid i).pend.contains p.iss.grp = true →
            ∀ l, p.sole l → ∃ l', p.now t l.idx = some l' ∧ l'.park = some (.bar i false, s.coreCyc p.grp.core) ∧ l'.pc = l.pc)
        ∧ ((s.barrier p.iss.uid i).pend.contains p.iss.grp = false → p.wentOn t)))
  ∧ (∀ (t : Team) (i : Nat), let b := tgetD t.bars i {}
    (b.cnt ≠ 0 → ((t.checkBarrier i).2 = true ↔ b.arr = b.cnt))
    ∧ (b.cnt = 0 → ((t.checkBarrier i).2 = true ↔ 0 < b.arr ∧ ∀ g ∈ t.groups, g.lanes ≠ [] → g.idx ∈ b.pend))
    ∧ ((t.checkBarrier i).2 = false → (t.checkBarrier i).1 = t)
    ∧ ((t.checkBarrier i).2 = true →
        tgetD (t.checkBarrier i).1.bars i {} = { gen := (b.gen + 1) % 2 ^ 32, arr := 0, cnt := b.cnt, pend := [] }
        ∧ ∀ j, j ≠ i → tgetD (t.checkBarrier i).1.bars j {} = tgetD t.bars j {}))

/-- R93, R95, R96, R161, R276: the special registers, register capacity and the protection keys. MFS gives the register's value, for
each number of R93's table; MTS writes `fpst`, `seed` or `cmpsel`; REGGIVE and REGCLAIM move the floor; KEYSET changes the two bits of one key. Where the
manual leaves a point open, this is the model's reading (log entries 7, 12 and 40). -/
def Obligations.SystemInstructionEffects : Prop :=
  ∀ (s : State) (p : Pk), pk? s = some p →
    (∀ h d, ∀ e ∈ ([(0x00, fun l => l.idx), (0x01, fun _ => p.grp.idx), (0x02, fun _ => p.team.team), (0x03, fun _ => p.grp.role),
          (0x04, fun _ => p.grp.core), (0x05, fun _ => p.grp.core / 4), (0x06, fun _ => p.grp.core / 32),
          (0x07, fun _ => s.bar0.devNum), (0x08, fun _ => p.team.first), (0x09, fun _ => p.team.count),
          (0x0A, fun _ => p.team.launch), (0x0B, fun _ => if p.team.cancelBit then 1 else 0), (0x10, fun _ => p.grp.fpst.toNat),
          (0x11, fun _ => (s.seed p.grp.quadNo).toNat), (0x13, fun _ => p.grp.claims.length), (0x14, fun _ => p.grp.floor),
          (0x16, fun _ => (s.govWord (p.grp.core / 4)).toNat), (0x17, fun l => l.rstack.length + l.spilled),
          (0x18, fun _ => p.grp.cmpsel.toNat)] : List (Nat × (Lane → Nat))),
        p.gives s (.mfs h d (BitVec.ofNat 16 e.1)) h d 1 e.2)
    ∧ (∀ h d, p.gives s (.mfs h d 0x0C) h d 2 fun _ => (Config.freeWord p.grp.core + dword (s.coreCyc p.grp.core)).toNat)
    ∧ (∀ h d c, s.ctx? p.team.ctx = some c → p.gives s (.mfs h d 0x12) h d 2 fun _ => c.keys.toNat)
    ∧ (∀ h d, p.gives s (.mfs h d 0x15) h d 4 fun _ => p.grp.flagWord)
    ∧ ((∀ f, p.grp.flag f < 64) → p.grp.flagWord < 2 ^ 72 ∧ ∀ f < 12, p.grp.flagWord / 2 ^ (6 * f) % 2 ^ 6 = p.grp.flag f)
    ∧ (∀ h a (num : BitVec 16) x, p.issues (.mts h a num) h [] s = true → p.active h ≠ [] → x = word (p.uniform a) →
      ∃ t, exec (.mts h a num) s = .next t ∧ p.wentOn t
        ∧ (num = 0x10 → t.fpstOf p.iss.uid p.iss.grp = x.setWidth 5)
        ∧ (num = 0x11 → t.seed p.grp.quadNo = x ∧ ∀ q, q ≠ p.grp.quadNo → t.seed q = s.seed q)
        ∧ (num = 0x18 → ∃ g, p.grpNow t = some g ∧ g.cmpsel = x.setWidth 3))
    ∧ (∀ h (n : BitVec 16), p.issues (.reggive h n) h [] s = true → p.active h ≠ [] → n.toNat + 1 ≤ p.grp.floor →
      ∃ t, exec (.reggive h n) s = .next t ∧ p.wentOn t ∧ ∃ g, p.grpNow t = some g ∧ g.floor = p.grp.floor - n.toNat)
    ∧ (∀ h (n : BitVec 16), p.issues (.regclaim h n) h [] s = true → p.active h ≠ [] →
        p.grp.floor + n.toNat ≤ p.team.card.regPeak → s.canClaim p.grp p.place (claimSplit p.team p.grp n.toNat).2 = true →
      ∃ t, exec (.regclaim h n) s = .next t ∧ p.wentOn t ∧ ∃ g, p.grpNow t = some g ∧ g.floor = p.grp.floor + n.toNat)
    ∧ (∀ h a (k : BitVec 5) x l0, p.issues (.keyset h a k) h [] s = true → p.workers h ≠ [] → p.lanes.head? = some l0 →
        x = p.x32 l0 0 a → x < 4 → s.ctx? p.team.ctx ≠ none →
      ∃ t, exec (.keyset h a k) s = .next t ∧ p.wentOn t
        ∧ (t.keysOf p.team.ctx).toNat / 4 ^ k.toNat % 4 = x
        ∧ ∀ j, j ≠ k.toNat → j < 32 → (t.keysOf p.team.ctx).toNat / 4 ^ j % 4 = (s.keysOf p.team.ctx).toNat / 4 ^ j % 4)

/-! ### Frames -/

/-- What an instruction that computes a result per lane leaves as it was, whenever it issues with its own effect: all memory, every
other group, team, engine and register of the device, and in its group all but its destination, killed names, completion flag,
predicates and exception bits. QPACK, QUNPK and QSCAL leave the same, but for the seed of a quadrant and the place in the sequence of
open choices (log entry 35). -/
def Obligations.ComputingInstructionFrame : Prop :=
  (∀ (s : State) (p : Pk) (i : Instr) (h : Hdr) (t : State), pk? s = some p → i.hdr = some h →
    (∃ f sr pk ct o, i = .qpack f sr pk ct o) ∨ (∃ f ct o, i = .qunpk f ct o) ∨ (∃ m sel o, i = .qscal m sel o) →
    p.issues i h (instrDst i) s = true → exec i s = .next t →
    p.frame { s with seeds := t.seeds, choices := t.choices } t i h)
  ∧ ∀ (s : State) (p : Pk) (i : Instr) (h : Hdr) (t : State), pk? s = some p → computes i = true → i.hdr = some h →
    p.issues i h (instrDst i) s = true → exec i s = .next t →
    p.frame s t i h ∧ t.mem = s.mem ∧ t.poison = s.poison ∧ t.ctxs = s.ctxs ∧ t.seeds = s.seeds ∧ t.bar0 = s.bar0
      ∧ (∀ a, mread t.mem a = mread s.mem a)
      ∧ (∀ u, u ≠ p.iss.uid → t.team? u = s.team? u)
      ∧ (∀ g, g ≠ p.iss.grp → t.group? p.iss.uid g = s.group? p.iss.uid g)

/-- R112 to R113, R34: FSPEC's results are on their way to its destination, its exception bits are in `fpst`, and the lanes go
on. Where the manual leaves a point open, this is the model's reading (log entries 2 and 15). -/
def Obligations.SpecialFunctionResults : Prop :=
  ∀ (s : State) (p : Pk), pk? s = some p → ∀ fn m (o : Op1), p.issues (.fspec fn m o) o.h (instrDst (.fspec fn m o)) s = true →
    let act := if o.d.isS then (p.active o.h).take 1 else p.active o.h
    let res (l : Lane) : Res := fspecRes fn m.rnd (FMod.a m fp32 (p.x32 l o.imm o.a))
    ∃ t, exec (.fspec fn m o) s = .next t ∧ p.wentOn t
      ∧ p.sends t o.d 1 (act.map fun l => (l.idx, (res l).val))
      ∧ t.fpstOf p.iss.uid p.iss.grp = (act.map res).foldl (fun a r => a ||| r.fp) p.grp.fpst
      ∧ t.mem = s.mem

/-! ### Memory instructions -/

/-- R116 to R121, R262 to R275: every memory instruction that waits on no full/empty bit completes when its active lanes do,
lane by lane: loads with their values on the way, stores and reductions with their bytes written, atomics with the old values on
the way. A packet whose accesses the device puts off (R235) has them in flight instead, their checks made, and completes all
the same. Fences, prefetches and cache control never trap, and change no byte of memory but the A and D bits of the entries that
translate their addresses. Where the manual leaves a point open, this is the model's reading (log
entries 15 and 41). -/
def Obligations.MemoryInstructionsComplete : Prop :=
  ∀ (s : State) (p : Pk), pk? s = some p →
    (∀ m, m.space ≠ .scr → p.accDoes s (.ld m) m)
    ∧ (∀ m, m.fe = false → p.accDoes s (.st m) m)
    ∧ (∀ m, p.accDoes s (.atom m) m)
    ∧ (∀ m, p.accDoes s (.atomf m) m)
    ∧ (∀ m, p.accDoes s (.cas m) m)
    ∧ (∀ m, p.accDoes s (.red m) m)
    ∧ (∀ m, p.looksUp s (.lodld m) m.h (lodldLookup m))
    ∧ (∀ m i, i = .fence m ∨ i = .pref m ∨ i = .cctlL1 m ∨ i = .cctlL1all m ∨ i = .cctlIc m ∨ i = .cctlMap m →
        p.issues i m.h [] s = true → ∃ t, exec i s = .next t ∧ p.wentOn t
          ∧ (s.hostLines = [] → s.rootOk p.team.ctx → s.onlyAD t ((p.active m.h).map fun l => (p.ea l m).toNat))
          ∧ (i = .fence m ∨ i = .pref m ∨ i = .cctlL1all m → t.mem = s.mem)
          ∧ (i = .cctlL1all m → p.active m.h ≠ [] → ∀ e ∈ t.l1, e.1 / coreSpan ≠ p.grp.core)
          ∧ (i = .cctlMap m → t.mapLines.length ≤ s.mapLines.length))

/-- R43, R45, R118, R119, R210: the address checks of an access: misaligned, beyond the local area, outside the scratch window; an
access that passes them in scratch names its own bytes. Of an access that lies partly beyond the local area the first fault is
raised: the PROT of a word beyond it, or a fault of a word in it whose cause comes before or whose address is lower. The location of
an access leaves every group, scratch byte, context, command and matrix entry as it was, and, when the host holds no line of
host-managed memory for itself, every byte of memory but the A and D bits of the entries that stand at the indexes of the
access's virtual addresses in page tables (R226). The address that the record of a misaligned local access holds, and that of a bad LBASE or LSIZE and
of an access beyond LSIZE, and the PROT of the words beyond the area beside the faults of others, are the model's reading (log entry
59). -/
def Obligations.AccessLocation : Prop :=
  ∀ (s : State) (p : Pk) (lane : Nat) (sp : Space) (ea : Dword) (n : Nat) (k : AKind),
    (ea.toNat % n ≠ 0 → (s.locate p lane sp ea n k).2 = .error (addrTrap lane cMISALIGN ea k))
    ∧ (ea.toNat % n = 0 → sp = .scr → (s.locate p lane sp ea n k).2
        = if p.team.scrOk ea.toNat n then .ok (.scr ea.toNat n) else .error (addrTrap lane cSCRBOUND ea k))
    ∧ (ea.toNat % n = 0 → sp = .loc → p.team.card.lBase.toNat % 4 ≠ 0 ∨ p.team.card.lSize.toNat % 4 ≠ 0 →
        (s.locate p lane sp ea n k).2 = .error (addrTrap lane cMISALIGN (p.localVa lane ea.toNat) k))
    ∧ (ea.toNat % n = 0 → n ∈ [1, 2, 4, 8, 16] → sp = .loc → p.team.card.lBase.toNat % 4 = 0 → p.team.card.lSize.toNat % 4 = 0 →
        (p.team.card.lSize.toNat ≤ ea.toNat ∨ p.team.card.lTeams.toNat ≤ p.team.team →
          (s.locate p lane sp ea n k).2 = .error (addrTrap lane cPROT (p.localVa lane ea.toNat) k))
        ∧ (p.team.card.lSize.toNat < ea.toNat + n → ∃ w < cdiv n 4, let va := p.localVa lane (ea.toNat + 4 * w)
            (s.locate p lane sp ea n k).2 = .error (addrTrap lane cPROT va k)
            ∨ (ea.toNat + 4 * w + 4 ≤ p.team.card.lSize.toNat
                ∧ (s.locate p lane sp ea n k).2 = .error (addrTrap lane cPAGEF va k))))
    ∧ (ea.toNat % n = 0 → sp = .glb → canonical ea = false →
        (s.locate p lane sp ea n k).2 = .error (addrTrap lane cPROT ea k))
    ∧ (let t := (s.locate p lane sp ea n k).1;
        t.ctxs = s.ctxs ∧ t.race = s.race ∧ t.cmds = s.cmds ∧ t.matrix = s.matrix ∧ t.cur = s.cur
        ∧ (∀ u g, t.group? u g = s.group? u g)
        ∧ (∀ u, (t.team? u).map (·.scr.bytes) = (s.team? u).map (·.scr.bytes))
        ∧ (s.hostLines = [] → s.rootOk p.team.ctx → s.onlyAD t (p.vasOf lane sp ea n)))

/-- R262 to R268: an atomic of a lane that is no helper reads its place and, unless its function writes nothing, puts the new
value there in the same step; it gives the old value where it has a destination. A helper lane's atomic gives 0 and does
nothing. R263, R265: the operations of the integer atomics on values of n bytes, signed and unsigned, and the compare-and-swap.
Where the manual leaves a point open, this is the model's reading (log entries 15 and 40). -/
def Obligations.AtomicOperations : Prop :=
  (∀ (m : MemOp) (i : Instr) (s s₁ s' : State) (p : Pk) (l : Lane) (loc : Loc) (vs : List (Nat × Nat)),
    i = .atom m ∨ i = .atomf m ∨ i = .cas m ∨ i = .red m →
    s.locate p l.idx m.space (p.ea l m) m.width.bytes (accKindOf i) = (s₁, .ok loc) → accLane i m s p l = (s', .ok vs) →
    (l.helper = true → s' = s ∧ vs = if givesValue i then [(l.idx, 0)] else [])
    ∧ (l.helper = false → let old := leNat (s₁.locNow p.iss.uid loc)
        let f := atomFn i (p.readN l 0 m.x.spec m.width.regs) (p.readN l 0 m.d m.width.regs) old
        vs = (if givesValue i then [(l.idx, old)] else [])
        ∧ (f.1 = none → s'.mem = s₁.mem)
        ∧ (∀ v, f.1 = some v → loc.simple → s₁.team? p.iss.uid ≠ none →
            s'.locNow p.iss.uid loc = leBytes v m.width.bytes)
        ∧ ∀ a, loc.outside a → mread s'.mem a = mread s₁.mem a))
  ∧ ((∀ n old x, 0 < n → old < 2 ^ (8 * n) → x < 2 ^ (8 * n) →
    atomOp 0 n old x = (old + x) % 2 ^ (8 * n) ∧ atomOp 1 n old x = x
    ∧ sgN n (atomOp 2 n old x) = min (sgN n old) (sgN n x) ∧ sgN n (atomOp 3 n old x) = max (sgN n old) (sgN n x)
    ∧ atomOp 4 n old x = min old x ∧ atomOp 5 n old x = max old x
    ∧ (∀ j, (atomOp 6 n old x).testBit j = (old.testBit j && x.testBit j))
    ∧ (∀ j, (atomOp 7 n old x).testBit j = (old.testBit j || x.testBit j)))
  ∧ (∀ m x d old, atomFn (.cas m) x d old = (if old = x then some d else none, 0)
    ∧ atomFn (.atom m) x d old = (some (atomOp m.aop m.width.bytes old x), 0)
    ∧ (m.aop ≠ 1 → atomFn (.red m) x d old = (some (atomOp m.aop m.width.bytes old d), 0))))

/-- R220, R221, R259, R260, R271, R272: the full/empty instructions complete at once when every set of lanes finds its line in
the state that it waits for. R220, R221: a set whose line is in the wrong state is not served and nothing changes; a set that is
served leaves its line full after a produce or a set to full, empty after a consume or a set to empty. Where the manual leaves a
point open, this is the model's reading (log entry 15). -/
def Obligations.FullEmptyInstructions : Prop :=
  (∀ (s : State) (p : Pk), pk? s = some p →
    (∀ m, m.space = .scr → p.feDoes s (.ld m) m .load (p.active m.h))
    ∧ (∀ m, m.fe = true → p.feDoes s (.st m) m .store (p.workers m.h))
    ∧ (∀ m, p.feDoes s (.fewait m) m .load (p.active m.h))
    ∧ (∀ m, p.feDoes s (.feset m) m .store (p.workers m.h)))
  ∧ (∀ (s : State) (p : Pk) (i : Instr) (m : MemOp) (e : FeLane) (rest : List FeLane),
    (∀ n, (feOpOf i).need = some n → s.lineFull p.iss.uid (e.2.1 / 128) ≠ n → s.feSet p i m (e :: rest) = (s, none))
    ∧ (∀ s' o full, s.feSet p i m (e :: rest) = (s', some o) → (feOpOf i).leaves = some full → o.served ≠ [] →
        s.team? p.iss.uid ≠ none → s'.lineFull p.iss.uid (e.2.1 / 128) = full)
    ∧ (∀ s' o, s.feSet p i m (e :: rest) = (s', some o) → (feOpOf i).leaves = none ∨ o.served = [] →
        ∀ u line, s'.lineFull u line = s.lineFull u line))

/-- R217, R248: a load that is strong, bypasses L1 or finds no copy of its sectors in its core's L1, and is not invariant, gives the
bytes that its place holds, extended as its width says, and changes no byte of memory or scratch. R217, R218, R133: a store of a lane that is no helper writes
the low bytes of its data to its place and no other byte of memory or scratch; a helper lane's store does nothing. R120, R232: a
write takes the poison from exactly the sectors that it covers as a whole, and the stores of a packet from those that they cover
together. R245, R246: an access raises MMX exactly when it completes a conflict with a remembered one, and then it changes nothing; else
every word of it is remembered, with its region. R243, R244: a boundary closes the thread's regions to the threads that its scope holds.
R247: an engine's access is remembered, conflict or not, and its conflicts are those of the same rule. Where the manual leaves a
point open, this is the model's reading (log entry 15). -/
def Obligations.LoadsAndStores : Prop :=
  (∀ (m : MemOp) (s s₁ s' : State) (p : Pk) (l : Lane) (loc : Loc) (vs : List (Nat × Nat)),
    s.locate p l.idx m.space (p.ea l m) m.width.bytes .load = (s₁, .ok loc) → accLane (.ld m) m s p l = (s', .ok vs) → m.inv = false →
    (m.order ≠ .weak ∨ 2 ≤ m.cache.toNat ∨ ∀ ps, loc = .mem ps → ∀ e ∈ ps, tget s₁.l1 (l1Key p.grp.core e.1.pa) = none) →
    vs = [(l.idx, widthVal m.width (s₁.locNow p.iss.uid loc))] ∧ s'.mem = s₁.mem
      ∧ ∀ u, (s'.team? u).map (·.scr.bytes) = (s₁.team? u).map (·.scr.bytes))
  ∧ (∀ (m : MemOp) (s s₁ s' : State) (p : Pk) (l : Lane) (loc : Loc) (vs : List (Nat × Nat)),
    s.locate p l.idx m.space (p.ea l m) m.width.bytes .store = (s₁, .ok loc) → accLane (.st m) m s p l = (s', .ok vs) → vs = []
    ∧ (l.helper = true → s' = s)
    ∧ (l.helper = false →
        (loc.simple → s₁.team? p.iss.uid ≠ none → s'.locNow p.iss.uid loc = leBytes (p.storeData l m) m.width.bytes)
        ∧ (∀ a, loc.outside a → mread s'.mem a = mread s₁.mem a)
        ∧ (∀ u a, (∀ k n, loc = .scr k n → u = p.iss.uid → a < k ∨ k + n ≤ a) →
            ((s'.team? u).map fun t => mread t.scr.bytes a) = (s₁.team? u).map fun t => mread t.scr.bytes a)))
  ∧ (∀ (s : State) (pa : Nat) (b : Bytes) (k : Nat),
    k ∈ (s.writePa pa b).poison ↔ k ∈ s.poison ∧ ¬ (pa ≤ 32 * k ∧ 32 * (k + 1) ≤ pa + b.length))
  ∧ (∀ (s : State) (ps : List (Nat × Nat)) (k : Nat),
    k ∈ (s.sweep ps).poison ↔ k ∈ s.poison ∧ ¬ ∀ j, j < 32 → ∃ e ∈ ps, e.1 ≤ 32 * k + j ∧ 32 * k + j < e.1 + e.2)
  ∧ (∀ (s : State) (p : Pk) (lane : Nat) (loc : Loc) (k : AccKind), (k.strong = none ∨ k.acq = false ∨ k.read = false) →
    let t := p.tid lane
    let r := s.raceAdmit p lane loc k
    (r.2 = none ↔ ∀ a ∈ s.race.log, ∀ e ∈ loc.covered p.iss.uid, ¬ s.race.conflict e.1 t k.write k.strong a)
    ∧ (∀ x, r.2 = some x → r.1 = s ∧ x.lane = lane ∧ x.cause = cMMX)
    ∧ (r.2 = none → (∀ a ∈ s.race.log, a ∈ r.1.race.log)
      ∧ ∀ e ∈ loc.covered p.iss.uid, (⟨e.1, t, (s.race.thread t).num, (s.race.thread t).region, k.write, k.strong⟩ : Acc) ∈ r.1.race.log))
  ∧ (∀ (r : Race) (t b : Tid) (h : Holds) (w : RWord) (write : Bool) (strong : Option Holds) (a : Acc), a.tid = t → a.strong = none →
    a.region ≤ (r.thread t).region → inHolds h b = true → ¬ (r.boundary t h).conflict w b write strong a)
  ∧ (∀ (r : Race) (ws : List RWord) (t : Tid) (write : Bool), let x := r.engine ws t write
    (∀ e ∈ x.2, e.2 ∈ r.log ∧ ∃ w ∈ ws, r.conflict w t write none e.2)
    ∧ (∀ a ∈ r.log, ∀ w ∈ ws, (∀ g lo hi, w ≠ .slot g lo hi) → r.conflict w t write none a → ∃ e ∈ x.2, e.1 = w ∧ e.2.tid = a.tid)
    ∧ ∀ w ∈ ws, ∃ a ∈ x.1.log, a.word = w ∧ a.tid = t ∧ a.write = write ∧ a.strong = none)

/-- R223 to R228: the translation of an address. A walk over five entries that are present, of which the last is a leaf without
reserved bits and all have been used before, gives the page of the leaf and changes nothing. What one entry decides, at every level: an
entry with V = 0 ends the walk as absent; one that is malformed, or names no table of this device's memory, ends it with
PROT; a leaf of level 0, 1 or 2 ends it with its page, its A set, and its D when a store may write there; any other sets A and leads to
the next table. A cached leaf that matches serves without a walk, unless a store finds its D = 0. The faults of an access: a non-canonical
address, PAGEF of an absent entry, PROT and PKEYF, in R225's order. When the checks of R231 pass. That A and D are set before
the checks of step 4 is the model's reading (log entry 59). -/
def Obligations.FiveLevelWalk : Prop :=
  (∀ (s : State) (c : Nat) (x : Context) (va : Nat) (store : Bool) (t₄ t₃ t₂ t₁ t₀ e₄ e₃ e₂ e₁ e₀ : Nat), s.ctx? c = some x → s.flaw = [] →
    paKey s x.root = some t₄ →
    e₄ = leNat (s.readPa (t₄ + 8 * (va / 2 ^ 48 % 512)) 8) → e₃ = leNat (s.readPa (t₃ + 8 * (va / 2 ^ 39 % 512)) 8) →
    e₂ = leNat (s.readPa (t₂ + 8 * (va / 2 ^ 30 % 512)) 8) → e₁ = leNat (s.readPa (t₁ + 8 * (va / 2 ^ 21 % 512)) 8) →
    e₀ = leNat (s.readPa (t₀ + 8 * (va / 2 ^ 12 % 512)) 8) →
    (∀ e ∈ [e₄, e₃, e₂, e₁], ptV e = true ∧ ptL e = false ∧ ptA e = true) →
    ptV e₀ = true → ptL e₀ = false → ptA e₀ = true → (ptD e₀ = true ∨ store = false ∨ ptW e₀ = false) → leafOk e₀ 0 = true →
    paKey s (ptPPN e₄ * 4096) = some t₃ → paKey s (ptPPN e₃ * 4096) = some t₂ → paKey s (ptPPN e₂ * 4096) = some t₁ →
    paKey s (ptPPN e₁ * 4096) = some t₀ → (∀ t ∈ [t₄, t₃, t₂, t₁, t₀], paLocal t = true) →
    translate s none c va store = (s, .leaf e₀ 0) ∧ leafPa e₀ 0 va = ptPPN e₀ * 4096 + va % 4096)
  ∧ (∀ (s : State) (user : Option Nat) (c va : Nat) (store : Bool) (table l ea e : Nat), s.flaw = [] →
    ea = table + 8 * vaIndex va l → e = leNat (s.readPa ea 8) →
    (ptV e = false → walkFrom s user c va store true table l = (s, .absent (ptNR e)))
    ∧ (ptV e = true → ptL e = true → l = 0 ∨ 3 ≤ l → walkFrom s user c va store true table l = (s, .prot))
    ∧ (ptV e = true → l = 0 ∧ ptL e = false ∨ (l = 1 ∨ l = 2) ∧ ptL e = true →
        (nbits e 62 58 ≠ 0 ∨ nbits e 11 9 ≠ 0 ∨ ptPPN e % 2 ^ (9 * l) ≠ 0 → walkFrom s user c va store true table l = (s, .prot))
        ∧ (nbits e 62 58 = 0 → nbits e 11 9 = 0 → ptPPN e % 2 ^ (9 * l) = 0 →
            ∃ s', walkFrom s user c va store true table l = (s', .leaf e l)
              ∧ leafPa e l va = ptPPN e * 4096 + va % 2 ^ (12 + 9 * l)
              ∧ leNat (s'.readPa ea 8) = e ||| 8 ||| (if store && ptW e then 16 else 0)
              ∧ ∀ a, a < ea ∨ ea + 8 ≤ a → mread s'.mem a = mread s.mem a))
    ∧ (ptV e = true → ptL e = false → 0 < l →
        (ownPa s (ptPPN e * 4096) = false → walkFrom s user c va store true table l = (s, .prot))
        ∧ ∀ t, paKey s (ptPPN e * 4096) = some t → paLocal t = true →
            ∃ s', walkFrom s user c va store true table l = walkFrom s' user c va store true t (l - 1)
              ∧ leNat (s'.readPa ea 8) = e ||| 8 ∧ ∀ a, a < ea ∨ ea + 8 ≤ a → mread s'.mem a = mread s.mem a))
  ∧ (∀ (s : State) (u c va : Nat) (store : Bool) (x : TlbE),
    let hit (y : TlbE) : Prop := y.user = u ∧ y.leaf = true ∧ (y.ctx = c ∨ ptG y.ent.toNat = true) ∧ y.tag = vaTag va y.level
    x ∈ s.tlb → hit x → (∀ y ∈ s.tlb, hit y → y = x) →
    ((store = false ∨ ptW x.ent.toNat = false ∨ ptD x.ent.toNat = true) →
        translate s (some u) c va store = (s, .leaf x.ent.toNat x.level))
    ∧ (store = true → ptW x.ent.toNat = true → ptD x.ent.toNat = false →
        translate s (some u) c va store = walkRoot s (some u) c va store true))
  ∧ (∀ (s : State) (user : Option Nat) (c : Nat) (keys : Dword) (k : AKind) (va : Dword),
    (canonical va = false → place s user c keys k va = (s, .error cPROT))
    ∧ ∀ s' w, canonical va = true → translate s user c va.toNat k.writes = (s', w) →
      (∀ nr, w = .absent nr → place s user c keys k va = (s', .error cPAGEF))
      ∧ (w = .prot → place s user c keys k va = (s', .error cPROT))
      ∧ ∀ e l, w = .leaf e l →
          let pa := leafPa e l va.toNat
          let barred : Prop := paKey s' pa = none ∨ paUnreach s' pa = true ∨ (k.writes = true ∧ ptW e = false)
            ∨ (k = .store ∧ ptPOI e = true) ∨ (k = .fetch ∧ (ptX e = false ∨ ptPOI e = true))
            ∨ ∃ x, paKey s' pa = some x ∧ hostBarred s' k x (ptMT e) = true
          let denied : Prop := k ≠ .fetch ∧ ((k.reads = true ∧ keys.getLsbD (2 * ptKey e) = true)
            ∨ (k.writes = true ∧ keys.getLsbD (2 * ptKey e + 1) = true))
          (barred → place s user c keys k va = (s', .error cPROT))
          ∧ (¬ barred → denied → place s user c keys k va = (s', .error cPKEYF))
          ∧ (¬ barred → ¬ denied → ∃ x s'', paKey s' pa = some x
              ∧ place s user c keys k va = (s'', .ok ⟨x, ptMT e, ptPOI e⟩)
              ∧ (s'.hostLines = [] → s''.mem = s'.mem)))

/-! ### Copy engines and collectives -/

/-- R283 to R286, R291: the copy and fill instructions queue their commands. R279, R281, R287, R289: TRSET loads a valid
descriptor and delivers its status, 0 for a valid one, 1 for an invalid one and 2 for one that cannot be read; COLL with a valid
descriptor waits at its engine for the other participants, or in its queue (R293). That it is handed over at its issue when every command
before it has started, unless the device puts that off, is the model's reading (log entry 43). Where the manual leaves
a point open, this is the model's reading (log entries 30 and 42). -/
def Obligations.CopyAndDescriptorInstructions : Prop :=
  (∀ (s : State) (p : Pk), pk? s = some p →
    (∀ k (tr : Fin 3) side (o : CpyOp), p.queues s (.cpy k tr side o) o (.cpy k tr.val side (p.coords o) (p.uniform o.c)) fun p =>
      { opd := trBad p o tr.val, spots := [(cpySpot k side (p.uniform o.c), p.boxOf o)] })
    ∧ (∀ k (tr : Fin 3) side (o : CpyOp), p.queues s (.cpys k tr side o) o (.cpys k tr.val side (p.coords o) (p.uniform o.c)) fun p =>
      { opd := trBad p o tr.val, spots := [(cpySpot k side (p.uniform o.c), p.boxOf o)] })
    ∧ (∀ k (o : CpyOp), p.queues s (.cpyg k o) o (.cpyg k (p.uniform o.a) (p.uniform o.b) (p.uniform o.c)) fun p =>
      { opd := p.uniform o.b > 4096
        spots := [(.scr (p.uniform o.a), 4 * p.uniform o.b),
          (cpySpot k false (p.uniform o.c), if (tget p.team.recs o.im.recN.toNat).isSome
            then p.uniform o.b * at5 (p.trec o).box 0 * (p.trec o).n else 0)] })
    ∧ (∀ o : CpyOp, p.queues s (.fillScr o) o (.fillScr (word (p.uniform o.a)) (p.uniform o.b) (p.uniform o.c)) fun p =>
      { opd := p.uniform o.b > 2 ^ 22, spots := [(.scr (p.uniform o.c), p.uniform o.b)], needRec := false })
    ∧ (∀ o : CpyOp, p.queues s (.fillMem o) o (.fillMem (p.coords o)) fun _ => {}))
  ∧ (∀ (s : State) (p : Pk), pk? s = some p →
    (∀ h d a (recN : BitVec 6) w ws s₁ r, p.issues (.trset h d a recN) h (instrDst (.trset h d a recN)) s = true →
      p.workers h = w :: ws → (s.issued p h (instrDst (.trset h d a recN))).laneRead p w.idx (p.read64 w 0 a.spec) 64 64 = (s₁, r) →
      (∀ x, r ≠ .mmx x) → ∃ t, exec (.trset h d a recN) s = .next t ∧ p.wentOn t ∧ t.mem = s₁.mem
        ∧ (∀ b, r = .ok b → recValid b = true →
            p.sends t d 1 ((p.active h).map fun l => (l.idx, 0))
            ∧ ∃ tm, t.team? p.iss.uid = some tm ∧ tget tm.recs recN.toNat = some b)
        ∧ (∀ b, r = .ok b → recValid b = false →
            p.sends t d 1 ((p.active h).map fun l => (l.idx, 1))
            ∧ ∃ tm, t.team? p.iss.uid = some tm ∧ tget tm.recs recN.toNat = none)
        ∧ (r = .fault →
            p.sends t d 1 ((p.active h).map fun l => (l.idx, 2))
            ∧ ∃ tm, t.team? p.iss.uid = some tm ∧ tget tm.recs recN.toNat = none))
    ∧ (∀ op ty (o : CpyOp) w ws s₁ b, p.issues (.coll op ty o) o.h [] s = true → p.workers o.h = w :: ws →
      (s.issued p o.h []).laneRead p w.idx (p.read64 w 0 o.a.spec) 64 64 = (s₁, .ok b) → b ≠ [] → collValid b = true →
      p.grp.idx = p.team.card.producer →
      s.collsFull p.team.ctx (stackOf p.grp.core) (CollDesc.of b).cid = false →
      ∃ t, exec (.coll op ty o) s = .next t ∧ p.wentOn t ∧ ∃ c, t.cmds = s.cmds ++ [c] ∧ c.id = s.nextId ∧ c.kind = .coll op ty b
        ∧ (c.state = .collWait ↔ s.putOff = false ∧ ∀ x ∈ s.cmds, x.core = p.grp.core → x.state = .queued → x.started = true)
        ∧ (c.state = .collWait ∨ c.state = .queued) ∧ c.result = none ∧ c.uid = p.iss.uid ∧ c.flag = p.flag o.h))

/-- R280: the e-th element of a box in dense order lies e elements from the box's start, whatever the transposition. R279, R280: an
element is out of bounds when a coordinate lies outside its extent; inside, its address is the base plus the coordinates times the
strides. In a copy from memory an element out of bounds takes the low bytes of FILL; in a copy to memory or a fill every element that is
written is one in bounds, and a fill writes FILL to it. -/
def Obligations.BoxElements : Prop :=
  (∀ (r : TRec) (tr e : Nat), 0 < at5 r.box 0 → 0 < at5 r.box 1 → 0 < at5 r.box 2 → 0 < at5 r.box 3 →
    denseOff r tr (boxIndex r tr e) = e * r.n)
  ∧ (∀ (r : TRec) (c : List Int) (i : List Nat),
    (elemVa r c i = none ↔ ∃ k, k < 5 ∧ (c.getD k 0 + (i.getD k 0 : Nat) < 0 ∨ (at5 r.ext k : Int) ≤ c.getD k 0 + (i.getD k 0 : Nat)))
    ∧ ∀ va, elemVa r c i = some va → va = BitVec.ofInt 64 ((r.base : Int)
        + (c.getD 0 0 + (i.getD 0 0 : Nat)) * (at5 r.str 0 : Nat) + (c.getD 1 0 + (i.getD 1 0 : Nat)) * (at5 r.str 1 : Nat)
        + (c.getD 2 0 + (i.getD 2 0 : Nat)) * (at5 r.str 2 : Nat) + (c.getD 3 0 + (i.getD 3 0 : Nat)) * (at5 r.str 3 : Nat)
        + (c.getD 4 0 + (i.getD 4 0 : Nat)) * (at5 r.str 4 : Nat)))
  ∧ (∀ (s : State) (c : Cmd) k tr side co spot (e : Nat), c.kind = .cpy k tr side co spot → 0 < c.trec.n →
    elemVa c.trec co (boxIndex c.trec tr e) = none →
    pieceData s c (e * c.trec.n) c.trec.n = (s, ((leBytes c.trec.fill c.trec.n).map fun b => (b, false), []), none))
  ∧ (∀ (s : State) (c : Cmd) (row : Nat), ∀ x ∈ rowData s c row, ∃ co i, elemVa c.trec co i = some x.1
    ∧ (∀ co', c.kind = .fillMem co' → co = co' ∧ x.2.1 = (leBytes c.trec.fill c.trec.n).map fun b => (b, false)))

/-- R290, R293, R295, R296: the events of copy commands, for a command that moves: its engine has started it, or starts it and
those before it. A line that arrives is done; a command whose rest lands ends; one that needs
a page that is not present parks under a new handle. R290, R291: a command that ends is gone, the scratch lines that it still
had to fill are full, and its completion message, the status word above the tag, is on its way to its port when it has one.
R286: a piece of a scratch fill of a running team leaves the pattern's bytes in the window and its line full. Where the manual
leaves a point open, this is the model's reading (log entry 43). -/
def Obligations.CopyCommandLifecycle : Prop :=
  (∀ (s s₁ s' : State) (cmd line : Nat) (c : Cmd), s.cmd? cmd = some c → s.moving c = some s₁ → (∀ op ty d, c.kind ≠ .coll op ty d) →
    (line ∈ c.left → (c.kind.dst = none → c.left.head? = some line) → runPiece s₁ c line = (s', none) →
      exec (.copyLineArrival cmd line) s = .next s' ∧ ∃ c', s'.cmd? cmd = some c' ∧ line ∈ c'.done)
    ∧ (runPieces s₁ cmd c.left = (s', none) →
      ∃ t, exec (.copyComplete cmd) s = .next t ∧ t = s'.endCmd cmd 0 ∧ t.cmd? cmd = none)
    ∧ (∀ va, runPieces s₁ cmd c.left = (s', some (cPAGEF, va)) → (∀ t, s'.team? c.uid = some t → t.kill = true → t.terminated = true) →
      (s'.cmds.filter fun o => o.state == .parked && clusterOf o.core == clusterOf c.core).length < 256 →
      ∃ t, exec (.copyPageFault cmd) s = .next t ∧ ∃ c', t.cmd? cmd = some c' ∧ c'.state = .parked ∧ c'.handle = s'.nextId))
  ∧ (∀ (s : State) (id : Nat) (st : BitVec 7) (c : Cmd), s.cmd? id = some c →
    (s.endCmd id st).cmd? id = none
    ∧ (∀ a, c.kind.dst = some (.scr a) → ∀ line, line ∈ c.left → (s.endCmd id st).lineFull c.uid line = true)
    ∧ (c.port = none → (s.endCmd id st).joinQ = s.joinQ)
    ∧ ∀ port, c.port = some port → ∃ q, (s.endCmd id st).joinQ = s.joinQ ++ [q] ∧ q.ctx = s.ctxOf c.uid ∧ q.port = port
        ∧ q.val = dword ((c.status ||| st).toNat * 2 ^ 32 + c.tag.toNat) ∧ q.fault = false)
  ∧ (∀ (s s' : State) (c : Cmd) (t : Team) (pat : Word) (n a line j : Nat), c.kind = .fillScr pat n a → s.team? c.uid = some t →
    t.state = .running → line ∈ scrLines a n → runPiece s c line = (s', none) →
    max (line * 128) a + j < min ((line + 1) * 128) (a + n) →
    s'.lineFull c.uid line = true
    ∧ ∃ t', s'.team? c.uid = some t' ∧ mread t'.scr.bytes (max (line * 128) a + j)
        = BitVec.ofNat 8 (pat.toNat / 2 ^ (8 * ((max (line * 128) a - a + j) % 4))))

/-- R288, R289: the events of collectives. When the participants are there and agree, and every source is known, each receives its result; when they do not
agree, each ends with a mismatch; a participant whose result is there ends once its destination is written; participants that
wait past the park limit end. Where the manual leaves a point open, this is the model's reading (log entries 42 and 57). -/
def Obligations.CollectiveEvents : Prop :=
  ∀ (s : State) (ctx cid : Nat),
    (∀ ps s' ps', startSet (s.parts ctx cid) = some (ps, true) → readParts s ps = (s', .ok ps') →
      (∀ x ∈ ps, ∀ c, x.cmd = some c → c.state ≠ .parked) → (∀ x ∈ ps', x.data ≠ none) →
      (ps'.filterMap (·.cmd)).Pairwise (fun a b => a.id ≠ b.id) →
      ∃ t, exec (.collectiveStart ctx cid) s = .next t
        ∧ ∀ x c, x ∈ ps' → x.cmd = some c → ∃ c', t.cmd? c.id = some c' ∧ c'.result = some (collResult ps' s'.choices x.desc.rank))
    ∧ (∀ ps, startSet (s.parts ctx cid) = some (ps, false) →
      ∃ t, exec (.collectiveStart ctx cid) s = .next t
        ∧ ∀ x c, x ∈ ps → x.cmd = some c → ∃ c', t.cmd? c.id = some c' ∧ c'.result = some [] ∧ c'.status.getLsbD 4 = true)
    ∧ (∀ cmd c op ty d b, s.cmd? cmd = some c → c.kind = .coll op ty d → c.result = some b → c.state = .collWait →
      (c.status.getLsbD 4 = true → ∃ t, exec (.collectiveComplete cmd) s = .next t ∧ t.cmd? cmd = none)
      ∧ (∀ s', c.status.getLsbD 4 = false → collWrite s c (CollDesc.of d) b = (s', none) →
          exec (.collectiveComplete cmd) s = .next (s'.endCmd cmd 0)))
    ∧ (startSet (s.parts ctx cid) = none →
      (∃ x c, x ∈ s.parts ctx cid ∧ x.cmd = some c ∧ s.pastLimit ctx (s.stackCyc (stackOf c.core) - c.since) = true) →
      ∃ t, exec (.collectiveTimeout ctx cid) s = .next t
        ∧ ∀ x c, x ∈ s.parts ctx cid → x.cmd = some c → t.cmd? c.id = none)

/-! ### The matrix engine -/

/-- R300 to R303: the slot instructions. TCLAIM claims all of its slots or none and tells; TREL releases; MSLOT describes a
slot. R310 to R313: the matrix instructions that act on accumulators post their entries, with what they take at issue. Where the
manual leaves a point open, this is the model's reading (log entries 24 and 37). -/
def Obligations.MatrixInstructions : Prop :=
  (∀ (s : State) (p : Pk), pk? s = some p →
    (∀ acc h pd (first : BitVec 8) (n : BitVec 9), p.issues (.tclaim acc h pd first n) h [] s = true → p.workers h ≠ [] →
      (∀ k, first.toNat ≤ k → k < first.toNat + n.toNat → p.team.claimed acc k = false) →
      let go := decide (n.toNat ≤ s.freeSlots p.team.cluster acc)
      ∃ t, exec (.tclaim acc h pd first n) s = .next t ∧ p.wentOn t ∧ t.mem = s.mem
        ∧ (∀ l, p.actsOn h l → t.predOf p.iss.uid p.iss.grp l.idx pd = (pd == 7 || go))
        ∧ ∃ tm, t.team? p.iss.uid = some tm ∧ ∀ a k, tm.claimed a k
            = (p.team.claimed a k || (go && a == acc && decide (first.toNat ≤ k) && decide (k < first.toNat + n.toNat))))
    ∧ (∀ acc h (first : BitVec 8) (n : BitVec 9), p.issues (.trel acc h first n) h [] s = true → p.workers h ≠ [] →
      (∀ k, first.toNat ≤ k → k < first.toNat + n.toNat → p.team.claimed acc k = true) →
      ∃ t, exec (.trel acc h first n) s = .next t ∧ p.wentOn t ∧ t.mem = s.mem
        ∧ ∃ tm, t.team? p.iss.uid = some tm ∧ ∀ a k, tm.claimed a k
            = (p.team.claimed a k && !(a == acc && decide (first.toNat ≤ k) && decide (k < first.toNat + n.toNat))))
    ∧ (∀ fmt sp ct h a (slot : BitVec 8) x l0, p.issues (.mslot fmt sp ct h a slot) h [] s = true → p.workers h ≠ [] →
      (∀ f, slotSx fmt = some f → (s.tableFor p (ctNum ct p.grp)).serves f = true) →
      tget p.team.ops slot.toNat = some x → p.lanes.head? = some l0 →
      ∃ t, exec (.mslot fmt sp ct h a slot) s = .next t ∧ p.wentOn t ∧ t.mem = s.mem
        ∧ ∃ tm, t.team? p.iss.uid = some tm ∧ tget tm.ops slot.toNat
            = some { x with fmt := fmt, tbl := ctNum ct p.grp, sp := sp, seed := p.read32 l0 0 a.spec }))
  ∧ (∀ (s : State) (p : Pk), pk? s = some p →
    (∀ (o : MmaOp) x y, p.issues (.mma o) o.h [] s = true → p.workers o.h ≠ [] → mmaScaleBad false o p.team = false →
      mmaBad false o p.team = false → tget p.team.ops o.aslot.toNat = some x → tget p.team.ops o.bslot.toNat = some y →
      ∃ tbl2, p.posts s (.mma o) o.h (.mma false o.aslot.toNat o.bslot.toNat o.acc.toNat x.fmt x.tbl y.tbl tbl2 x.seed
        (p.scales x.fmt false o.a.spec o.asel.toNat) (p.scales x.fmt false o.b.spec o.bsel.toNat)))
    ∧ (∀ (o : MmaOp) x y y₂, p.issues (.mmas o) o.h [] s = true → p.workers o.h ≠ [] → mmaScaleBad true o p.team = false →
      mmaBad true o p.team = false → tget p.team.ops o.aslot.toNat = some x → tget p.team.ops o.bslot.toNat = some y →
      tget p.team.ops (o.bslot.toNat + 1) = some y₂ →
      p.posts s (.mmas o) o.h (.mma true o.aslot.toNat o.bslot.toNat o.acc.toNat x.fmt x.tbl y.tbl y₂.tbl x.seed
        (p.scales x.fmt false o.a.spec o.asel.toNat) (p.scales x.fmt true o.b.spec o.bsel.toNat)))
    ∧ (∀ h (acc : BitVec 6), p.issues (.mzero h acc) h [] s = true → p.workers h ≠ [] → p.team.claimed true acc.toNat = true →
      p.posts s (.mzero h acc) h (.zero acc.toNat))
    ∧ (∀ h d b (acc : BitVec 6), p.issues (.mrd h d b acc) h (instrDst (.mrd h d b acc)) s = true → p.workers h ≠ [] →
      p.uniform b ≤ 15 → p.team.claimed true acc.toNat = true →
      p.posts s (.mrd h d b acc) h (.read acc.toNat (p.uniform b)
        (match d with
          | .v n => some n.toNat
          | _ => none) ((p.lanes.filter fun l => l.guard h || l.helper).map (·.idx)) []))
    ∧ (∀ h a b (acc : BitVec 6), p.issues (.mwr h a b acc) h [] s = true → p.workers h ≠ [] →
      p.uniform b ≤ 15 → p.team.claimed true acc.toNat = true →
      p.posts s (.mwr h a b acc) h (.write acc.toNat (p.uniform b)
        ((p.lanes.filter fun l => l.guard h || l.helper).flatMap fun l =>
          ((p.read128 l a.spec).zip (List.range 4)).map fun x => (l.idx, x.2, x.1)))))

/-- R308: a pass gives every element of its accumulator the rounded sum of its old value and the exact block sums. R311, R312,
R315: what an entry that is granted does to its accumulator: MZERO clears it, MWR puts the lanes' words in their places of the
band and leaves every other byte, MRD changes nothing in it and takes the band's words, the quiet NaN for a word of a sector that
is poisoned or fails its check (R231, R312). Where the manual leaves a point open,
this is the model's reading (log entry 55). -/
def Obligations.AccumulatorContents : Prop :=
  (∀ (acc a b b₂ : Slot) (ta tb : Tile) (sp : Option (Tile × Word)) (m c : Nat), m < 128 → c < 128 →
    leNat (mreadN (passAcc acc a b b₂ (ta, tb, sp)).bytes (4 * (128 * m + c)) 4)
      = passResult (fp32.val (leNat (mreadN acc.bytes (4 * (128 * m + c)) 4)) :: blockSums ta tb sp m c) % 2 ^ 32)
  ∧ (∀ (s : State) (t : Team) (e : MatEntry) (c band : Nat) (x : Slot), s.team? e.uid = some t → t.slotFor true c e.id = some x →
    (e.kind = .zero c → ∃ t', (s.runEntry t e).team? e.uid = some t'
      ∧ ∃ x', t'.slotFor true c e.id = some x' ∧ ∀ k, mread x'.bytes k = 0)
    ∧ (∀ vals, e.kind = .write c band vals → ∃ t', (s.runEntry t e).team? e.uid = some t'
      ∧ ∃ x', t'.slotFor true c e.id = some x'
        ∧ (∀ l j w, (l, j, w) ∈ vals → (∀ l' j' w', (l', j', w') ∈ vals → bandWord band l' j' = bandWord band l j → w' = w) →
            leNat (mreadN x'.bytes (4 * bandWord band l j) 4) = w.toNat)
        ∧ ∀ k, (∀ v ∈ vals, k / 4 ≠ bandWord band v.1 v.2.1) → mread x'.bytes k = mread x.bytes k)
    ∧ (∀ d lanes vals, e.kind = .read c band d lanes vals → (∀ l ∈ lanes, l < 256) → s.matrix.find? (·.id == e.id) = some e →
      ∃ e', (s.runEntry t e).matrix.find? (·.id == e.id) = some e' ∧ e'.kind = .read c band d lanes
        (lanes.flatMap fun l => (List.range 4).map fun j => (l, d.getD 0 + j,
          if x.poison.contains (bandWord band l j / 8) || x.flaw.any (·.1 == bandWord band l j / 8) then word fp32.nan
          else word (leNat (mreadN x.bytes (4 * bandWord band l j) 4))))))

/-- R313, R314, R316: the events of the matrix engine. A free engine takes the arbiter's choice for its cycles; an entry that
has waited more than 4,096 service cycles is aged; an entry whose cycles are over is gone; every window that has begun by its
counter is open, each with the allowance of R316; a pass that pauses or is held back at the allowance counts one stall a window. Where the manual leaves a point open, this is
the model's reading (log entry 55). -/
def Obligations.MatrixEvents : Prop :=
  ∀ (s : State) (cluster : Nat),
    (∀ e t, s.granted cluster = none → (s.govSync cluster).pickEntry cluster = some e → (s.govSync cluster).team? e.uid = some t →
      exec (.matrixEntryGrant cluster) s = .next ((((s.govSync cluster).holdBack cluster).updEntry e.id fun e =>
        { e with granted := true, left := e.kind.cycles }).runEntry t
          { e with granted := true, left := e.kind.cycles }))
    ∧ (∀ e, s.matrix.find? (·.id == e.id) = some e → e.granted = false → 4096 < s.unitCyc e.uid - e.posted →
      ∃ t, exec (.matrixEntryAged e.id) s = .next t ∧ t.matrix.find? (·.id == e.id) = some { e with aged := true })
    ∧ (∀ e, (s.govSync cluster).granted cluster = some e → e.left = 0 →
      ∃ t, exec (.matrixEntryEnd cluster) s = .next t ∧ t.matrix.find? (·.id == e.id) = none)
    ∧ (∃ t, exec (.governorWindow cluster) s = .next t ∧ t = s.govSync cluster
        ∧ s.matClock cluster < 256 * (t.gov cluster).win + 256)
    ∧ (((s.govNext cluster).gov cluster).win = (s.gov cluster).win + 1 ∧ ((s.govNext cluster).gov cluster).u = 0
        ∧ ((s.govNext cluster).gov cluster).e = min (min s.bar0.govAllow s.bar0.pcap) ((s.gov cluster).u + 64))
    ∧ (let s' := s.govSync cluster
      (s'.gov cluster).e ≤ (s'.gov cluster).u → (s'.gov cluster).stalled = false →
      (∃ e, s'.granted cluster = some e ∧ e.kind.isPass = true ∧ 0 < e.left ∧ s'.draining e.uid = false)
        ∨ s'.passWaits cluster = true →
      ∃ t, exec (.governorAllowanceReached cluster) s = .next t ∧ (t.gov cluster).stalled = true
        ∧ (t.gov cluster).stalls = min 0x7FFFFF ((s'.gov cluster).stalls + 1))

/-! ### Textures, beams and rays -/

/-- R384 to R394: the texture lookups complete lane by lane. What a lane gets: of a point sample at a level of its own without
residency, the four components of the one texel, each rounded once, with the status word of R388, the border colour where the
addressing mode gives no texel, zeros with status 4 of a poisoned texel, or a fault of its page; of a point query with
residency, the level, the status word, the map byte m and N = 1, where the delivered level is the greater of the requested one
and min(m, PIN); of LODLD without residency, the texel's bytes with the status word, an ILLOPD of bad operand bits, a fault of its page, or,
when its page has none, an ENGINEF of a width that is not the texel's. R389: a lookup that the device puts off has made its checks and
delivers what its texels hold when it is performed. R386: a weighted sum of real values is rounded once; a NaN of nonzero weight makes a
NaN. R363 to R367, R372, R373, R379: the beam and ray instructions
complete lane by lane: BNEW and BFREE with a result on the way, BTRACE, RTRACE and RRESUME with an operation started. Where the
manual leaves a point open, this is the model's reading (log entries 15, 29 and 50). -/
def Obligations.LookupBeamAndRayInstructions : Prop :=
  (∀ (s : State) (p : Pk), pk? s = some p →
    (∀ flt lodm st (o : TexOp), p.looksUp s (.tex flt lodm st o) o.h (texLookup .sample flt lodm o (p.active o.h)))
    ∧ (∀ (comp : BitVec 2) lodm st (o : TexOp),
        p.looksUp s (.texg comp lodm st o) o.h (texLookup (.gather comp.toNat) .bil lodm o (p.active o.h)))
    ∧ (∀ flt lodm (o : TexOp), p.looksUp s (.texq flt lodm o) o.h (texLookup .query flt lodm o (p.active o.h))))
  ∧ (∀ (s s₁ : State) (p : Pk) (l : Lane) (act : List Lane) (o : TexOp) (d : TexDesc),
    s.texDesc p l.idx (p.read64 l 0 o.b.spec) = (s₁, .ok d) →
    let a (k : Nat) : Nat := ((p.read128 l o.a.spec).map (·.toNat)).getD k 0
    let lod := d.lodLevel (a 3)
    let rq := (d.request false lod.k).1
    let z := min (a 2) (d.l - 1)
    let x (e : Nat) : Option Nat := texPlace d.umode (texIndex (coord (a 0)) (d.wAt e) true).1 (d.wAt e)
    let y (e : Nat) : Option Nat := texPlace d.vmode (texIndex (coord (a 1)) (d.hAt e) true).1 (d.hAt e)
    let s₂ := (s₁.choose 2).1
    let n := (texTile d.fmt).2.2
    let rgba (c : Nat → TVal) : List Nat := (List.range 4).map fun k => weigh [(1, c k)]
    let sample := (texLookup .sample .pt .level o act).lane s p l
    (d.lodres = false →
      (∀ i j, x rq = some i → y rq = some j →
        (∀ s₃ va nr, s₂.absentPage p [d.addr rq z i j] = (s₃, some (va, nr)) → sample = (s₃, .error (addrTrap l.idx cPAGEF va .load)))
        ∧ ∀ s₃, s₂.absentPage p [d.addr rq z i j] = (s₃, none) →
          (∀ s₄ t, s₃.texAt p l.idx (d.addr rq z i j) = (s₄, .error t) → sample = (s₄, .error t))
          ∧ ∀ s₄ pl, s₃.texAt p l.idx (d.addr rq z i j) = (s₄, .ok pl) →
            (s₄.texBytes pl n = none →
              sample = (s₄.hostReq pl n .read, .ok [(l.idx, natWords [0, 0, 0, 0, 4 + rq * 2 ^ 8 + rq * 2 ^ 16, 0, 0, 0])]))
            ∧ ∀ b, s₄.texBytes pl n = some b → sample = (s₄.hostReq pl n .read, .ok [(l.idx, natWords
              (rgba (fun k => (texel d.fmt b).getD k .nan) ++ [rq * 2 ^ 8 + rq * 2 ^ 16, 0, 0, 0]))]))
      ∧ ((x rq = none ∨ y rq = none) → sample = (s₂, .ok [(l.idx, natWords
          (rgba (fun k => (d.border.map (tvalOf fp32)).getD k .nan) ++ [rq * 2 ^ 8 + rq * 2 ^ 16, 0, 0, 0]))])))
    ∧ (d.lodres = true → ∀ s₃ s₄ m i j,
      let cx := d.centre (coord (a 0)) (coord (a 1)) 0
      let at_ := d.centre (coord (a 0)) (coord (a 1)) rq
      let e := max rq (min m d.pin)
      let st := if e = rq then 0 else if e = d.pin then 2 else 1
      s₂.mapByte p l.idx (dword (d.map + (z * d.ty 0 + cx.2 / (texTile d.fmt).2.1) * d.tx 0 + cx.1 / (texTile d.fmt).1))
        = (s₃, .ok (some m)) → x e = some i → y e = some j → s₃.absentPage p [d.addr e z i j] = (s₄, none) →
      (texLookup .query .pt .level o act).lane s p l = (match texFeed l d st rq at_.1 at_.2 z with
          | some f => s₄.feedback p.team.ctx p.grp.core f.1 f.2
          | none => s₄,
        .ok [(l.idx, natWords [ratF32 (mkRat lod.k 256), st + e * 2 ^ 8 + rq * 2 ^ 16, m, 1])])))
  ∧ (∀ (s : State) (p : Pk) (l : Lane) (m : MemOp),
    let w := (p.read32 l 0 m.x.spec).toNat
    let idx := (p.read32 l 0 m.idx.spec).toNat
    let lodld := (lodldLookup m).lane s p l
    (w / 2 ^ 4 % 2 ^ 12 ≠ 0 → lodld = (s, .error { lane := l.idx, cause := cILLOPD }))
    ∧ ∀ s₁ d, w / 2 ^ 4 % 2 ^ 12 = 0 → s.texDesc p l.idx (p.read64 l 0 m.adr.spec) = (s₁, .ok d) → d.lodres = false →
      let n := (texTile d.fmt).2.2
      let rq := min (w % 16) d.top
      let va := d.addr rq (min (w / 2 ^ 16) (d.l - 1)) (min (idx % 2 ^ 16) (d.wAt rq - 1)) (min (idx / 2 ^ 16) (d.hAt rq - 1))
      (∀ s₂ a nr, s₁.absentPage p [va] = (s₂, some (a, nr)) → lodld = (s₂, .error (addrTrap l.idx cPAGEF a .load)))
      ∧ ∀ s₂, s₁.absentPage p [va] = (s₂, none) →
        (∀ s₃ t, s₂.texAt p l.idx va = (s₃, .error t) → lodld = (s₃, .error t))
        ∧ ∀ s₃ pl, s₂.texAt p l.idx va = (s₃, .ok pl) →
          (m.width.bytes ≠ n → lodld = (s₁, .error { lane := l.idx, cause := cENGINEF, info := 5 }))
          ∧ (m.width.bytes = n →
            (s₃.texBytes pl n = none →
              lodld = (s₃.hostReq pl n .read, .ok [(l.idx, natWords [0, 0, 4 + rq * 2 ^ 8 + rq * 2 ^ 16, 0])]))
            ∧ ∀ b, s₃.texBytes pl n = some b →
              lodld = (s₃.hostReq pl n .read, .ok [(l.idx, natWords [widthVal m.width b % 2 ^ 32, widthVal m.width b / 2 ^ 32 % 2 ^ 32,
                rq * 2 ^ 8 + rq * 2 ^ 16, 0])])))
  ∧ (∀ (s : State) (p : Pk) (e : Late) (k : Look), e.look = some k →
    (∃ flt lodm st o, e.instr = .tex flt lodm st o) ∨ (∃ c lodm st o, e.instr = .texg c lodm st o) ∨ (∃ m, e.instr = .lodld m) →
    (s.performLate p e).2.1 = k.value (match e.loc with
      | .mem ps => ps.map fun x => (s.locHome e.loc).texBytes x.1 x.2.1
      | .scr .. => []))
  ∧ (∀ l : List (Rat × Rat), weigh (l.map fun x => (x.1, .real x.2)) = ratF32 ((l.map fun x => x.1 * x.2).sum))
  ∧ (∀ l : List (Rat × TVal), (∃ x ∈ l, x.1 ≠ 0 ∧ x.2 = .nan) → weigh l = fp32.nan)
  ∧ (∀ (s : State) (p : Pk), pk? s = some p →
    (∀ h d a, p.lanesDo s (.bnew h d a) h (cmdLanes (bnewLane a)))
    ∧ (∀ h d a, p.lanesDo s (.bfree h d a) h (cmdLanes (bfreeLane a)))
    ∧ (∀ h d a b c mask, p.startsDo s (.btrace h d a b c mask) h (btraceLane (.btrace h d a b c mask) h d a b c mask) (p.workers h)
        (((p.active h).filter (·.helper)).map fun l => (l.idx, 0)))
    ∧ (∀ first mask h d a b c root, p.startsDo s (.rtrace first mask h d a b c root) h
        (rtraceLane (.rtrace first mask h d a b c root) first mask h d a b c root) (p.active h) [])
    ∧ (∀ sh cm h d a b c, p.startsDo s (.rresume sh cm h d a b c) h
        (rresumeLane (.rresume sh cm h d a b c) sh cm h d a b c) (p.active h) []))

/-- R364, R365, R367: what the beam instructions do for one lane. BNEW puts a valid description into the lowest free record and
gives its handle; BTRACE of a record that is not traced starts a trace, whose root cell, when the beam meets the region rectangle and
the pool has a free record, holds one (R355), and empties its ring; BFREE frees a record, at the end of
its trace when one runs, and refuses what is no record. Where the manual leaves a point open, this is the model's reading (log
entries 15 and 63). -/
def Obligations.BeamRecordLifecycle : Prop :=
  ∀ (s s₁ : State) (p : Pk) (l : Lane) (t : Team), s.team? p.iss.uid = some t → s₁.team? p.iss.uid = some t →
    (∀ a img k free beam, s.laneRead p l.idx (p.read64 l 0 a.spec) 256 64 = (s₁, .ok img) → Beam.of img = some beam →
      s₁.freeBeams t = k :: free → ∃ s', bnewLane a s p l = (s', .ok [(l.idx, k + 1)])
        ∧ ∃ t', s'.team? p.iss.uid = some t' ∧ tget t'.beams k = some { image := img } ∧ ∀ j, j ≠ k → tget t'.beams j = tget t.beams j)
    ∧ (∀ a img, s.laneRead p l.idx (p.read64 l 0 a.spec) 256 64 = (s₁, .ok img) → Beam.of img = none →
      bnewLane a s p l = (s₁, .ok [(l.idx, 0x80000042)]))
    ∧ (∀ a img beam, s.laneRead p l.idx (p.read64 l 0 a.spec) 256 64 = (s₁, .ok img) → Beam.of img = some beam → s₁.freeBeams t = [] →
      bnewLane a s p l = (s₁, .ok [(l.idx, 0x80000041)]))
    ∧ (∀ i h d a b c mask pkt k r ring n, p.x32 l 0 a = k + 1 → tget t.beams k = some r → r.traced = false → r.freed = false →
      p.x32 l 0 b = ring → p.x32 l 0 c = n → 1 ≤ n → n ≤ 65536 → ring % 128 = 0 → p.team.scrOk ring (128 * n) = true →
      (∀ x ∈ s.traces, x.id ≠ s.nextId) → ∃ s', btraceLane i h d a b c mask pkt s p l = (s', .ok [])
        ∧ (∃ tr, s'.traces = s.traces ++ [tr] ∧ tr.id = s.nextId ∧ tr.recIdx = k ∧ tr.ring = ring ∧ tr.n = n ∧ tr.lane = l.idx
          ∧ tr.mask = mask.toNat ∧ tr.lines = 0
          ∧ ∀ g, Beam.of r.image = some g → g.rootPoly ≠ [] → s.freeBeams t ≠ [] → ∃ j ∈ s.freeBeams t, tr.held = [j])
        ∧ (∀ j, j < n → s'.lineFull p.iss.uid (ring / 128 + j) = false)
        ∧ ∃ t', s'.team? p.iss.uid = some t' ∧ tget t'.beams k = some { r with traced := true })
    ∧ (∀ a k r, p.x32 l 0 a = k + 1 → tget t.beams k = some r → ∃ s', bfreeLane a s p l = (s', .ok [(l.idx, 0)])
        ∧ ∃ t', s'.team? p.iss.uid = some t' ∧ tget t'.beams k = if r.traced then some { r with freed := true } else none)
    ∧ (∀ a, (p.x32 l 0 a = 0 ∨ tget t.beams (p.x32 l 0 a - 1) = none) → bfreeLane a s p l = (s, .ok [(l.idx, 0x80000044)]))

/-- R372 to R374: RTRACE of a lane whose operands pass starts a traversal with the lane's ray, mask and root and nothing
committed; a ray that can meet nothing ends at once. R374: a ray ends at once exactly when a word of it is not finite, its
direction is zero, its interval is empty, or its root is no node address. Where the manual leaves a point open, this is the
model's reading (log entry 48). -/
def Obligations.RayTraversalStart : Prop :=
  (∀ (s : State) (p : Pk) (l : Lane) (i : Instr) first (mask : BitVec 8) h d a b c root pkt area, rayChecks false d c s p l = .ok area →
    ∃ s', rtraceLane i first mask h d a b c root pkt s p l = (s', .ok [])
      ∧ ∃ tr, s'.traversals = s.traversals ++ [tr] ∧ tr.id = s.nextId ∧ tr.lane = l.idx ∧ tr.area = area
        ∧ tr.ray.world = (p.read128 l a.spec ++ p.read128 l b.spec).map (·.toNat) ∧ tr.ray.valid = false
        ∧ tr.ray.mask = mask.toNat ∧ tr.ray.first = first ∧ tr.ray.stack = [rootEnt tr.ray.root] ∧ tr.early = tr.ray.atOnce)
  ∧ (∀ r : RayState, (r.atOnce = none ↔ rayLine r.world ≠ none ∧ f32Rat r.tmin ≠ none ∧ f32Rat r.tmax ≠ none
      ∧ f32Lt r.tmin 0 = false ∧ f32Lt r.tmin r.tmax = true ∧ canonical (dword r.root) = true ∧ r.root % 128 = 0)
    ∧ (r.atOnce = some rayMISS ∨ r.atOnce = some rayFORMAT ∨ r.atOnce = none))

/-- R362, R366, R368: the events of beam traces. A ring line that is empty takes the next records and is full; a trace whose
lines are all written ends; a poisoned or malformed node, or one that meets PROT or PKEYF, ends it with that fault's status (2, 3
or 4) and record; the end writes the status and the count of the lines into D; a page that is not present parks it under a
new handle; a ring line that stays full past the park limit ends it. A walk that is still going on keeps its place. Where the manual leaves a point open, this is the model's
reading (log entries 44 and 46). -/
def Obligations.BeamEvents : Prop :=
  ∀ (s : State) (id : Nat) (tr : Trace), s.trace? id = some tr → s.traceRuns tr = true →
    (∀ s' recs, s.beamOut tr = (s', some (.ok recs)) →
      (let eight := (recs.drop (8 * tr.lines)).take 8
      let line := tr.lines % tr.n
      eight ≠ [] → s.lineFull tr.uid (tr.ring / 128 + line) = false → tr.ring % 128 = 0 →
      ∃ t, exec (.beamRingLineWrite id) s = .next t ∧ t.lineFull tr.uid (tr.ring / 128 + line) = true
        ∧ (∃ tr', t.trace? id = some tr' ∧ tr'.lines = tr.lines + 1)
        ∧ ∀ j, j < eight.length → ∃ tm, t.team? tr.uid = some tm
          ∧ leNat (mreadN tm.scr.bytes (tr.ring + 128 * line + 16 * j) 16) = (eight.getD j 0).toNat)
      ∧ (recs.length ≤ 8 * tr.lines →
        ∃ t, exec (.beamTraceEnd id) s = .next t ∧ t = s'.endTrace id 0 ∧ t.trace? id = none)
      ∧ (8 * tr.lines < recs.length → s.lineFull tr.uid (tr.ring / 128 + tr.lines % tr.n) = true →
        s.pastLimit (s.ctxOf tr.uid) (s.unitCyc tr.uid - tr.waitSince) = true →
        ∃ t, exec (.beamRingTimeout id) s = .next t ∧ t.trace? id = none))
    ∧ (∀ s', s.beamOut tr = (s', none) → exec (.beamTraceEnd id) s = .next s' ∧ exec (.beamRingLineWrite id) s = .next s'
      ∧ exec (.beamRingTimeout id) s = .next s')
    ∧ (∀ s' va, s.beamOut tr = (s', some (.error (.poison va))) →
      ∃ t, exec (.beamTraceEnd id) s = .next t ∧ t = (s'.traceRecord tr cPOISON 2 va 0).endTrace id 2 ∧ t.trace? id = none)
    ∧ (∀ s' va, s.beamOut tr = (s', some (.error (.format va))) →
      ∃ t, exec (.beamTraceEnd id) s = .next t ∧ t = (s'.traceRecord tr cENGINEF 3 va 9).endTrace id 3 ∧ t.trace? id = none)
    ∧ (∀ s' c va, s.beamOut tr = (s', some (.error (.denied c va))) →
      ∃ t, exec (.beamTraceEnd id) s = .next t ∧ t = (s'.traceRecord tr c 4 va 4).endTrace id 4 ∧ t.trace? id = none)
    ∧ (∀ st g q x l, s.group? tr.uid tr.grp = some g → q ∈ g.inflight → q.owner = some id → (tr.lane, tr.d.getD 0, x) ∈ q.regs →
      g.lane? tr.lane = some l → (s.endTrace id st).vregOf tr.uid tr.grp tr.lane (tr.d.getD 0)
        = word (st * 2 ^ 28 + min (if st = 0 then tr.lines else max tr.lines tr.n) 0xFFFFFF))
    ∧ (∀ s' va, s.beamOut tr = (s', some (.error (.pagef va))) →
      ∃ t, exec (.beamTracePagef id) s = .next t ∧ ∃ tr', t.trace? id = some tr' ∧ tr'.parked = some s'.nextId)

/-- R375, R377, R380: the events of ray traversals. A traversal that has run to its end is gone, its record written where it met
poison or a denied page; one that has not come to its end keeps what it has; one that meets a page that is not present keeps its place and its team parks. Where the manual leaves a
point open, this is the model's reading (log entries 27, 44 and 49). -/
def Obligations.RayEvents : Prop :=
  ∀ (s : State) (id : Nat) (tr : Traversal), s.trav? id = some tr → s.rayRuns tr = true →
    (∀ st, (s.runRay tr).out = some (.ok st) →
      ∃ t, exec (.rayTraversalEnd id) s = .next t ∧ t = (s.runRay tr).s.endRay tr st (s.runRay tr).r (s.runRay tr).rst
        ∧ t.trav? id = none)
    ∧ (∀ va, (s.runRay tr).out = some (.error (.format va)) →
      ∃ t, exec (.rayTraversalEnd id) s = .next t
        ∧ t = (s.runRay tr).s.endRay tr rayFORMAT (s.runRay tr).r (s.runRay tr).rst ∧ t.trav? id = none)
    ∧ (∀ va, (s.runRay tr).out = some (.error (.poison va)) →
      ∃ t, exec (.rayTraversalEnd id) s = .next t ∧ t.trav? id = none
        ∧ t = ((s.runRay tr).s.rayRecord tr cPOISON 0 0 0 va 0).endRay tr rayPOISON (s.runRay tr).r (s.runRay tr).rst)
    ∧ (∀ c va, (s.runRay tr).out = some (.error (.denied c va)) →
      ∃ t, exec (.rayTraversalEnd id) s = .next t ∧ t.trav? id = none
        ∧ t = ((s.runRay tr).s.rayRecord tr c 0 0 0 va 4).endRay tr rayPROT (s.runRay tr).r (s.runRay tr).rst)
    ∧ ((s.runRay tr).out = none → ∃ t, exec (.rayTraversalEnd id) s = .next t
        ∧ ∃ tr', t.trav? id = some tr' ∧ tr'.ray = (s.runRay tr).r ∧ tr'.rst = (s.runRay tr).rst)
    ∧ (∀ va t₀, (s.runRay tr).out = some (.error (.pagef va)) → s.team? tr.uid = some t₀ →
      (t₀.kill = false → ∃ t, exec (.rayTraversalPagef id) s = .next t
        ∧ ∃ s₁ : State, t = (s₁.rayRecord tr cPAGEF 2 1 (s.runRay tr).s.nextId va 4).beginSave tr.uid .traversal (s.runRay tr).s.nextId
          ∧ ∃ tr', s₁.trav? id = some tr' ∧ tr'.parked = true ∧ tr'.reload = true ∧ tr'.ray = (s.runRay tr).r)
      ∧ (t₀.kill = true → ∃ t, exec (.rayTraversalPagef id) s = .next t ∧ t.trav? id = none))

/-- R376: a committed hit becomes the current TMAX and the hit of the ray; a hit outside the interval (TMIN, TMAX] is no better
one. R377: the result registers of a traversal: the committed hit, the suspended candidate, or the values of a miss, then the
status word and two zeros. R125: the results of an engine operation reach the registers that still wait for them, and no other
register. Where the manual leaves a point open, this is the model's reading (log entry 48). -/
def Obligations.RayHitsAndResults : Prop :=
  (∀ (r : RayState) (t b1 b2 prim inst : Nat) (proc : Bool),
    (r.world.length = 8 → (r.commit t b1 b2 prim inst proc).tmax = t ∧ (r.commit t b1 b2 prim inst proc).tmin = r.tmin)
    ∧ (r.commit t b1 b2 prim inst proc).valid = true ∧ (r.commit t b1 b2 prim inst proc).stack = r.stack
    ∧ (r.commit t b1 b2 prim inst proc).com.take 4 = [t, b1, b2, prim]
    ∧ (r.betters t prim inst = true → f32Lt r.tmin t = true ∧ f32Lt r.tmax t = false))
  ∧ (∀ (r : RayState) (rst : Bool),
    rayResult rayHIT r rst = [r.com.getD 0 0, r.com.getD 1 0, r.com.getD 2 0, r.com.getD 3 0, r.com.getD 4 0 % 2 ^ 24,
      (if (r.com.getD 4 0).testBit 30 then 16 else 0) + (if rst then 32 else 0), 0, 0]
    ∧ rayResult raySUSPEND r rst = [r.cand.getD 3 0, r.cand.getD 4 0, r.cand.getD 1 0, r.cand.getD 0 0, r.cand.getD 2 0,
      2 + (if rst then 32 else 0), 0, 0]
    ∧ ∀ st, st = rayMISS ∨ st = rayPOISON ∨ st = rayFORMAT ∨ st = rayPROT →
      rayResult st r rst = [0x7F800000, 0, 0, 0xFFFFFFFF, 0x00FFFFFF, st + (if rst then 32 else 0), 0, 0])
  ∧ (∀ (g : Group) (id : Nat) (vals : List (Nat × Nat × Word)) (k r : Nat) (l : Lane), g.lane? k = some l →
    ∃ l', (g.deliverOwner id vals).lane? k = some l' ∧ l'.pc = l.pc ∧ l'.preds = l.preds
      ∧ (∀ w, (∃ q ∈ g.inflight, q.owner = some id ∧ ∃ x, (k, r, x) ∈ q.regs) →
          vals.find? (fun v => v.1 == k && v.2.1 == r) = some (k, r, w) → l'.vreg r = w)
      ∧ ((∀ q ∈ g.inflight, q.owner = some id → ∀ x, (k, r, x) ∉ q.regs) → l'.vreg r = l.vreg r))

/-! ### The join unit -/

/-- R332 to R341: the join instructions complete. POST, when every message is placed; POSTN with the statuses, one for its packet when D is an s-register (R41), and TAKE with
messages and predicates on the way; PATSET, PATCLR and PORTCFG with their result for every active lane, PORTCFG's at once or,
where the state puts it off, with its event in flight (log entry 15); WAIT parks its group behind a new pattern while one of
its ports holds no message. Where the manual leaves a point open, this is the model's reading (log entries 31 and 45). -/
def Obligations.JoinInstructionsComplete : Prop :=
  ∀ (s : State) (p : Pk), pk? s = some p →
    (∀ h a ref, let i := Instr.post h a ref
      let r := postLanes false a ref p false (s.issued p h (instrDst i)) (p.workers h)
      p.issues i h (instrDst i) s = true → r.2.traps = [] → r.2.wait = [] →
      ∃ t, exec i s = .next t ∧ p.wentOn t ∧ r.1.onlyGroup t p.iss.uid p.iss.grp)
    ∧ (∀ h d a ref, let i := Instr.postn h d a ref
      let r := postLanes true a ref p false (s.issued p h (instrDst i)) (if i.scalarDst then (p.workers h).take 1 else p.workers h)
      p.issues i h (instrDst i) s = true → r.2.traps = [] →
      ∃ t, exec i s = .next t ∧ p.wentOn t
        ∧ p.endsWith t r.1 i (r.2.vals ++ ((p.active h).filter (·.helper)).map fun l => (l.idx, 0)))
    ∧ (∀ h d pc ref, let i := Instr.take h d pc ref
      let r := takeLanes pc ref p (s.issued p h (instrDst i)) (p.active h)
      p.issues i h (instrDst i) s = true → r.2.traps = [] →
      ∃ t, exec i s = .next t ∧ p.wentOn t ∧ p.endsWith t r.1 i r.2.vals
        ∧ (r.2.preds ≠ [] → ∃ g, p.grpNow t = some g ∧ ∃ q ∈ g.inflight, q.preds = r.2.preds))
    ∧ (∀ h d a b c, p.packetDoes s (.patset h d a b c) h (patset h a b c))
    ∧ (∀ h d a, p.packetDoes s (.patclr h d a) h fun s p =>
        match s.patterns.find? fun x => x.ctx == p.team.ctx && x.isStart && x.handle == p.uni 0 a.spec with
        | some x => (s.removePattern x, .ok 0)
        | none => (s, .ok 0x80000034))
    ∧ (∀ h d a ref c n, p.lanes.head?.bind (fun l => p.portOf l ref false) = some n →
        let i := Instr.portcfg h d a ref c
        (s.putOff = false ∨ i.scalarDst = true → p.packetDoes s i h fun s p =>
          ((s.configPort p.team.ctx n.port (p.uni 0 a.spec) (p.uni64 c.spec) (c.spec != .zero)).1,
           .ok (s.configPort p.team.ctx n.port (p.uni 0 a.spec) (p.uni64 c.spec) (c.spec != .zero)).2))
        ∧ (s.putOff = true → i.scalarDst = false → p.workers h ≠ [] → p.issues i h (instrDst i) s = true →
          ∃ t, exec i s = .next t ∧ p.wentOn t ∧ t.ports = s.ports
            ∧ ∃ g q, p.grpNow t = some g ∧ q ∈ g.inflight ∧ q.late = some (lateConfig i h a n.port c p))
        ∧ ∀ s' : State, s'.performLate p (lateConfig i h a n.port c p)
            = ((s'.configPort p.team.ctx n.port (p.uni 0 a.spec) (p.uni64 c.spec) (c.spec != .zero)).1,
               (s'.configPort p.team.ctx n.port (p.uni 0 a.spec) (p.uni64 c.spec) (c.spec != .zero)).2, 0))
    ∧ (∀ pri h ports l sp, p.issues (.wait pri h ports) h (instrDst (.wait pri h ports)) s = true → p.workers h ≠ [] →
      p.waitPorts ports = some l → portsOk l = true → (∀ n ∈ l, s.port? p.team.ctx n ≠ none) →
      s.patRoom p.team.ctx (portStack (l.headD 0)) false = some sp → (∃ n ∈ l, ∀ x, s.port? p.team.ctx n = some x → x.msgs = []) →
      ∃ t, exec (.wait pri h ports) s = .next t
        ∧ (∃ x, t.patterns = s.patterns ++ [x] ∧ x.ports = l ∧ x.kind = .wake p.iss.uid p.iss.grp ∧ x.prio = pri.toNat ∧ x.rpt = false)
        ∧ ∀ k, p.sole k → ∃ k', p.now t k.idx = some k' ∧ k'.park = some (.wait, s.coreCyc p.grp.core) ∧ k'.pc = k.pc)

/-- R334: a thread's message for a port of this device: placed at the end of the store when there is a free slot and nothing in
the ring; dropped at a full port whose action is `fault`; refused at a closed one, and held back at a full one whose action is
`stall`. R322, R330: a message that enters a store stands behind those already there; a take gives the oldest one of each port
and leaves the others in their order. R341: PORTCFG: a malformed configuration is refused with 0x80000021; opening a closed port
gives it its depth and no message; closing an idle port removes it; closing one that holds messages or patterns is refused with
0x80000023. Where the manual leaves a point open, this is the model's reading (log entry 51). -/
def Obligations.PortStores : Prop :=
  (∀ (s : State) (t : Tid) (ctx port : Nat) (val : Dword),
    (s.port? ctx port = none → s.threadPost t ctx false 0 port val = (s, .closed))
    ∧ ∀ p, s.port? ctx port = some p →
      (p.ringCount = 0 → p.msgs.length < p.depth → (s.threadPost t ctx false 0 port val).2 = .placed)
      ∧ (p.depth ≤ p.msgs.length → p.act = .stall → s.threadPost t ctx false 0 port val = (s, .full))
      ∧ (p.depth ≤ p.msgs.length → p.ringCount = 0 → p.act = .fault → s.threadPost t ctx false 0 port val = (s, .dropped)))
  ∧ (∀ (s : State) (ctx port : Nat) (m : Msg) (p : Port), s.port? ctx port = some p →
    (∃ p', (s.acceptMsg ctx port m).port? ctx port = some p' ∧ p'.msgs.map (·.val) = p.msgs.map (·.val) ++ [m.val])
    ∧ ∀ x rest, p.msgs = x :: rest → (s.takeMsgs ctx [port]).2 = [x]
      ∧ ∃ p', (s.takeMsgs ctx [port]).1.port? ctx port = some p' ∧ p'.msgs = rest)
  ∧ (∀ (s : State) (ctx port cfg : Nat) (ring : Dword) (used : Bool),
    (65536 ≤ cfg ∨ 64 < cfg % 128 → s.configPort ctx port cfg ring used = (s, 0x80000021))
    ∧ (s.port? ctx port = none → 0 < cfg % 128 → cfg ≤ 64 → used = false → (s.storeUsed (portStack port) + cfg ≤ 16384) →
      (s.configPort ctx port cfg ring used).2 = 0
      ∧ ∃ p, (s.configPort ctx port cfg ring used).1.port? ctx port = some p ∧ p.depth = cfg ∧ p.msgs = [] ∧ p.act = .stall
        ∧ p.ring = none ∧ p.hvis = false)
    ∧ (∀ p, s.port? ctx port = some p → cfg = 0 → used = false → (s.ctx? ctx).map (·.faultPort) ≠ some port →
      s.storeUsed (portStack port) ≤ 16384 →
      (p.msgs = [] → p.ringCount = 0 → p.pats = [] →
        (s.configPort ctx port cfg ring used).2 = 0 ∧ (s.configPort ctx port cfg ring used).1.port? ctx port = none)
      ∧ (p.msgs ≠ [] ∨ p.ringCount ≠ 0 ∨ p.pats ≠ [] → s.configPort ctx port cfg ring used = (s, 0x80000023))))

/-- R324, R334, R338, R344, R345, R462: the events of the join unit: a post on its way is delivered; a lane whose retried
message is placed goes on; waits past the park limit trap; the host's window posts and takes, and reads all ones where it may
not. Where the manual leaves a point open, this is the model's reading (log entry 51). -/
def Obligations.JoinEvents : Prop :=
  ∀ (s : State),
    (∀ k q r, s.joinQ.drop k = q :: r →
      exec (.portArrival k) s = .next ({ s with joinQ := s.joinQ.take k ++ r }.deliver q))
    ∧ (∀ uid grp lane t g w e h s', s.team? uid = some t → s.group? uid grp = some g → t.state = .running →
      g.fes.find? (fun w => w.isPost && w.lanes.any (·.1 == lane)) = some w → w.lanes.find? (·.1 == lane) = some e →
      w.instr.hdr = some h → w.iss.uid = uid → w.iss.grp = grp →
      (∀ x ∈ w.lanes, lane ≤ x.1) → (let n := PortName.ofWord e.2.1;
      s.threadPost (.lane uid grp lane) t.ctx n.rmt n.dev n.port (dword e.2.2) = (s', .placed)) →
      ∃ t', exec (.postRetry uid grp lane) s = .next t' ∧ ∀ l l', s'.lane? uid grp lane = some l →
        t'.lane? uid grp lane = some l' → l'.park = none ∧ l'.pc = (l.advance w.iss).pc)
    ∧ (∀ uid grp lane t l since, s.team? uid = some t → s.lane? uid grp lane = some l → t.state = .running →
      l.park = some (.post, since) → s.pastLimit t.ctx (s.grpCyc uid grp - since) = true →
      exec (.postParklimit uid grp lane) s = .next (takeTraps
        (s.updGroup uid grp fun g => (g.feDrop [lane]).updLane lane fun l => { l with park := none }) uid grp l.pc
        [{ lane := lane, cause := cPARKLIMIT }]))
    ∧ (∀ uid grp t g l rest since, s.team? uid = some t → s.group? uid grp = some g → t.state = .running → g.lanes = l :: rest →
      l.park = some (.wait, since) → (∀ x ∈ rest, ∃ c, x.park = some (.wait, c)) → s.pastLimit t.ctx (s.grpCyc uid grp - since) = true →
      ∃ s₁ : State, exec (.waitParklimit uid grp) s = .next (takeTraps s₁ uid grp l.pc
          (g.lanes.map fun x => { lane := x.idx, cause := cPARKLIMIT }))
        ∧ (∀ k x, g.lane? k = some x → ∃ x', s₁.lane? uid grp k = some x' ∧ x'.park = none ∧ x'.pc = x.pc)
        ∧ ∀ x ∈ s₁.patterns, x.kind ≠ .wake uid grp)
    ∧ (∀ off data c n, s.up = true → s.window off 8 = (s, some (c, n)) →
      exec (.hostPortWrite off 8 data) s = .next (s.deliver { ctx := c, port := n, val := data })
      ∧ (∀ x m s', s.port? c n = some x → x.hvis = true → s.takeMsg c n = (s', some m) →
        exec (.hostPortRead off 8) s = .next { s' with out := .read (leBytes m.val.toNat 8) false :: s'.out })
      ∧ ((∀ x, s.port? c n = some x → x.hvis = false) →
        exec (.hostPortRead off 8) s = .next { s with out := .read (List.replicate 8 0xFF) false :: s.out }))
    ∧ (∀ ctx (port : BitVec 16) msg, s.up = true →
      exec (.peerPostArrival ctx port msg) s = .next (s.deliver { ctx := ctx, port := port.toNat, val := msg }))

/-! ### Launches and counters -/

/-- R198 to R200: the launch commands complete lane by lane with their results on the way. Where the manual leaves a point open,
this is the model's reading (log entry 15). R198: CANCEL of what is not live or is another context's answers 0x80000005; of a
launch, it drops the records not dealt, marks the launch and sets `cancel` in its units, and with `kill` kills each of them
after that, and one that still waits for its operands is complete with it (R185, R195); of a counter, it marks the counter, the counters and the launches right under it, and drops the holds of those that
were OPEN. R196: a kill of a unit that has not exited discards its frame. R199: the fields of the words of CNTRD; 0 for what is
IDLE, not live or another context's. -/
def Obligations.LaunchInstructionsComplete : Prop :=
  (∀ (s : State) (p : Pk), pk? s = some p →
    (∀ h d a, p.lanesDo s (.launchCard h d a) h (cmdLanes (launchCardLane a)))
    ∧ (∀ h d a b c, p.lanesDo s (.launchArm h d a b c) h (cmdLanes (launchArmLane a b c)))
    ∧ (∀ h d a, p.lanesDo s (.launchSeal h d a) h (cmdLanes (launchSealLane a)))
    ∧ (∀ cnt kill h d a, p.lanesDo s (.cancel cnt kill h d a) h (cmdLanes (cancelLane cnt kill a)))
    ∧ (∀ cnt h d a, p.lanesDo s (.cntrd cnt h d a) h (cmdLanes (cntrdLane cnt a))))
  ∧ (∀ (s : State) (ctx x : Nat) (kill : Bool),
    (s.launch? x = none → s.cancel ctx false kill x = (s, 0x80000005))
    ∧ (∀ l, s.launch? x = some l → l.ctx ≠ ctx → s.cancel ctx false kill x = (s, 0x80000005))
    ∧ (∀ l, s.launch? x = some l → l.ctx = ctx → l.state ≠ .waitOp →
      ∃ s₁ : State, s.cancel ctx false false x = (s₁.evalAll, 0) ∧ s₁.mem = s.mem ∧ s₁.counters = s.counters
        ∧ s₁.launch? x = some { l with state := .cancelling, ranges := [], cancelled := true, walkDue := false, handle := 0 }
        ∧ (∀ y, y ≠ x → s₁.launch? y = s.launch? y)
        ∧ s₁.units = (s.units.map fun u => if u.launch == x then { u with cancelBit := true } else u)
        ∧ s.cancel ctx false true x
          = ((((s.units.filter fun u => u.launch == x).map (·.uid)).foldl State.killUnit s₁).evalAll, 0))
    ∧ (∀ l, s.launch? x = some l → l.ctx = ctx → l.state = .waitOp →
      ∃ s₁ : State, s.cancel ctx false kill x = (s₁.evalAll, 0) ∧ s₁.mem = s.mem ∧ s₁.launch? x = none
        ∧ (∀ y, y ≠ x → s₁.launch? y = s.launch? y)
        ∧ (∀ i, l.card.parent = some i → s₁.counter i = { s.counter i with
            pending := (s.counter i).pending - 1, status := max (s.counter i).status 2 })
        ∧ (l.card.donePort = 0xFFFF → s₁.joinQ = s.joinQ)
        ∧ (l.card.donePort ≠ 0xFFFF → l.card.doneDev = s.bar0.devNum → ∃ q, s₁.joinQ = s.joinQ ++ [q]
          ∧ q.ctx = ctx ∧ q.port = l.card.donePort ∧ q.val.toNat = x % 2 ^ 32 + 2 * 2 ^ 36))
    ∧ ((8191 < x ∨ (s.counter x).state = .idle ∨ (s.counter x).owner ≠ ctx) → s.cancel ctx true kill x = (s, 0x80000005))
    ∧ (x ≤ 8191 → (s.counter x).state ≠ .idle → (s.counter x).owner = ctx → (∀ l ∈ s.launches, l.state ≠ .waitOp) →
      let marked (k : Counter) : Counter :=
        { k with state := .cancelling, status := 2, pending := if k.state = .opened then k.pending - 1 else k.pending }
      ∃ s₁ : State, s.cancel ctx true false x = (s₁.evalAll, 0) ∧ s₁.mem = s.mem
        ∧ s₁.counter x = marked (s.counter x)
        ∧ (∀ j, (s.counter j).parent = some x → (s.counter j).state ≠ .idle → s₁.counter j = marked (s.counter j))
        ∧ (∀ j, j ≠ x → (∀ e ∈ s.counters, e.1 = j → e.2.parent = none) → s₁.counter j = s.counter j)
        ∧ ∀ l ∈ s.launches, l.card.parent = some x → ∃ l', s₁.launch? l.id = some l'
          ∧ l'.state = .cancelling ∧ l'.cancelled = true ∧ l'.ranges = []))
  ∧ (∀ (s : State) (uid : Nat) (t : Team), s.team? uid = some t →
    (t.state = .exited → s.killUnit uid = s)
    ∧ (t.state ≠ .exited → t.kill = false → ∃ t', (s.killUnit uid).team? uid = some t' ∧ t'.kill = true ∧ t'.frame = none))
  ∧ (∀ (s : State) (ctx x : Nat),
    ((8191 < x ∨ (s.counter x).state = .idle ∨ (s.counter x).owner ≠ ctx) → s.cntRead ctx true x = 0)
    ∧ (x ≤ 8191 → (s.counter x).state ≠ .idle → (s.counter x).owner = ctx → (s.counter x).pending < 2 ^ 24 →
      (s.counter x).status < 4 → (s.counter x).level < 4 → (∀ q, (s.counter x).parent = some q → q < 8192) →
      let v := s.cntRead ctx true x
      nbits v 23 0 = (s.counter x).pending ∧ nbits v 29 28 = (s.counter x).status ∧ nbits v 33 32 = (s.counter x).level
        ∧ ((s.counter x).state = .opened → nbits v 25 24 = 1) ∧ ((s.counter x).state = .sealed → nbits v 25 24 = 2)
        ∧ ((s.counter x).state = .cancelling → nbits v 25 24 = 3)
        ∧ ((s.counter x).parent = none → nbits v 47 47 = 0)
        ∧ ∀ q, (s.counter x).parent = some q → nbits v 47 47 = 1 ∧ nbits v 60 48 = q)
    ∧ (s.launch? x = none → s.cntRead ctx false x = 0)
    ∧ (∀ l, s.launch? x = some l → l.ctx ≠ ctx → s.cntRead ctx false x = 0)
    ∧ (∀ l, s.launch? x = some l → l.ctx = ctx →
      let v := s.cntRead ctx false x
      nbits v 31 0 = (l.ranges.map fun e => e.2.2 - e.2.1).sum % 2 ^ 32
        ∧ nbits v 47 32 = (s.units.filter fun t => t.launch == x && !s.complete t).length % 65536
        ∧ (l.state = .waitOp → nbits v 50 48 = 0) ∧ (l.state = .ready → nbits v 50 48 = 1)
        ∧ (l.state = .running → nbits v 50 48 = 2) ∧ (l.state = .cancelling → nbits v 50 48 = 3)))

/-- R185, R190, R194: the events of launches. A launch or counter that is done is gone, its parent has one child less and has
folded its status in, and its done message is on its way to its port on this device, unless the port is 0xFFFF (R186); a
launch passed over for more than 1,048,576 service cycles is blocking; a walk that finds every declared page makes its launch
ready, and one that does not makes it wait under a new handle; a chunk deal takes the launches of the pool in their ranking.
Where the manual leaves a point open, this is the model's reading (log entries 4 and 19). -/
def Obligations.LaunchEvents : Prop :=
  ∀ (s : State),
    (∀ i, (s.counter i).done = true → (s.counter i).parent ≠ some i →
      ∃ s₁ : State, exec (.levelCompletion true i) s = .next s₁.evalAll ∧ (s₁.counter i) = {} ∧ s₁.launches = s.launches
        ∧ (∀ j, j ≠ i → (s.counter i).parent ≠ some j → s₁.counter j = s.counter j)
        ∧ (∀ j, (s.counter i).parent = some j → s₁.counter j = { s.counter j with
          pending := (s.counter j).pending - 1, status := max (s.counter j).status (s.counter i).status })
        ∧ ((s.counter i).donePort = 0xFFFF → s₁.joinQ = s.joinQ)
        ∧ ((s.counter i).donePort ≠ 0xFFFF → (s.counter i).doneDev = s.bar0.devNum → ∃ q, s₁.joinQ = s.joinQ ++ [q]
          ∧ q.ctx = (s.counter i).owner ∧ q.port = (s.counter i).donePort
          ∧ nbits q.val.toNat 31 0 = i % 2 ^ 32 ∧ ((s.counter i).level < 4 → (s.counter i).status < 4 →
            nbits q.val.toNat 35 34 = (s.counter i).level ∧ nbits q.val.toNat 37 36 = (s.counter i).status)))
    ∧ (∀ id l, s.launch? id = some l → s.reap.launchDone l = true → ∃ s₁ : State, exec (.levelCompletion false id) s = .next s₁.evalAll
      ∧ s₁.launch? id = none
      ∧ (∀ i, l.card.parent = some i → (s₁.counter i).pending = (s.counter i).pending - 1
        ∧ (s₁.counter i).status = max (s.counter i).status l.status)
      ∧ (l.card.donePort = 0xFFFF → s₁.joinQ = s.joinQ)
      ∧ (l.card.donePort ≠ 0xFFFF → l.card.doneDev = s.bar0.devNum → ∃ q, s₁.joinQ = s.joinQ ++ [q]
        ∧ q.ctx = l.ctx ∧ q.port = l.card.donePort ∧ nbits q.val.toNat 31 0 = id % 2 ^ 32 ∧ nbits q.val.toNat 35 34 = 0
        ∧ nbits q.val.toNat 37 36 = if l.cancelled then 2 else if l.terminated then 1 else 0))
    ∧ (∀ stack id l since, s.launch? id = some l → tget l.passed stack = some (since, false) → 1048576 < s.stackCyc stack - since →
      ∃ t, exec (.launchBlocking stack id) s = .next t
        ∧ ∃ l', t.launch? id = some l' ∧ tget l'.passed stack = some (since, true))
    ∧ (∀ id l s', s.launch? id = some l → l.state = .waitOp → l.walkDue = true →
      walkRecs l.ctx l.card.recTab s (l.card.decl.filter (· < 64)) = (s', none) →
      ∃ t, exec (.declaredOperandWalk id) s = .next t ∧ ∃ l', t.launch? id = some l' ∧ l'.state = .ready ∧ l'.walkDue = false)
    ∧ (∀ id l s' va, s.launch? id = some l → l.state = .waitOp → l.walkDue = true →
      walkRecs l.ctx l.card.recTab s (l.card.decl.filter (· < 64)) = (s', some va) →
      ∃ t, exec (.declaredOperandWalk id) s = .next t ∧ ∃ l', t.launch? id = some l' ∧ l'.state = .waitOp ∧ l'.walkDue = false
        ∧ l'.handle = s'.nextId)
    ∧ (∀ stack, stack < 4 → exec (.chunkDeal stack) s = .next (dealTop stack (s.reap.serveWaits.pool stack)
        ((stackClusters stack).filter fun k => (s.reap.serveWaits.nextRestore k).isSome) s.reap.serveWaits))
    ∧ (∀ stack l rest shut k cores,
      (stackClusters stack).findSome? (fun k => if shut.contains k then none else (s.fitNew l.card k).map fun c => (k, c))
        = some (k, cores) → dealTop stack (l :: rest) shut s = s.deal l stack k cores)

/-- R184, R198: the states of a completion counter. Arming an IDLE one opens it with one pending hold, and a parent, which
must be OPEN and of the same context, counts it as one pending child more; a parent that is full or not fit refuses; sealing an OPEN one drops the hold, and the patterns that wait for its parent are evaluated again (R329); a counter that
is not IDLE cannot be armed, a bad configuration word neither, and only its own context can seal it. That the seal of an IDLE one
answers 0x80000006 is the model's choice (log entry 60).
R187, R195, R198: a submitted card whose parent takes a child and that finds room becomes a launch of its own id, ready unless
it declares operands; its parent counts it. One without records is complete at once. R187: the ranges of the stacks of a mask,
one for each of them, cut the records 0 to n - 1 into pieces that follow one another and differ in length by at most one, the longer
ones first. R188, R192: a chunk that is dealt becomes a unit with the next records of its stack's range, all of the rest or at least
CHUNKMIN of them; R13, R183: its lanes stand at ENTRY, and s0 to s3 hold the address of its first record, FIRST and COUNT. -/
def Obligations.CountersAndLaunches : Prop :=
  (∀ (s : State) (ctx i b c : Nat),
    (i ≤ 8191 → b / 2 ^ 22 = 0 → b / 2 ^ 20 % 4 ≠ 0 → b.testBit 19 = false → c / 2 ^ 13 % 2 ^ 18 = 0 →
      let j := c % 8192
      ((s.counter i).state ≠ .idle → s.armCounter ctx i b c = (s, 0x80000007))
      ∧ ((s.counter i).state = .idle → c.testBit 31 = true → ((s.counter j).state ≠ .opened ∨ (s.counter j).owner ≠ ctx) →
        s.armCounter ctx i b c = (s, 0x80000003))
      ∧ ((s.counter i).state = .idle → c.testBit 31 = true → (s.counter j).state = .opened → (s.counter j).owner = ctx →
        2 ^ 24 - 1 ≤ (s.counter j).pending → s.armCounter ctx i b c = (s, 0x80000009))
      ∧ ((s.counter i).state = .idle → (c.testBit 31 = true → (s.counter j).state = .opened ∧ (s.counter j).owner = ctx
          ∧ (s.counter j).pending < 2 ^ 24 - 1) →
        (s.armCounter ctx i b c).2 = 0
        ∧ (s.armCounter ctx i b c).1.counter i = { state := .opened, owner := ctx, level := b / 2 ^ 20 % 4, pending := 1
                                                   parent := if c.testBit 31 then some j else none
                                                   donePort := b % 2 ^ 16, doneDev := b / 2 ^ 16 % 8 }
        ∧ (c.testBit 31 = true → (s.armCounter ctx i b c).1.counter j = { s.counter j with pending := (s.counter j).pending + 1 })
        ∧ ∀ k, k ≠ i → (c.testBit 31 = true → k ≠ j) → (s.armCounter ctx i b c).1.counter k = s.counter k))
    ∧ (i > 8191 ∨ b / 2 ^ 22 ≠ 0 ∨ b / 2 ^ 20 % 4 = 0 ∨ b.testBit 19 = true ∨ c / 2 ^ 13 % 2 ^ 18 ≠ 0 →
      s.armCounter ctx i b c = (s, 0x80000008))
    ∧ (i ≤ 8191 → (s.counter i).state = .opened → (s.counter i).owner = ctx →
      ∃ s₁ : State, s.sealCounter ctx i = (s₁.evalAll, 0) ∧ (s₁.counter i).state = .sealed
        ∧ (s₁.counter i).pending = (s.counter i).pending - 1 ∧ ∀ j, j ≠ i → s₁.counter j = s.counter j)
    ∧ (i ≤ 8191 → (s.counter i).state = .sealed ∨ (s.counter i).state = .cancelling → (s.counter i).owner = ctx →
      s.sealCounter ctx i = (s, 0x80000005))
    ∧ (i ≤ 8191 → ((s.counter i).state = .idle ∨ (s.counter i).owner ≠ ctx) → s.sealCounter ctx i = (s, 0x80000006)))
  ∧ (∀ (s : State) (ctx : Nat) (card : Card) (msgs : List Dword) (clk : Clock),
    (∀ i, card.parent = some i → ((s.counter i).state ≠ .opened ∨ (s.counter i).owner ≠ ctx) →
      s.submit ctx card msgs clk = (s, 0x80000003))
    ∧ (∀ i, card.parent = some i → (s.counter i).state = .opened → (s.counter i).owner = ctx →
      2 ^ 24 - 1 ≤ (s.counter i).pending → s.submit ctx card msgs clk = (s, 0x80000009))
    ∧ (s.refuseChild ctx card.parent = 0 ↔ ∀ i, card.parent = some i → (s.counter i).state = .opened ∧ (s.counter i).owner = ctx
      ∧ (s.counter i).pending < 2 ^ 24 - 1)
    ∧ (s.refuseChild ctx card.parent = 0 → 16384 ≤ s.launches.length → s.submit ctx card msgs clk = (s, 0x80000002))
    ∧ (s.refuseChild ctx card.parent = 0 → s.launches.length < 16384 → s.launch? s.freshLaunch = none →
      let t := (s.submit ctx card msgs clk).1
      (s.submit ctx card msgs clk).2 = s.freshLaunch
      ∧ (card.argCount ≠ 0 →
        (∃ l, t.launch? s.freshLaunch = some l ∧ l.ctx = ctx ∧ l.card = card
          ∧ l.state = (if card.decl.any (· < 64) then .waitOp else .ready) ∧ l.ranges = dealRanges card.stackMask card.argCount)
        ∧ ∀ i, card.parent = some i → (t.counter i).pending = (s.counter i).pending + 1)
      ∧ (card.argCount = 0 → t.launch? s.freshLaunch = none
        ∧ (∀ i, card.parent = some i → t.counter i = s.counter i)
        ∧ (card.donePort = 0xFFFF → t.joinQ = s.joinQ)
        ∧ (card.donePort ≠ 0xFFFF → card.doneDev = s.bar0.devNum → ∃ q, t.joinQ = s.joinQ ++ [q]
          ∧ q.ctx = ctx ∧ q.port = card.donePort ∧ q.val.toNat = s.freshLaunch % 2 ^ 32))))
  ∧ (∀ (mask : BitVec 4) (n : Nat), mask ≠ 0 →
    ((dealRanges mask n).map fun e => e.2.2 - e.2.1).sum = n
    ∧ (∀ e ∈ dealRanges mask n, mask.getLsbD e.1 = true ∧ e.2.1 ≤ e.2.2 ∧ e.2.2 ≤ n)
    ∧ (dealRanges mask n).map (·.1) = (List.range 4).filter (fun k => mask.getLsbD k)
    ∧ (dealRanges mask n).Pairwise (fun a b => a.2.2 ≤ b.2.1 ∧ b.2.2 - b.2.1 ≤ a.2.2 - a.2.1 ∧ a.2.2 - a.2.1 ≤ b.2.2 - b.2.1 + 1))
  ∧ (∀ (c : Card) (rem t : Nat), 0 < rem → 0 < c.chunkMin →
    1 ≤ chunkLen c rem t ∧ chunkLen c rem t ≤ rem ∧ (chunkLen c rem t = rem ∨ c.chunkMin ≤ chunkLen c rem t))
  ∧ (∀ (s : State) (l : Launch) (stack cluster : Nat) (cores : List Nat) (lo hi : Nat), s.launch? l.id = some l →
    tget l.ranges stack = some (lo, hi) → (∀ t ∈ s.units, t.uid ≠ s.nextUid) →
    let s' := s.deal l stack cluster cores
    let n := chunkLen l.card (hi - lo) (s.teamPlaces l.card stack)
    (∃ t, s'.team? s.nextUid = some t ∧ t.launch = l.id ∧ t.ctx = l.ctx ∧ t.card = l.card ∧ t.first = lo ∧ t.count = n
      ∧ t.stack = stack ∧ t.cluster = cluster ∧ t.cores = cores ∧ t.groups.length = l.card.groups
      ∧ ∀ g ∈ t.groups, (∀ k ∈ g.lanes, k.pc = l.card.entry ∧ k.v = [] ∧ k.preds = 0 ∧ k.rstack = [] ∧ k.spilled = 0)
        ∧ (let argp := l.card.argBase + dword lo * dword l.card.argStride.toNat
          tgetD g.s 0 0 = lo32 argp ∧ tgetD g.s 1 0 = hi32 argp ∧ tgetD g.s 2 0 = word lo ∧ tgetD g.s 3 0 = word n))
    ∧ ∃ l', s'.launch? l.id = some l' ∧ tget l'.ranges stack = some (lo + n, hi)
      ∧ ∀ j, j ≠ stack → tget l'.ranges j = tget l.ranges j)

/-! ### Taking traps -/

/-- R37, R45, R61: an encoding fault, in a slot's word or in an instruction's fields, raises its trap in every lane of the
packet, whatever the guards, and nothing else happens; an unassigned opcode is one. Where the manual leaves a point open, this
is the model's reading (log entries 36 and 38). -/
def Obligations.EncodingFaultsTrapThePacket : Prop :=
  ∀ (s : State) (p : Pk), pk? s = some p → p.iss.seqBad = false →
    (∀ i h c, i.hdr = some h → encFault i p.iss = some c → (∀ n st m, i = .rep h n st m → p.iss.repPlaced = true ∨ c = cILLOP) →
      exec i s = .next ((s.commit p).trapPk p (trapAll p.lanes c)))
    ∧ (∀ h op, exec (.unassignedOpcodeIssue h op) s = .next ((s.commit p).trapPk p (trapAll p.lanes cILLOP)))
    ∧ (∀ w, trapEncoding s p.iss w .illop = (s.commit p).trapPk p (trapAll p.lanes cILLOP))
    ∧ (∀ w : BitVec 96, (Raw.unpack w).cf = 0 → (Raw.unpack w).op ≠ 0x009 →
      trapEncoding s p.iss w .illopd = (s.commit p).trapPk p (trapAll p.lanes cILLOPD))
    ∧ ∀ w : BitVec 96, ((Raw.unpack w).cf = 1 ∧ 12 ≤ p.iss.fa.toNat) ∨ ((Raw.unpack w).cf = 2 ∧ 12 ≤ p.iss.fb.toNat)
        ∨ ((Raw.unpack w).op = 0x009 ∧ p.iss.repPlaced = false) →
      trapEncoding s p.iss w .illopd = (s.commit p).trapPk p (trapAll p.lanes cILLOP)

/-- R46, R47, R418, R419: the traps of one issue of a running team. Its lanes keep their PCs, registers, predicates and return
stacks. When DISPMASK masks no cause of them the unit is terminated, and its launch with it; else its save begins under a new
handle. R425: a save that begins takes the lowest place in the pool that has room; when there is none, or a page of the place is
not mapped writable, the unit is terminated instead. R416: every fault record of a live context takes the next
number, and either its address is on its way to the context's fault port or LOST has counted it. -/
def Obligations.TrapsAndFaultRecords : Prop :=
  (∀ (s : State) (uid grp : Nat) (pc : Dword) (t0 : Trap) (rest : List Trap) (t : Team) (g : Group),
    s.team? uid = some t → t.group? grp = some g → t.state = .running →
    let s' := takeTraps s uid grp pc (t0 :: rest)
    let park := (t0 :: rest).any fun x => (s.dispMask t.ctx).testBit x.cause || x.cause == cPAGEF
    (∀ k l, g.lane? k = some l → ∃ l', s'.lane? uid grp k = some l'
      ∧ l' = { l with cause := (((t0 :: rest).find? (·.lane == l.idx)).map (·.cause)).getD l.cause })
    ∧ (t.kill = true → ∃ t', s'.team? uid = some t' ∧ t'.kill = true ∧ t'.state = .running ∧ t'.frame = t.frame)
    ∧ (t.kill = false → park = false →
        (∃ t', s'.team? uid = some t' ∧ t'.kill = true ∧ t'.terminated = true ∧ t'.frame = none)
        ∧ ∀ l, s.launch? t.launch = some l → ∃ l', s'.launch? t.launch = some l' ∧ l'.terminated = true)
    ∧ (t.kill = false → park = true → t.frame = none →
        ∃ (f : Group → Group) (r : FRec),
          s' = (((s.updGroup uid grp f).newHandle t.ctx).1.record t.ctx r).beginSave uid .trap s.nextId
          ∧ (∀ x, (f x).idx = x.idx) ∧ r.cause = t0.cause ∧ r.lane = t0.lane ∧ r.addr = t0.addr ∧ r.disp = 2 ∧ r.kind = 1
          ∧ r.handle = s.nextId ∧ r.pc = t0.pc.getD pc ∧ r.nlanes = (rest.length + 1) % 256))
  ∧ (∀ (s : State) (uid : Nat) (reason : Reason) (handle : Nat) (t : Team) (c : Context), s.team? uid = some t →
    s.ctx? t.ctx = some c → t.frame = none →
    let s' := s.beginSave uid reason handle
    let s₁ := { s with repNext := s.repNext.filter fun x => x.1.uid != uid }
    let size := t.frameSize (s₁.entriesOf uid) (s₁.travOf uid)
    let units := cdiv size 0x10000
    (poolFit c.fpSize (s₁.poolUsed t.ctx) units = none →
      ∃ t', s'.team? uid = some t' ∧ t'.kill = true ∧ t'.terminated = true ∧ t'.frame = none)
    ∧ ∀ k, poolFit c.fpSize (s₁.poolUsed t.ctx) units = some k →
      let va := c.fpBase + dword (k * 0x10000)
      (∀ a, badPage s₁ t.ctx va (units * 0x10000) = some a →
        ∃ t', s'.team? uid = some t' ∧ t'.kill = true ∧ t'.terminated = true ∧ t'.frame = none)
      ∧ (badPage s₁ t.ctx va (units * 0x10000) = none →
        ∃ t' f, s'.team? uid = some t' ∧ t'.state = .saving ∧ t'.kill = t.kill ∧ t'.frame = some f
          ∧ f.va = va ∧ f.size = size ∧ f.units = units ∧ f.reason = reason ∧ f.handle = handle ∧ f.fstate = 1))
  ∧ (∀ (size : Nat) (used : List (Nat × Nat)) (n k : Nat), poolFit size used n = some k →
    k + n ≤ size ∧ (∀ e ∈ used, k + n ≤ e.1 ∨ e.1 + e.2 ≤ k)
      ∧ ∀ j, j < k → ∃ e ∈ used, e.1 < j + n ∧ j < e.1 + e.2)
  ∧ (∀ (s : State) (ctx : Nat) (r : FRec) (c : Context), s.ctx? ctx = some c →
    ∃ c', (s.record ctx r).ctx? ctx = some c' ∧ c'.seq = (c.seq + 1) % 2 ^ 32
      ∧ ((c'.lost = c.lost ∧ ∃ q, (s.record ctx r).joinQ = s.joinQ ++ [q] ∧ q.ctx = ctx ∧ q.port = c.faultPort ∧ q.fault = true)
        ∨ (c'.lost = min 0xFFFFFFFF (c.lost + 1) ∧ (s.record ctx r).joinQ = s.joinQ)))

/-! ### Waits, saves and restores -/

/-- R28, R34, R35, R137, R139, R389: waits that end. A lane whose line's WAIT flags are clear passes; a result in flight lands
in its registers and its flag falls; the waits for capacity of a quadrant are brought up to date, the oldest gets what it needs
when that is free, and nothing is given while it is not; a shortage saves the quadrant's youngest team; a map line expires. R154, R160, R221, R222: parked groups
and lanes. A wait past the park limit raises PARKLIMIT where it stands; a full/empty set whose line has come into its state is
served, and its lanes go on. Where the manual leaves a point open, this is the model's reading (log entries 15, 21 and 40). -/
def Obligations.GroupEvents : Prop :=
  (∀ (s : State),
    (∀ uid grp k t g l tr, s.team? uid = some t → s.group? uid grp = some g → t.state = .running → t.kill = false →
      g.lane? k = some l → l.entry = .waiting tr → waitClear g l = true →
      ∃ t' : State, exec (.lineWaitRelease uid grp k) s = .next t'
        ∧ ∃ l', t'.lane? uid grp k = some l' ∧ l'.entry = .passed tr ∧ l'.pc = l.pc)
    ∧ (∀ uid grp k g q, s.group? uid grp = some g → g.results[k]? = some q → q.late = none → q.mapDrop = [] → q.pkt = 0 →
      ∃ t' : State, exec (.longLatencyComplete uid grp k) s = .next t' ∧ ∃ g', t'.group? uid grp = some g'
        ∧ (∀ f, q.flag = some f → g'.flag f = g.flag f - 1) ∧ (∀ f, q.flag ≠ some f → g'.flag f = g.flag f)
        ∧ ∀ j l, g.lane? j = some l → ∃ l', g'.lane? j = some l' ∧ l'.pc = l.pc
          ∧ (∀ n, (∀ w, (j, n, w) ∉ q.regs) → l'.vreg n = l.vreg n)
          ∧ ∀ n w, (j, n, w) ∈ q.regs → (∀ w', (j, n, w') ∈ q.regs → w' = w) → l'.vreg n = w)
    ∧ (∀ quad w rest, let s₁ := s.refreshClaims quad; s₁.claimWaiters quad = w :: rest →
      (w.need ≤ s₁.freeCount quad + w.grant → ∃ t' : State, exec (.claimWaitServed quad) s = .next t' ∧ ∀ t ∈ t'.units, ∀ g ∈ t.groups,
        ∀ x ∈ g.waits, x.rank = w.rank → x.grant = x.need)
      ∧ (s₁.freeCount quad + w.grant < w.need → exec (.claimWaitServed quad) s = .next s₁))
    ∧ (∀ quad t, let s₁ := s.serveQuad quad; s₁.shortage quad = true → s₁.youngestOn quad = some t → t.kill = false →
      (∀ u ∈ s₁.units, u.state = .saving → ∀ g ∈ u.groups, g.lanes ≠ [] → g.quadNo ≠ quad) →
      exec (.registerShortage quad) s = .next ((s₁.newHandle t.ctx).1.beginSave t.uid .forced (s₁.newHandle t.ctx).2))
    ∧ (∀ k m r, s.mapLines.drop k = m :: r → 0x100000 ≤ s.stackCyc (stackOf m.core) - m.since →
      exec (.mapLineExpiry k) s = .next { s with mapLines := s.mapLines.take k ++ r }))
  ∧ (∀ (s : State),
    (∀ uid grp k t l since, s.team? uid = some t → s.lane? uid grp k = some l → t.state = .running →
      l.park = some (.conv, since) → s.pastLimit t.ctx (s.grpCyc uid grp - since) = true →
      exec (.convParklimit uid grp k) s = .next (takeTraps (s.updLane uid grp k fun l => { l with park := none }) uid grp l.pc
        [{ lane := k, cause := cPARKLIMIT }]))
    ∧ (∀ uid grp k t l since, s.team? uid = some t → s.lane? uid grp k = some l → t.state = .running →
      l.park = some (.fullEmpty, since) → s.pastLimit t.ctx (s.grpCyc uid grp - since) = true →
      exec (.fullEmptyParklimit uid grp k) s = .next (takeTraps
        (s.updGroup uid grp fun g => (g.feDrop [k]).updLane k fun l => { l with park := none }) uid grp l.pc
        [{ lane := k, cause := cPARKLIMIT }]))
    ∧ (∀ uid grp t g l rest i again since, s.team? uid = some t → s.group? uid grp = some g → t.state = .running →
      g.lanes = l :: rest → l.park = some (.bar i again, since) → s.pastLimit t.ctx (s.coreCyc g.core - since) = true →
      exec (.barParklimit uid grp) s = .next (takeTraps
        (s.updGroup uid grp fun g => { g with lanes := g.lanes.map fun l => { l with park := none } }) uid grp l.pc
        (trapAll g.lanes cPARKLIMIT)))
    ∧ (∀ uid grp k t g w m e s' o, s.team? uid = some t → s.group? uid grp = some g → t.state = .running → t.kill = false →
      (g.fes.find? fun w => w.lanes.any (·.1 == k)) = some w → memOpOf w.instr = some m → w.lanes.find? (·.1 == k) = some e →
      w.iss.uid = uid → w.iss.grp = grp →
      s.feSet { iss := w.iss, team := t, grp := g } w.instr m (w.lanes.filter fun x => x.2.1 / 128 == e.2.1 / 128)
        = (s', some o) → o.traps = [] →
      ∃ t' : State, exec (.fullEmptySetServed uid grp k) s = .next t' ∧ ∀ j ∈ o.served, ∀ l, s'.lane? uid grp j = some l →
        ∃ l', t'.lane? uid grp j = some l' ∧ l'.park = none ∧ l'.pc = (l.advance w.iss).pc))

/-- R427, R428: RESUME of a record and of a launch complete lane by lane. A record whose handle no object of the context has is
refused with 0x80000053, one whose object does not wait with 0x80000051; a launch's waiting objects are counted. R423, R426,
R428, R439, R440: the end of a save and a restore. A save without open engine operations leaves the team parked, when a trap or
a traversal made it, or saved, with its frame PARKED, or READY when RESUME came before; a frame that is read back and passes its
check puts the team back on its new cores, and one that does not terminates its unit with a record. Where the manual leaves a
point open, this is the model's reading (log entries 18, 22 and 23). That a handle whose object has gone answers 0x80000051 is
the model's reading. -/
def Obligations.SaveResumeAndRestore : Prop :=
  (∀ (s : State) (p : Pk), pk? s = some p →
    (∀ h d a, p.lanesDo s (.resumeRec h d a) h (cmdLanes (resumeRecLane a)))
    ∧ (∀ h d a, p.lanesDo s (.resumeLaunch h d a) h (cmdLanes (resumeLaunchLane a)))
    ∧ (∀ ctx b clk, (leAt b 3 1 = 0 ∨ tget s.handles (leAt b 0x20 8) ≠ some ctx) → s.resumeRecord ctx b clk = (s, 0x80000053))
    ∧ (∀ ctx b clk, leAt b 3 1 ≠ 0 → tget s.handles (leAt b 0x20 8) = some ctx →
      (∀ w ∈ s.waiters ctx, w.handle ≠ leAt b 0x20 8) → s.resumeRecord ctx b clk = (s, 0x80000051))
    ∧ (∀ ctx id clk l, l ∈ s.launches → l.id = id → l.ctx = ctx →
      (s.resumeLaunch ctx id clk).2 = ((s.waiters ctx).filter fun w => w.launch == id).length)
    ∧ (∀ ctx id clk, (∀ l ∈ s.launches, l.id = id → l.ctx ≠ ctx) → s.resumeLaunch ctx id clk = (s, 0x80000055)))
  ∧ (∀ (s : State) (uid : Nat) (t : Team),
    (s.team? uid = some t → t.state = .saving → s.openCmds uid = [] → s.mapsHeld t = false → s.granting uid = false →
      exec (.teamSaveComplete uid) s = .next (s.writeSave uid)
      ∧ ∀ f, t.frame = some f → s.travOf uid = [] → (∀ e ∈ s.matrix, e.uid = uid → e.granted = false) →
        ∃ t', (s.writeSave uid).team? uid = some t'
          ∧ t'.state = (match f.reason with
              | .trap | .traversal => .parked
              | .forced | .drain => .saved)
          ∧ ∃ n, t'.frame = some { f with size := n, fstate := if f.resumed then 3 else 2 })
    ∧ (∀ cluster cores f, cluster < 32 → s.reap.serveWaits.nextRestore cluster = some (t, cores) → t.uid = uid → t.frame = some f →
      let s₁ := s.reap.serveWaits.setFstate uid 4
      ∀ s₂ r, devRead s₁ none t.ctx 0 f.va f.size = (s₂, r) →
        (∀ x b, r = .ok (x, b) → frameOk t f (s₁.travOf uid) (s₁.entriesOf uid) b = true →
          ∃ s' : State, exec (.teamRestore uid cluster) s = .next s' ∧ ∃ t', s'.team? uid = some t' ∧ t'.frame = none
            ∧ t'.cores = cores ∧ t'.cluster = clusterOf (cores.headD 0)
            ∧ (t'.state = .running ∨ (t'.state = .exited ∧ ∀ g ∈ t'.groups, g.lanes = [])))
        ∧ ((∀ x b, r = .ok (x, b) → frameOk t f (s₁.travOf uid) (s₁.entriesOf uid) b = false) →
          exec (.teamRestore uid cluster) s = .next ((s₂.record t.ctx
            { cause := cENGINEF, source := 8, disp := 1, launch := t.launch, team := t.team, info := 11 }).terminate uid false))))

/-- R209, R229, R431, R455: what the device completes on its own: an arrival of a pre-emption at a stack, a drain past its
limit, which saves every team of the channel on the stack, a shoot-down, a context's removal, a new split. Where the manual leaves a point open, this is the model's reading (log
entries 14, 21 and 26). -/
def Obligations.DrainAndRemovalEvents : Prop :=
  ∀ (s : State),
    (∀ c k, c < 16 → k < 4 → (s.chan c).pre ≠ 0 → tget (s.chan c).arrived k = none →
      ∃ t : State, exec (.preemptArrivalAtStack c k) s = .next t ∧ tget (t.chan c).arrived k = some (s.stackCyc k)
        ∧ ∀ d, d ≠ c → t.chan d = s.chan d)
    ∧ (∀ c k a, tget (s.chan c).arrived k = some a → ((s.chan c).drainLim = 0xFFFFFF ∨ s.stackCyc k - a < (s.chan c).drainLim * 256) →
      exec (.drainLimitExpiry c k) s = .next s)
    ∧ (∀ c k a x, tget (s.chan c).arrived k = some a → (s.chan c).drainLim ≠ 0xFFFFFF → (s.chan c).drainLim * 256 ≤ s.stackCyc k - a →
      s.units.filter (drainable c k) = [x] →
      ∃ s₁ : State, exec (.drainLimitExpiry c k) s = .next (s₁.beginSave x.uid .drain s.nextId) ∧ k ∈ (s₁.chan c).saving
        ∧ s₁.units = s.units)
    ∧ (∀ c k a, tget (s.chan c).arrived k = some a → (s.chan c).drainLim ≠ 0xFFFFFF → (s.chan c).drainLim * 256 ≤ s.stackCyc k - a →
      (∀ x ∈ s.units, s.team? x.uid = some x ∧ s.ctx? x.ctx ≠ none) →
      ∃ t : State, exec (.drainLimitExpiry c k) s = .next t ∧ k ∈ (t.chan c).saving
        ∧ (∀ x ∈ s.units, drainable c k x = true → ∃ x', t.team? x.uid = some x' ∧ ((x'.kill = true ∧ x'.terminated = true)
          ∨ (x'.state = .saving ∧ x'.kill = false ∧ ∃ f, x'.frame = some f ∧ f.reason = .drain)))
        ∧ ∀ x ∈ s.units, drainable c k x = false → t.team? x.uid = some x)
    ∧ (∀ kind ctx va n, s.bar0.tlbiOp = some (kind, ctx, va, n) →
      ∃ t : State, exec .tlbShootdownComplete s = .next t ∧ t.bar0.tlbiOp = none
        ∧ (∀ e ∈ t.tlb, e ∈ s.tlb) ∧ (2 < kind → t.tlb = [])
        ∧ (kind = 2 → ∀ e ∈ t.tlb, e.ctx = ctx → e.leaf = true ∧ ptG e.ent.toNat = true)
        ∧ (kind < 2 → ∀ e ∈ t.tlb, e.ctx = ctx → e.tag * 2 ^ (9 * e.level) < va % 2 ^ 57 / 4096 + n →
            e.tag * 2 ^ (9 * e.level) + 2 ^ (9 * e.level) ≤ va % 2 ^ 57 / 4096))
    ∧ (∀ c, s.bar0.ctxBusy = some c → ∃ t : State, exec .contextDestroyComplete s = .next t ∧ t.bar0.ctxBusy = none
        ∧ t.bar0.ctxStatus = 0 ∧ t.ctx? c = none ∧ (∀ d, d ≠ c → t.ctx? d = s.ctx? d) ∧ ∀ x ∈ t.patterns, x.ctx ≠ c)
    ∧ (∀ a b, s.bar0.vsPend = some (a, b) → exec .vsplitResizeComplete s
        = .next { s with bar0 := { s.bar0 with scr := a, beam := b, vsPend := none } })

/-! ### The host, the fabric and the board -/

/-- R452, R469: every register event of the host writes its register by that register's rule while the device is in service, and
does nothing before READY or after FAIL; so does a plain register write. The two halves of a 64-bit register written one after
the other write it as one. Read-only registers take nothing. R209, R229, R317, R345, R429, R431, R433, R455, R465, R479: what
writes of single registers do. R391, R429, R455, R465, R474, R475, R480, R482: writes that clear, start a RESUME, create or
destroy a context, enable a head, set a point or run a sounding unit. Where the manual leaves a point open, this is the model's
reading (log entries 8, 9, 25, 26 and 53). -/
def Obligations.HostRegisters : Prop :=
  (∀ (s : State),
    (∀ i r v, hostWrite i = some (r, v) → exec i s = .next (if s.up then s.regWrite r v else s))
    ∧ (∀ off size (data : Dword), exec (.registerWrite off size data) s = .next (if s.up then s.bar0Write off size data.toNat else s))
    ∧ (∀ off r (v : Word), regAt off = some r → off % 4 = 0 → r.wide = false → s.bar0Write off 4 v.toNat = s.regWrite r v.toNat)
    ∧ (∀ off r (lo hi : Word), regAt off = some r → r.wide = true → off % 8 = 0 →
      (s.bar0Write off 4 lo.toNat).bar0Write (off + 4) 4 hi.toNat = s.bar0Write off 8 (hi.toNat * 2 ^ 32 + lo.toNat))
    ∧ (∀ h (data : Dword), s.up = true → h < 4 → ∃ t : State, exec (.hbaseWrite h data) s = .next t
      ∧ (t.head h).base = data.toNat / 4096 * 4096 ∧ (t.head h).flip = true ∧ (t.head h).active = (s.head h).active)
    ∧ (∀ h, (s.head h).en = true → (s.head h).link = false → ∃ t : State, exec (.headLinkTrained h) s = .next t
      ∧ t.head h = { s.head h with link := true, active := (s.head h).base, flip := false })
    ∧ (∀ h, (s.head h).en = true → (s.head h).link = true → ∃ t : State, exec (.verticalBlank h) s = .next t
      ∧ t.head h = { s.head h with active := (s.head h).base, flip := false })
    ∧ (∀ u (x : Word), u < 32 → (s.sounding u).run = true → ((s.sounding u).src = 1 ∨ (s.sounding u).src = 4) →
      ∃ t : State, exec (.soundingSample u x) s = .next t
        ∧ (t.sounding u).count = min 0xFFFFFFFF ((s.sounding u).count + 1) ∧ ∀ w, w ≠ u → t.sounding w = s.sounding w)
    ∧ ∀ v off, s.regWrite .devstat v = s ∧ s.regWrite .uid v = s ∧ s.regWrite .cfgid v = s ∧ s.regWrite .linkstat v = s
      ∧ s.regWrite .resstat v = s ∧ s.regWrite (.counter off) v = s ∧ s.regWrite (.temp off) v = s ∧ s.regWrite (.stkcnt off) v = s)
  ∧ (∀ (s : State) (v : Nat),
    (16 < nbits v 4 0 ∨ nbits v 12 8 = 0 ∨ 8 < nbits v 12 8 → (nbits v 4 0 ≠ s.bar0.scr ∨ nbits v 12 8 ≠ s.bar0.beam) →
      (s.regWrite .vsplit v).bar0.vsErr = true ∧ (s.regWrite .vsplit v).bar0.vsPend = s.bar0.vsPend)
    ∧ (nbits v 4 0 ≤ 16 → 1 ≤ nbits v 12 8 → nbits v 12 8 ≤ 8 → (nbits v 4 0 ≠ s.bar0.scr ∨ nbits v 12 8 ≠ s.bar0.beam) →
      s.holders = [] → s.bar0.vsPend = none → (s.regWrite .vsplit v).bar0.vsPend = some (nbits v 4 0, nbits v 12 8))
    ∧ (64 ≤ nbits v 8 0 → nbits v 8 0 ≤ 256 → (s.regWrite .mgov v).bar0.govAllow = nbits v 8 0
      ∧ (v.testBit 31 = true → ∀ c, c < 32 → ((s.regWrite .mgov v).gov c).stalls = 0))
    ∧ (nbits v 8 0 < 64 ∨ 256 < nbits v 8 0 → (s.regWrite .mgov v).bar0.govErr = true
      ∧ (s.regWrite .mgov v).bar0.govAllow = s.bar0.govAllow)
    ∧ (v.testBit 31 = true → (s.regWrite .pwstat v).bar0.noCtx = 0 ∧ (s.regWrite .pwstat v).bar0.badSize = 0)
    ∧ (v.testBit 31 = true → s.bar0.tlbiOp = none → (s.regWrite .tlbictl v).bar0.tlbiOp = some (nbits v 29 28, nbits v 23 16,
        s.bar0.tlbiAddr.toNat, if nbits v 29 28 = 0 then 1 else if nbits v 15 0 = 0 then 65536 else nbits v 15 0))
    ∧ (∀ c, (s.chan c).pre = 0 → v.testBit 31 = true → ((s.regWrite (.chpre c) v).chan c).pre = 1
      ∧ ((s.regWrite (.chpre c) v).chan c).drainLim = nbits v 23 0)
    ∧ (∀ c, (s.chan c).pre ≠ 0 → v.testBit 30 = true → ((s.regWrite (.chpre c) v).chan c).pre = 0)
    ∧ (∀ off, (v.testBit 0 = true ∧ 0x2000 ≤ off ∧ off < 0x2800) ∨ (v.testBit 1 = true ∧ 0x3000 ≤ off ∧ off < 0x3800)
        ∨ (v.testBit 2 = true ∧ 0x3800 ≤ off ∧ off < 0x3810) → tgetD (s.regWrite .cntclr v).bar0.counters off 0 = 0)
    ∧ (∀ c x, s.ctx? c = some x → s.createContext c = (s, 2))
    ∧ (∀ c, s.ctx? c = none → ownPa s (s.bar0.ctxBase.toNat + 128 * c) = false → s.createContext c = (s, 1))
    ∧ (∀ c a, s.ctx? c = none → paKey s (s.bar0.ctxBase.toNat + 128 * c) = some a → paLocal a = true →
      let s₁ := s.verifyN a 128
      let b := s₁.readPa a 128
      ((s₁.poisonedPa a 128 = true ∨ descOk b = false) → s.createContext c = (s₁, 1))
      ∧ (s₁.poisonedPa a 128 = false → descOk b = true → 16384 < s.storeUsed (portStack (leAt b 0x30 2)) + leAt b 0x32 1 + 64 →
        s.createContext c = (s₁, 5))
      ∧ (s₁.poisonedPa a 128 = false → descOk b = true →
        s.storeUsed (portStack (leAt b 0x30 2)) + leAt b 0x32 1 + 64 ≤ 16384 →
        (s.createContext c).2 = 0
        ∧ (∃ x, (s.createContext c).1.ctx? c = some x ∧ x.desc = a ∧ x.root = leAt b 0 8 ∧ x.faultPort = leAt b 0x30 2 ∧ x.lost = 0)
        ∧ ∃ q, (s.createContext c).1.port? c (leAt b 0x30 2) = some q ∧ q.depth = leAt b 0x32 1 ∧ q.msgs = [] ∧ q.act = .fault
          ∧ q.hvis = true))
    ∧ (∀ c, s.reap.ctx? c = none → s.destroyContext c = (s.reap, some 3)))
  ∧ (∀ (s : State) (v : Nat),
    (∀ k, v.testBit 30 = true → ((s.regWrite (.fbstat k) v).fbRing k).drops = 0
      ∧ ∀ j, j ≠ k → (s.regWrite (.fbstat k) v).fbRing j = s.fbRing j)
    ∧ (∀ h, v.testBit 28 = true → ((s.regWrite (.hstat h) v).head h).poisonPx = 0
      ∧ ∀ j, j ≠ h → (s.regWrite (.hstat h) v).head j = s.head j)
    ∧ (∀ u, let k := (s.regWrite (.sctl u) v).sounding u
      k.run = v.testBit 31 ∧ (v.testBit 30 = true → k.smin = 0x7FFFFFFF ∧ k.smax = 0x80000000 ∧ k.count = 0 ∧ k.bins = [])
      ∧ (v.testBit 30 = false → k = { s.sounded u with run := v.testBit 31 })
      ∧ ∀ w, w ≠ u → (s.regWrite (.sctl u) v).sounding w = s.sounded w)
    ∧ (∀ h, (v.testBit 31 = false → ((s.regWrite (.hctl h) v).head h).en = false)
      ∧ (v.testBit 31 = true → (2 < nbits v 29 27 ∨ nbits v 26 24 = 7 ∨ nbits v 23 22 = 3 ∨ ownPa s (s.head h).base = false) →
        ((s.regWrite (.hctl h) v).head h).en = false ∧ ((s.regWrite (.hctl h) v).head h).err = true)
      ∧ (v.testBit 31 = true → nbits v 29 27 ≤ 2 → nbits v 26 24 ≠ 7 → nbits v 23 22 ≠ 3 → ownPa s (s.head h).base = true →
        (s.head h).pclk.toNat * (if nbits v 29 27 = 0 then 24 else 30) * 132 ≤ lanePayload (nbits v 26 24) * 2 ^ nbits v 23 22 →
        let x := (s.regWrite (.hctl h) v).head h
        x.en = true ∧ x.fmt = nbits v 29 27 ∧ x.rate = nbits v 26 24 ∧ x.lanes = nbits v 23 22 ∧ x.base = (s.head h).base))
    ∧ (∀ d i, let p : Nat × Nat × Bool := (nbits v 31 16, nbits v 15 4, v.testBit 0)
      let out := p.2.2 = true ∧ (p.1 < s.lim d 0 ∨ s.lim d 2 < p.1 ∨ p.2.1 < s.lim d 4 ∨ s.lim d 6 < p.2.1)
      let s' : State := { s with bar0 := { s.bar0 with vf := tput s.bar0.vf (16 * d + i) p (0, 0, false) } }
      (out → (s.regWrite (.vf d i) v).bar0.vfErr = true ∧ (s.regWrite (.vf d i) v).vfPoint d i = s.vfPoint d i)
      ∧ (¬ out → s'.vfEnabled d ≠ [] → vfRising ((s'.vfEnabled d).map (s'.vfPoint d)) = true →
        (s.regWrite (.vf d i) v).vfPoint d i = p
        ∧ (i ≠ s.vfNow d → ¬ (d = 0 ∧ s.bar0.hot = true) → (s.regWrite (.vf d i) v).vfNow d = s.vfNow d)
        ∧ ∀ k, s.bar0.hot = true → (s'.vfEnabled 0).head? = some k → (s.regWrite (.vf d i) v).vfNow 0 = k))
    ∧ (let c := nbits v 23 16
      let s₀ (kind : Nat) : State := { s with bar0 := { s.bar0 with resKind := kind, resCtx := c } }
      let answers (r : State × Nat) : State := { r.1 with bar0 := { r.1.bar0 with resStat := word r.2 } }
      v.testBit 31 = true →
        (2 ≤ nbits v 29 28 → s.regWrite .resctl v = answers (s₀ (nbits v 29 28), 0x80000053))
        ∧ (nbits v 29 28 = 1 → s.ctx? c ≠ none →
          s.regWrite .resctl v = answers ((s₀ 1).resumeLaunch c (s.bar0.resAddr.toNat % 2 ^ 32) []))
        ∧ (nbits v 29 28 = 0 → s.ctx? c ≠ none → s.bar0.resAddr.toNat % 64 ≠ 0 → s.regWrite .resctl v = answers (s₀ 0, 0x80000052))
        ∧ (∀ s₁ x b, nbits v 29 28 = 0 → s.ctx? c ≠ none → s.bar0.resAddr.toNat % 64 = 0 →
          devRead (s₀ 0) none c 0 s.bar0.resAddr 64 = (s₁, .ok (x, b)) → s.regWrite .resctl v = answers (s₁.resumeRecord c b [])))
    ∧ (let c := nbits v 23 16
      let s₀ (op : Nat) : State := { s with bar0 := { s.bar0 with ctxOp := op, ctxCtx := c } }
      v.testBit 31 = true → s.bar0.ctxBusy = none →
        (nbits v 29 28 = 0 → s.regWrite .ctxctl v = { ((s₀ 0).createContext c).1 with
          bar0 := { ((s₀ 0).createContext c).1.bar0 with ctxStatus := ((s₀ 0).createContext c).2 } })
        ∧ (nbits v 29 28 = 1 → ((s₀ 1).destroyContext c).2 = none → (s.regWrite .ctxctl v).bar0.ctxBusy = some c)
        ∧ (2 ≤ nbits v 29 28 → s.regWrite .ctxctl v = { s₀ (nbits v 29 28) with
          bar0 := { (s₀ (nbits v 29 28)).bar0 with ctxStatus := 1 } })))

/-- R457, R459, R461, R469: the outside's reads and writes of device memory. A read returns the bytes and their poison, a sector
that fails its check among them (R231); a write changes exactly its bytes below 120 GiB, and one of CXL.mem drops the host's own
copies of its lines. R214, R461: a peer's range names its memory at the peer's base plus the offset, and the device's own range
names its own memory. Before READY the BAR4 window reads as ones and takes no write. Where the manual leaves
a point open, this is the model's reading (log entry 57). -/
def Obligations.WindowEvents : Prop :=
  ∀ (s : State),
    (∀ off n, off + n ≤ s.bar4Size →
      exec (.hostBar4Read off n) s = .next (if s.up then (s.homeRead (s.bar4Pa off) n).1.answer (s.homeRead (s.bar4Pa off) n).2.1 (s.homeRead (s.bar4Pa off) n).2.2
        else s.answer (List.replicate n 0xFF)))
    ∧ (∀ off (data : Bytes), off + data.length ≤ s.bar4Size →
      exec (.hostBar4Write off data) s = .next (if s.up then s.homeWrite (s.bar4Pa off) data else s))
    ∧ (∀ pa n (data : Bytes), s.up = true → s.bar0.cxl = true →
      exec (.peerMemoryAccess true pa n data) s = .next (s.homeWrite pa data)
      ∧ exec (.peerMemoryAccess false pa n data) s = .next ((s.homeRead pa n).1.answer (s.homeRead pa n).2.1 (s.homeRead pa n).2.2))
    ∧ (∀ pa n (data : Bytes), s.up = true → s.bar0.cxl = true →
      (pa + data.length ≤ s.bar0.hdmSize * 2 ^ 30 →
        exec (.hostManagedMemoryAccess true pa n data) s = .next (s.hdmWrite pa data)
        ∧ (s.hdmWrite pa data).mem = (s.homeWrite pa data).mem
        ∧ ∀ e ∈ (s.hdmWrite pa data).hostLines, e ∈ s.hostLines ∧ (pa + data.length ≤ 128 * e.1 ∨ 128 * (e.1 + 1) ≤ pa))
      ∧ (pa + n ≤ s.bar0.hdmSize * 2 ^ 30 →
        exec (.hostManagedMemoryAccess false pa n data) s = .next ((s.homeRead pa n).1.answer (s.homeRead pa n).2.1 (s.homeRead pa n).2.2)))
    ∧ (∀ pa n, pa + n ≤ devBytes → (s.homeRead pa n).2 = (mreadN s.mem pa n, (s.verifyN pa n).poisonedPa pa n)
      ∧ (s.homeRead pa n).1 = s.verifyN pa n ∧ (s.homeRead pa n).1.mem = s.mem ∧ (s.flaw = [] → s.verifyN pa n = s))
    ∧ (∀ pa n k, 32 * k < pa + n → pa < 32 * k + 32 → (tget s.flaw k).isSome = true →
      k ∈ (s.verifyN pa n).poison ∧ tget (s.verifyN pa n).flaw k = none)
    ∧ (∀ d off, d < 8 → d ≠ s.bar0.devNum → off < devBytes →
      paKey s ((8 + d) * 2 ^ 47 + off) = some (2 ^ 64 + ((tgetD s.bar0.peerBase d 0).toNat + off) % 2 ^ 64))
    ∧ (∀ off, off < devBytes → paKey s off = some off
      ∧ (s.bar0.devNum < 8 → paKey s ((8 + s.bar0.devNum) * 2 ^ 47 + off) = some off))
    ∧ (∀ pa (data : Bytes) a, mread (s.homeWrite pa data).mem a
      = if pa ≤ a ∧ a < pa + data.length ∧ a < devBytes then data.getD (a - pa) 0 else mread s.mem a)

/-- R449, R453, R464, R467, R473, R475 to R478: the events of Binnacle and the board. Where the manual leaves a point open, this
is the model's reading (log entries 8, 13, 16 and 28). Among them the answer to a DOE Discovery, whose layout is the model's. -/
def Obligations.BoardEvents : Prop :=
  ∀ (s : State),
    (∃ t : State, exec .powerOnReset s = .next t ∧ t.dev = startUp s.cold ∧ t.units = [] ∧ t.launches = [] ∧ t.ctxs = [] ∧ t.ports = []
      ∧ (∀ a, mread t.mem a = if a < devBytes then 0 else mread s.mem a)
      ∧ (t.dev.ready = true → t.bar0.pwrLim = s.pwrMax ∧ ∀ d i, d < 4 → i < 16 → (t.vfPoint d i).2.2 = true))
    ∧ (∀ nonce : Bytes, 2 ≤ s.dev.stage → ∃ b, exec (.attestationRequest nonce) s = .next { s with out := .doe b :: s.out }
      ∧ (nonce.length = 32 → b.length = 339 ∧ (b.drop 193).take 32 = nonce) ∧ (nonce.length ≠ 32 → b = leBytes 1 8))
    ∧ (∀ k, 2 ≤ s.dev.stage → ∃ b, exec (.doeDiscovery k) s = .next { s with out := .doe b :: s.out } ∧ b.length = 4
      ∧ (k = 0 → leNat b = 0x01000001))
    ∧ (∀ cxl w r, (w = 4 ∨ w = 8 ∨ w = 16) → (r = 16 ∨ r = 32 ∨ r = 64) → exec (.hostLinkTraining cxl w r) s
      = .next { s with bar0 := { s.bar0 with cxl := cxl, linkWidth := w, linkRate := r } })
    ∧ (∀ k (x : BitVec 16), k < 96 → s.up = true → ∃ t : State, exec (.sensorRefresh k x) s = .next t
      ∧ (x.toInt < s.tjMax + 80 → tget t.bar0.temps k = some x ∧ (s.tjMax ≤ x.toInt → t.bar0.therm = true ∧ t.bar0.hot = true))
      ∧ (s.tjMax + 80 ≤ x.toInt → t.dev.fail = true ∧ t.dev.code = 0x30 ∧ t.units = []))
    ∧ (s.up = true → exec .supplyDroop s = .next { s with bar0 := { s.bar0 with droop := true, drooping := true } })
    ∧ exec .droopPassed s = .next { s with bar0 := { s.bar0 with drooping := false } }
    ∧ (∀ points pcap power, s.up = true → points.length = 4 → (∀ d, d < 4 → points.getD d 0 ∈ s.vfEnabled d) → 64 ≤ pcap →
      pcap ≤ 256 → power ≤ s.pwrBound → ∃ t : State, exec (.powerGovernorUpdate points pcap power) s = .next t ∧ t.bar0.pcap = pcap
        ∧ t.bar0.power = power ∧ (∀ d, d < 4 → ¬ (d = 0 ∧ s.bar0.hot = true) → t.vfNow d = points.getD d 0)
        ∧ ∀ k, s.bar0.hot = true → (s.vfEnabled 0).head? = some k → t.vfNow 0 = k)
    ∧ s.powerNow ≤ s.pwrBound
    ∧ (s.pwrBound = s.bar0.pwrLim ∨ ∃ e ∈ s.bar0.pwrHist, s.svc - e.1 < 1300000 ∧ s.pwrBound = e.2)
    ∧ (∀ link, exec (.zwilerFlitCrcFail link true) s = .next s)
    ∧ (∀ link, link < 8 → s.up = true → ∃ t : State, exec (.zwilerFlitCrcFail link false) s = .next t
      ∧ t.bar0.zdown.getLsbD link = true)
    ∧ (∀ dev chan w f, dev < 32 → chan < 4 → s.up = true → ∃ t : State, exec (.gddrTransferRetry dev chan w f) s = .next t
      ∧ tgetD t.bar0.counters (0x2000 + 0x40 * dev + 0x10 * chan + if w then 4 else 0) 0
        = min 0xFFFFFFFF (tgetD s.bar0.counters (0x2000 + 0x40 * dev + 0x10 * chan + if w then 4 else 0) 0 + 1)
      ∧ (f = none → t.poison = s.poison)
      ∧ (∀ pa, f = some pa → pa < devBytes → pa / 4096 % 4 = dev / 8 → pa / 32 ∈ t.poison))
    ∧ (∀ dev chan r, dev < 32 → chan < 4 → s.up = true → ∃ t : State, exec (.commandAddressParityError dev chan r) s = .next t
      ∧ tgetD t.bar0.counters (0x2000 + 0x40 * dev + 0x10 * chan + 8) 0
        = min 0xFFFFFFFF (tgetD s.bar0.counters (0x2000 + 0x40 * dev + 0x10 * chan + 8) 0 + 1))
    ∧ (∀ h x y late, (s.head h).en = true → (s.head h).link = true → x < (s.head h).hact.toNat % 65536 →
      y < (s.head h).hact.toNat / 65536 →
      let n := if (s.head h).fmt = 2 then 8 else 4
      let at_ := (s.head h).active + y * (s.head h).pitch.toNat + x * n
      ∃ (t : State) (px : List Nat), exec (.scanOutRead h x y late) s = .next t ∧ t.out = .pixel h x y px :: s.out
        ∧ (late = true → px = [0, 0, 0] ∧ (t.head h).under = true)
        ∧ (∀ pa, paKey s at_ = some pa → paLocal pa = true →
          ((s.verifyN pa n).poisonedPa pa n = true → px = [0, 0, 0])
          ∧ (late = false → (s.head h).fmt = 0 → (s.verifyN pa n).poisonedPa pa n = false →
            px = [(mread s.mem pa).toNat, (mread s.mem (pa + 1)).toNat, (mread s.mem (pa + 2)).toNat]))
        ∧ (late = false → ownPa s at_ = false → px.length = 3 ∧ ∀ c ∈ px, c < if (s.head h).fmt = 0 then 256 else 1024))

/-! ### Fixed operands, and rules of single instructions -/

/-- R14: a write that names pt as its predicate destination has no effect on pt, which always reads 1. -/
def Obligations.PtReadsOne : Prop :=
  ∀ (l : Lane) (b : Bool) (n : BitVec 3), l.pred 7 = true ∧ l.setPred 7 b = l ∧ (l.setPred n b).pred 7 = true
    ∧ (n ≠ 7 → (l.setPred n b).pred n = b) ∧ ∀ m, m ≠ n → (l.setPred n b).pred m = l.pred m

/-- R471: CFGID holds SKU in its upper and VERSION in its lower half; UID holds the first 8 bytes of the digest of the identity public
key; both are read-only. Until start-up's second step has passed they read 0. -/
def Obligations.IdentityRegisters : Prop :=
  ∀ (s : State),
    (3 ≤ s.dev.stage → s.regRead .cfgid = leAt s.board.record 6 2 * 2 ^ 16 + leAt s.board.record 4 2
      ∧ s.regRead .uid = leNat ((leBytes (Config.shake256 s.identity).toNat 64).take 8))
    ∧ (s.dev.stage < 3 → s.regRead .cfgid = 0 ∧ s.regRead .uid = 0)
    ∧ ∀ v, s.regWrite .cfgid v = s ∧ s.regWrite .uid v = s

/-- R147: RDLANE writes, in each lane that takes part, the value of A in lane b mod 256, where b is the uniform value of B; when that
lane takes no part, each lane receives its own value of A. -/
def Obligations.RdlaneReadsOneLane : Prop :=
  ∀ (s : State) (p : Pk) (o : Op2) (b : Nat), pk? s = some p → (∀ l ∈ p.active o.h, p.x32 l o.imm o.b = b) →
    p.gives s (.rdlane o) o.h o.d 1 fun l =>
      match (p.active o.h).find? (·.idx == b % 256) with
      | some j => p.x32 j o.imm o.a
      | none => p.x32 l o.imm o.a

/-- R146: ELECT writes 1 to pd in exactly one lane that takes part, the lowest-numbered one that is no helper, or, when all are
helpers, the lowest-numbered one, and 0 to pd in every other. -/
def Obligations.ElectPicksOneLane : Prop :=
  ∀ (s : State) (p : Pk) (h : Hdr) (pd : BitVec 3), pk? s = some p → pd ≠ 7 → p.issues (.elect h pd) h [] s = true →
    (p.active h).Pairwise (fun a b => a.idx < b.idx) → (∀ l ∈ p.active h, p.actsOn h l) → p.active h ≠ [] →
    ∃ t, exec (.elect h pd) s = .next t ∧ ∃ e ∈ p.active h,
      (∀ l ∈ p.active h, t.predOf p.iss.uid p.iss.grp l.idx pd = decide (l.idx = e.idx))
      ∧ ((∃ l ∈ p.active h, l.helper = false) → e.helper = false ∧ ∀ l ∈ p.active h, l.helper = false → e.idx ≤ l.idx)
      ∧ ((∀ l ∈ p.active h, l.helper = true) → ∀ l ∈ p.active h, e.idx ≤ l.idx)

/-! ### Encoding -/

/-- R33, R38, R48, R54, R55, R57: words written out field by field decode to the instructions that they stand for, and words that break a
rule are refused by the name of their fault. -/
def Obligations.DecodedWords : Prop :=
  let h : Hdr := ⟨7, false, .none⟩
  decode 0x0000000000000000C0C00E00 = .ok (.nop h)
  ∧ decode 0x0000000000000000C0C01006 = .ok (.exit ⟨0, true, .none⟩)
  ∧ decode 0x0000000500000000C0C00E0A = .ok (.trap h 5)
  ∧ decode 0x000000000000C00302010E20 = .ok (.iadd .wrap ⟨h, .v 1, ⟨.v 2, false⟩, ⟨.v 3, false⟩, 0⟩)
  ∧ decode 0x000000100080C0C008040F00 = .ok (.ld ⟨h, .glb, .b32, .weak, .grp, false, false, 0, 0, 16, .v 4, ⟨.v 8, false⟩,
      ⟨.zero, false⟩, ⟨.zero, false⟩⟩)
  ∧ decode 0x000000000000C0C0C0010FE0 = .ok (.mfs h (.v 1) 0)
  ∧ decode 0x0000000000000000C0C08E00 = .error .illop
  ∧ decode 0x000000000000C00302D00E20 = .error .illop
  ∧ decode 0x000000000000C00302C10E20 = .error .illopd
  ∧ decode 0x000000000000C0C0C0C00E0C = .ok (.unassignedOpcodeIssue h 0x00C)

/-- R19, R33, R38, R48 to R61: every well-formed instruction has a word, and the decoder reads that word as the instruction. -/
def Obligations.EncodeThenDecode : Prop :=
  ∀ i : Instr, i.wellFormed = true → ∃ w, encode i = some w ∧ decode w = .ok i

/-- R49, R61: a word that decodes to an instruction is that instruction's only word: no bit of it is dropped. -/
def Obligations.DecodeThenEncode : Prop :=
  ∀ (w : BitVec 96) (i : Instr), decode w = .ok i → (∀ h op, i ≠ .unassignedOpcodeIssue h op) →
    i.wellFormed = true ∧ encode i = some w

/-! ### The step -/

/-- R19, R21, R24, R26, R126, R130: a quadrant's issue opportunity settles the quadrant's groups and runs the instruction that the
packet of the first ready group finds in the line that its lanes hold since they entered it; a word that is none raises its encoding
fault; with no packet nothing issues; the instruction that a REP governs runs with the packet that the REP left; an event runs as
itself. What the packet's lanes have in flight before a memory or engine instruction is performed first. A lane that enters a line
holds the line that was fetched, which is the cached copy, or the bytes of memory when there is none, and the lanes of its group that stand in that line hold it with it. Where the manual leaves a
point open, this is the model's reading (log entries 4, 36 and 58). -/
def Obligations.StepRunsTheDecodedInstruction : Prop :=
  ∀ (s : State) (rest : List Move) (arith svc : Nat), let s₀ := ({ s with agenda := rest } : State).tick arith svc
    (∀ q, s.agenda = { arith := arith, svc := svc, act := .issue q } :: rest → repLive s₀ = none →
      let s₁ := settleQuad { s₀.flushKilled with repNext := none } q
      (choosePk s₁ q = none → step s = .next s₁)
      ∧ ∀ g iss t line, choosePk s₁ q = some (g, iss) → s₁.team? iss.uid = some t → g.lineAt iss = some line →
        let iss' := (if pairSecond s₁ t g iss line then { iss with others := [] } else iss).withLine line
        let w := slotWord line (iss.pc.toNat % 8)
        (∀ i, decode w = .ok i →
          step s = endPacket (exec i (({ s₁.issuedOn g with cur := some iss' } : State).orderLates iss' i)))
        ∧ ∀ e, decode w = .error e → step s = .next (trapEncoding (s₁.issuedOn g) iss' w e))
    ∧ (∀ q iss i, s.agenda = { arith := arith, svc := svc, act := .issue q } :: rest → repLive s₀ = some (iss, i, q) →
      step s = endPacket (exec i (({ s₀ with
        cur := some iss
        repNext := none
        issuedAt := tset s₀.issuedAt q (s₀.coreCyc (q / 4)) } : State).orderLates iss i)))
    ∧ (∀ i, s.agenda = { arith := arith, svc := svc, act := .event i } :: rest → i.cls = .event → i.hdr = none →
      step s = endPacket (exec i { s₀ with cur := none }))
    ∧ (∀ core ctx pc s' line pa, fetchLine s core ctx pc = (s', .ok (line, pa)) →
      (∀ l, tget s.icache (icKey core pa) = some l → line = l)
      ∧ (tget s.icache (icKey core pa) = none → line = BitVec.ofNat 512 (leNat (mreadN s'.mem pa 64))))
    ∧ (∀ uid grp t g pc tr s' line, s.team? uid = some t → s.group? uid grp = some g →
      dueLine s t g pc (.entry tr) = (s', .ok line) →
      let stand (l : Lane) : Lane := if l.pc = pc ∧ l.entry = .fresh tr then { l with line := some line, entry := .waiting tr } else l
      settleAt uid grp (s, false) (pc, .entry tr)
        = ((s'.lineSeen uid grp pc line).updGroup uid grp fun g => { g with lanes := g.lanes.map stand }, false)
      ∧ ∀ k l, s'.lane? uid grp k = some l → ∃ l', (s'.lineSeen uid grp pc line).lane? uid grp k = some l'
        ∧ l' = { l with line := if l.line.isSome ∧ l.pc.toNat / 64 = pc.toNat / 64 then some line else l.line })

/-- R126, R130, and the model's canonical form of memory (log entry 1): every step keeps memory in its one form for one content, and no
packet outlives the step in which its lanes act. -/
def Obligations.StepKeepsTheInvariant : Prop :=
  ∀ (s t : State), s.memOk → s.cur = none → step s = .next t → t.memOk ∧ t.cur = none

/-- R171, R184, R209, R317, R467, R468: the device as reset leaves it, before start-up: not ready, nothing resident, every
counter IDLE, every generator at 1, the split at 12 columns of scratch and 4 of beam records, the full matrix allowance, memory
empty and in canonical form. Where the manual leaves a point open, this is the model's reading (log entries 1 and 16). The
memory's form and the values that the manual does not give are the model's choice. -/
def Obligations.ResetState : Prop :=
  State.reset.memOk ∧ State.reset.cur = none ∧ State.reset.up = false ∧ State.reset.dev.stage = 0 ∧ State.reset.units = [] ∧ State.reset.launches = []
    ∧ (∀ i, (State.reset.counter i).state = .idle) ∧ (∀ c, State.reset.ctx? c = none) ∧ (∀ q, State.reset.seed q = 1)
    ∧ State.reset.bar0.scr = 12 ∧ State.reset.bar0.beam = 4 ∧ State.reset.bar0.govAllow = 256
    ∧ (∀ a, mread State.reset.mem a = 0) ∧ ∀ a n, State.reset.poisonedPa a n = false
end

