-- ==== Sys2Proof/Laws/Sparse.lean ====
section
/-! SUPPORT. Laws of the sparse tables, of byte memories and of their canonical form: reading after writing, writing
elsewhere, and that every operation keeps the canonical form. -/

namespace Sys2Proof.Machine

/-! ### Tables -/

@[simp] theorem tget_nil {α : Type} (k : Nat) : tget ([] : NMap α) k = none := rfl

theorem tget_cons {α : Type} (k' : Nat) (v : α) (r : NMap α) (k : Nat) :
    tget ((k', v) :: r) k = if k = k' then some v else tget r k := by
  simp [tget]

theorem tget_tset {α : Type} (m : NMap α) (k j : Nat) (v : α) :
    tget (tset m k v) j = if j = k then some v else tget m j := by
  induction m with
  | nil => simp [tset, tget_cons]
  | cons h t ih =>
    obtain ⟨k', v'⟩ := h
    simp only [tset]
    split
    · simp [tget_cons]
    · split
      · next h => simp only [beq_iff_eq] at h; subst h; simp only [tget_cons]; split <;> rfl
      · next h => simp only [beq_iff_eq] at h; simp only [tget_cons, ih]; grind

@[simp] theorem tget_tset_self {α : Type} (m : NMap α) (k : Nat) (v : α) : tget (tset m k v) k = some v := by
  simp [tget_tset]

theorem tget_tset_ne {α : Type} (m : NMap α) {k j : Nat} (v : α) (h : j ≠ k) : tget (tset m k v) j = tget m j := by
  simp [tget_tset, h]

theorem tget_tdel {α : Type} (m : NMap α) (k j : Nat) : tget (tdel m k) j = if j = k then none else tget m j := by
  induction m with
  | nil => simp [tdel]
  | cons h t ih =>
    obtain ⟨k', v'⟩ := h
    simp only [tdel, tget_cons]
    split
    · next h => simp only [beq_iff_eq] at h; subst h; rw [ih]; grind
    · next h => simp only [beq_iff_eq] at h; rw [tget_cons, ih]; grind

theorem tgetD_tset {α : Type} (m : NMap α) (k j : Nat) (v d : α) :
    tgetD (tset m k v) j d = if j = k then v else tgetD m j d := by
  simp only [tgetD, tget_tset]; split <;> rfl

theorem tgetD_tdel {α : Type} (m : NMap α) (k j : Nat) (d : α) :
    tgetD (tdel m k) j d = if j = k then d else tgetD m j d := by
  simp only [tgetD, tget_tdel]; split <;> rfl

theorem tgetD_tput {α : Type} [DecidableEq α] (m : NMap α) (k j : Nat) (v d : α) :
    tgetD (tput m k v d) j d = if j = k then v else tgetD m j d := by
  unfold tput; split
  · next h => subst h; exact tgetD_tdel ..
  · exact tgetD_tset ..

theorem tgetD_foldl_tdel {α : Type} (ks : List Nat) (m : NMap α) (j : Nat) (d : α) :
    tgetD (ks.foldl (fun m k => tdel m k) m) j d = if j ∈ ks then d else tgetD m j d := by
  induction ks generalizing m with
  | nil => simp
  | cons k t ih => simp only [List.foldl_cons, ih, tgetD_tdel, List.mem_cons]; grind

/-! ### Canonical form -/

theorem wfFrom_mono {α : Type} [DecidableEq α] {d : α} {a b : Nat} {m : NMap α} (h : wfFrom d b m = true) (hab : a ≤ b) :
    wfFrom d a m = true := by
  cases m with
  | nil => rfl
  | cons e t => simp only [wfFrom, Bool.and_eq_true, decide_eq_true_eq] at h ⊢; exact ⟨⟨by omega, h.1.2⟩, h.2⟩

theorem wfFrom_tset {α : Type} [DecidableEq α] {d v : α} (hv : v ≠ d) {k lo : Nat} (hk : lo ≤ k) {m : NMap α}
    (h : wfFrom d lo m = true) : wfFrom d lo (tset m k v) = true := by
  induction m generalizing lo with
  | nil => simp [tset, wfFrom, hv, hk]
  | cons e t ih =>
    obtain ⟨k', v'⟩ := e
    simp only [wfFrom, Bool.and_eq_true, decide_eq_true_eq] at h
    simp only [tset]
    split
    · simp only [wfFrom, Bool.and_eq_true, decide_eq_true_eq]
      exact ⟨⟨hk, hv⟩, ⟨by omega, h.1.2⟩, h.2⟩
    · split
      · next e => simp only [beq_iff_eq] at e; subst e; simp [wfFrom, hk, hv, h.2]
      · next e =>
        simp only [beq_iff_eq] at e
        simp only [wfFrom, Bool.and_eq_true, decide_eq_true_eq]
        exact ⟨h.1, ih (by omega) h.2⟩

theorem wfFrom_tdel {α : Type} [DecidableEq α] {d : α} {k lo : Nat} {m : NMap α} (h : wfFrom d lo m = true) :
    wfFrom d lo (tdel m k) = true := by
  induction m generalizing lo with
  | nil => rfl
  | cons e t ih =>
    obtain ⟨k', v'⟩ := e
    simp only [wfFrom, Bool.and_eq_true, decide_eq_true_eq] at h
    simp only [tdel]
    split
    · exact wfFrom_mono (ih h.2) (by omega)
    · simp only [wfFrom, Bool.and_eq_true, decide_eq_true_eq]; exact ⟨h.1, ih h.2⟩

theorem wfFrom_tput {α : Type} [DecidableEq α] {d v : α} {k lo : Nat} (hk : lo ≤ k) {m : NMap α}
    (h : wfFrom d lo m = true) : wfFrom d lo (tput m k v d) = true := by
  unfold tput; split
  · exact wfFrom_tdel h
  · next hv => exact wfFrom_tset hv hk h

theorem wfFrom_filter {α : Type} [DecidableEq α] {d : α} {lo : Nat} {m : NMap α} (p : Nat × α → Bool)
    (h : wfFrom d lo m = true) : wfFrom d lo (m.filter p) = true := by
  induction m generalizing lo with
  | nil => rfl
  | cons e t ih =>
    simp only [wfFrom, Bool.and_eq_true, decide_eq_true_eq] at h
    simp only [List.filter_cons]
    split
    · simp only [wfFrom, Bool.and_eq_true, decide_eq_true_eq]; exact ⟨h.1, ih h.2⟩
    · exact wfFrom_mono (ih h.2) (by omega)

/-! ### Byte memories -/

theorem mread_mwrite (m : List Host.Cell) (a x : Nat) (b : Byte) :
    mread (mwrite m a b) x = if x = a then b else mread m x := tgetD_tput m a x b 0

/-- Reading after a write of a byte string: the string inside it, memory as before outside. -/
theorem mread_mwriteN (m : List Host.Cell) (a : Nat) (b : Bytes) (x : Nat) :
    mread (mwriteN m a b) x = if a ≤ x ∧ x < a + b.length then b.getD (x - a) 0 else mread m x := by
  induction b generalizing m a with
  | nil => simp [mwriteN] <;> omega
  | cons h t ih =>
    simp only [mwriteN, ih, mread_mwrite, List.length_cons]
    by_cases hx : x = a
    · subst hx
      rw [if_neg (by omega), if_pos rfl, if_pos ⟨by omega, by omega⟩]; simp
    · by_cases hr : a + 1 ≤ x ∧ x < a + 1 + t.length
      · have : x - a = (x - (a + 1)) + 1 := by omega
        rw [if_pos hr, if_pos ⟨by omega, by omega⟩, this, List.getD_cons_succ]
      · rw [if_neg hr, if_neg hx, if_neg (by omega)]

theorem mread_mwriteN_out (m : List Host.Cell) (a : Nat) (b : Bytes) (x : Nat) (h : x < a ∨ a + b.length ≤ x) :
    mread (mwriteN m a b) x = mread m x := by
  rw [mread_mwriteN, if_neg (by omega)]

@[simp] theorem mreadN_length (m : List Host.Cell) (a n : Nat) : (mreadN m a n).length = n := by
  induction n generalizing a with
  | zero => rfl
  | succ n ih => simp [mreadN, ih]

theorem mreadN_getD (m : List Host.Cell) (a n i : Nat) (h : i < n) : (mreadN m a n).getD i 0 = mread m (a + i) := by
  induction n generalizing a i with
  | zero => omega
  | succ n ih =>
    cases i with
    | zero => simp [mreadN]
    | succ i => simp only [mreadN, List.getD_cons_succ]; rw [ih _ _ (by omega)]; congr 1; omega

/-- Reading a byte string back where it was written. -/
theorem mreadN_mwriteN (m : List Host.Cell) (a : Nat) (b : Bytes) : mreadN (mwriteN m a b) a b.length = b := by
  apply List.ext_getElem (by simp)
  intro i h1 h2
  have := mreadN_getD (mwriteN m a b) a b.length i (by simpa using h1)
  rw [mread_mwriteN, if_pos ⟨by omega, by omega⟩] at this
  have e : a + i - a = i := by omega
  rw [e] at this
  simp only [List.getD, List.getElem?_eq_getElem h1, List.getElem?_eq_getElem h2, Option.getD_some] at this
  exact this

theorem memWf_mwrite {m : List Host.Cell} (h : memWf m = true) (a : Nat) (b : Byte) : memWf (mwrite m a b) = true :=
  wfFrom_tput (Nat.zero_le _) h

theorem memWf_mwriteN {m : List Host.Cell} (h : memWf m = true) (a : Nat) (b : Bytes) : memWf (mwriteN m a b) = true := by
  induction b generalizing m a with
  | nil => exact h
  | cons x t ih => exact ih (memWf_mwrite h a x) _

theorem memWf_filter {m : List Host.Cell} (h : memWf m = true) (p : Host.Cell → Bool) : memWf (m.filter p) = true :=
  wfFrom_filter p h

theorem memWf_mclear {m : List Host.Cell} (h : memWf m = true) (lo n : Nat) : memWf (mclear m lo n) = true :=
  memWf_filter h _

/-! ### The first element of a list -/

theorem find?_updFirst {α : Type} (p : α → Bool) (f : α → α) (hf : ∀ x, p x = true → p (f x) = true) (l : List α) :
    (updFirst p f l).find? p = (l.find? p).map f := by
  induction l with
  | nil => rfl
  | cons h t ih =>
    by_cases hp : p h = true
    · simp [updFirst, hp, hf h hp]
    · simp [updFirst, hp, ih]

theorem find?_updFirst_other {α : Type} (p q : α → Bool) (f : α → α) (hf : ∀ x, p x = true → q x = false ∧ q (f x) = false)
    (l : List α) : (updFirst p f l).find? q = l.find? q := by
  induction l with
  | nil => rfl
  | cons h t ih =>
    by_cases hp : p h = true
    · simp [updFirst, hp, hf h hp]
    · simp [updFirst, hp, List.find?_cons, ih]

theorem find?_map {α : Type} (p : α → Bool) (f : α → α) (hf : ∀ x, p (f x) = p x) (l : List α) :
    (l.map f).find? p = (l.find? p).map f := by
  induction l with
  | nil => rfl
  | cons h t ih =>
    simp only [List.map_cons, List.find?_cons, hf, ih]
    cases p h <;> rfl

end Sys2Proof.Machine
end

