-- ==== Sys2Proof/Laws/Issue.lean ====
section
/-! SUPPORT. What the shared operations around an instruction's own effect do: an issue that nothing holds back runs the
effect, and the instruction that computes a result per lane writes it. -/

namespace Sys2Proof.Machine

@[simp] theorem takeTraps_nil (s : State) (u g : Nat) (pc : Dword) : takeTraps s u g pc [] = s := rfl

theorem pk?_pre {s : State} {p : Pk} (h : pk? s = some p) : p.pre = [] := by
  simp only [pk?] at h
  split at h
  · simp at h
  · split at h
    · simp at h
    · split at h
      · simp at h
      · simp only [Option.some.injEq] at h; subst h; rfl

theorem trapPk_nil {s s' : State} {p : Pk} (h : pk? s = some p) : s'.trapPk p [] = s' := by
  simp [State.trapPk, pk?_pre h, sortTraps]

/-- An instruction that nothing holds back and whose operand values raise no trap runs its own effect on the state that its
issue leaves. -/
theorem issueWith_of_issues {i : Instr} {h : Hdr} {names : Pk → List Nat} {seq : Pk → List Lane} {s : State}
    {k : State → Pk → Answer} {chk late : Pk → List Trap} {p : Pk} (hp : pk? s = some p)
    (hi : p.issues i h (names p) s = true) (hc : chk p = []) (hl : late p = []) :
    issueWith i h names seq s k chk late = k (s.issued p h (names p)) p := by
  simp only [Pk.issues, Bool.and_eq_true, Bool.not_eq_true', Option.isNone_iff_eq_none] at hi
  obtain ⟨⟨⟨⟨⟨hs, he⟩, hg⟩, hr⟩, hca⟩, hf⟩ := hi
  have hpre := pk?_pre hp
  have hF : p.iss.lanes.filter (fun _ => true) = p.iss.lanes := List.filter_eq_self.2 (by simp)
  have hp' : { p with pre := [], iss := { p.iss with lanes := p.iss.lanes } } = p := by
    obtain ⟨iss, tm, g, pre⟩ := p
    simp only at hpre; subst hpre; rfl
  have hgo : (if i.collective = true then p.gather else Gather.go) = Gather.go := by
    cases hcol : i.collective <;> simp_all
  have hr' : ¬((if p.active h = [] then [] else names p).filter fun x => !decide (x ∈ p.grp.claims)).eraseDups = [] →
      ¬p.team.card.regPeak < p.grp.footprint
        + ((if p.active h = [] then [] else names p).filter fun x => !decide (x ∈ p.grp.claims)).eraseDups.length := by
    intro a b
    simp only [Pk.fresh, Pk.names, List.contains_eq_mem, List.isEmpty_iff, Bool.or_eq_true, decide_eq_true_eq] at hr
    rcases hr with hr | hr
    · exact a hr
    · omega
  unfold issueWith
  simp only [hp, hs, Bool.false_eq_true, if_false, List.map_nil, List.contains_nil, Bool.not_false, hF, hp', List.isEmpty_nil,
    Bool.not_true, Bool.false_and, he, hc, hl, hgo]
  have h1 : (Gather.go == Gather.hold) = false := rfl
  have h2 : (Gather.go == Gather.illconv) = false := rfl
  simp only [Pk.names] at hca
  simp only [h1, h2, hca, Bool.false_eq_true, if_false, Bool.not_true]
  unfold State.issued Pk.names
  cases hfl : flagOf p.iss h.cf with
  | none => simp; intro a b; exact absurd b (hr' a)
  | some f =>
    simp only [hfl] at hf
    cases ha : (p.active h).isEmpty with
    | true => simp
    | false =>
      simp only [ha, Bool.false_or, decide_eq_true_eq] at hf
      have hn : ¬ 63 ≤ p.grp.flag f := by omega
      have ha' : p.active h ≠ [] := by simpa using ha
      simp only [ha', if_false] at hr'
      simp [hn]
      intro a b; exact absurd b (hr' a)

end Sys2Proof.Machine
end

