-- ==== Sys2Proof/Laws/State.lean ====
section
/-! SUPPORT. One lemma for each field of the state under each named update of it, true by unfolding: the field that an update
leaves alone reads as before. -/

namespace Sys2Proof.Machine

/-! ### `State.updTeam` -/

@[simp] theorem State.updTeam_arith (s : State) (u : Nat) (f : Team → Team) : (s.updTeam u f).arith = s.arith := rfl
@[simp] theorem State.updTeam_svc (s : State) (u : Nat) (f : Team → Team) : (s.updTeam u f).svc = s.svc := rfl
@[simp] theorem State.updTeam_aheadArith (s : State) (u : Nat) (f : Team → Team) : (s.updTeam u f).aheadArith = s.aheadArith := rfl
@[simp] theorem State.updTeam_aheadSvc (s : State) (u : Nat) (f : Team → Team) : (s.updTeam u f).aheadSvc = s.aheadSvc := rfl
@[simp] theorem State.updTeam_agenda (s : State) (u : Nat) (f : Team → Team) : (s.updTeam u f).agenda = s.agenda := rfl
@[simp] theorem State.updTeam_cur (s : State) (u : Nat) (f : Team → Team) : (s.updTeam u f).cur = s.cur := rfl
@[simp] theorem State.updTeam_repNext (s : State) (u : Nat) (f : Team → Team) : (s.updTeam u f).repNext = s.repNext := rfl
@[simp] theorem State.updTeam_turn (s : State) (u : Nat) (f : Team → Team) : (s.updTeam u f).turn = s.turn := rfl
@[simp] theorem State.updTeam_choices (s : State) (u : Nat) (f : Team → Team) : (s.updTeam u f).choices = s.choices := rfl
@[simp] theorem State.updTeam_mem (s : State) (u : Nat) (f : Team → Team) : (s.updTeam u f).mem = s.mem := rfl
@[simp] theorem State.updTeam_poison (s : State) (u : Nat) (f : Team → Team) : (s.updTeam u f).poison = s.poison := rfl
@[simp] theorem State.updTeam_launches (s : State) (u : Nat) (f : Team → Team) : (s.updTeam u f).launches = s.launches := rfl
@[simp] theorem State.updTeam_counters (s : State) (u : Nat) (f : Team → Team) : (s.updTeam u f).counters = s.counters := rfl
@[simp] theorem State.updTeam_cmds (s : State) (u : Nat) (f : Team → Team) : (s.updTeam u f).cmds = s.cmds := rfl
@[simp] theorem State.updTeam_remoteColl (s : State) (u : Nat) (f : Team → Team) : (s.updTeam u f).remoteColl = s.remoteColl := rfl
@[simp] theorem State.updTeam_matrix (s : State) (u : Nat) (f : Team → Team) : (s.updTeam u f).matrix = s.matrix := rfl
@[simp] theorem State.updTeam_govs (s : State) (u : Nat) (f : Team → Team) : (s.updTeam u f).govs = s.govs := rfl
@[simp] theorem State.updTeam_traces (s : State) (u : Nat) (f : Team → Team) : (s.updTeam u f).traces = s.traces := rfl
@[simp] theorem State.updTeam_traversals (s : State) (u : Nat) (f : Team → Team) : (s.updTeam u f).traversals = s.traversals := rfl
@[simp] theorem State.updTeam_mapLines (s : State) (u : Nat) (f : Team → Team) : (s.updTeam u f).mapLines = s.mapLines := rfl
@[simp] theorem State.updTeam_filters (s : State) (u : Nat) (f : Team → Team) : (s.updTeam u f).filters = s.filters := rfl
@[simp] theorem State.updTeam_ports (s : State) (u : Nat) (f : Team → Team) : (s.updTeam u f).ports = s.ports := rfl
@[simp] theorem State.updTeam_patterns (s : State) (u : Nat) (f : Team → Team) : (s.updTeam u f).patterns = s.patterns := rfl
@[simp] theorem State.updTeam_joinQ (s : State) (u : Nat) (f : Team → Team) : (s.updTeam u f).joinQ = s.joinQ := rfl
@[simp] theorem State.updTeam_forwards (s : State) (u : Nat) (f : Team → Team) : (s.updTeam u f).forwards = s.forwards := rfl
@[simp] theorem State.updTeam_l1 (s : State) (u : Nat) (f : Team → Team) : (s.updTeam u f).l1 = s.l1 := rfl
@[simp] theorem State.updTeam_icache (s : State) (u : Nat) (f : Team → Team) : (s.updTeam u f).icache = s.icache := rfl
@[simp] theorem State.updTeam_tlb (s : State) (u : Nat) (f : Team → Team) : (s.updTeam u f).tlb = s.tlb := rfl
@[simp] theorem State.updTeam_seeds (s : State) (u : Nat) (f : Team → Team) : (s.updTeam u f).seeds = s.seeds := rfl
@[simp] theorem State.updTeam_lastSlot (s : State) (u : Nat) (f : Team → Team) : (s.updTeam u f).lastSlot = s.lastSlot := rfl
@[simp] theorem State.updTeam_issuedAt (s : State) (u : Nat) (f : Team → Team) : (s.updTeam u f).issuedAt = s.issuedAt := rfl
@[simp] theorem State.updTeam_race (s : State) (u : Nat) (f : Team → Team) : (s.updTeam u f).race = s.race := rfl
@[simp] theorem State.updTeam_ctxs (s : State) (u : Nat) (f : Team → Team) : (s.updTeam u f).ctxs = s.ctxs := rfl
@[simp] theorem State.updTeam_chans (s : State) (u : Nat) (f : Team → Team) : (s.updTeam u f).chans = s.chans := rfl
@[simp] theorem State.updTeam_heads (s : State) (u : Nat) (f : Team → Team) : (s.updTeam u f).heads = s.heads := rfl
@[simp] theorem State.updTeam_fbRings (s : State) (u : Nat) (f : Team → Team) : (s.updTeam u f).fbRings = s.fbRings := rfl
@[simp] theorem State.updTeam_soundings (s : State) (u : Nat) (f : Team → Team) : (s.updTeam u f).soundings = s.soundings := rfl
@[simp] theorem State.updTeam_dev (s : State) (u : Nat) (f : Team → Team) : (s.updTeam u f).dev = s.dev := rfl
@[simp] theorem State.updTeam_bar0 (s : State) (u : Nat) (f : Team → Team) : (s.updTeam u f).bar0 = s.bar0 := rfl
@[simp] theorem State.updTeam_board (s : State) (u : Nat) (f : Team → Team) : (s.updTeam u f).board = s.board := rfl
@[simp] theorem State.updTeam_nextUid (s : State) (u : Nat) (f : Team → Team) : (s.updTeam u f).nextUid = s.nextUid := rfl
@[simp] theorem State.updTeam_nextLaunch (s : State) (u : Nat) (f : Team → Team) : (s.updTeam u f).nextLaunch = s.nextLaunch := rfl
@[simp] theorem State.updTeam_nextId (s : State) (u : Nat) (f : Team → Team) : (s.updTeam u f).nextId = s.nextId := rfl
@[simp] theorem State.updTeam_handles (s : State) (u : Nat) (f : Team → Team) : (s.updTeam u f).handles = s.handles := rfl
@[simp] theorem State.updTeam_nextSeq (s : State) (u : Nat) (f : Team → Team) : (s.updTeam u f).nextSeq = s.nextSeq := rfl
@[simp] theorem State.updTeam_out (s : State) (u : Nat) (f : Team → Team) : (s.updTeam u f).out = s.out := rfl
@[simp] theorem State.updTeam_flaw (s : State) (u : Nat) (f : Team → Team) : (s.updTeam u f).flaw = s.flaw := rfl
@[simp] theorem State.updTeam_invs (s : State) (u : Nat) (f : Team → Team) : (s.updTeam u f).invs = s.invs := rfl
@[simp] theorem State.updTeam_hostLines (s : State) (u : Nat) (f : Team → Team) : (s.updTeam u f).hostLines = s.hostLines := rfl
@[simp] theorem State.updTeam_putOff (s : State) (u : Nat) (f : Team → Team) : (s.updTeam u f).putOff = s.putOff := rfl
@[simp] theorem State.updTeam_copyTurn (s : State) (u : Nat) (f : Team → Team) : (s.updTeam u f).copyTurn = s.copyTurn := rfl

/-! ### `State.updGroup` -/

@[simp] theorem State.updGroup_arith (s : State) (u g : Nat) (f : Group → Group) : (s.updGroup u g f).arith = s.arith := rfl
@[simp] theorem State.updGroup_svc (s : State) (u g : Nat) (f : Group → Group) : (s.updGroup u g f).svc = s.svc := rfl
@[simp] theorem State.updGroup_aheadArith (s : State) (u g : Nat) (f : Group → Group) : (s.updGroup u g f).aheadArith = s.aheadArith := rfl
@[simp] theorem State.updGroup_aheadSvc (s : State) (u g : Nat) (f : Group → Group) : (s.updGroup u g f).aheadSvc = s.aheadSvc := rfl
@[simp] theorem State.updGroup_agenda (s : State) (u g : Nat) (f : Group → Group) : (s.updGroup u g f).agenda = s.agenda := rfl
@[simp] theorem State.updGroup_cur (s : State) (u g : Nat) (f : Group → Group) : (s.updGroup u g f).cur = s.cur := rfl
@[simp] theorem State.updGroup_repNext (s : State) (u g : Nat) (f : Group → Group) : (s.updGroup u g f).repNext = s.repNext := rfl
@[simp] theorem State.updGroup_turn (s : State) (u g : Nat) (f : Group → Group) : (s.updGroup u g f).turn = s.turn := rfl
@[simp] theorem State.updGroup_choices (s : State) (u g : Nat) (f : Group → Group) : (s.updGroup u g f).choices = s.choices := rfl
@[simp] theorem State.updGroup_mem (s : State) (u g : Nat) (f : Group → Group) : (s.updGroup u g f).mem = s.mem := rfl
@[simp] theorem State.updGroup_poison (s : State) (u g : Nat) (f : Group → Group) : (s.updGroup u g f).poison = s.poison := rfl
@[simp] theorem State.updGroup_launches (s : State) (u g : Nat) (f : Group → Group) : (s.updGroup u g f).launches = s.launches := rfl
@[simp] theorem State.updGroup_counters (s : State) (u g : Nat) (f : Group → Group) : (s.updGroup u g f).counters = s.counters := rfl
@[simp] theorem State.updGroup_cmds (s : State) (u g : Nat) (f : Group → Group) : (s.updGroup u g f).cmds = s.cmds := rfl
@[simp] theorem State.updGroup_remoteColl (s : State) (u g : Nat) (f : Group → Group) : (s.updGroup u g f).remoteColl = s.remoteColl := rfl
@[simp] theorem State.updGroup_matrix (s : State) (u g : Nat) (f : Group → Group) : (s.updGroup u g f).matrix = s.matrix := rfl
@[simp] theorem State.updGroup_govs (s : State) (u g : Nat) (f : Group → Group) : (s.updGroup u g f).govs = s.govs := rfl
@[simp] theorem State.updGroup_traces (s : State) (u g : Nat) (f : Group → Group) : (s.updGroup u g f).traces = s.traces := rfl
@[simp] theorem State.updGroup_traversals (s : State) (u g : Nat) (f : Group → Group) : (s.updGroup u g f).traversals = s.traversals := rfl
@[simp] theorem State.updGroup_mapLines (s : State) (u g : Nat) (f : Group → Group) : (s.updGroup u g f).mapLines = s.mapLines := rfl
@[simp] theorem State.updGroup_filters (s : State) (u g : Nat) (f : Group → Group) : (s.updGroup u g f).filters = s.filters := rfl
@[simp] theorem State.updGroup_ports (s : State) (u g : Nat) (f : Group → Group) : (s.updGroup u g f).ports = s.ports := rfl
@[simp] theorem State.updGroup_patterns (s : State) (u g : Nat) (f : Group → Group) : (s.updGroup u g f).patterns = s.patterns := rfl
@[simp] theorem State.updGroup_joinQ (s : State) (u g : Nat) (f : Group → Group) : (s.updGroup u g f).joinQ = s.joinQ := rfl
@[simp] theorem State.updGroup_forwards (s : State) (u g : Nat) (f : Group → Group) : (s.updGroup u g f).forwards = s.forwards := rfl
@[simp] theorem State.updGroup_l1 (s : State) (u g : Nat) (f : Group → Group) : (s.updGroup u g f).l1 = s.l1 := rfl
@[simp] theorem State.updGroup_icache (s : State) (u g : Nat) (f : Group → Group) : (s.updGroup u g f).icache = s.icache := rfl
@[simp] theorem State.updGroup_tlb (s : State) (u g : Nat) (f : Group → Group) : (s.updGroup u g f).tlb = s.tlb := rfl
@[simp] theorem State.updGroup_seeds (s : State) (u g : Nat) (f : Group → Group) : (s.updGroup u g f).seeds = s.seeds := rfl
@[simp] theorem State.updGroup_lastSlot (s : State) (u g : Nat) (f : Group → Group) : (s.updGroup u g f).lastSlot = s.lastSlot := rfl
@[simp] theorem State.updGroup_issuedAt (s : State) (u g : Nat) (f : Group → Group) : (s.updGroup u g f).issuedAt = s.issuedAt := rfl
@[simp] theorem State.updGroup_race (s : State) (u g : Nat) (f : Group → Group) : (s.updGroup u g f).race = s.race := rfl
@[simp] theorem State.updGroup_ctxs (s : State) (u g : Nat) (f : Group → Group) : (s.updGroup u g f).ctxs = s.ctxs := rfl
@[simp] theorem State.updGroup_chans (s : State) (u g : Nat) (f : Group → Group) : (s.updGroup u g f).chans = s.chans := rfl
@[simp] theorem State.updGroup_heads (s : State) (u g : Nat) (f : Group → Group) : (s.updGroup u g f).heads = s.heads := rfl
@[simp] theorem State.updGroup_fbRings (s : State) (u g : Nat) (f : Group → Group) : (s.updGroup u g f).fbRings = s.fbRings := rfl
@[simp] theorem State.updGroup_soundings (s : State) (u g : Nat) (f : Group → Group) : (s.updGroup u g f).soundings = s.soundings := rfl
@[simp] theorem State.updGroup_dev (s : State) (u g : Nat) (f : Group → Group) : (s.updGroup u g f).dev = s.dev := rfl
@[simp] theorem State.updGroup_bar0 (s : State) (u g : Nat) (f : Group → Group) : (s.updGroup u g f).bar0 = s.bar0 := rfl
@[simp] theorem State.updGroup_board (s : State) (u g : Nat) (f : Group → Group) : (s.updGroup u g f).board = s.board := rfl
@[simp] theorem State.updGroup_nextUid (s : State) (u g : Nat) (f : Group → Group) : (s.updGroup u g f).nextUid = s.nextUid := rfl
@[simp] theorem State.updGroup_nextLaunch (s : State) (u g : Nat) (f : Group → Group) : (s.updGroup u g f).nextLaunch = s.nextLaunch := rfl
@[simp] theorem State.updGroup_nextId (s : State) (u g : Nat) (f : Group → Group) : (s.updGroup u g f).nextId = s.nextId := rfl
@[simp] theorem State.updGroup_handles (s : State) (u g : Nat) (f : Group → Group) : (s.updGroup u g f).handles = s.handles := rfl
@[simp] theorem State.updGroup_nextSeq (s : State) (u g : Nat) (f : Group → Group) : (s.updGroup u g f).nextSeq = s.nextSeq := rfl
@[simp] theorem State.updGroup_out (s : State) (u g : Nat) (f : Group → Group) : (s.updGroup u g f).out = s.out := rfl
@[simp] theorem State.updGroup_flaw (s : State) (u g : Nat) (f : Group → Group) : (s.updGroup u g f).flaw = s.flaw := rfl
@[simp] theorem State.updGroup_invs (s : State) (u g : Nat) (f : Group → Group) : (s.updGroup u g f).invs = s.invs := rfl
@[simp] theorem State.updGroup_hostLines (s : State) (u g : Nat) (f : Group → Group) : (s.updGroup u g f).hostLines = s.hostLines := rfl
@[simp] theorem State.updGroup_putOff (s : State) (u g : Nat) (f : Group → Group) : (s.updGroup u g f).putOff = s.putOff := rfl
@[simp] theorem State.updGroup_copyTurn (s : State) (u g : Nat) (f : Group → Group) : (s.updGroup u g f).copyTurn = s.copyTurn := rfl

/-! ### `State.updLaunch` -/

@[simp] theorem State.updLaunch_arith (s : State) (k : Nat) (f : Launch → Launch) : (s.updLaunch k f).arith = s.arith := rfl
@[simp] theorem State.updLaunch_svc (s : State) (k : Nat) (f : Launch → Launch) : (s.updLaunch k f).svc = s.svc := rfl
@[simp] theorem State.updLaunch_aheadArith (s : State) (k : Nat) (f : Launch → Launch) : (s.updLaunch k f).aheadArith = s.aheadArith := rfl
@[simp] theorem State.updLaunch_aheadSvc (s : State) (k : Nat) (f : Launch → Launch) : (s.updLaunch k f).aheadSvc = s.aheadSvc := rfl
@[simp] theorem State.updLaunch_agenda (s : State) (k : Nat) (f : Launch → Launch) : (s.updLaunch k f).agenda = s.agenda := rfl
@[simp] theorem State.updLaunch_cur (s : State) (k : Nat) (f : Launch → Launch) : (s.updLaunch k f).cur = s.cur := rfl
@[simp] theorem State.updLaunch_repNext (s : State) (k : Nat) (f : Launch → Launch) : (s.updLaunch k f).repNext = s.repNext := rfl
@[simp] theorem State.updLaunch_turn (s : State) (k : Nat) (f : Launch → Launch) : (s.updLaunch k f).turn = s.turn := rfl
@[simp] theorem State.updLaunch_choices (s : State) (k : Nat) (f : Launch → Launch) : (s.updLaunch k f).choices = s.choices := rfl
@[simp] theorem State.updLaunch_mem (s : State) (k : Nat) (f : Launch → Launch) : (s.updLaunch k f).mem = s.mem := rfl
@[simp] theorem State.updLaunch_poison (s : State) (k : Nat) (f : Launch → Launch) : (s.updLaunch k f).poison = s.poison := rfl
@[simp] theorem State.updLaunch_units (s : State) (k : Nat) (f : Launch → Launch) : (s.updLaunch k f).units = s.units := rfl
@[simp] theorem State.updLaunch_counters (s : State) (k : Nat) (f : Launch → Launch) : (s.updLaunch k f).counters = s.counters := rfl
@[simp] theorem State.updLaunch_cmds (s : State) (k : Nat) (f : Launch → Launch) : (s.updLaunch k f).cmds = s.cmds := rfl
@[simp] theorem State.updLaunch_remoteColl (s : State) (k : Nat) (f : Launch → Launch) : (s.updLaunch k f).remoteColl = s.remoteColl := rfl
@[simp] theorem State.updLaunch_matrix (s : State) (k : Nat) (f : Launch → Launch) : (s.updLaunch k f).matrix = s.matrix := rfl
@[simp] theorem State.updLaunch_govs (s : State) (k : Nat) (f : Launch → Launch) : (s.updLaunch k f).govs = s.govs := rfl
@[simp] theorem State.updLaunch_traces (s : State) (k : Nat) (f : Launch → Launch) : (s.updLaunch k f).traces = s.traces := rfl
@[simp] theorem State.updLaunch_traversals (s : State) (k : Nat) (f : Launch → Launch) : (s.updLaunch k f).traversals = s.traversals := rfl
@[simp] theorem State.updLaunch_mapLines (s : State) (k : Nat) (f : Launch → Launch) : (s.updLaunch k f).mapLines = s.mapLines := rfl
@[simp] theorem State.updLaunch_filters (s : State) (k : Nat) (f : Launch → Launch) : (s.updLaunch k f).filters = s.filters := rfl
@[simp] theorem State.updLaunch_ports (s : State) (k : Nat) (f : Launch → Launch) : (s.updLaunch k f).ports = s.ports := rfl
@[simp] theorem State.updLaunch_patterns (s : State) (k : Nat) (f : Launch → Launch) : (s.updLaunch k f).patterns = s.patterns := rfl
@[simp] theorem State.updLaunch_joinQ (s : State) (k : Nat) (f : Launch → Launch) : (s.updLaunch k f).joinQ = s.joinQ := rfl
@[simp] theorem State.updLaunch_forwards (s : State) (k : Nat) (f : Launch → Launch) : (s.updLaunch k f).forwards = s.forwards := rfl
@[simp] theorem State.updLaunch_l1 (s : State) (k : Nat) (f : Launch → Launch) : (s.updLaunch k f).l1 = s.l1 := rfl
@[simp] theorem State.updLaunch_icache (s : State) (k : Nat) (f : Launch → Launch) : (s.updLaunch k f).icache = s.icache := rfl
@[simp] theorem State.updLaunch_tlb (s : State) (k : Nat) (f : Launch → Launch) : (s.updLaunch k f).tlb = s.tlb := rfl
@[simp] theorem State.updLaunch_seeds (s : State) (k : Nat) (f : Launch → Launch) : (s.updLaunch k f).seeds = s.seeds := rfl
@[simp] theorem State.updLaunch_lastSlot (s : State) (k : Nat) (f : Launch → Launch) : (s.updLaunch k f).lastSlot = s.lastSlot := rfl
@[simp] theorem State.updLaunch_issuedAt (s : State) (k : Nat) (f : Launch → Launch) : (s.updLaunch k f).issuedAt = s.issuedAt := rfl
@[simp] theorem State.updLaunch_race (s : State) (k : Nat) (f : Launch → Launch) : (s.updLaunch k f).race = s.race := rfl
@[simp] theorem State.updLaunch_ctxs (s : State) (k : Nat) (f : Launch → Launch) : (s.updLaunch k f).ctxs = s.ctxs := rfl
@[simp] theorem State.updLaunch_chans (s : State) (k : Nat) (f : Launch → Launch) : (s.updLaunch k f).chans = s.chans := rfl
@[simp] theorem State.updLaunch_heads (s : State) (k : Nat) (f : Launch → Launch) : (s.updLaunch k f).heads = s.heads := rfl
@[simp] theorem State.updLaunch_fbRings (s : State) (k : Nat) (f : Launch → Launch) : (s.updLaunch k f).fbRings = s.fbRings := rfl
@[simp] theorem State.updLaunch_soundings (s : State) (k : Nat) (f : Launch → Launch) : (s.updLaunch k f).soundings = s.soundings := rfl
@[simp] theorem State.updLaunch_dev (s : State) (k : Nat) (f : Launch → Launch) : (s.updLaunch k f).dev = s.dev := rfl
@[simp] theorem State.updLaunch_bar0 (s : State) (k : Nat) (f : Launch → Launch) : (s.updLaunch k f).bar0 = s.bar0 := rfl
@[simp] theorem State.updLaunch_board (s : State) (k : Nat) (f : Launch → Launch) : (s.updLaunch k f).board = s.board := rfl
@[simp] theorem State.updLaunch_nextUid (s : State) (k : Nat) (f : Launch → Launch) : (s.updLaunch k f).nextUid = s.nextUid := rfl
@[simp] theorem State.updLaunch_nextLaunch (s : State) (k : Nat) (f : Launch → Launch) : (s.updLaunch k f).nextLaunch = s.nextLaunch := rfl
@[simp] theorem State.updLaunch_nextId (s : State) (k : Nat) (f : Launch → Launch) : (s.updLaunch k f).nextId = s.nextId := rfl
@[simp] theorem State.updLaunch_handles (s : State) (k : Nat) (f : Launch → Launch) : (s.updLaunch k f).handles = s.handles := rfl
@[simp] theorem State.updLaunch_nextSeq (s : State) (k : Nat) (f : Launch → Launch) : (s.updLaunch k f).nextSeq = s.nextSeq := rfl
@[simp] theorem State.updLaunch_out (s : State) (k : Nat) (f : Launch → Launch) : (s.updLaunch k f).out = s.out := rfl
@[simp] theorem State.updLaunch_flaw (s : State) (k : Nat) (f : Launch → Launch) : (s.updLaunch k f).flaw = s.flaw := rfl
@[simp] theorem State.updLaunch_invs (s : State) (k : Nat) (f : Launch → Launch) : (s.updLaunch k f).invs = s.invs := rfl
@[simp] theorem State.updLaunch_hostLines (s : State) (k : Nat) (f : Launch → Launch) : (s.updLaunch k f).hostLines = s.hostLines := rfl
@[simp] theorem State.updLaunch_putOff (s : State) (k : Nat) (f : Launch → Launch) : (s.updLaunch k f).putOff = s.putOff := rfl
@[simp] theorem State.updLaunch_copyTurn (s : State) (k : Nat) (f : Launch → Launch) : (s.updLaunch k f).copyTurn = s.copyTurn := rfl

/-! ### `State.updCmd` -/

@[simp] theorem State.updCmd_arith (s : State) (k : Nat) (f : Cmd → Cmd) : (s.updCmd k f).arith = s.arith := rfl
@[simp] theorem State.updCmd_svc (s : State) (k : Nat) (f : Cmd → Cmd) : (s.updCmd k f).svc = s.svc := rfl
@[simp] theorem State.updCmd_aheadArith (s : State) (k : Nat) (f : Cmd → Cmd) : (s.updCmd k f).aheadArith = s.aheadArith := rfl
@[simp] theorem State.updCmd_aheadSvc (s : State) (k : Nat) (f : Cmd → Cmd) : (s.updCmd k f).aheadSvc = s.aheadSvc := rfl
@[simp] theorem State.updCmd_agenda (s : State) (k : Nat) (f : Cmd → Cmd) : (s.updCmd k f).agenda = s.agenda := rfl
@[simp] theorem State.updCmd_cur (s : State) (k : Nat) (f : Cmd → Cmd) : (s.updCmd k f).cur = s.cur := rfl
@[simp] theorem State.updCmd_repNext (s : State) (k : Nat) (f : Cmd → Cmd) : (s.updCmd k f).repNext = s.repNext := rfl
@[simp] theorem State.updCmd_turn (s : State) (k : Nat) (f : Cmd → Cmd) : (s.updCmd k f).turn = s.turn := rfl
@[simp] theorem State.updCmd_choices (s : State) (k : Nat) (f : Cmd → Cmd) : (s.updCmd k f).choices = s.choices := rfl
@[simp] theorem State.updCmd_mem (s : State) (k : Nat) (f : Cmd → Cmd) : (s.updCmd k f).mem = s.mem := rfl
@[simp] theorem State.updCmd_poison (s : State) (k : Nat) (f : Cmd → Cmd) : (s.updCmd k f).poison = s.poison := rfl
@[simp] theorem State.updCmd_units (s : State) (k : Nat) (f : Cmd → Cmd) : (s.updCmd k f).units = s.units := rfl
@[simp] theorem State.updCmd_launches (s : State) (k : Nat) (f : Cmd → Cmd) : (s.updCmd k f).launches = s.launches := rfl
@[simp] theorem State.updCmd_counters (s : State) (k : Nat) (f : Cmd → Cmd) : (s.updCmd k f).counters = s.counters := rfl
@[simp] theorem State.updCmd_remoteColl (s : State) (k : Nat) (f : Cmd → Cmd) : (s.updCmd k f).remoteColl = s.remoteColl := rfl
@[simp] theorem State.updCmd_matrix (s : State) (k : Nat) (f : Cmd → Cmd) : (s.updCmd k f).matrix = s.matrix := rfl
@[simp] theorem State.updCmd_govs (s : State) (k : Nat) (f : Cmd → Cmd) : (s.updCmd k f).govs = s.govs := rfl
@[simp] theorem State.updCmd_traces (s : State) (k : Nat) (f : Cmd → Cmd) : (s.updCmd k f).traces = s.traces := rfl
@[simp] theorem State.updCmd_traversals (s : State) (k : Nat) (f : Cmd → Cmd) : (s.updCmd k f).traversals = s.traversals := rfl
@[simp] theorem State.updCmd_mapLines (s : State) (k : Nat) (f : Cmd → Cmd) : (s.updCmd k f).mapLines = s.mapLines := rfl
@[simp] theorem State.updCmd_filters (s : State) (k : Nat) (f : Cmd → Cmd) : (s.updCmd k f).filters = s.filters := rfl
@[simp] theorem State.updCmd_ports (s : State) (k : Nat) (f : Cmd → Cmd) : (s.updCmd k f).ports = s.ports := rfl
@[simp] theorem State.updCmd_patterns (s : State) (k : Nat) (f : Cmd → Cmd) : (s.updCmd k f).patterns = s.patterns := rfl
@[simp] theorem State.updCmd_joinQ (s : State) (k : Nat) (f : Cmd → Cmd) : (s.updCmd k f).joinQ = s.joinQ := rfl
@[simp] theorem State.updCmd_forwards (s : State) (k : Nat) (f : Cmd → Cmd) : (s.updCmd k f).forwards = s.forwards := rfl
@[simp] theorem State.updCmd_l1 (s : State) (k : Nat) (f : Cmd → Cmd) : (s.updCmd k f).l1 = s.l1 := rfl
@[simp] theorem State.updCmd_icache (s : State) (k : Nat) (f : Cmd → Cmd) : (s.updCmd k f).icache = s.icache := rfl
@[simp] theorem State.updCmd_tlb (s : State) (k : Nat) (f : Cmd → Cmd) : (s.updCmd k f).tlb = s.tlb := rfl
@[simp] theorem State.updCmd_seeds (s : State) (k : Nat) (f : Cmd → Cmd) : (s.updCmd k f).seeds = s.seeds := rfl
@[simp] theorem State.updCmd_lastSlot (s : State) (k : Nat) (f : Cmd → Cmd) : (s.updCmd k f).lastSlot = s.lastSlot := rfl
@[simp] theorem State.updCmd_issuedAt (s : State) (k : Nat) (f : Cmd → Cmd) : (s.updCmd k f).issuedAt = s.issuedAt := rfl
@[simp] theorem State.updCmd_race (s : State) (k : Nat) (f : Cmd → Cmd) : (s.updCmd k f).race = s.race := rfl
@[simp] theorem State.updCmd_ctxs (s : State) (k : Nat) (f : Cmd → Cmd) : (s.updCmd k f).ctxs = s.ctxs := rfl
@[simp] theorem State.updCmd_chans (s : State) (k : Nat) (f : Cmd → Cmd) : (s.updCmd k f).chans = s.chans := rfl
@[simp] theorem State.updCmd_heads (s : State) (k : Nat) (f : Cmd → Cmd) : (s.updCmd k f).heads = s.heads := rfl
@[simp] theorem State.updCmd_fbRings (s : State) (k : Nat) (f : Cmd → Cmd) : (s.updCmd k f).fbRings = s.fbRings := rfl
@[simp] theorem State.updCmd_soundings (s : State) (k : Nat) (f : Cmd → Cmd) : (s.updCmd k f).soundings = s.soundings := rfl
@[simp] theorem State.updCmd_dev (s : State) (k : Nat) (f : Cmd → Cmd) : (s.updCmd k f).dev = s.dev := rfl
@[simp] theorem State.updCmd_bar0 (s : State) (k : Nat) (f : Cmd → Cmd) : (s.updCmd k f).bar0 = s.bar0 := rfl
@[simp] theorem State.updCmd_board (s : State) (k : Nat) (f : Cmd → Cmd) : (s.updCmd k f).board = s.board := rfl
@[simp] theorem State.updCmd_nextUid (s : State) (k : Nat) (f : Cmd → Cmd) : (s.updCmd k f).nextUid = s.nextUid := rfl
@[simp] theorem State.updCmd_nextLaunch (s : State) (k : Nat) (f : Cmd → Cmd) : (s.updCmd k f).nextLaunch = s.nextLaunch := rfl
@[simp] theorem State.updCmd_nextId (s : State) (k : Nat) (f : Cmd → Cmd) : (s.updCmd k f).nextId = s.nextId := rfl
@[simp] theorem State.updCmd_handles (s : State) (k : Nat) (f : Cmd → Cmd) : (s.updCmd k f).handles = s.handles := rfl
@[simp] theorem State.updCmd_nextSeq (s : State) (k : Nat) (f : Cmd → Cmd) : (s.updCmd k f).nextSeq = s.nextSeq := rfl
@[simp] theorem State.updCmd_out (s : State) (k : Nat) (f : Cmd → Cmd) : (s.updCmd k f).out = s.out := rfl
@[simp] theorem State.updCmd_flaw (s : State) (k : Nat) (f : Cmd → Cmd) : (s.updCmd k f).flaw = s.flaw := rfl
@[simp] theorem State.updCmd_invs (s : State) (k : Nat) (f : Cmd → Cmd) : (s.updCmd k f).invs = s.invs := rfl
@[simp] theorem State.updCmd_hostLines (s : State) (k : Nat) (f : Cmd → Cmd) : (s.updCmd k f).hostLines = s.hostLines := rfl
@[simp] theorem State.updCmd_putOff (s : State) (k : Nat) (f : Cmd → Cmd) : (s.updCmd k f).putOff = s.putOff := rfl
@[simp] theorem State.updCmd_copyTurn (s : State) (k : Nat) (f : Cmd → Cmd) : (s.updCmd k f).copyTurn = s.copyTurn := rfl

/-! ### `State.setCounter` -/

@[simp] theorem State.setCounter_arith (s : State) (k : Nat) (c : Counter) : (s.setCounter k c).arith = s.arith := rfl
@[simp] theorem State.setCounter_svc (s : State) (k : Nat) (c : Counter) : (s.setCounter k c).svc = s.svc := rfl
@[simp] theorem State.setCounter_aheadArith (s : State) (k : Nat) (c : Counter) : (s.setCounter k c).aheadArith = s.aheadArith := rfl
@[simp] theorem State.setCounter_aheadSvc (s : State) (k : Nat) (c : Counter) : (s.setCounter k c).aheadSvc = s.aheadSvc := rfl
@[simp] theorem State.setCounter_agenda (s : State) (k : Nat) (c : Counter) : (s.setCounter k c).agenda = s.agenda := rfl
@[simp] theorem State.setCounter_cur (s : State) (k : Nat) (c : Counter) : (s.setCounter k c).cur = s.cur := rfl
@[simp] theorem State.setCounter_repNext (s : State) (k : Nat) (c : Counter) : (s.setCounter k c).repNext = s.repNext := rfl
@[simp] theorem State.setCounter_turn (s : State) (k : Nat) (c : Counter) : (s.setCounter k c).turn = s.turn := rfl
@[simp] theorem State.setCounter_choices (s : State) (k : Nat) (c : Counter) : (s.setCounter k c).choices = s.choices := rfl
@[simp] theorem State.setCounter_mem (s : State) (k : Nat) (c : Counter) : (s.setCounter k c).mem = s.mem := rfl
@[simp] theorem State.setCounter_poison (s : State) (k : Nat) (c : Counter) : (s.setCounter k c).poison = s.poison := rfl
@[simp] theorem State.setCounter_units (s : State) (k : Nat) (c : Counter) : (s.setCounter k c).units = s.units := rfl
@[simp] theorem State.setCounter_launches (s : State) (k : Nat) (c : Counter) : (s.setCounter k c).launches = s.launches := rfl
@[simp] theorem State.setCounter_cmds (s : State) (k : Nat) (c : Counter) : (s.setCounter k c).cmds = s.cmds := rfl
@[simp] theorem State.setCounter_remoteColl (s : State) (k : Nat) (c : Counter) : (s.setCounter k c).remoteColl = s.remoteColl := rfl
@[simp] theorem State.setCounter_matrix (s : State) (k : Nat) (c : Counter) : (s.setCounter k c).matrix = s.matrix := rfl
@[simp] theorem State.setCounter_govs (s : State) (k : Nat) (c : Counter) : (s.setCounter k c).govs = s.govs := rfl
@[simp] theorem State.setCounter_traces (s : State) (k : Nat) (c : Counter) : (s.setCounter k c).traces = s.traces := rfl
@[simp] theorem State.setCounter_traversals (s : State) (k : Nat) (c : Counter) : (s.setCounter k c).traversals = s.traversals := rfl
@[simp] theorem State.setCounter_mapLines (s : State) (k : Nat) (c : Counter) : (s.setCounter k c).mapLines = s.mapLines := rfl
@[simp] theorem State.setCounter_filters (s : State) (k : Nat) (c : Counter) : (s.setCounter k c).filters = s.filters := rfl
@[simp] theorem State.setCounter_ports (s : State) (k : Nat) (c : Counter) : (s.setCounter k c).ports = s.ports := rfl
@[simp] theorem State.setCounter_patterns (s : State) (k : Nat) (c : Counter) : (s.setCounter k c).patterns = s.patterns := rfl
@[simp] theorem State.setCounter_joinQ (s : State) (k : Nat) (c : Counter) : (s.setCounter k c).joinQ = s.joinQ := rfl
@[simp] theorem State.setCounter_forwards (s : State) (k : Nat) (c : Counter) : (s.setCounter k c).forwards = s.forwards := rfl
@[simp] theorem State.setCounter_l1 (s : State) (k : Nat) (c : Counter) : (s.setCounter k c).l1 = s.l1 := rfl
@[simp] theorem State.setCounter_icache (s : State) (k : Nat) (c : Counter) : (s.setCounter k c).icache = s.icache := rfl
@[simp] theorem State.setCounter_tlb (s : State) (k : Nat) (c : Counter) : (s.setCounter k c).tlb = s.tlb := rfl
@[simp] theorem State.setCounter_seeds (s : State) (k : Nat) (c : Counter) : (s.setCounter k c).seeds = s.seeds := rfl
@[simp] theorem State.setCounter_lastSlot (s : State) (k : Nat) (c : Counter) : (s.setCounter k c).lastSlot = s.lastSlot := rfl
@[simp] theorem State.setCounter_issuedAt (s : State) (k : Nat) (c : Counter) : (s.setCounter k c).issuedAt = s.issuedAt := rfl
@[simp] theorem State.setCounter_race (s : State) (k : Nat) (c : Counter) : (s.setCounter k c).race = s.race := rfl
@[simp] theorem State.setCounter_ctxs (s : State) (k : Nat) (c : Counter) : (s.setCounter k c).ctxs = s.ctxs := rfl
@[simp] theorem State.setCounter_chans (s : State) (k : Nat) (c : Counter) : (s.setCounter k c).chans = s.chans := rfl
@[simp] theorem State.setCounter_heads (s : State) (k : Nat) (c : Counter) : (s.setCounter k c).heads = s.heads := rfl
@[simp] theorem State.setCounter_fbRings (s : State) (k : Nat) (c : Counter) : (s.setCounter k c).fbRings = s.fbRings := rfl
@[simp] theorem State.setCounter_soundings (s : State) (k : Nat) (c : Counter) : (s.setCounter k c).soundings = s.soundings := rfl
@[simp] theorem State.setCounter_dev (s : State) (k : Nat) (c : Counter) : (s.setCounter k c).dev = s.dev := rfl
@[simp] theorem State.setCounter_bar0 (s : State) (k : Nat) (c : Counter) : (s.setCounter k c).bar0 = s.bar0 := rfl
@[simp] theorem State.setCounter_board (s : State) (k : Nat) (c : Counter) : (s.setCounter k c).board = s.board := rfl
@[simp] theorem State.setCounter_nextUid (s : State) (k : Nat) (c : Counter) : (s.setCounter k c).nextUid = s.nextUid := rfl
@[simp] theorem State.setCounter_nextLaunch (s : State) (k : Nat) (c : Counter) : (s.setCounter k c).nextLaunch = s.nextLaunch := rfl
@[simp] theorem State.setCounter_nextId (s : State) (k : Nat) (c : Counter) : (s.setCounter k c).nextId = s.nextId := rfl
@[simp] theorem State.setCounter_handles (s : State) (k : Nat) (c : Counter) : (s.setCounter k c).handles = s.handles := rfl
@[simp] theorem State.setCounter_nextSeq (s : State) (k : Nat) (c : Counter) : (s.setCounter k c).nextSeq = s.nextSeq := rfl
@[simp] theorem State.setCounter_out (s : State) (k : Nat) (c : Counter) : (s.setCounter k c).out = s.out := rfl
@[simp] theorem State.setCounter_flaw (s : State) (k : Nat) (c : Counter) : (s.setCounter k c).flaw = s.flaw := rfl
@[simp] theorem State.setCounter_invs (s : State) (k : Nat) (c : Counter) : (s.setCounter k c).invs = s.invs := rfl
@[simp] theorem State.setCounter_hostLines (s : State) (k : Nat) (c : Counter) : (s.setCounter k c).hostLines = s.hostLines := rfl
@[simp] theorem State.setCounter_putOff (s : State) (k : Nat) (c : Counter) : (s.setCounter k c).putOff = s.putOff := rfl
@[simp] theorem State.setCounter_copyTurn (s : State) (k : Nat) (c : Counter) : (s.setCounter k c).copyTurn = s.copyTurn := rfl

/-! ### `State.setChan` -/

@[simp] theorem State.setChan_arith (s : State) (k : Nat) (c : Channel) : (s.setChan k c).arith = s.arith := rfl
@[simp] theorem State.setChan_svc (s : State) (k : Nat) (c : Channel) : (s.setChan k c).svc = s.svc := rfl
@[simp] theorem State.setChan_aheadArith (s : State) (k : Nat) (c : Channel) : (s.setChan k c).aheadArith = s.aheadArith := rfl
@[simp] theorem State.setChan_aheadSvc (s : State) (k : Nat) (c : Channel) : (s.setChan k c).aheadSvc = s.aheadSvc := rfl
@[simp] theorem State.setChan_agenda (s : State) (k : Nat) (c : Channel) : (s.setChan k c).agenda = s.agenda := rfl
@[simp] theorem State.setChan_cur (s : State) (k : Nat) (c : Channel) : (s.setChan k c).cur = s.cur := rfl
@[simp] theorem State.setChan_repNext (s : State) (k : Nat) (c : Channel) : (s.setChan k c).repNext = s.repNext := rfl
@[simp] theorem State.setChan_turn (s : State) (k : Nat) (c : Channel) : (s.setChan k c).turn = s.turn := rfl
@[simp] theorem State.setChan_choices (s : State) (k : Nat) (c : Channel) : (s.setChan k c).choices = s.choices := rfl
@[simp] theorem State.setChan_mem (s : State) (k : Nat) (c : Channel) : (s.setChan k c).mem = s.mem := rfl
@[simp] theorem State.setChan_poison (s : State) (k : Nat) (c : Channel) : (s.setChan k c).poison = s.poison := rfl
@[simp] theorem State.setChan_units (s : State) (k : Nat) (c : Channel) : (s.setChan k c).units = s.units := rfl
@[simp] theorem State.setChan_launches (s : State) (k : Nat) (c : Channel) : (s.setChan k c).launches = s.launches := rfl
@[simp] theorem State.setChan_counters (s : State) (k : Nat) (c : Channel) : (s.setChan k c).counters = s.counters := rfl
@[simp] theorem State.setChan_cmds (s : State) (k : Nat) (c : Channel) : (s.setChan k c).cmds = s.cmds := rfl
@[simp] theorem State.setChan_remoteColl (s : State) (k : Nat) (c : Channel) : (s.setChan k c).remoteColl = s.remoteColl := rfl
@[simp] theorem State.setChan_matrix (s : State) (k : Nat) (c : Channel) : (s.setChan k c).matrix = s.matrix := rfl
@[simp] theorem State.setChan_govs (s : State) (k : Nat) (c : Channel) : (s.setChan k c).govs = s.govs := rfl
@[simp] theorem State.setChan_traces (s : State) (k : Nat) (c : Channel) : (s.setChan k c).traces = s.traces := rfl
@[simp] theorem State.setChan_traversals (s : State) (k : Nat) (c : Channel) : (s.setChan k c).traversals = s.traversals := rfl
@[simp] theorem State.setChan_mapLines (s : State) (k : Nat) (c : Channel) : (s.setChan k c).mapLines = s.mapLines := rfl
@[simp] theorem State.setChan_filters (s : State) (k : Nat) (c : Channel) : (s.setChan k c).filters = s.filters := rfl
@[simp] theorem State.setChan_ports (s : State) (k : Nat) (c : Channel) : (s.setChan k c).ports = s.ports := rfl
@[simp] theorem State.setChan_patterns (s : State) (k : Nat) (c : Channel) : (s.setChan k c).patterns = s.patterns := rfl
@[simp] theorem State.setChan_joinQ (s : State) (k : Nat) (c : Channel) : (s.setChan k c).joinQ = s.joinQ := rfl
@[simp] theorem State.setChan_forwards (s : State) (k : Nat) (c : Channel) : (s.setChan k c).forwards = s.forwards := rfl
@[simp] theorem State.setChan_l1 (s : State) (k : Nat) (c : Channel) : (s.setChan k c).l1 = s.l1 := rfl
@[simp] theorem State.setChan_icache (s : State) (k : Nat) (c : Channel) : (s.setChan k c).icache = s.icache := rfl
@[simp] theorem State.setChan_tlb (s : State) (k : Nat) (c : Channel) : (s.setChan k c).tlb = s.tlb := rfl
@[simp] theorem State.setChan_seeds (s : State) (k : Nat) (c : Channel) : (s.setChan k c).seeds = s.seeds := rfl
@[simp] theorem State.setChan_lastSlot (s : State) (k : Nat) (c : Channel) : (s.setChan k c).lastSlot = s.lastSlot := rfl
@[simp] theorem State.setChan_issuedAt (s : State) (k : Nat) (c : Channel) : (s.setChan k c).issuedAt = s.issuedAt := rfl
@[simp] theorem State.setChan_race (s : State) (k : Nat) (c : Channel) : (s.setChan k c).race = s.race := rfl
@[simp] theorem State.setChan_ctxs (s : State) (k : Nat) (c : Channel) : (s.setChan k c).ctxs = s.ctxs := rfl
@[simp] theorem State.setChan_heads (s : State) (k : Nat) (c : Channel) : (s.setChan k c).heads = s.heads := rfl
@[simp] theorem State.setChan_fbRings (s : State) (k : Nat) (c : Channel) : (s.setChan k c).fbRings = s.fbRings := rfl
@[simp] theorem State.setChan_soundings (s : State) (k : Nat) (c : Channel) : (s.setChan k c).soundings = s.soundings := rfl
@[simp] theorem State.setChan_dev (s : State) (k : Nat) (c : Channel) : (s.setChan k c).dev = s.dev := rfl
@[simp] theorem State.setChan_bar0 (s : State) (k : Nat) (c : Channel) : (s.setChan k c).bar0 = s.bar0 := rfl
@[simp] theorem State.setChan_board (s : State) (k : Nat) (c : Channel) : (s.setChan k c).board = s.board := rfl
@[simp] theorem State.setChan_nextUid (s : State) (k : Nat) (c : Channel) : (s.setChan k c).nextUid = s.nextUid := rfl
@[simp] theorem State.setChan_nextLaunch (s : State) (k : Nat) (c : Channel) : (s.setChan k c).nextLaunch = s.nextLaunch := rfl
@[simp] theorem State.setChan_nextId (s : State) (k : Nat) (c : Channel) : (s.setChan k c).nextId = s.nextId := rfl
@[simp] theorem State.setChan_handles (s : State) (k : Nat) (c : Channel) : (s.setChan k c).handles = s.handles := rfl
@[simp] theorem State.setChan_nextSeq (s : State) (k : Nat) (c : Channel) : (s.setChan k c).nextSeq = s.nextSeq := rfl
@[simp] theorem State.setChan_out (s : State) (k : Nat) (c : Channel) : (s.setChan k c).out = s.out := rfl
@[simp] theorem State.setChan_flaw (s : State) (k : Nat) (c : Channel) : (s.setChan k c).flaw = s.flaw := rfl
@[simp] theorem State.setChan_invs (s : State) (k : Nat) (c : Channel) : (s.setChan k c).invs = s.invs := rfl
@[simp] theorem State.setChan_hostLines (s : State) (k : Nat) (c : Channel) : (s.setChan k c).hostLines = s.hostLines := rfl
@[simp] theorem State.setChan_putOff (s : State) (k : Nat) (c : Channel) : (s.setChan k c).putOff = s.putOff := rfl
@[simp] theorem State.setChan_copyTurn (s : State) (k : Nat) (c : Channel) : (s.setChan k c).copyTurn = s.copyTurn := rfl

/-! ### `State.post` -/

@[simp] theorem State.post_arith (s : State) (q : PostReq) : (s.post q).arith = s.arith := rfl
@[simp] theorem State.post_svc (s : State) (q : PostReq) : (s.post q).svc = s.svc := rfl
@[simp] theorem State.post_aheadArith (s : State) (q : PostReq) : (s.post q).aheadArith = s.aheadArith := rfl
@[simp] theorem State.post_aheadSvc (s : State) (q : PostReq) : (s.post q).aheadSvc = s.aheadSvc := rfl
@[simp] theorem State.post_agenda (s : State) (q : PostReq) : (s.post q).agenda = s.agenda := rfl
@[simp] theorem State.post_cur (s : State) (q : PostReq) : (s.post q).cur = s.cur := rfl
@[simp] theorem State.post_repNext (s : State) (q : PostReq) : (s.post q).repNext = s.repNext := rfl
@[simp] theorem State.post_turn (s : State) (q : PostReq) : (s.post q).turn = s.turn := rfl
@[simp] theorem State.post_choices (s : State) (q : PostReq) : (s.post q).choices = s.choices := rfl
@[simp] theorem State.post_mem (s : State) (q : PostReq) : (s.post q).mem = s.mem := rfl
@[simp] theorem State.post_poison (s : State) (q : PostReq) : (s.post q).poison = s.poison := rfl
@[simp] theorem State.post_units (s : State) (q : PostReq) : (s.post q).units = s.units := rfl
@[simp] theorem State.post_launches (s : State) (q : PostReq) : (s.post q).launches = s.launches := rfl
@[simp] theorem State.post_counters (s : State) (q : PostReq) : (s.post q).counters = s.counters := rfl
@[simp] theorem State.post_cmds (s : State) (q : PostReq) : (s.post q).cmds = s.cmds := rfl
@[simp] theorem State.post_remoteColl (s : State) (q : PostReq) : (s.post q).remoteColl = s.remoteColl := rfl
@[simp] theorem State.post_matrix (s : State) (q : PostReq) : (s.post q).matrix = s.matrix := rfl
@[simp] theorem State.post_govs (s : State) (q : PostReq) : (s.post q).govs = s.govs := rfl
@[simp] theorem State.post_traces (s : State) (q : PostReq) : (s.post q).traces = s.traces := rfl
@[simp] theorem State.post_traversals (s : State) (q : PostReq) : (s.post q).traversals = s.traversals := rfl
@[simp] theorem State.post_mapLines (s : State) (q : PostReq) : (s.post q).mapLines = s.mapLines := rfl
@[simp] theorem State.post_filters (s : State) (q : PostReq) : (s.post q).filters = s.filters := rfl
@[simp] theorem State.post_ports (s : State) (q : PostReq) : (s.post q).ports = s.ports := rfl
@[simp] theorem State.post_patterns (s : State) (q : PostReq) : (s.post q).patterns = s.patterns := rfl
@[simp] theorem State.post_forwards (s : State) (q : PostReq) : (s.post q).forwards = s.forwards := rfl
@[simp] theorem State.post_l1 (s : State) (q : PostReq) : (s.post q).l1 = s.l1 := rfl
@[simp] theorem State.post_icache (s : State) (q : PostReq) : (s.post q).icache = s.icache := rfl
@[simp] theorem State.post_tlb (s : State) (q : PostReq) : (s.post q).tlb = s.tlb := rfl
@[simp] theorem State.post_seeds (s : State) (q : PostReq) : (s.post q).seeds = s.seeds := rfl
@[simp] theorem State.post_lastSlot (s : State) (q : PostReq) : (s.post q).lastSlot = s.lastSlot := rfl
@[simp] theorem State.post_issuedAt (s : State) (q : PostReq) : (s.post q).issuedAt = s.issuedAt := rfl
@[simp] theorem State.post_race (s : State) (q : PostReq) : (s.post q).race = s.race := rfl
@[simp] theorem State.post_ctxs (s : State) (q : PostReq) : (s.post q).ctxs = s.ctxs := rfl
@[simp] theorem State.post_chans (s : State) (q : PostReq) : (s.post q).chans = s.chans := rfl
@[simp] theorem State.post_heads (s : State) (q : PostReq) : (s.post q).heads = s.heads := rfl
@[simp] theorem State.post_fbRings (s : State) (q : PostReq) : (s.post q).fbRings = s.fbRings := rfl
@[simp] theorem State.post_soundings (s : State) (q : PostReq) : (s.post q).soundings = s.soundings := rfl
@[simp] theorem State.post_dev (s : State) (q : PostReq) : (s.post q).dev = s.dev := rfl
@[simp] theorem State.post_bar0 (s : State) (q : PostReq) : (s.post q).bar0 = s.bar0 := rfl
@[simp] theorem State.post_board (s : State) (q : PostReq) : (s.post q).board = s.board := rfl
@[simp] theorem State.post_nextUid (s : State) (q : PostReq) : (s.post q).nextUid = s.nextUid := rfl
@[simp] theorem State.post_nextLaunch (s : State) (q : PostReq) : (s.post q).nextLaunch = s.nextLaunch := rfl
@[simp] theorem State.post_nextId (s : State) (q : PostReq) : (s.post q).nextId = s.nextId := rfl
@[simp] theorem State.post_handles (s : State) (q : PostReq) : (s.post q).handles = s.handles := rfl
@[simp] theorem State.post_nextSeq (s : State) (q : PostReq) : (s.post q).nextSeq = s.nextSeq := rfl
@[simp] theorem State.post_out (s : State) (q : PostReq) : (s.post q).out = s.out := rfl
@[simp] theorem State.post_flaw (s : State) (q : PostReq) : (s.post q).flaw = s.flaw := rfl
@[simp] theorem State.post_invs (s : State) (q : PostReq) : (s.post q).invs = s.invs := rfl
@[simp] theorem State.post_hostLines (s : State) (q : PostReq) : (s.post q).hostLines = s.hostLines := rfl
@[simp] theorem State.post_putOff (s : State) (q : PostReq) : (s.post q).putOff = s.putOff := rfl
@[simp] theorem State.post_copyTurn (s : State) (q : PostReq) : (s.post q).copyTurn = s.copyTurn := rfl

/-! ### `State.writePa` -/

@[simp] theorem State.writePa_arith (s : State) (a : Nat) (b : Bytes) : (s.writePa a b).arith = s.arith := rfl
@[simp] theorem State.writePa_svc (s : State) (a : Nat) (b : Bytes) : (s.writePa a b).svc = s.svc := rfl
@[simp] theorem State.writePa_aheadArith (s : State) (a : Nat) (b : Bytes) : (s.writePa a b).aheadArith = s.aheadArith := rfl
@[simp] theorem State.writePa_aheadSvc (s : State) (a : Nat) (b : Bytes) : (s.writePa a b).aheadSvc = s.aheadSvc := rfl
@[simp] theorem State.writePa_agenda (s : State) (a : Nat) (b : Bytes) : (s.writePa a b).agenda = s.agenda := rfl
@[simp] theorem State.writePa_cur (s : State) (a : Nat) (b : Bytes) : (s.writePa a b).cur = s.cur := rfl
@[simp] theorem State.writePa_repNext (s : State) (a : Nat) (b : Bytes) : (s.writePa a b).repNext = s.repNext := rfl
@[simp] theorem State.writePa_turn (s : State) (a : Nat) (b : Bytes) : (s.writePa a b).turn = s.turn := rfl
@[simp] theorem State.writePa_choices (s : State) (a : Nat) (b : Bytes) : (s.writePa a b).choices = s.choices := rfl
@[simp] theorem State.writePa_units (s : State) (a : Nat) (b : Bytes) : (s.writePa a b).units = s.units := rfl
@[simp] theorem State.writePa_launches (s : State) (a : Nat) (b : Bytes) : (s.writePa a b).launches = s.launches := rfl
@[simp] theorem State.writePa_counters (s : State) (a : Nat) (b : Bytes) : (s.writePa a b).counters = s.counters := rfl
@[simp] theorem State.writePa_cmds (s : State) (a : Nat) (b : Bytes) : (s.writePa a b).cmds = s.cmds := rfl
@[simp] theorem State.writePa_remoteColl (s : State) (a : Nat) (b : Bytes) : (s.writePa a b).remoteColl = s.remoteColl := rfl
@[simp] theorem State.writePa_matrix (s : State) (a : Nat) (b : Bytes) : (s.writePa a b).matrix = s.matrix := rfl
@[simp] theorem State.writePa_govs (s : State) (a : Nat) (b : Bytes) : (s.writePa a b).govs = s.govs := rfl
@[simp] theorem State.writePa_traces (s : State) (a : Nat) (b : Bytes) : (s.writePa a b).traces = s.traces := rfl
@[simp] theorem State.writePa_traversals (s : State) (a : Nat) (b : Bytes) : (s.writePa a b).traversals = s.traversals := rfl
@[simp] theorem State.writePa_mapLines (s : State) (a : Nat) (b : Bytes) : (s.writePa a b).mapLines = s.mapLines := rfl
@[simp] theorem State.writePa_filters (s : State) (a : Nat) (b : Bytes) : (s.writePa a b).filters = s.filters := rfl
@[simp] theorem State.writePa_ports (s : State) (a : Nat) (b : Bytes) : (s.writePa a b).ports = s.ports := rfl
@[simp] theorem State.writePa_patterns (s : State) (a : Nat) (b : Bytes) : (s.writePa a b).patterns = s.patterns := rfl
@[simp] theorem State.writePa_joinQ (s : State) (a : Nat) (b : Bytes) : (s.writePa a b).joinQ = s.joinQ := rfl
@[simp] theorem State.writePa_forwards (s : State) (a : Nat) (b : Bytes) : (s.writePa a b).forwards = s.forwards := rfl
@[simp] theorem State.writePa_icache (s : State) (a : Nat) (b : Bytes) : (s.writePa a b).icache = s.icache := rfl
@[simp] theorem State.writePa_tlb (s : State) (a : Nat) (b : Bytes) : (s.writePa a b).tlb = s.tlb := rfl
@[simp] theorem State.writePa_seeds (s : State) (a : Nat) (b : Bytes) : (s.writePa a b).seeds = s.seeds := rfl
@[simp] theorem State.writePa_lastSlot (s : State) (a : Nat) (b : Bytes) : (s.writePa a b).lastSlot = s.lastSlot := rfl
@[simp] theorem State.writePa_issuedAt (s : State) (a : Nat) (b : Bytes) : (s.writePa a b).issuedAt = s.issuedAt := rfl
@[simp] theorem State.writePa_race (s : State) (a : Nat) (b : Bytes) : (s.writePa a b).race = s.race := rfl
@[simp] theorem State.writePa_ctxs (s : State) (a : Nat) (b : Bytes) : (s.writePa a b).ctxs = s.ctxs := rfl
@[simp] theorem State.writePa_chans (s : State) (a : Nat) (b : Bytes) : (s.writePa a b).chans = s.chans := rfl
@[simp] theorem State.writePa_heads (s : State) (a : Nat) (b : Bytes) : (s.writePa a b).heads = s.heads := rfl
@[simp] theorem State.writePa_fbRings (s : State) (a : Nat) (b : Bytes) : (s.writePa a b).fbRings = s.fbRings := rfl
@[simp] theorem State.writePa_soundings (s : State) (a : Nat) (b : Bytes) : (s.writePa a b).soundings = s.soundings := rfl
@[simp] theorem State.writePa_dev (s : State) (a : Nat) (b : Bytes) : (s.writePa a b).dev = s.dev := rfl
@[simp] theorem State.writePa_bar0 (s : State) (a : Nat) (b : Bytes) : (s.writePa a b).bar0 = s.bar0 := rfl
@[simp] theorem State.writePa_board (s : State) (a : Nat) (b : Bytes) : (s.writePa a b).board = s.board := rfl
@[simp] theorem State.writePa_nextUid (s : State) (a : Nat) (b : Bytes) : (s.writePa a b).nextUid = s.nextUid := rfl
@[simp] theorem State.writePa_nextLaunch (s : State) (a : Nat) (b : Bytes) : (s.writePa a b).nextLaunch = s.nextLaunch := rfl
@[simp] theorem State.writePa_nextId (s : State) (a : Nat) (b : Bytes) : (s.writePa a b).nextId = s.nextId := rfl
@[simp] theorem State.writePa_handles (s : State) (a : Nat) (b : Bytes) : (s.writePa a b).handles = s.handles := rfl
@[simp] theorem State.writePa_nextSeq (s : State) (a : Nat) (b : Bytes) : (s.writePa a b).nextSeq = s.nextSeq := rfl
@[simp] theorem State.writePa_out (s : State) (a : Nat) (b : Bytes) : (s.writePa a b).out = s.out := rfl
@[simp] theorem State.writePa_hostLines (s : State) (a : Nat) (b : Bytes) : (s.writePa a b).hostLines = s.hostLines := rfl
@[simp] theorem State.writePa_putOff (s : State) (a : Nat) (b : Bytes) : (s.writePa a b).putOff = s.putOff := rfl
@[simp] theorem State.writePa_copyTurn (s : State) (a : Nat) (b : Bytes) : (s.writePa a b).copyTurn = s.copyTurn := rfl

/-! ### `State.l1Invalidate` -/

@[simp] theorem State.l1Invalidate_arith (s : State) (c : Nat) : (s.l1Invalidate c).arith = s.arith := rfl
@[simp] theorem State.l1Invalidate_svc (s : State) (c : Nat) : (s.l1Invalidate c).svc = s.svc := rfl
@[simp] theorem State.l1Invalidate_aheadArith (s : State) (c : Nat) : (s.l1Invalidate c).aheadArith = s.aheadArith := rfl
@[simp] theorem State.l1Invalidate_aheadSvc (s : State) (c : Nat) : (s.l1Invalidate c).aheadSvc = s.aheadSvc := rfl
@[simp] theorem State.l1Invalidate_agenda (s : State) (c : Nat) : (s.l1Invalidate c).agenda = s.agenda := rfl
@[simp] theorem State.l1Invalidate_cur (s : State) (c : Nat) : (s.l1Invalidate c).cur = s.cur := rfl
@[simp] theorem State.l1Invalidate_repNext (s : State) (c : Nat) : (s.l1Invalidate c).repNext = s.repNext := rfl
@[simp] theorem State.l1Invalidate_turn (s : State) (c : Nat) : (s.l1Invalidate c).turn = s.turn := rfl
@[simp] theorem State.l1Invalidate_choices (s : State) (c : Nat) : (s.l1Invalidate c).choices = s.choices := rfl
@[simp] theorem State.l1Invalidate_mem (s : State) (c : Nat) : (s.l1Invalidate c).mem = s.mem := rfl
@[simp] theorem State.l1Invalidate_poison (s : State) (c : Nat) : (s.l1Invalidate c).poison = s.poison := rfl
@[simp] theorem State.l1Invalidate_units (s : State) (c : Nat) : (s.l1Invalidate c).units = s.units := rfl
@[simp] theorem State.l1Invalidate_launches (s : State) (c : Nat) : (s.l1Invalidate c).launches = s.launches := rfl
@[simp] theorem State.l1Invalidate_counters (s : State) (c : Nat) : (s.l1Invalidate c).counters = s.counters := rfl
@[simp] theorem State.l1Invalidate_cmds (s : State) (c : Nat) : (s.l1Invalidate c).cmds = s.cmds := rfl
@[simp] theorem State.l1Invalidate_remoteColl (s : State) (c : Nat) : (s.l1Invalidate c).remoteColl = s.remoteColl := rfl
@[simp] theorem State.l1Invalidate_matrix (s : State) (c : Nat) : (s.l1Invalidate c).matrix = s.matrix := rfl
@[simp] theorem State.l1Invalidate_govs (s : State) (c : Nat) : (s.l1Invalidate c).govs = s.govs := rfl
@[simp] theorem State.l1Invalidate_traces (s : State) (c : Nat) : (s.l1Invalidate c).traces = s.traces := rfl
@[simp] theorem State.l1Invalidate_traversals (s : State) (c : Nat) : (s.l1Invalidate c).traversals = s.traversals := rfl
@[simp] theorem State.l1Invalidate_mapLines (s : State) (c : Nat) : (s.l1Invalidate c).mapLines = s.mapLines := rfl
@[simp] theorem State.l1Invalidate_filters (s : State) (c : Nat) : (s.l1Invalidate c).filters = s.filters := rfl
@[simp] theorem State.l1Invalidate_ports (s : State) (c : Nat) : (s.l1Invalidate c).ports = s.ports := rfl
@[simp] theorem State.l1Invalidate_patterns (s : State) (c : Nat) : (s.l1Invalidate c).patterns = s.patterns := rfl
@[simp] theorem State.l1Invalidate_joinQ (s : State) (c : Nat) : (s.l1Invalidate c).joinQ = s.joinQ := rfl
@[simp] theorem State.l1Invalidate_forwards (s : State) (c : Nat) : (s.l1Invalidate c).forwards = s.forwards := rfl
@[simp] theorem State.l1Invalidate_icache (s : State) (c : Nat) : (s.l1Invalidate c).icache = s.icache := rfl
@[simp] theorem State.l1Invalidate_tlb (s : State) (c : Nat) : (s.l1Invalidate c).tlb = s.tlb := rfl
@[simp] theorem State.l1Invalidate_seeds (s : State) (c : Nat) : (s.l1Invalidate c).seeds = s.seeds := rfl
@[simp] theorem State.l1Invalidate_lastSlot (s : State) (c : Nat) : (s.l1Invalidate c).lastSlot = s.lastSlot := rfl
@[simp] theorem State.l1Invalidate_issuedAt (s : State) (c : Nat) : (s.l1Invalidate c).issuedAt = s.issuedAt := rfl
@[simp] theorem State.l1Invalidate_race (s : State) (c : Nat) : (s.l1Invalidate c).race = s.race := rfl
@[simp] theorem State.l1Invalidate_ctxs (s : State) (c : Nat) : (s.l1Invalidate c).ctxs = s.ctxs := rfl
@[simp] theorem State.l1Invalidate_chans (s : State) (c : Nat) : (s.l1Invalidate c).chans = s.chans := rfl
@[simp] theorem State.l1Invalidate_heads (s : State) (c : Nat) : (s.l1Invalidate c).heads = s.heads := rfl
@[simp] theorem State.l1Invalidate_fbRings (s : State) (c : Nat) : (s.l1Invalidate c).fbRings = s.fbRings := rfl
@[simp] theorem State.l1Invalidate_soundings (s : State) (c : Nat) : (s.l1Invalidate c).soundings = s.soundings := rfl
@[simp] theorem State.l1Invalidate_dev (s : State) (c : Nat) : (s.l1Invalidate c).dev = s.dev := rfl
@[simp] theorem State.l1Invalidate_bar0 (s : State) (c : Nat) : (s.l1Invalidate c).bar0 = s.bar0 := rfl
@[simp] theorem State.l1Invalidate_board (s : State) (c : Nat) : (s.l1Invalidate c).board = s.board := rfl
@[simp] theorem State.l1Invalidate_nextUid (s : State) (c : Nat) : (s.l1Invalidate c).nextUid = s.nextUid := rfl
@[simp] theorem State.l1Invalidate_nextLaunch (s : State) (c : Nat) : (s.l1Invalidate c).nextLaunch = s.nextLaunch := rfl
@[simp] theorem State.l1Invalidate_nextId (s : State) (c : Nat) : (s.l1Invalidate c).nextId = s.nextId := rfl
@[simp] theorem State.l1Invalidate_handles (s : State) (c : Nat) : (s.l1Invalidate c).handles = s.handles := rfl
@[simp] theorem State.l1Invalidate_nextSeq (s : State) (c : Nat) : (s.l1Invalidate c).nextSeq = s.nextSeq := rfl
@[simp] theorem State.l1Invalidate_out (s : State) (c : Nat) : (s.l1Invalidate c).out = s.out := rfl
@[simp] theorem State.l1Invalidate_flaw (s : State) (c : Nat) : (s.l1Invalidate c).flaw = s.flaw := rfl
@[simp] theorem State.l1Invalidate_invs (s : State) (c : Nat) : (s.l1Invalidate c).invs = s.invs := rfl
@[simp] theorem State.l1Invalidate_hostLines (s : State) (c : Nat) : (s.l1Invalidate c).hostLines = s.hostLines := rfl
@[simp] theorem State.l1Invalidate_putOff (s : State) (c : Nat) : (s.l1Invalidate c).putOff = s.putOff := rfl
@[simp] theorem State.l1Invalidate_copyTurn (s : State) (c : Nat) : (s.l1Invalidate c).copyTurn = s.copyTurn := rfl

/-! ### `State.updPkLanes` -/

@[simp] theorem State.updPkLanes_arith (s : State) (p : Pk) (ls : List Nat) (f : Lane → Lane) : (s.updPkLanes p ls f).arith = s.arith := rfl
@[simp] theorem State.updPkLanes_svc (s : State) (p : Pk) (ls : List Nat) (f : Lane → Lane) : (s.updPkLanes p ls f).svc = s.svc := rfl
@[simp] theorem State.updPkLanes_aheadArith (s : State) (p : Pk) (ls : List Nat) (f : Lane → Lane) : (s.updPkLanes p ls f).aheadArith = s.aheadArith := rfl
@[simp] theorem State.updPkLanes_aheadSvc (s : State) (p : Pk) (ls : List Nat) (f : Lane → Lane) : (s.updPkLanes p ls f).aheadSvc = s.aheadSvc := rfl
@[simp] theorem State.updPkLanes_agenda (s : State) (p : Pk) (ls : List Nat) (f : Lane → Lane) : (s.updPkLanes p ls f).agenda = s.agenda := rfl
@[simp] theorem State.updPkLanes_cur (s : State) (p : Pk) (ls : List Nat) (f : Lane → Lane) : (s.updPkLanes p ls f).cur = s.cur := rfl
@[simp] theorem State.updPkLanes_repNext (s : State) (p : Pk) (ls : List Nat) (f : Lane → Lane) : (s.updPkLanes p ls f).repNext = s.repNext := rfl
@[simp] theorem State.updPkLanes_turn (s : State) (p : Pk) (ls : List Nat) (f : Lane → Lane) : (s.updPkLanes p ls f).turn = s.turn := rfl
@[simp] theorem State.updPkLanes_choices (s : State) (p : Pk) (ls : List Nat) (f : Lane → Lane) : (s.updPkLanes p ls f).choices = s.choices := rfl
@[simp] theorem State.updPkLanes_mem (s : State) (p : Pk) (ls : List Nat) (f : Lane → Lane) : (s.updPkLanes p ls f).mem = s.mem := rfl
@[simp] theorem State.updPkLanes_poison (s : State) (p : Pk) (ls : List Nat) (f : Lane → Lane) : (s.updPkLanes p ls f).poison = s.poison := rfl
@[simp] theorem State.updPkLanes_launches (s : State) (p : Pk) (ls : List Nat) (f : Lane → Lane) : (s.updPkLanes p ls f).launches = s.launches := rfl
@[simp] theorem State.updPkLanes_counters (s : State) (p : Pk) (ls : List Nat) (f : Lane → Lane) : (s.updPkLanes p ls f).counters = s.counters := rfl
@[simp] theorem State.updPkLanes_cmds (s : State) (p : Pk) (ls : List Nat) (f : Lane → Lane) : (s.updPkLanes p ls f).cmds = s.cmds := rfl
@[simp] theorem State.updPkLanes_remoteColl (s : State) (p : Pk) (ls : List Nat) (f : Lane → Lane) : (s.updPkLanes p ls f).remoteColl = s.remoteColl := rfl
@[simp] theorem State.updPkLanes_matrix (s : State) (p : Pk) (ls : List Nat) (f : Lane → Lane) : (s.updPkLanes p ls f).matrix = s.matrix := rfl
@[simp] theorem State.updPkLanes_govs (s : State) (p : Pk) (ls : List Nat) (f : Lane → Lane) : (s.updPkLanes p ls f).govs = s.govs := rfl
@[simp] theorem State.updPkLanes_traces (s : State) (p : Pk) (ls : List Nat) (f : Lane → Lane) : (s.updPkLanes p ls f).traces = s.traces := rfl
@[simp] theorem State.updPkLanes_traversals (s : State) (p : Pk) (ls : List Nat) (f : Lane → Lane) : (s.updPkLanes p ls f).traversals = s.traversals := rfl
@[simp] theorem State.updPkLanes_mapLines (s : State) (p : Pk) (ls : List Nat) (f : Lane → Lane) : (s.updPkLanes p ls f).mapLines = s.mapLines := rfl
@[simp] theorem State.updPkLanes_filters (s : State) (p : Pk) (ls : List Nat) (f : Lane → Lane) : (s.updPkLanes p ls f).filters = s.filters := rfl
@[simp] theorem State.updPkLanes_ports (s : State) (p : Pk) (ls : List Nat) (f : Lane → Lane) : (s.updPkLanes p ls f).ports = s.ports := rfl
@[simp] theorem State.updPkLanes_patterns (s : State) (p : Pk) (ls : List Nat) (f : Lane → Lane) : (s.updPkLanes p ls f).patterns = s.patterns := rfl
@[simp] theorem State.updPkLanes_joinQ (s : State) (p : Pk) (ls : List Nat) (f : Lane → Lane) : (s.updPkLanes p ls f).joinQ = s.joinQ := rfl
@[simp] theorem State.updPkLanes_forwards (s : State) (p : Pk) (ls : List Nat) (f : Lane → Lane) : (s.updPkLanes p ls f).forwards = s.forwards := rfl
@[simp] theorem State.updPkLanes_l1 (s : State) (p : Pk) (ls : List Nat) (f : Lane → Lane) : (s.updPkLanes p ls f).l1 = s.l1 := rfl
@[simp] theorem State.updPkLanes_icache (s : State) (p : Pk) (ls : List Nat) (f : Lane → Lane) : (s.updPkLanes p ls f).icache = s.icache := rfl
@[simp] theorem State.updPkLanes_tlb (s : State) (p : Pk) (ls : List Nat) (f : Lane → Lane) : (s.updPkLanes p ls f).tlb = s.tlb := rfl
@[simp] theorem State.updPkLanes_seeds (s : State) (p : Pk) (ls : List Nat) (f : Lane → Lane) : (s.updPkLanes p ls f).seeds = s.seeds := rfl
@[simp] theorem State.updPkLanes_lastSlot (s : State) (p : Pk) (ls : List Nat) (f : Lane → Lane) : (s.updPkLanes p ls f).lastSlot = s.lastSlot := rfl
@[simp] theorem State.updPkLanes_issuedAt (s : State) (p : Pk) (ls : List Nat) (f : Lane → Lane) : (s.updPkLanes p ls f).issuedAt = s.issuedAt := rfl
@[simp] theorem State.updPkLanes_race (s : State) (p : Pk) (ls : List Nat) (f : Lane → Lane) : (s.updPkLanes p ls f).race = s.race := rfl
@[simp] theorem State.updPkLanes_ctxs (s : State) (p : Pk) (ls : List Nat) (f : Lane → Lane) : (s.updPkLanes p ls f).ctxs = s.ctxs := rfl
@[simp] theorem State.updPkLanes_chans (s : State) (p : Pk) (ls : List Nat) (f : Lane → Lane) : (s.updPkLanes p ls f).chans = s.chans := rfl
@[simp] theorem State.updPkLanes_heads (s : State) (p : Pk) (ls : List Nat) (f : Lane → Lane) : (s.updPkLanes p ls f).heads = s.heads := rfl
@[simp] theorem State.updPkLanes_fbRings (s : State) (p : Pk) (ls : List Nat) (f : Lane → Lane) : (s.updPkLanes p ls f).fbRings = s.fbRings := rfl
@[simp] theorem State.updPkLanes_soundings (s : State) (p : Pk) (ls : List Nat) (f : Lane → Lane) : (s.updPkLanes p ls f).soundings = s.soundings := rfl
@[simp] theorem State.updPkLanes_dev (s : State) (p : Pk) (ls : List Nat) (f : Lane → Lane) : (s.updPkLanes p ls f).dev = s.dev := rfl
@[simp] theorem State.updPkLanes_bar0 (s : State) (p : Pk) (ls : List Nat) (f : Lane → Lane) : (s.updPkLanes p ls f).bar0 = s.bar0 := rfl
@[simp] theorem State.updPkLanes_board (s : State) (p : Pk) (ls : List Nat) (f : Lane → Lane) : (s.updPkLanes p ls f).board = s.board := rfl
@[simp] theorem State.updPkLanes_nextUid (s : State) (p : Pk) (ls : List Nat) (f : Lane → Lane) : (s.updPkLanes p ls f).nextUid = s.nextUid := rfl
@[simp] theorem State.updPkLanes_nextLaunch (s : State) (p : Pk) (ls : List Nat) (f : Lane → Lane) : (s.updPkLanes p ls f).nextLaunch = s.nextLaunch := rfl
@[simp] theorem State.updPkLanes_nextId (s : State) (p : Pk) (ls : List Nat) (f : Lane → Lane) : (s.updPkLanes p ls f).nextId = s.nextId := rfl
@[simp] theorem State.updPkLanes_handles (s : State) (p : Pk) (ls : List Nat) (f : Lane → Lane) : (s.updPkLanes p ls f).handles = s.handles := rfl
@[simp] theorem State.updPkLanes_nextSeq (s : State) (p : Pk) (ls : List Nat) (f : Lane → Lane) : (s.updPkLanes p ls f).nextSeq = s.nextSeq := rfl
@[simp] theorem State.updPkLanes_out (s : State) (p : Pk) (ls : List Nat) (f : Lane → Lane) : (s.updPkLanes p ls f).out = s.out := rfl
@[simp] theorem State.updPkLanes_flaw (s : State) (p : Pk) (ls : List Nat) (f : Lane → Lane) : (s.updPkLanes p ls f).flaw = s.flaw := rfl
@[simp] theorem State.updPkLanes_invs (s : State) (p : Pk) (ls : List Nat) (f : Lane → Lane) : (s.updPkLanes p ls f).invs = s.invs := rfl
@[simp] theorem State.updPkLanes_hostLines (s : State) (p : Pk) (ls : List Nat) (f : Lane → Lane) : (s.updPkLanes p ls f).hostLines = s.hostLines := rfl
@[simp] theorem State.updPkLanes_putOff (s : State) (p : Pk) (ls : List Nat) (f : Lane → Lane) : (s.updPkLanes p ls f).putOff = s.putOff := rfl
@[simp] theorem State.updPkLanes_copyTurn (s : State) (p : Pk) (ls : List Nat) (f : Lane → Lane) : (s.updPkLanes p ls f).copyTurn = s.copyTurn := rfl

/-! ### `State.advance` -/

@[simp] theorem State.advance_arith (s : State) (p : Pk) (ls : List Nat) : (s.advance p ls).arith = s.arith := rfl
@[simp] theorem State.advance_svc (s : State) (p : Pk) (ls : List Nat) : (s.advance p ls).svc = s.svc := rfl
@[simp] theorem State.advance_aheadArith (s : State) (p : Pk) (ls : List Nat) : (s.advance p ls).aheadArith = s.aheadArith := rfl
@[simp] theorem State.advance_aheadSvc (s : State) (p : Pk) (ls : List Nat) : (s.advance p ls).aheadSvc = s.aheadSvc := rfl
@[simp] theorem State.advance_agenda (s : State) (p : Pk) (ls : List Nat) : (s.advance p ls).agenda = s.agenda := rfl
@[simp] theorem State.advance_cur (s : State) (p : Pk) (ls : List Nat) : (s.advance p ls).cur = s.cur := rfl
@[simp] theorem State.advance_repNext (s : State) (p : Pk) (ls : List Nat) : (s.advance p ls).repNext = s.repNext := rfl
@[simp] theorem State.advance_turn (s : State) (p : Pk) (ls : List Nat) : (s.advance p ls).turn = s.turn := rfl
@[simp] theorem State.advance_choices (s : State) (p : Pk) (ls : List Nat) : (s.advance p ls).choices = s.choices := rfl
@[simp] theorem State.advance_mem (s : State) (p : Pk) (ls : List Nat) : (s.advance p ls).mem = s.mem := rfl
@[simp] theorem State.advance_poison (s : State) (p : Pk) (ls : List Nat) : (s.advance p ls).poison = s.poison := rfl
@[simp] theorem State.advance_launches (s : State) (p : Pk) (ls : List Nat) : (s.advance p ls).launches = s.launches := rfl
@[simp] theorem State.advance_counters (s : State) (p : Pk) (ls : List Nat) : (s.advance p ls).counters = s.counters := rfl
@[simp] theorem State.advance_cmds (s : State) (p : Pk) (ls : List Nat) : (s.advance p ls).cmds = s.cmds := rfl
@[simp] theorem State.advance_remoteColl (s : State) (p : Pk) (ls : List Nat) : (s.advance p ls).remoteColl = s.remoteColl := rfl
@[simp] theorem State.advance_matrix (s : State) (p : Pk) (ls : List Nat) : (s.advance p ls).matrix = s.matrix := rfl
@[simp] theorem State.advance_govs (s : State) (p : Pk) (ls : List Nat) : (s.advance p ls).govs = s.govs := rfl
@[simp] theorem State.advance_traces (s : State) (p : Pk) (ls : List Nat) : (s.advance p ls).traces = s.traces := rfl
@[simp] theorem State.advance_traversals (s : State) (p : Pk) (ls : List Nat) : (s.advance p ls).traversals = s.traversals := rfl
@[simp] theorem State.advance_mapLines (s : State) (p : Pk) (ls : List Nat) : (s.advance p ls).mapLines = s.mapLines := rfl
@[simp] theorem State.advance_filters (s : State) (p : Pk) (ls : List Nat) : (s.advance p ls).filters = s.filters := rfl
@[simp] theorem State.advance_ports (s : State) (p : Pk) (ls : List Nat) : (s.advance p ls).ports = s.ports := rfl
@[simp] theorem State.advance_patterns (s : State) (p : Pk) (ls : List Nat) : (s.advance p ls).patterns = s.patterns := rfl
@[simp] theorem State.advance_joinQ (s : State) (p : Pk) (ls : List Nat) : (s.advance p ls).joinQ = s.joinQ := rfl
@[simp] theorem State.advance_forwards (s : State) (p : Pk) (ls : List Nat) : (s.advance p ls).forwards = s.forwards := rfl
@[simp] theorem State.advance_l1 (s : State) (p : Pk) (ls : List Nat) : (s.advance p ls).l1 = s.l1 := rfl
@[simp] theorem State.advance_icache (s : State) (p : Pk) (ls : List Nat) : (s.advance p ls).icache = s.icache := rfl
@[simp] theorem State.advance_tlb (s : State) (p : Pk) (ls : List Nat) : (s.advance p ls).tlb = s.tlb := rfl
@[simp] theorem State.advance_seeds (s : State) (p : Pk) (ls : List Nat) : (s.advance p ls).seeds = s.seeds := rfl
@[simp] theorem State.advance_lastSlot (s : State) (p : Pk) (ls : List Nat) : (s.advance p ls).lastSlot = s.lastSlot := rfl
@[simp] theorem State.advance_issuedAt (s : State) (p : Pk) (ls : List Nat) : (s.advance p ls).issuedAt = s.issuedAt := rfl
@[simp] theorem State.advance_race (s : State) (p : Pk) (ls : List Nat) : (s.advance p ls).race = s.race := rfl
@[simp] theorem State.advance_ctxs (s : State) (p : Pk) (ls : List Nat) : (s.advance p ls).ctxs = s.ctxs := rfl
@[simp] theorem State.advance_chans (s : State) (p : Pk) (ls : List Nat) : (s.advance p ls).chans = s.chans := rfl
@[simp] theorem State.advance_heads (s : State) (p : Pk) (ls : List Nat) : (s.advance p ls).heads = s.heads := rfl
@[simp] theorem State.advance_fbRings (s : State) (p : Pk) (ls : List Nat) : (s.advance p ls).fbRings = s.fbRings := rfl
@[simp] theorem State.advance_soundings (s : State) (p : Pk) (ls : List Nat) : (s.advance p ls).soundings = s.soundings := rfl
@[simp] theorem State.advance_dev (s : State) (p : Pk) (ls : List Nat) : (s.advance p ls).dev = s.dev := rfl
@[simp] theorem State.advance_bar0 (s : State) (p : Pk) (ls : List Nat) : (s.advance p ls).bar0 = s.bar0 := rfl
@[simp] theorem State.advance_board (s : State) (p : Pk) (ls : List Nat) : (s.advance p ls).board = s.board := rfl
@[simp] theorem State.advance_nextUid (s : State) (p : Pk) (ls : List Nat) : (s.advance p ls).nextUid = s.nextUid := rfl
@[simp] theorem State.advance_nextLaunch (s : State) (p : Pk) (ls : List Nat) : (s.advance p ls).nextLaunch = s.nextLaunch := rfl
@[simp] theorem State.advance_nextId (s : State) (p : Pk) (ls : List Nat) : (s.advance p ls).nextId = s.nextId := rfl
@[simp] theorem State.advance_handles (s : State) (p : Pk) (ls : List Nat) : (s.advance p ls).handles = s.handles := rfl
@[simp] theorem State.advance_nextSeq (s : State) (p : Pk) (ls : List Nat) : (s.advance p ls).nextSeq = s.nextSeq := rfl
@[simp] theorem State.advance_out (s : State) (p : Pk) (ls : List Nat) : (s.advance p ls).out = s.out := rfl
@[simp] theorem State.advance_flaw (s : State) (p : Pk) (ls : List Nat) : (s.advance p ls).flaw = s.flaw := rfl
@[simp] theorem State.advance_invs (s : State) (p : Pk) (ls : List Nat) : (s.advance p ls).invs = s.invs := rfl
@[simp] theorem State.advance_hostLines (s : State) (p : Pk) (ls : List Nat) : (s.advance p ls).hostLines = s.hostLines := rfl
@[simp] theorem State.advance_putOff (s : State) (p : Pk) (ls : List Nat) : (s.advance p ls).putOff = s.putOff := rfl
@[simp] theorem State.advance_copyTurn (s : State) (p : Pk) (ls : List Nat) : (s.advance p ls).copyTurn = s.copyTurn := rfl

/-! ### `State.commit` -/

@[simp] theorem State.commit_arith (s : State) (p : Pk) : (s.commit p).arith = s.arith := rfl
@[simp] theorem State.commit_svc (s : State) (p : Pk) : (s.commit p).svc = s.svc := rfl
@[simp] theorem State.commit_aheadArith (s : State) (p : Pk) : (s.commit p).aheadArith = s.aheadArith := rfl
@[simp] theorem State.commit_aheadSvc (s : State) (p : Pk) : (s.commit p).aheadSvc = s.aheadSvc := rfl
@[simp] theorem State.commit_agenda (s : State) (p : Pk) : (s.commit p).agenda = s.agenda := rfl
@[simp] theorem State.commit_cur (s : State) (p : Pk) : (s.commit p).cur = s.cur := rfl
@[simp] theorem State.commit_repNext (s : State) (p : Pk) : (s.commit p).repNext = s.repNext := rfl
@[simp] theorem State.commit_turn (s : State) (p : Pk) : (s.commit p).turn = s.turn := rfl
@[simp] theorem State.commit_choices (s : State) (p : Pk) : (s.commit p).choices = s.choices := rfl
@[simp] theorem State.commit_mem (s : State) (p : Pk) : (s.commit p).mem = s.mem := rfl
@[simp] theorem State.commit_poison (s : State) (p : Pk) : (s.commit p).poison = s.poison := rfl
@[simp] theorem State.commit_launches (s : State) (p : Pk) : (s.commit p).launches = s.launches := rfl
@[simp] theorem State.commit_counters (s : State) (p : Pk) : (s.commit p).counters = s.counters := rfl
@[simp] theorem State.commit_cmds (s : State) (p : Pk) : (s.commit p).cmds = s.cmds := rfl
@[simp] theorem State.commit_remoteColl (s : State) (p : Pk) : (s.commit p).remoteColl = s.remoteColl := rfl
@[simp] theorem State.commit_matrix (s : State) (p : Pk) : (s.commit p).matrix = s.matrix := rfl
@[simp] theorem State.commit_govs (s : State) (p : Pk) : (s.commit p).govs = s.govs := rfl
@[simp] theorem State.commit_traces (s : State) (p : Pk) : (s.commit p).traces = s.traces := rfl
@[simp] theorem State.commit_traversals (s : State) (p : Pk) : (s.commit p).traversals = s.traversals := rfl
@[simp] theorem State.commit_mapLines (s : State) (p : Pk) : (s.commit p).mapLines = s.mapLines := rfl
@[simp] theorem State.commit_filters (s : State) (p : Pk) : (s.commit p).filters = s.filters := rfl
@[simp] theorem State.commit_ports (s : State) (p : Pk) : (s.commit p).ports = s.ports := rfl
@[simp] theorem State.commit_patterns (s : State) (p : Pk) : (s.commit p).patterns = s.patterns := rfl
@[simp] theorem State.commit_joinQ (s : State) (p : Pk) : (s.commit p).joinQ = s.joinQ := rfl
@[simp] theorem State.commit_forwards (s : State) (p : Pk) : (s.commit p).forwards = s.forwards := rfl
@[simp] theorem State.commit_l1 (s : State) (p : Pk) : (s.commit p).l1 = s.l1 := rfl
@[simp] theorem State.commit_icache (s : State) (p : Pk) : (s.commit p).icache = s.icache := rfl
@[simp] theorem State.commit_tlb (s : State) (p : Pk) : (s.commit p).tlb = s.tlb := rfl
@[simp] theorem State.commit_seeds (s : State) (p : Pk) : (s.commit p).seeds = s.seeds := rfl
@[simp] theorem State.commit_lastSlot (s : State) (p : Pk) : (s.commit p).lastSlot = s.lastSlot := rfl
@[simp] theorem State.commit_issuedAt (s : State) (p : Pk) : (s.commit p).issuedAt = s.issuedAt := rfl
@[simp] theorem State.commit_race (s : State) (p : Pk) : (s.commit p).race = s.race := rfl
@[simp] theorem State.commit_ctxs (s : State) (p : Pk) : (s.commit p).ctxs = s.ctxs := rfl
@[simp] theorem State.commit_chans (s : State) (p : Pk) : (s.commit p).chans = s.chans := rfl
@[simp] theorem State.commit_heads (s : State) (p : Pk) : (s.commit p).heads = s.heads := rfl
@[simp] theorem State.commit_fbRings (s : State) (p : Pk) : (s.commit p).fbRings = s.fbRings := rfl
@[simp] theorem State.commit_soundings (s : State) (p : Pk) : (s.commit p).soundings = s.soundings := rfl
@[simp] theorem State.commit_dev (s : State) (p : Pk) : (s.commit p).dev = s.dev := rfl
@[simp] theorem State.commit_bar0 (s : State) (p : Pk) : (s.commit p).bar0 = s.bar0 := rfl
@[simp] theorem State.commit_board (s : State) (p : Pk) : (s.commit p).board = s.board := rfl
@[simp] theorem State.commit_nextUid (s : State) (p : Pk) : (s.commit p).nextUid = s.nextUid := rfl
@[simp] theorem State.commit_nextLaunch (s : State) (p : Pk) : (s.commit p).nextLaunch = s.nextLaunch := rfl
@[simp] theorem State.commit_nextId (s : State) (p : Pk) : (s.commit p).nextId = s.nextId := rfl
@[simp] theorem State.commit_handles (s : State) (p : Pk) : (s.commit p).handles = s.handles := rfl
@[simp] theorem State.commit_nextSeq (s : State) (p : Pk) : (s.commit p).nextSeq = s.nextSeq := rfl
@[simp] theorem State.commit_out (s : State) (p : Pk) : (s.commit p).out = s.out := rfl
@[simp] theorem State.commit_flaw (s : State) (p : Pk) : (s.commit p).flaw = s.flaw := rfl
@[simp] theorem State.commit_invs (s : State) (p : Pk) : (s.commit p).invs = s.invs := rfl
@[simp] theorem State.commit_hostLines (s : State) (p : Pk) : (s.commit p).hostLines = s.hostLines := rfl
@[simp] theorem State.commit_putOff (s : State) (p : Pk) : (s.commit p).putOff = s.putOff := rfl
@[simp] theorem State.commit_copyTurn (s : State) (p : Pk) : (s.commit p).copyTurn = s.copyTurn := rfl

/-! ### `State.endClaimWait` -/

@[simp] theorem State.endClaimWait_arith (s : State) (u g : Nat) (x : Dword × Nat) : (s.endClaimWait u g x).arith = s.arith := rfl
@[simp] theorem State.endClaimWait_svc (s : State) (u g : Nat) (x : Dword × Nat) : (s.endClaimWait u g x).svc = s.svc := rfl
@[simp] theorem State.endClaimWait_aheadArith (s : State) (u g : Nat) (x : Dword × Nat) : (s.endClaimWait u g x).aheadArith = s.aheadArith := rfl
@[simp] theorem State.endClaimWait_aheadSvc (s : State) (u g : Nat) (x : Dword × Nat) : (s.endClaimWait u g x).aheadSvc = s.aheadSvc := rfl
@[simp] theorem State.endClaimWait_agenda (s : State) (u g : Nat) (x : Dword × Nat) : (s.endClaimWait u g x).agenda = s.agenda := rfl
@[simp] theorem State.endClaimWait_cur (s : State) (u g : Nat) (x : Dword × Nat) : (s.endClaimWait u g x).cur = s.cur := rfl
@[simp] theorem State.endClaimWait_repNext (s : State) (u g : Nat) (x : Dword × Nat) : (s.endClaimWait u g x).repNext = s.repNext := rfl
@[simp] theorem State.endClaimWait_turn (s : State) (u g : Nat) (x : Dword × Nat) : (s.endClaimWait u g x).turn = s.turn := rfl
@[simp] theorem State.endClaimWait_choices (s : State) (u g : Nat) (x : Dword × Nat) : (s.endClaimWait u g x).choices = s.choices := rfl
@[simp] theorem State.endClaimWait_mem (s : State) (u g : Nat) (x : Dword × Nat) : (s.endClaimWait u g x).mem = s.mem := rfl
@[simp] theorem State.endClaimWait_poison (s : State) (u g : Nat) (x : Dword × Nat) : (s.endClaimWait u g x).poison = s.poison := rfl
@[simp] theorem State.endClaimWait_launches (s : State) (u g : Nat) (x : Dword × Nat) : (s.endClaimWait u g x).launches = s.launches := rfl
@[simp] theorem State.endClaimWait_counters (s : State) (u g : Nat) (x : Dword × Nat) : (s.endClaimWait u g x).counters = s.counters := rfl
@[simp] theorem State.endClaimWait_cmds (s : State) (u g : Nat) (x : Dword × Nat) : (s.endClaimWait u g x).cmds = s.cmds := rfl
@[simp] theorem State.endClaimWait_remoteColl (s : State) (u g : Nat) (x : Dword × Nat) : (s.endClaimWait u g x).remoteColl = s.remoteColl := rfl
@[simp] theorem State.endClaimWait_matrix (s : State) (u g : Nat) (x : Dword × Nat) : (s.endClaimWait u g x).matrix = s.matrix := rfl
@[simp] theorem State.endClaimWait_govs (s : State) (u g : Nat) (x : Dword × Nat) : (s.endClaimWait u g x).govs = s.govs := rfl
@[simp] theorem State.endClaimWait_traces (s : State) (u g : Nat) (x : Dword × Nat) : (s.endClaimWait u g x).traces = s.traces := rfl
@[simp] theorem State.endClaimWait_traversals (s : State) (u g : Nat) (x : Dword × Nat) : (s.endClaimWait u g x).traversals = s.traversals := rfl
@[simp] theorem State.endClaimWait_mapLines (s : State) (u g : Nat) (x : Dword × Nat) : (s.endClaimWait u g x).mapLines = s.mapLines := rfl
@[simp] theorem State.endClaimWait_filters (s : State) (u g : Nat) (x : Dword × Nat) : (s.endClaimWait u g x).filters = s.filters := rfl
@[simp] theorem State.endClaimWait_ports (s : State) (u g : Nat) (x : Dword × Nat) : (s.endClaimWait u g x).ports = s.ports := rfl
@[simp] theorem State.endClaimWait_patterns (s : State) (u g : Nat) (x : Dword × Nat) : (s.endClaimWait u g x).patterns = s.patterns := rfl
@[simp] theorem State.endClaimWait_joinQ (s : State) (u g : Nat) (x : Dword × Nat) : (s.endClaimWait u g x).joinQ = s.joinQ := rfl
@[simp] theorem State.endClaimWait_forwards (s : State) (u g : Nat) (x : Dword × Nat) : (s.endClaimWait u g x).forwards = s.forwards := rfl
@[simp] theorem State.endClaimWait_l1 (s : State) (u g : Nat) (x : Dword × Nat) : (s.endClaimWait u g x).l1 = s.l1 := rfl
@[simp] theorem State.endClaimWait_icache (s : State) (u g : Nat) (x : Dword × Nat) : (s.endClaimWait u g x).icache = s.icache := rfl
@[simp] theorem State.endClaimWait_tlb (s : State) (u g : Nat) (x : Dword × Nat) : (s.endClaimWait u g x).tlb = s.tlb := rfl
@[simp] theorem State.endClaimWait_seeds (s : State) (u g : Nat) (x : Dword × Nat) : (s.endClaimWait u g x).seeds = s.seeds := rfl
@[simp] theorem State.endClaimWait_lastSlot (s : State) (u g : Nat) (x : Dword × Nat) : (s.endClaimWait u g x).lastSlot = s.lastSlot := rfl
@[simp] theorem State.endClaimWait_issuedAt (s : State) (u g : Nat) (x : Dword × Nat) : (s.endClaimWait u g x).issuedAt = s.issuedAt := rfl
@[simp] theorem State.endClaimWait_race (s : State) (u g : Nat) (x : Dword × Nat) : (s.endClaimWait u g x).race = s.race := rfl
@[simp] theorem State.endClaimWait_ctxs (s : State) (u g : Nat) (x : Dword × Nat) : (s.endClaimWait u g x).ctxs = s.ctxs := rfl
@[simp] theorem State.endClaimWait_chans (s : State) (u g : Nat) (x : Dword × Nat) : (s.endClaimWait u g x).chans = s.chans := rfl
@[simp] theorem State.endClaimWait_heads (s : State) (u g : Nat) (x : Dword × Nat) : (s.endClaimWait u g x).heads = s.heads := rfl
@[simp] theorem State.endClaimWait_fbRings (s : State) (u g : Nat) (x : Dword × Nat) : (s.endClaimWait u g x).fbRings = s.fbRings := rfl
@[simp] theorem State.endClaimWait_soundings (s : State) (u g : Nat) (x : Dword × Nat) : (s.endClaimWait u g x).soundings = s.soundings := rfl
@[simp] theorem State.endClaimWait_dev (s : State) (u g : Nat) (x : Dword × Nat) : (s.endClaimWait u g x).dev = s.dev := rfl
@[simp] theorem State.endClaimWait_bar0 (s : State) (u g : Nat) (x : Dword × Nat) : (s.endClaimWait u g x).bar0 = s.bar0 := rfl
@[simp] theorem State.endClaimWait_board (s : State) (u g : Nat) (x : Dword × Nat) : (s.endClaimWait u g x).board = s.board := rfl
@[simp] theorem State.endClaimWait_nextUid (s : State) (u g : Nat) (x : Dword × Nat) : (s.endClaimWait u g x).nextUid = s.nextUid := rfl
@[simp] theorem State.endClaimWait_nextLaunch (s : State) (u g : Nat) (x : Dword × Nat) : (s.endClaimWait u g x).nextLaunch = s.nextLaunch := rfl
@[simp] theorem State.endClaimWait_nextId (s : State) (u g : Nat) (x : Dword × Nat) : (s.endClaimWait u g x).nextId = s.nextId := rfl
@[simp] theorem State.endClaimWait_handles (s : State) (u g : Nat) (x : Dword × Nat) : (s.endClaimWait u g x).handles = s.handles := rfl
@[simp] theorem State.endClaimWait_nextSeq (s : State) (u g : Nat) (x : Dword × Nat) : (s.endClaimWait u g x).nextSeq = s.nextSeq := rfl
@[simp] theorem State.endClaimWait_out (s : State) (u g : Nat) (x : Dword × Nat) : (s.endClaimWait u g x).out = s.out := rfl
@[simp] theorem State.endClaimWait_flaw (s : State) (u g : Nat) (x : Dword × Nat) : (s.endClaimWait u g x).flaw = s.flaw := rfl
@[simp] theorem State.endClaimWait_invs (s : State) (u g : Nat) (x : Dword × Nat) : (s.endClaimWait u g x).invs = s.invs := rfl
@[simp] theorem State.endClaimWait_hostLines (s : State) (u g : Nat) (x : Dword × Nat) : (s.endClaimWait u g x).hostLines = s.hostLines := rfl
@[simp] theorem State.endClaimWait_putOff (s : State) (u g : Nat) (x : Dword × Nat) : (s.endClaimWait u g x).putOff = s.putOff := rfl
@[simp] theorem State.endClaimWait_copyTurn (s : State) (u g : Nat) (x : Dword × Nat) : (s.endClaimWait u g x).copyTurn = s.copyTurn := rfl

/-! ### `State.fly` -/

@[simp] theorem State.fly_arith (s : State) (p : Pk) (q : Pending) : (s.fly p q).arith = s.arith := rfl
@[simp] theorem State.fly_svc (s : State) (p : Pk) (q : Pending) : (s.fly p q).svc = s.svc := rfl
@[simp] theorem State.fly_aheadArith (s : State) (p : Pk) (q : Pending) : (s.fly p q).aheadArith = s.aheadArith := rfl
@[simp] theorem State.fly_aheadSvc (s : State) (p : Pk) (q : Pending) : (s.fly p q).aheadSvc = s.aheadSvc := rfl
@[simp] theorem State.fly_agenda (s : State) (p : Pk) (q : Pending) : (s.fly p q).agenda = s.agenda := rfl
@[simp] theorem State.fly_cur (s : State) (p : Pk) (q : Pending) : (s.fly p q).cur = s.cur := rfl
@[simp] theorem State.fly_repNext (s : State) (p : Pk) (q : Pending) : (s.fly p q).repNext = s.repNext := rfl
@[simp] theorem State.fly_turn (s : State) (p : Pk) (q : Pending) : (s.fly p q).turn = s.turn := rfl
@[simp] theorem State.fly_choices (s : State) (p : Pk) (q : Pending) : (s.fly p q).choices = s.choices := rfl
@[simp] theorem State.fly_mem (s : State) (p : Pk) (q : Pending) : (s.fly p q).mem = s.mem := rfl
@[simp] theorem State.fly_poison (s : State) (p : Pk) (q : Pending) : (s.fly p q).poison = s.poison := rfl
@[simp] theorem State.fly_launches (s : State) (p : Pk) (q : Pending) : (s.fly p q).launches = s.launches := rfl
@[simp] theorem State.fly_counters (s : State) (p : Pk) (q : Pending) : (s.fly p q).counters = s.counters := rfl
@[simp] theorem State.fly_cmds (s : State) (p : Pk) (q : Pending) : (s.fly p q).cmds = s.cmds := rfl
@[simp] theorem State.fly_remoteColl (s : State) (p : Pk) (q : Pending) : (s.fly p q).remoteColl = s.remoteColl := rfl
@[simp] theorem State.fly_matrix (s : State) (p : Pk) (q : Pending) : (s.fly p q).matrix = s.matrix := rfl
@[simp] theorem State.fly_govs (s : State) (p : Pk) (q : Pending) : (s.fly p q).govs = s.govs := rfl
@[simp] theorem State.fly_traces (s : State) (p : Pk) (q : Pending) : (s.fly p q).traces = s.traces := rfl
@[simp] theorem State.fly_traversals (s : State) (p : Pk) (q : Pending) : (s.fly p q).traversals = s.traversals := rfl
@[simp] theorem State.fly_mapLines (s : State) (p : Pk) (q : Pending) : (s.fly p q).mapLines = s.mapLines := rfl
@[simp] theorem State.fly_filters (s : State) (p : Pk) (q : Pending) : (s.fly p q).filters = s.filters := rfl
@[simp] theorem State.fly_ports (s : State) (p : Pk) (q : Pending) : (s.fly p q).ports = s.ports := rfl
@[simp] theorem State.fly_patterns (s : State) (p : Pk) (q : Pending) : (s.fly p q).patterns = s.patterns := rfl
@[simp] theorem State.fly_joinQ (s : State) (p : Pk) (q : Pending) : (s.fly p q).joinQ = s.joinQ := rfl
@[simp] theorem State.fly_forwards (s : State) (p : Pk) (q : Pending) : (s.fly p q).forwards = s.forwards := rfl
@[simp] theorem State.fly_l1 (s : State) (p : Pk) (q : Pending) : (s.fly p q).l1 = s.l1 := rfl
@[simp] theorem State.fly_icache (s : State) (p : Pk) (q : Pending) : (s.fly p q).icache = s.icache := rfl
@[simp] theorem State.fly_tlb (s : State) (p : Pk) (q : Pending) : (s.fly p q).tlb = s.tlb := rfl
@[simp] theorem State.fly_seeds (s : State) (p : Pk) (q : Pending) : (s.fly p q).seeds = s.seeds := rfl
@[simp] theorem State.fly_lastSlot (s : State) (p : Pk) (q : Pending) : (s.fly p q).lastSlot = s.lastSlot := rfl
@[simp] theorem State.fly_issuedAt (s : State) (p : Pk) (q : Pending) : (s.fly p q).issuedAt = s.issuedAt := rfl
@[simp] theorem State.fly_race (s : State) (p : Pk) (q : Pending) : (s.fly p q).race = s.race := rfl
@[simp] theorem State.fly_ctxs (s : State) (p : Pk) (q : Pending) : (s.fly p q).ctxs = s.ctxs := rfl
@[simp] theorem State.fly_chans (s : State) (p : Pk) (q : Pending) : (s.fly p q).chans = s.chans := rfl
@[simp] theorem State.fly_heads (s : State) (p : Pk) (q : Pending) : (s.fly p q).heads = s.heads := rfl
@[simp] theorem State.fly_fbRings (s : State) (p : Pk) (q : Pending) : (s.fly p q).fbRings = s.fbRings := rfl
@[simp] theorem State.fly_soundings (s : State) (p : Pk) (q : Pending) : (s.fly p q).soundings = s.soundings := rfl
@[simp] theorem State.fly_dev (s : State) (p : Pk) (q : Pending) : (s.fly p q).dev = s.dev := rfl
@[simp] theorem State.fly_bar0 (s : State) (p : Pk) (q : Pending) : (s.fly p q).bar0 = s.bar0 := rfl
@[simp] theorem State.fly_board (s : State) (p : Pk) (q : Pending) : (s.fly p q).board = s.board := rfl
@[simp] theorem State.fly_nextUid (s : State) (p : Pk) (q : Pending) : (s.fly p q).nextUid = s.nextUid := rfl
@[simp] theorem State.fly_nextLaunch (s : State) (p : Pk) (q : Pending) : (s.fly p q).nextLaunch = s.nextLaunch := rfl
@[simp] theorem State.fly_nextId (s : State) (p : Pk) (q : Pending) : (s.fly p q).nextId = s.nextId := rfl
@[simp] theorem State.fly_handles (s : State) (p : Pk) (q : Pending) : (s.fly p q).handles = s.handles := rfl
@[simp] theorem State.fly_nextSeq (s : State) (p : Pk) (q : Pending) : (s.fly p q).nextSeq = s.nextSeq := rfl
@[simp] theorem State.fly_out (s : State) (p : Pk) (q : Pending) : (s.fly p q).out = s.out := rfl
@[simp] theorem State.fly_flaw (s : State) (p : Pk) (q : Pending) : (s.fly p q).flaw = s.flaw := rfl
@[simp] theorem State.fly_invs (s : State) (p : Pk) (q : Pending) : (s.fly p q).invs = s.invs := rfl
@[simp] theorem State.fly_hostLines (s : State) (p : Pk) (q : Pending) : (s.fly p q).hostLines = s.hostLines := rfl
@[simp] theorem State.fly_putOff (s : State) (p : Pk) (q : Pending) : (s.fly p q).putOff = s.putOff := rfl
@[simp] theorem State.fly_copyTurn (s : State) (p : Pk) (q : Pending) : (s.fly p q).copyTurn = s.copyTurn := rfl

/-! ### `State.kill` -/

@[simp] theorem State.kill_arith (s : State) (p : Pk) (ls names : List Nat) : (s.kill p ls names).arith = s.arith := by unfold State.kill; split <;> rfl
@[simp] theorem State.kill_svc (s : State) (p : Pk) (ls names : List Nat) : (s.kill p ls names).svc = s.svc := by unfold State.kill; split <;> rfl
@[simp] theorem State.kill_aheadArith (s : State) (p : Pk) (ls names : List Nat) : (s.kill p ls names).aheadArith = s.aheadArith := by unfold State.kill; split <;> rfl
@[simp] theorem State.kill_aheadSvc (s : State) (p : Pk) (ls names : List Nat) : (s.kill p ls names).aheadSvc = s.aheadSvc := by unfold State.kill; split <;> rfl
@[simp] theorem State.kill_agenda (s : State) (p : Pk) (ls names : List Nat) : (s.kill p ls names).agenda = s.agenda := by unfold State.kill; split <;> rfl
@[simp] theorem State.kill_cur (s : State) (p : Pk) (ls names : List Nat) : (s.kill p ls names).cur = s.cur := by unfold State.kill; split <;> rfl
@[simp] theorem State.kill_repNext (s : State) (p : Pk) (ls names : List Nat) : (s.kill p ls names).repNext = s.repNext := by unfold State.kill; split <;> rfl
@[simp] theorem State.kill_turn (s : State) (p : Pk) (ls names : List Nat) : (s.kill p ls names).turn = s.turn := by unfold State.kill; split <;> rfl
@[simp] theorem State.kill_choices (s : State) (p : Pk) (ls names : List Nat) : (s.kill p ls names).choices = s.choices := by unfold State.kill; split <;> rfl
@[simp] theorem State.kill_mem (s : State) (p : Pk) (ls names : List Nat) : (s.kill p ls names).mem = s.mem := by unfold State.kill; split <;> rfl
@[simp] theorem State.kill_poison (s : State) (p : Pk) (ls names : List Nat) : (s.kill p ls names).poison = s.poison := by unfold State.kill; split <;> rfl
@[simp] theorem State.kill_launches (s : State) (p : Pk) (ls names : List Nat) : (s.kill p ls names).launches = s.launches := by unfold State.kill; split <;> rfl
@[simp] theorem State.kill_counters (s : State) (p : Pk) (ls names : List Nat) : (s.kill p ls names).counters = s.counters := by unfold State.kill; split <;> rfl
@[simp] theorem State.kill_cmds (s : State) (p : Pk) (ls names : List Nat) : (s.kill p ls names).cmds = s.cmds := by unfold State.kill; split <;> rfl
@[simp] theorem State.kill_remoteColl (s : State) (p : Pk) (ls names : List Nat) : (s.kill p ls names).remoteColl = s.remoteColl := by unfold State.kill; split <;> rfl
@[simp] theorem State.kill_matrix (s : State) (p : Pk) (ls names : List Nat) : (s.kill p ls names).matrix = s.matrix := by unfold State.kill; split <;> rfl
@[simp] theorem State.kill_govs (s : State) (p : Pk) (ls names : List Nat) : (s.kill p ls names).govs = s.govs := by unfold State.kill; split <;> rfl
@[simp] theorem State.kill_traces (s : State) (p : Pk) (ls names : List Nat) : (s.kill p ls names).traces = s.traces := by unfold State.kill; split <;> rfl
@[simp] theorem State.kill_traversals (s : State) (p : Pk) (ls names : List Nat) : (s.kill p ls names).traversals = s.traversals := by unfold State.kill; split <;> rfl
@[simp] theorem State.kill_mapLines (s : State) (p : Pk) (ls names : List Nat) : (s.kill p ls names).mapLines = s.mapLines := by unfold State.kill; split <;> rfl
@[simp] theorem State.kill_filters (s : State) (p : Pk) (ls names : List Nat) : (s.kill p ls names).filters = s.filters := by unfold State.kill; split <;> rfl
@[simp] theorem State.kill_ports (s : State) (p : Pk) (ls names : List Nat) : (s.kill p ls names).ports = s.ports := by unfold State.kill; split <;> rfl
@[simp] theorem State.kill_patterns (s : State) (p : Pk) (ls names : List Nat) : (s.kill p ls names).patterns = s.patterns := by unfold State.kill; split <;> rfl
@[simp] theorem State.kill_joinQ (s : State) (p : Pk) (ls names : List Nat) : (s.kill p ls names).joinQ = s.joinQ := by unfold State.kill; split <;> rfl
@[simp] theorem State.kill_forwards (s : State) (p : Pk) (ls names : List Nat) : (s.kill p ls names).forwards = s.forwards := by unfold State.kill; split <;> rfl
@[simp] theorem State.kill_l1 (s : State) (p : Pk) (ls names : List Nat) : (s.kill p ls names).l1 = s.l1 := by unfold State.kill; split <;> rfl
@[simp] theorem State.kill_icache (s : State) (p : Pk) (ls names : List Nat) : (s.kill p ls names).icache = s.icache := by unfold State.kill; split <;> rfl
@[simp] theorem State.kill_tlb (s : State) (p : Pk) (ls names : List Nat) : (s.kill p ls names).tlb = s.tlb := by unfold State.kill; split <;> rfl
@[simp] theorem State.kill_seeds (s : State) (p : Pk) (ls names : List Nat) : (s.kill p ls names).seeds = s.seeds := by unfold State.kill; split <;> rfl
@[simp] theorem State.kill_lastSlot (s : State) (p : Pk) (ls names : List Nat) : (s.kill p ls names).lastSlot = s.lastSlot := by unfold State.kill; split <;> rfl
@[simp] theorem State.kill_issuedAt (s : State) (p : Pk) (ls names : List Nat) : (s.kill p ls names).issuedAt = s.issuedAt := by unfold State.kill; split <;> rfl
@[simp] theorem State.kill_race (s : State) (p : Pk) (ls names : List Nat) : (s.kill p ls names).race = s.race := by unfold State.kill; split <;> rfl
@[simp] theorem State.kill_ctxs (s : State) (p : Pk) (ls names : List Nat) : (s.kill p ls names).ctxs = s.ctxs := by unfold State.kill; split <;> rfl
@[simp] theorem State.kill_chans (s : State) (p : Pk) (ls names : List Nat) : (s.kill p ls names).chans = s.chans := by unfold State.kill; split <;> rfl
@[simp] theorem State.kill_heads (s : State) (p : Pk) (ls names : List Nat) : (s.kill p ls names).heads = s.heads := by unfold State.kill; split <;> rfl
@[simp] theorem State.kill_fbRings (s : State) (p : Pk) (ls names : List Nat) : (s.kill p ls names).fbRings = s.fbRings := by unfold State.kill; split <;> rfl
@[simp] theorem State.kill_soundings (s : State) (p : Pk) (ls names : List Nat) : (s.kill p ls names).soundings = s.soundings := by unfold State.kill; split <;> rfl
@[simp] theorem State.kill_dev (s : State) (p : Pk) (ls names : List Nat) : (s.kill p ls names).dev = s.dev := by unfold State.kill; split <;> rfl
@[simp] theorem State.kill_bar0 (s : State) (p : Pk) (ls names : List Nat) : (s.kill p ls names).bar0 = s.bar0 := by unfold State.kill; split <;> rfl
@[simp] theorem State.kill_board (s : State) (p : Pk) (ls names : List Nat) : (s.kill p ls names).board = s.board := by unfold State.kill; split <;> rfl
@[simp] theorem State.kill_nextUid (s : State) (p : Pk) (ls names : List Nat) : (s.kill p ls names).nextUid = s.nextUid := by unfold State.kill; split <;> rfl
@[simp] theorem State.kill_nextLaunch (s : State) (p : Pk) (ls names : List Nat) : (s.kill p ls names).nextLaunch = s.nextLaunch := by unfold State.kill; split <;> rfl
@[simp] theorem State.kill_nextId (s : State) (p : Pk) (ls names : List Nat) : (s.kill p ls names).nextId = s.nextId := by unfold State.kill; split <;> rfl
@[simp] theorem State.kill_handles (s : State) (p : Pk) (ls names : List Nat) : (s.kill p ls names).handles = s.handles := by unfold State.kill; split <;> rfl
@[simp] theorem State.kill_nextSeq (s : State) (p : Pk) (ls names : List Nat) : (s.kill p ls names).nextSeq = s.nextSeq := by unfold State.kill; split <;> rfl
@[simp] theorem State.kill_out (s : State) (p : Pk) (ls names : List Nat) : (s.kill p ls names).out = s.out := by unfold State.kill; split <;> rfl
@[simp] theorem State.kill_flaw (s : State) (p : Pk) (ls names : List Nat) : (s.kill p ls names).flaw = s.flaw := by unfold State.kill; split <;> rfl
@[simp] theorem State.kill_invs (s : State) (p : Pk) (ls names : List Nat) : (s.kill p ls names).invs = s.invs := by unfold State.kill; split <;> rfl
@[simp] theorem State.kill_hostLines (s : State) (p : Pk) (ls names : List Nat) : (s.kill p ls names).hostLines = s.hostLines := by unfold State.kill; split <;> rfl
@[simp] theorem State.kill_putOff (s : State) (p : Pk) (ls names : List Nat) : (s.kill p ls names).putOff = s.putOff := by unfold State.kill; split <;> rfl
@[simp] theorem State.kill_copyTurn (s : State) (p : Pk) (ls names : List Nat) : (s.kill p ls names).copyTurn = s.copyTurn := by unfold State.kill; split <;> rfl

/-! ### `State.writeDst` -/

@[simp] theorem State.writeDst_arith (s : State) (p : Pk) (d : Spec) (w : Nat) (vals : List (Nat × Nat)) : (s.writeDst p d w vals).arith = s.arith := by
  cases d <;> first | rfl | (simp only [State.writeDst]; split <;> rfl)
@[simp] theorem State.writeDst_svc (s : State) (p : Pk) (d : Spec) (w : Nat) (vals : List (Nat × Nat)) : (s.writeDst p d w vals).svc = s.svc := by
  cases d <;> first | rfl | (simp only [State.writeDst]; split <;> rfl)
@[simp] theorem State.writeDst_aheadArith (s : State) (p : Pk) (d : Spec) (w : Nat) (vals : List (Nat × Nat)) : (s.writeDst p d w vals).aheadArith = s.aheadArith := by
  cases d <;> first | rfl | (simp only [State.writeDst]; split <;> rfl)
@[simp] theorem State.writeDst_aheadSvc (s : State) (p : Pk) (d : Spec) (w : Nat) (vals : List (Nat × Nat)) : (s.writeDst p d w vals).aheadSvc = s.aheadSvc := by
  cases d <;> first | rfl | (simp only [State.writeDst]; split <;> rfl)
@[simp] theorem State.writeDst_agenda (s : State) (p : Pk) (d : Spec) (w : Nat) (vals : List (Nat × Nat)) : (s.writeDst p d w vals).agenda = s.agenda := by
  cases d <;> first | rfl | (simp only [State.writeDst]; split <;> rfl)
@[simp] theorem State.writeDst_cur (s : State) (p : Pk) (d : Spec) (w : Nat) (vals : List (Nat × Nat)) : (s.writeDst p d w vals).cur = s.cur := by
  cases d <;> first | rfl | (simp only [State.writeDst]; split <;> rfl)
@[simp] theorem State.writeDst_repNext (s : State) (p : Pk) (d : Spec) (w : Nat) (vals : List (Nat × Nat)) : (s.writeDst p d w vals).repNext = s.repNext := by
  cases d <;> first | rfl | (simp only [State.writeDst]; split <;> rfl)
@[simp] theorem State.writeDst_turn (s : State) (p : Pk) (d : Spec) (w : Nat) (vals : List (Nat × Nat)) : (s.writeDst p d w vals).turn = s.turn := by
  cases d <;> first | rfl | (simp only [State.writeDst]; split <;> rfl)
@[simp] theorem State.writeDst_choices (s : State) (p : Pk) (d : Spec) (w : Nat) (vals : List (Nat × Nat)) : (s.writeDst p d w vals).choices = s.choices := by
  cases d <;> first | rfl | (simp only [State.writeDst]; split <;> rfl)
@[simp] theorem State.writeDst_mem (s : State) (p : Pk) (d : Spec) (w : Nat) (vals : List (Nat × Nat)) : (s.writeDst p d w vals).mem = s.mem := by
  cases d <;> first | rfl | (simp only [State.writeDst]; split <;> rfl)
@[simp] theorem State.writeDst_poison (s : State) (p : Pk) (d : Spec) (w : Nat) (vals : List (Nat × Nat)) : (s.writeDst p d w vals).poison = s.poison := by
  cases d <;> first | rfl | (simp only [State.writeDst]; split <;> rfl)
@[simp] theorem State.writeDst_launches (s : State) (p : Pk) (d : Spec) (w : Nat) (vals : List (Nat × Nat)) : (s.writeDst p d w vals).launches = s.launches := by
  cases d <;> first | rfl | (simp only [State.writeDst]; split <;> rfl)
@[simp] theorem State.writeDst_counters (s : State) (p : Pk) (d : Spec) (w : Nat) (vals : List (Nat × Nat)) : (s.writeDst p d w vals).counters = s.counters := by
  cases d <;> first | rfl | (simp only [State.writeDst]; split <;> rfl)
@[simp] theorem State.writeDst_cmds (s : State) (p : Pk) (d : Spec) (w : Nat) (vals : List (Nat × Nat)) : (s.writeDst p d w vals).cmds = s.cmds := by
  cases d <;> first | rfl | (simp only [State.writeDst]; split <;> rfl)
@[simp] theorem State.writeDst_remoteColl (s : State) (p : Pk) (d : Spec) (w : Nat) (vals : List (Nat × Nat)) : (s.writeDst p d w vals).remoteColl = s.remoteColl := by
  cases d <;> first | rfl | (simp only [State.writeDst]; split <;> rfl)
@[simp] theorem State.writeDst_matrix (s : State) (p : Pk) (d : Spec) (w : Nat) (vals : List (Nat × Nat)) : (s.writeDst p d w vals).matrix = s.matrix := by
  cases d <;> first | rfl | (simp only [State.writeDst]; split <;> rfl)
@[simp] theorem State.writeDst_govs (s : State) (p : Pk) (d : Spec) (w : Nat) (vals : List (Nat × Nat)) : (s.writeDst p d w vals).govs = s.govs := by
  cases d <;> first | rfl | (simp only [State.writeDst]; split <;> rfl)
@[simp] theorem State.writeDst_traces (s : State) (p : Pk) (d : Spec) (w : Nat) (vals : List (Nat × Nat)) : (s.writeDst p d w vals).traces = s.traces := by
  cases d <;> first | rfl | (simp only [State.writeDst]; split <;> rfl)
@[simp] theorem State.writeDst_traversals (s : State) (p : Pk) (d : Spec) (w : Nat) (vals : List (Nat × Nat)) : (s.writeDst p d w vals).traversals = s.traversals := by
  cases d <;> first | rfl | (simp only [State.writeDst]; split <;> rfl)
@[simp] theorem State.writeDst_mapLines (s : State) (p : Pk) (d : Spec) (w : Nat) (vals : List (Nat × Nat)) : (s.writeDst p d w vals).mapLines = s.mapLines := by
  cases d <;> first | rfl | (simp only [State.writeDst]; split <;> rfl)
@[simp] theorem State.writeDst_filters (s : State) (p : Pk) (d : Spec) (w : Nat) (vals : List (Nat × Nat)) : (s.writeDst p d w vals).filters = s.filters := by
  cases d <;> first | rfl | (simp only [State.writeDst]; split <;> rfl)
@[simp] theorem State.writeDst_ports (s : State) (p : Pk) (d : Spec) (w : Nat) (vals : List (Nat × Nat)) : (s.writeDst p d w vals).ports = s.ports := by
  cases d <;> first | rfl | (simp only [State.writeDst]; split <;> rfl)
@[simp] theorem State.writeDst_patterns (s : State) (p : Pk) (d : Spec) (w : Nat) (vals : List (Nat × Nat)) : (s.writeDst p d w vals).patterns = s.patterns := by
  cases d <;> first | rfl | (simp only [State.writeDst]; split <;> rfl)
@[simp] theorem State.writeDst_joinQ (s : State) (p : Pk) (d : Spec) (w : Nat) (vals : List (Nat × Nat)) : (s.writeDst p d w vals).joinQ = s.joinQ := by
  cases d <;> first | rfl | (simp only [State.writeDst]; split <;> rfl)
@[simp] theorem State.writeDst_forwards (s : State) (p : Pk) (d : Spec) (w : Nat) (vals : List (Nat × Nat)) : (s.writeDst p d w vals).forwards = s.forwards := by
  cases d <;> first | rfl | (simp only [State.writeDst]; split <;> rfl)
@[simp] theorem State.writeDst_l1 (s : State) (p : Pk) (d : Spec) (w : Nat) (vals : List (Nat × Nat)) : (s.writeDst p d w vals).l1 = s.l1 := by
  cases d <;> first | rfl | (simp only [State.writeDst]; split <;> rfl)
@[simp] theorem State.writeDst_icache (s : State) (p : Pk) (d : Spec) (w : Nat) (vals : List (Nat × Nat)) : (s.writeDst p d w vals).icache = s.icache := by
  cases d <;> first | rfl | (simp only [State.writeDst]; split <;> rfl)
@[simp] theorem State.writeDst_tlb (s : State) (p : Pk) (d : Spec) (w : Nat) (vals : List (Nat × Nat)) : (s.writeDst p d w vals).tlb = s.tlb := by
  cases d <;> first | rfl | (simp only [State.writeDst]; split <;> rfl)
@[simp] theorem State.writeDst_seeds (s : State) (p : Pk) (d : Spec) (w : Nat) (vals : List (Nat × Nat)) : (s.writeDst p d w vals).seeds = s.seeds := by
  cases d <;> first | rfl | (simp only [State.writeDst]; split <;> rfl)
@[simp] theorem State.writeDst_lastSlot (s : State) (p : Pk) (d : Spec) (w : Nat) (vals : List (Nat × Nat)) : (s.writeDst p d w vals).lastSlot = s.lastSlot := by
  cases d <;> first | rfl | (simp only [State.writeDst]; split <;> rfl)
@[simp] theorem State.writeDst_issuedAt (s : State) (p : Pk) (d : Spec) (w : Nat) (vals : List (Nat × Nat)) : (s.writeDst p d w vals).issuedAt = s.issuedAt := by
  cases d <;> first | rfl | (simp only [State.writeDst]; split <;> rfl)
@[simp] theorem State.writeDst_race (s : State) (p : Pk) (d : Spec) (w : Nat) (vals : List (Nat × Nat)) : (s.writeDst p d w vals).race = s.race := by
  cases d <;> first | rfl | (simp only [State.writeDst]; split <;> rfl)
@[simp] theorem State.writeDst_ctxs (s : State) (p : Pk) (d : Spec) (w : Nat) (vals : List (Nat × Nat)) : (s.writeDst p d w vals).ctxs = s.ctxs := by
  cases d <;> first | rfl | (simp only [State.writeDst]; split <;> rfl)
@[simp] theorem State.writeDst_chans (s : State) (p : Pk) (d : Spec) (w : Nat) (vals : List (Nat × Nat)) : (s.writeDst p d w vals).chans = s.chans := by
  cases d <;> first | rfl | (simp only [State.writeDst]; split <;> rfl)
@[simp] theorem State.writeDst_heads (s : State) (p : Pk) (d : Spec) (w : Nat) (vals : List (Nat × Nat)) : (s.writeDst p d w vals).heads = s.heads := by
  cases d <;> first | rfl | (simp only [State.writeDst]; split <;> rfl)
@[simp] theorem State.writeDst_fbRings (s : State) (p : Pk) (d : Spec) (w : Nat) (vals : List (Nat × Nat)) : (s.writeDst p d w vals).fbRings = s.fbRings := by
  cases d <;> first | rfl | (simp only [State.writeDst]; split <;> rfl)
@[simp] theorem State.writeDst_soundings (s : State) (p : Pk) (d : Spec) (w : Nat) (vals : List (Nat × Nat)) : (s.writeDst p d w vals).soundings = s.soundings := by
  cases d <;> first | rfl | (simp only [State.writeDst]; split <;> rfl)
@[simp] theorem State.writeDst_dev (s : State) (p : Pk) (d : Spec) (w : Nat) (vals : List (Nat × Nat)) : (s.writeDst p d w vals).dev = s.dev := by
  cases d <;> first | rfl | (simp only [State.writeDst]; split <;> rfl)
@[simp] theorem State.writeDst_bar0 (s : State) (p : Pk) (d : Spec) (w : Nat) (vals : List (Nat × Nat)) : (s.writeDst p d w vals).bar0 = s.bar0 := by
  cases d <;> first | rfl | (simp only [State.writeDst]; split <;> rfl)
@[simp] theorem State.writeDst_board (s : State) (p : Pk) (d : Spec) (w : Nat) (vals : List (Nat × Nat)) : (s.writeDst p d w vals).board = s.board := by
  cases d <;> first | rfl | (simp only [State.writeDst]; split <;> rfl)
@[simp] theorem State.writeDst_nextUid (s : State) (p : Pk) (d : Spec) (w : Nat) (vals : List (Nat × Nat)) : (s.writeDst p d w vals).nextUid = s.nextUid := by
  cases d <;> first | rfl | (simp only [State.writeDst]; split <;> rfl)
@[simp] theorem State.writeDst_nextLaunch (s : State) (p : Pk) (d : Spec) (w : Nat) (vals : List (Nat × Nat)) : (s.writeDst p d w vals).nextLaunch = s.nextLaunch := by
  cases d <;> first | rfl | (simp only [State.writeDst]; split <;> rfl)
@[simp] theorem State.writeDst_nextId (s : State) (p : Pk) (d : Spec) (w : Nat) (vals : List (Nat × Nat)) : (s.writeDst p d w vals).nextId = s.nextId := by
  cases d <;> first | rfl | (simp only [State.writeDst]; split <;> rfl)
@[simp] theorem State.writeDst_handles (s : State) (p : Pk) (d : Spec) (w : Nat) (vals : List (Nat × Nat)) : (s.writeDst p d w vals).handles = s.handles := by
  cases d <;> first | rfl | (simp only [State.writeDst]; split <;> rfl)
@[simp] theorem State.writeDst_nextSeq (s : State) (p : Pk) (d : Spec) (w : Nat) (vals : List (Nat × Nat)) : (s.writeDst p d w vals).nextSeq = s.nextSeq := by
  cases d <;> first | rfl | (simp only [State.writeDst]; split <;> rfl)
@[simp] theorem State.writeDst_out (s : State) (p : Pk) (d : Spec) (w : Nat) (vals : List (Nat × Nat)) : (s.writeDst p d w vals).out = s.out := by
  cases d <;> first | rfl | (simp only [State.writeDst]; split <;> rfl)
@[simp] theorem State.writeDst_flaw (s : State) (p : Pk) (d : Spec) (w : Nat) (vals : List (Nat × Nat)) : (s.writeDst p d w vals).flaw = s.flaw := by
  cases d <;> first | rfl | (simp only [State.writeDst]; split <;> rfl)
@[simp] theorem State.writeDst_invs (s : State) (p : Pk) (d : Spec) (w : Nat) (vals : List (Nat × Nat)) : (s.writeDst p d w vals).invs = s.invs := by
  cases d <;> first | rfl | (simp only [State.writeDst]; split <;> rfl)
@[simp] theorem State.writeDst_hostLines (s : State) (p : Pk) (d : Spec) (w : Nat) (vals : List (Nat × Nat)) : (s.writeDst p d w vals).hostLines = s.hostLines := by
  cases d <;> first | rfl | (simp only [State.writeDst]; split <;> rfl)
@[simp] theorem State.writeDst_putOff (s : State) (p : Pk) (d : Spec) (w : Nat) (vals : List (Nat × Nat)) : (s.writeDst p d w vals).putOff = s.putOff := by
  cases d <;> first | rfl | (simp only [State.writeDst]; split <;> rfl)
@[simp] theorem State.writeDst_copyTurn (s : State) (p : Pk) (d : Spec) (w : Nat) (vals : List (Nat × Nat)) : (s.writeDst p d w vals).copyTurn = s.copyTurn := by
  cases d <;> first | rfl | (simp only [State.writeDst]; split <;> rfl)

/-! ### `Group.orFpst` -/

@[simp] theorem Group.orFpst_idx (g : Group) (b : BitVec 5) : (g.orFpst b).idx = g.idx := rfl
@[simp] theorem Group.orFpst_role (g : Group) (b : BitVec 5) : (g.orFpst b).role = g.role := rfl
@[simp] theorem Group.orFpst_core (g : Group) (b : BitVec 5) : (g.orFpst b).core = g.core := rfl
@[simp] theorem Group.orFpst_quad (g : Group) (b : BitVec 5) : (g.orFpst b).quad = g.quad := rfl
@[simp] theorem Group.orFpst_slot (g : Group) (b : BitVec 5) : (g.orFpst b).slot = g.slot := rfl
@[simp] theorem Group.orFpst_s (g : Group) (b : BitVec 5) : (g.orFpst b).s = g.s := rfl
@[simp] theorem Group.orFpst_flags (g : Group) (b : BitVec 5) : (g.orFpst b).flags = g.flags := rfl
@[simp] theorem Group.orFpst_cmpsel (g : Group) (b : BitVec 5) : (g.orFpst b).cmpsel = g.cmpsel := rfl
@[simp] theorem Group.orFpst_floor (g : Group) (b : BitVec 5) : (g.orFpst b).floor = g.floor := rfl
@[simp] theorem Group.orFpst_lanes (g : Group) (b : BitVec 5) : (g.orFpst b).lanes = g.lanes := rfl
@[simp] theorem Group.orFpst_inflight (g : Group) (b : BitVec 5) : (g.orFpst b).inflight = g.inflight := rfl
@[simp] theorem Group.orFpst_fes (g : Group) (b : BitVec 5) : (g.orFpst b).fes = g.fes := rfl
@[simp] theorem Group.orFpst_yielded (g : Group) (b : BitVec 5) : (g.orFpst b).yielded = g.yielded := rfl
@[simp] theorem Group.orFpst_lastPc (g : Group) (b : BitVec 5) : (g.orFpst b).lastPc = g.lastPc := rfl
@[simp] theorem Group.orFpst_lastLanes (g : Group) (b : BitVec 5) : (g.orFpst b).lastLanes = g.lastLanes := rfl
@[simp] theorem Group.orFpst_waits (g : Group) (b : BitVec 5) : (g.orFpst b).waits = g.waits := rfl
@[simp] theorem Group.orFpst_keyOlds (g : Group) (b : BitVec 5) : (g.orFpst b).keyOlds = g.keyOlds := rfl
@[simp] theorem Group.orFpst_tabOlds (g : Group) (b : BitVec 5) : (g.orFpst b).tabOlds = g.tabOlds := rfl

/-! ### `Group.incFlag` -/

@[simp] theorem Group.incFlag_idx (g : Group) (k : Nat) : (g.incFlag k).idx = g.idx := rfl
@[simp] theorem Group.incFlag_role (g : Group) (k : Nat) : (g.incFlag k).role = g.role := rfl
@[simp] theorem Group.incFlag_core (g : Group) (k : Nat) : (g.incFlag k).core = g.core := rfl
@[simp] theorem Group.incFlag_quad (g : Group) (k : Nat) : (g.incFlag k).quad = g.quad := rfl
@[simp] theorem Group.incFlag_slot (g : Group) (k : Nat) : (g.incFlag k).slot = g.slot := rfl
@[simp] theorem Group.incFlag_s (g : Group) (k : Nat) : (g.incFlag k).s = g.s := rfl
@[simp] theorem Group.incFlag_fpst (g : Group) (k : Nat) : (g.incFlag k).fpst = g.fpst := rfl
@[simp] theorem Group.incFlag_cmpsel (g : Group) (k : Nat) : (g.incFlag k).cmpsel = g.cmpsel := rfl
@[simp] theorem Group.incFlag_floor (g : Group) (k : Nat) : (g.incFlag k).floor = g.floor := rfl
@[simp] theorem Group.incFlag_lanes (g : Group) (k : Nat) : (g.incFlag k).lanes = g.lanes := rfl
@[simp] theorem Group.incFlag_inflight (g : Group) (k : Nat) : (g.incFlag k).inflight = g.inflight := rfl
@[simp] theorem Group.incFlag_fes (g : Group) (k : Nat) : (g.incFlag k).fes = g.fes := rfl
@[simp] theorem Group.incFlag_yielded (g : Group) (k : Nat) : (g.incFlag k).yielded = g.yielded := rfl
@[simp] theorem Group.incFlag_lastPc (g : Group) (k : Nat) : (g.incFlag k).lastPc = g.lastPc := rfl
@[simp] theorem Group.incFlag_lastLanes (g : Group) (k : Nat) : (g.incFlag k).lastLanes = g.lastLanes := rfl
@[simp] theorem Group.incFlag_waits (g : Group) (k : Nat) : (g.incFlag k).waits = g.waits := rfl
@[simp] theorem Group.incFlag_keyOlds (g : Group) (k : Nat) : (g.incFlag k).keyOlds = g.keyOlds := rfl
@[simp] theorem Group.incFlag_tabOlds (g : Group) (k : Nat) : (g.incFlag k).tabOlds = g.tabOlds := rfl

/-! ### `Group.decFlag` -/

@[simp] theorem Group.decFlag_idx (g : Group) (k : Nat) : (g.decFlag k).idx = g.idx := rfl
@[simp] theorem Group.decFlag_role (g : Group) (k : Nat) : (g.decFlag k).role = g.role := rfl
@[simp] theorem Group.decFlag_core (g : Group) (k : Nat) : (g.decFlag k).core = g.core := rfl
@[simp] theorem Group.decFlag_quad (g : Group) (k : Nat) : (g.decFlag k).quad = g.quad := rfl
@[simp] theorem Group.decFlag_slot (g : Group) (k : Nat) : (g.decFlag k).slot = g.slot := rfl
@[simp] theorem Group.decFlag_s (g : Group) (k : Nat) : (g.decFlag k).s = g.s := rfl
@[simp] theorem Group.decFlag_fpst (g : Group) (k : Nat) : (g.decFlag k).fpst = g.fpst := rfl
@[simp] theorem Group.decFlag_cmpsel (g : Group) (k : Nat) : (g.decFlag k).cmpsel = g.cmpsel := rfl
@[simp] theorem Group.decFlag_floor (g : Group) (k : Nat) : (g.decFlag k).floor = g.floor := rfl
@[simp] theorem Group.decFlag_lanes (g : Group) (k : Nat) : (g.decFlag k).lanes = g.lanes := rfl
@[simp] theorem Group.decFlag_inflight (g : Group) (k : Nat) : (g.decFlag k).inflight = g.inflight := rfl
@[simp] theorem Group.decFlag_fes (g : Group) (k : Nat) : (g.decFlag k).fes = g.fes := rfl
@[simp] theorem Group.decFlag_yielded (g : Group) (k : Nat) : (g.decFlag k).yielded = g.yielded := rfl
@[simp] theorem Group.decFlag_lastPc (g : Group) (k : Nat) : (g.decFlag k).lastPc = g.lastPc := rfl
@[simp] theorem Group.decFlag_lastLanes (g : Group) (k : Nat) : (g.decFlag k).lastLanes = g.lastLanes := rfl
@[simp] theorem Group.decFlag_waits (g : Group) (k : Nat) : (g.decFlag k).waits = g.waits := rfl
@[simp] theorem Group.decFlag_keyOlds (g : Group) (k : Nat) : (g.decFlag k).keyOlds = g.keyOlds := rfl
@[simp] theorem Group.decFlag_tabOlds (g : Group) (k : Nat) : (g.decFlag k).tabOlds = g.tabOlds := rfl

/-! ### `Group.setSreg` -/

@[simp] theorem Group.setSreg_idx (g : Group) (n : Nat) (w : Word) : (g.setSreg n w).idx = g.idx := rfl
@[simp] theorem Group.setSreg_role (g : Group) (n : Nat) (w : Word) : (g.setSreg n w).role = g.role := rfl
@[simp] theorem Group.setSreg_core (g : Group) (n : Nat) (w : Word) : (g.setSreg n w).core = g.core := rfl
@[simp] theorem Group.setSreg_quad (g : Group) (n : Nat) (w : Word) : (g.setSreg n w).quad = g.quad := rfl
@[simp] theorem Group.setSreg_slot (g : Group) (n : Nat) (w : Word) : (g.setSreg n w).slot = g.slot := rfl
@[simp] theorem Group.setSreg_flags (g : Group) (n : Nat) (w : Word) : (g.setSreg n w).flags = g.flags := rfl
@[simp] theorem Group.setSreg_fpst (g : Group) (n : Nat) (w : Word) : (g.setSreg n w).fpst = g.fpst := rfl
@[simp] theorem Group.setSreg_cmpsel (g : Group) (n : Nat) (w : Word) : (g.setSreg n w).cmpsel = g.cmpsel := rfl
@[simp] theorem Group.setSreg_floor (g : Group) (n : Nat) (w : Word) : (g.setSreg n w).floor = g.floor := rfl
@[simp] theorem Group.setSreg_lanes (g : Group) (n : Nat) (w : Word) : (g.setSreg n w).lanes = g.lanes := rfl
@[simp] theorem Group.setSreg_inflight (g : Group) (n : Nat) (w : Word) : (g.setSreg n w).inflight = g.inflight := rfl
@[simp] theorem Group.setSreg_fes (g : Group) (n : Nat) (w : Word) : (g.setSreg n w).fes = g.fes := rfl
@[simp] theorem Group.setSreg_yielded (g : Group) (n : Nat) (w : Word) : (g.setSreg n w).yielded = g.yielded := rfl
@[simp] theorem Group.setSreg_lastPc (g : Group) (n : Nat) (w : Word) : (g.setSreg n w).lastPc = g.lastPc := rfl
@[simp] theorem Group.setSreg_lastLanes (g : Group) (n : Nat) (w : Word) : (g.setSreg n w).lastLanes = g.lastLanes := rfl
@[simp] theorem Group.setSreg_waits (g : Group) (n : Nat) (w : Word) : (g.setSreg n w).waits = g.waits := rfl
@[simp] theorem Group.setSreg_keyOlds (g : Group) (n : Nat) (w : Word) : (g.setSreg n w).keyOlds = g.keyOlds := rfl
@[simp] theorem Group.setSreg_tabOlds (g : Group) (n : Nat) (w : Word) : (g.setSreg n w).tabOlds = g.tabOlds := rfl

/-! ### `Group.updLanes` -/

@[simp] theorem Group.updLanes_idx (g : Group) (ls : List Nat) (f : Lane → Lane) : (g.updLanes ls f).idx = g.idx := rfl
@[simp] theorem Group.updLanes_role (g : Group) (ls : List Nat) (f : Lane → Lane) : (g.updLanes ls f).role = g.role := rfl
@[simp] theorem Group.updLanes_core (g : Group) (ls : List Nat) (f : Lane → Lane) : (g.updLanes ls f).core = g.core := rfl
@[simp] theorem Group.updLanes_quad (g : Group) (ls : List Nat) (f : Lane → Lane) : (g.updLanes ls f).quad = g.quad := rfl
@[simp] theorem Group.updLanes_slot (g : Group) (ls : List Nat) (f : Lane → Lane) : (g.updLanes ls f).slot = g.slot := rfl
@[simp] theorem Group.updLanes_s (g : Group) (ls : List Nat) (f : Lane → Lane) : (g.updLanes ls f).s = g.s := rfl
@[simp] theorem Group.updLanes_flags (g : Group) (ls : List Nat) (f : Lane → Lane) : (g.updLanes ls f).flags = g.flags := rfl
@[simp] theorem Group.updLanes_fpst (g : Group) (ls : List Nat) (f : Lane → Lane) : (g.updLanes ls f).fpst = g.fpst := rfl
@[simp] theorem Group.updLanes_cmpsel (g : Group) (ls : List Nat) (f : Lane → Lane) : (g.updLanes ls f).cmpsel = g.cmpsel := rfl
@[simp] theorem Group.updLanes_floor (g : Group) (ls : List Nat) (f : Lane → Lane) : (g.updLanes ls f).floor = g.floor := rfl
@[simp] theorem Group.updLanes_inflight (g : Group) (ls : List Nat) (f : Lane → Lane) : (g.updLanes ls f).inflight = g.inflight := rfl
@[simp] theorem Group.updLanes_fes (g : Group) (ls : List Nat) (f : Lane → Lane) : (g.updLanes ls f).fes = g.fes := rfl
@[simp] theorem Group.updLanes_yielded (g : Group) (ls : List Nat) (f : Lane → Lane) : (g.updLanes ls f).yielded = g.yielded := rfl
@[simp] theorem Group.updLanes_lastPc (g : Group) (ls : List Nat) (f : Lane → Lane) : (g.updLanes ls f).lastPc = g.lastPc := rfl
@[simp] theorem Group.updLanes_lastLanes (g : Group) (ls : List Nat) (f : Lane → Lane) : (g.updLanes ls f).lastLanes = g.lastLanes := rfl
@[simp] theorem Group.updLanes_waits (g : Group) (ls : List Nat) (f : Lane → Lane) : (g.updLanes ls f).waits = g.waits := rfl
@[simp] theorem Group.updLanes_keyOlds (g : Group) (ls : List Nat) (f : Lane → Lane) : (g.updLanes ls f).keyOlds = g.keyOlds := rfl
@[simp] theorem Group.updLanes_tabOlds (g : Group) (ls : List Nat) (f : Lane → Lane) : (g.updLanes ls f).tabOlds = g.tabOlds := rfl

/-! ### `Group.updLane` -/

@[simp] theorem Group.updLane_idx (g : Group) (l : Nat) (f : Lane → Lane) : (g.updLane l f).idx = g.idx := rfl
@[simp] theorem Group.updLane_role (g : Group) (l : Nat) (f : Lane → Lane) : (g.updLane l f).role = g.role := rfl
@[simp] theorem Group.updLane_core (g : Group) (l : Nat) (f : Lane → Lane) : (g.updLane l f).core = g.core := rfl
@[simp] theorem Group.updLane_quad (g : Group) (l : Nat) (f : Lane → Lane) : (g.updLane l f).quad = g.quad := rfl
@[simp] theorem Group.updLane_slot (g : Group) (l : Nat) (f : Lane → Lane) : (g.updLane l f).slot = g.slot := rfl
@[simp] theorem Group.updLane_s (g : Group) (l : Nat) (f : Lane → Lane) : (g.updLane l f).s = g.s := rfl
@[simp] theorem Group.updLane_flags (g : Group) (l : Nat) (f : Lane → Lane) : (g.updLane l f).flags = g.flags := rfl
@[simp] theorem Group.updLane_fpst (g : Group) (l : Nat) (f : Lane → Lane) : (g.updLane l f).fpst = g.fpst := rfl
@[simp] theorem Group.updLane_cmpsel (g : Group) (l : Nat) (f : Lane → Lane) : (g.updLane l f).cmpsel = g.cmpsel := rfl
@[simp] theorem Group.updLane_floor (g : Group) (l : Nat) (f : Lane → Lane) : (g.updLane l f).floor = g.floor := rfl
@[simp] theorem Group.updLane_inflight (g : Group) (l : Nat) (f : Lane → Lane) : (g.updLane l f).inflight = g.inflight := rfl
@[simp] theorem Group.updLane_fes (g : Group) (l : Nat) (f : Lane → Lane) : (g.updLane l f).fes = g.fes := rfl
@[simp] theorem Group.updLane_yielded (g : Group) (l : Nat) (f : Lane → Lane) : (g.updLane l f).yielded = g.yielded := rfl
@[simp] theorem Group.updLane_lastPc (g : Group) (l : Nat) (f : Lane → Lane) : (g.updLane l f).lastPc = g.lastPc := rfl
@[simp] theorem Group.updLane_lastLanes (g : Group) (l : Nat) (f : Lane → Lane) : (g.updLane l f).lastLanes = g.lastLanes := rfl
@[simp] theorem Group.updLane_waits (g : Group) (l : Nat) (f : Lane → Lane) : (g.updLane l f).waits = g.waits := rfl
@[simp] theorem Group.updLane_keyOlds (g : Group) (l : Nat) (f : Lane → Lane) : (g.updLane l f).keyOlds = g.keyOlds := rfl
@[simp] theorem Group.updLane_tabOlds (g : Group) (l : Nat) (f : Lane → Lane) : (g.updLane l f).tabOlds = g.tabOlds := rfl

/-! ### `Group.supersede` -/

@[simp] theorem Group.supersede_idx (g : Group) (ls names : List Nat) : (g.supersede ls names).idx = g.idx := rfl
@[simp] theorem Group.supersede_role (g : Group) (ls names : List Nat) : (g.supersede ls names).role = g.role := rfl
@[simp] theorem Group.supersede_core (g : Group) (ls names : List Nat) : (g.supersede ls names).core = g.core := rfl
@[simp] theorem Group.supersede_quad (g : Group) (ls names : List Nat) : (g.supersede ls names).quad = g.quad := rfl
@[simp] theorem Group.supersede_slot (g : Group) (ls names : List Nat) : (g.supersede ls names).slot = g.slot := rfl
@[simp] theorem Group.supersede_s (g : Group) (ls names : List Nat) : (g.supersede ls names).s = g.s := rfl
@[simp] theorem Group.supersede_flags (g : Group) (ls names : List Nat) : (g.supersede ls names).flags = g.flags := rfl
@[simp] theorem Group.supersede_fpst (g : Group) (ls names : List Nat) : (g.supersede ls names).fpst = g.fpst := rfl
@[simp] theorem Group.supersede_cmpsel (g : Group) (ls names : List Nat) : (g.supersede ls names).cmpsel = g.cmpsel := rfl
@[simp] theorem Group.supersede_floor (g : Group) (ls names : List Nat) : (g.supersede ls names).floor = g.floor := rfl
@[simp] theorem Group.supersede_lanes (g : Group) (ls names : List Nat) : (g.supersede ls names).lanes = g.lanes := rfl
@[simp] theorem Group.supersede_fes (g : Group) (ls names : List Nat) : (g.supersede ls names).fes = g.fes := rfl
@[simp] theorem Group.supersede_yielded (g : Group) (ls names : List Nat) : (g.supersede ls names).yielded = g.yielded := rfl
@[simp] theorem Group.supersede_lastPc (g : Group) (ls names : List Nat) : (g.supersede ls names).lastPc = g.lastPc := rfl
@[simp] theorem Group.supersede_lastLanes (g : Group) (ls names : List Nat) : (g.supersede ls names).lastLanes = g.lastLanes := rfl
@[simp] theorem Group.supersede_waits (g : Group) (ls names : List Nat) : (g.supersede ls names).waits = g.waits := rfl
@[simp] theorem Group.supersede_keyOlds (g : Group) (ls names : List Nat) : (g.supersede ls names).keyOlds = g.keyOlds := rfl
@[simp] theorem Group.supersede_tabOlds (g : Group) (ls names : List Nat) : (g.supersede ls names).tabOlds = g.tabOlds := rfl

/-! ### `Group.writeS` -/

@[simp] theorem Group.writeS_idx (g : Group) (n : Nat) (ws : List Word) : (g.writeS n ws).idx = g.idx := by
  induction ws generalizing g n with
  | nil => rfl
  | cons w r ih => simp [Group.writeS, ih]
@[simp] theorem Group.writeS_role (g : Group) (n : Nat) (ws : List Word) : (g.writeS n ws).role = g.role := by
  induction ws generalizing g n with
  | nil => rfl
  | cons w r ih => simp [Group.writeS, ih]
@[simp] theorem Group.writeS_core (g : Group) (n : Nat) (ws : List Word) : (g.writeS n ws).core = g.core := by
  induction ws generalizing g n with
  | nil => rfl
  | cons w r ih => simp [Group.writeS, ih]
@[simp] theorem Group.writeS_quad (g : Group) (n : Nat) (ws : List Word) : (g.writeS n ws).quad = g.quad := by
  induction ws generalizing g n with
  | nil => rfl
  | cons w r ih => simp [Group.writeS, ih]
@[simp] theorem Group.writeS_slot (g : Group) (n : Nat) (ws : List Word) : (g.writeS n ws).slot = g.slot := by
  induction ws generalizing g n with
  | nil => rfl
  | cons w r ih => simp [Group.writeS, ih]
@[simp] theorem Group.writeS_flags (g : Group) (n : Nat) (ws : List Word) : (g.writeS n ws).flags = g.flags := by
  induction ws generalizing g n with
  | nil => rfl
  | cons w r ih => simp [Group.writeS, ih]
@[simp] theorem Group.writeS_fpst (g : Group) (n : Nat) (ws : List Word) : (g.writeS n ws).fpst = g.fpst := by
  induction ws generalizing g n with
  | nil => rfl
  | cons w r ih => simp [Group.writeS, ih]
@[simp] theorem Group.writeS_cmpsel (g : Group) (n : Nat) (ws : List Word) : (g.writeS n ws).cmpsel = g.cmpsel := by
  induction ws generalizing g n with
  | nil => rfl
  | cons w r ih => simp [Group.writeS, ih]
@[simp] theorem Group.writeS_floor (g : Group) (n : Nat) (ws : List Word) : (g.writeS n ws).floor = g.floor := by
  induction ws generalizing g n with
  | nil => rfl
  | cons w r ih => simp [Group.writeS, ih]
@[simp] theorem Group.writeS_lanes (g : Group) (n : Nat) (ws : List Word) : (g.writeS n ws).lanes = g.lanes := by
  induction ws generalizing g n with
  | nil => rfl
  | cons w r ih => simp [Group.writeS, ih]
@[simp] theorem Group.writeS_inflight (g : Group) (n : Nat) (ws : List Word) : (g.writeS n ws).inflight = g.inflight := by
  induction ws generalizing g n with
  | nil => rfl
  | cons w r ih => simp [Group.writeS, ih]
@[simp] theorem Group.writeS_fes (g : Group) (n : Nat) (ws : List Word) : (g.writeS n ws).fes = g.fes := by
  induction ws generalizing g n with
  | nil => rfl
  | cons w r ih => simp [Group.writeS, ih]
@[simp] theorem Group.writeS_yielded (g : Group) (n : Nat) (ws : List Word) : (g.writeS n ws).yielded = g.yielded := by
  induction ws generalizing g n with
  | nil => rfl
  | cons w r ih => simp [Group.writeS, ih]
@[simp] theorem Group.writeS_lastPc (g : Group) (n : Nat) (ws : List Word) : (g.writeS n ws).lastPc = g.lastPc := by
  induction ws generalizing g n with
  | nil => rfl
  | cons w r ih => simp [Group.writeS, ih]
@[simp] theorem Group.writeS_lastLanes (g : Group) (n : Nat) (ws : List Word) : (g.writeS n ws).lastLanes = g.lastLanes := by
  induction ws generalizing g n with
  | nil => rfl
  | cons w r ih => simp [Group.writeS, ih]
@[simp] theorem Group.writeS_waits (g : Group) (n : Nat) (ws : List Word) : (g.writeS n ws).waits = g.waits := by
  induction ws generalizing g n with
  | nil => rfl
  | cons w r ih => simp [Group.writeS, ih]
@[simp] theorem Group.writeS_keyOlds (g : Group) (n : Nat) (ws : List Word) : (g.writeS n ws).keyOlds = g.keyOlds := by
  induction ws generalizing g n with
  | nil => rfl
  | cons w r ih => simp [Group.writeS, ih]
@[simp] theorem Group.writeS_tabOlds (g : Group) (n : Nat) (ws : List Word) : (g.writeS n ws).tabOlds = g.tabOlds := by
  induction ws generalizing g n with
  | nil => rfl
  | cons w r ih => simp [Group.writeS, ih]

/-! ### `Lane.unmap` -/

@[simp] theorem Lane.unmap_idx (l : Lane) (ns : List Nat) : (l.unmap ns).idx = l.idx := rfl
@[simp] theorem Lane.unmap_pc (l : Lane) (ns : List Nat) : (l.unmap ns).pc = l.pc := rfl
@[simp] theorem Lane.unmap_preds (l : Lane) (ns : List Nat) : (l.unmap ns).preds = l.preds := rfl
@[simp] theorem Lane.unmap_rstack (l : Lane) (ns : List Nat) : (l.unmap ns).rstack = l.rstack := rfl
@[simp] theorem Lane.unmap_spilled (l : Lane) (ns : List Nat) : (l.unmap ns).spilled = l.spilled := rfl
@[simp] theorem Lane.unmap_rep (l : Lane) (ns : List Nat) : (l.unmap ns).rep = l.rep := rfl
@[simp] theorem Lane.unmap_repN (l : Lane) (ns : List Nat) : (l.unmap ns).repN = l.repN := rfl
@[simp] theorem Lane.unmap_helper (l : Lane) (ns : List Nat) : (l.unmap ns).helper = l.helper := rfl
@[simp] theorem Lane.unmap_w (l : Lane) (ns : List Nat) : (l.unmap ns).w = l.w := rfl
@[simp] theorem Lane.unmap_entry (l : Lane) (ns : List Nat) : (l.unmap ns).entry = l.entry := rfl
@[simp] theorem Lane.unmap_park (l : Lane) (ns : List Nat) : (l.unmap ns).park = l.park := rfl
@[simp] theorem Lane.unmap_line (l : Lane) (ns : List Nat) : (l.unmap ns).line = l.line := rfl
@[simp] theorem Lane.unmap_cause (l : Lane) (ns : List Nat) : (l.unmap ns).cause = l.cause := rfl

/-! ### `Lane.next` -/

@[simp] theorem Lane.next_idx (l : Lane) : (l.next).idx = l.idx := rfl
@[simp] theorem Lane.next_v (l : Lane) : (l.next).v = l.v := rfl
@[simp] theorem Lane.next_preds (l : Lane) : (l.next).preds = l.preds := rfl
@[simp] theorem Lane.next_rstack (l : Lane) : (l.next).rstack = l.rstack := rfl
@[simp] theorem Lane.next_spilled (l : Lane) : (l.next).spilled = l.spilled := rfl
@[simp] theorem Lane.next_rep (l : Lane) : (l.next).rep = l.rep := rfl
@[simp] theorem Lane.next_repN (l : Lane) : (l.next).repN = l.repN := rfl
@[simp] theorem Lane.next_helper (l : Lane) : (l.next).helper = l.helper := rfl
@[simp] theorem Lane.next_w (l : Lane) : (l.next).w = l.w := rfl
@[simp] theorem Lane.next_park (l : Lane) : (l.next).park = l.park := rfl
@[simp] theorem Lane.next_cause (l : Lane) : (l.next).cause = l.cause := rfl

/-! ### `Lane.writeV`, `Lane.setPred` -/

@[simp] theorem Lane.writeV_idx (l : Lane) (n : Nat) (ws : List Word) : (l.writeV n ws).idx = l.idx := by
  induction ws generalizing l n with
  | nil => rfl
  | cons w r ih => simp [Lane.writeV, ih]
@[simp] theorem Lane.writeV_pc (l : Lane) (n : Nat) (ws : List Word) : (l.writeV n ws).pc = l.pc := by
  induction ws generalizing l n with
  | nil => rfl
  | cons w r ih => simp [Lane.writeV, ih]
@[simp] theorem Lane.writeV_preds (l : Lane) (n : Nat) (ws : List Word) : (l.writeV n ws).preds = l.preds := by
  induction ws generalizing l n with
  | nil => rfl
  | cons w r ih => simp [Lane.writeV, ih]
@[simp] theorem Lane.writeV_rstack (l : Lane) (n : Nat) (ws : List Word) : (l.writeV n ws).rstack = l.rstack := by
  induction ws generalizing l n with
  | nil => rfl
  | cons w r ih => simp [Lane.writeV, ih]
@[simp] theorem Lane.writeV_spilled (l : Lane) (n : Nat) (ws : List Word) : (l.writeV n ws).spilled = l.spilled := by
  induction ws generalizing l n with
  | nil => rfl
  | cons w r ih => simp [Lane.writeV, ih]
@[simp] theorem Lane.writeV_rep (l : Lane) (n : Nat) (ws : List Word) : (l.writeV n ws).rep = l.rep := by
  induction ws generalizing l n with
  | nil => rfl
  | cons w r ih => simp [Lane.writeV, ih]
@[simp] theorem Lane.writeV_repN (l : Lane) (n : Nat) (ws : List Word) : (l.writeV n ws).repN = l.repN := by
  induction ws generalizing l n with
  | nil => rfl
  | cons w r ih => simp [Lane.writeV, ih]
@[simp] theorem Lane.writeV_helper (l : Lane) (n : Nat) (ws : List Word) : (l.writeV n ws).helper = l.helper := by
  induction ws generalizing l n with
  | nil => rfl
  | cons w r ih => simp [Lane.writeV, ih]
@[simp] theorem Lane.writeV_w (l : Lane) (n : Nat) (ws : List Word) : (l.writeV n ws).w = l.w := by
  induction ws generalizing l n with
  | nil => rfl
  | cons w r ih => simp [Lane.writeV, ih]
@[simp] theorem Lane.writeV_entry (l : Lane) (n : Nat) (ws : List Word) : (l.writeV n ws).entry = l.entry := by
  induction ws generalizing l n with
  | nil => rfl
  | cons w r ih => simp [Lane.writeV, ih]
@[simp] theorem Lane.writeV_park (l : Lane) (n : Nat) (ws : List Word) : (l.writeV n ws).park = l.park := by
  induction ws generalizing l n with
  | nil => rfl
  | cons w r ih => simp [Lane.writeV, ih]
@[simp] theorem Lane.writeV_line (l : Lane) (n : Nat) (ws : List Word) : (l.writeV n ws).line = l.line := by
  induction ws generalizing l n with
  | nil => rfl
  | cons w r ih => simp [Lane.writeV, ih]
@[simp] theorem Lane.writeV_cause (l : Lane) (n : Nat) (ws : List Word) : (l.writeV n ws).cause = l.cause := by
  induction ws generalizing l n with
  | nil => rfl
  | cons w r ih => simp [Lane.writeV, ih]
@[simp] theorem Lane.setPred_idx (l : Lane) (n : BitVec 3) (b : Bool) : (l.setPred n b).idx = l.idx := by unfold Lane.setPred; split <;> rfl
@[simp] theorem Lane.setPred_pc (l : Lane) (n : BitVec 3) (b : Bool) : (l.setPred n b).pc = l.pc := by unfold Lane.setPred; split <;> rfl
@[simp] theorem Lane.setPred_v (l : Lane) (n : BitVec 3) (b : Bool) : (l.setPred n b).v = l.v := by unfold Lane.setPred; split <;> rfl
@[simp] theorem Lane.setPred_rstack (l : Lane) (n : BitVec 3) (b : Bool) : (l.setPred n b).rstack = l.rstack := by unfold Lane.setPred; split <;> rfl
@[simp] theorem Lane.setPred_spilled (l : Lane) (n : BitVec 3) (b : Bool) : (l.setPred n b).spilled = l.spilled := by unfold Lane.setPred; split <;> rfl
@[simp] theorem Lane.setPred_rep (l : Lane) (n : BitVec 3) (b : Bool) : (l.setPred n b).rep = l.rep := by unfold Lane.setPred; split <;> rfl
@[simp] theorem Lane.setPred_repN (l : Lane) (n : BitVec 3) (b : Bool) : (l.setPred n b).repN = l.repN := by unfold Lane.setPred; split <;> rfl
@[simp] theorem Lane.setPred_helper (l : Lane) (n : BitVec 3) (b : Bool) : (l.setPred n b).helper = l.helper := by unfold Lane.setPred; split <;> rfl
@[simp] theorem Lane.setPred_w (l : Lane) (n : BitVec 3) (b : Bool) : (l.setPred n b).w = l.w := by unfold Lane.setPred; split <;> rfl
@[simp] theorem Lane.setPred_entry (l : Lane) (n : BitVec 3) (b : Bool) : (l.setPred n b).entry = l.entry := by unfold Lane.setPred; split <;> rfl
@[simp] theorem Lane.setPred_park (l : Lane) (n : BitVec 3) (b : Bool) : (l.setPred n b).park = l.park := by unfold Lane.setPred; split <;> rfl
@[simp] theorem Lane.setPred_line (l : Lane) (n : BitVec 3) (b : Bool) : (l.setPred n b).line = l.line := by unfold Lane.setPred; split <;> rfl
@[simp] theorem Lane.setPred_cause (l : Lane) (n : BitVec 3) (b : Bool) : (l.setPred n b).cause = l.cause := by unfold Lane.setPred; split <;> rfl

/-! ### `Lane.advance` -/

@[simp] theorem Lane.advance_idx (l : Lane) (i : Issue) : (l.advance i).idx = l.idx := by
  unfold Lane.advance; split
  · rfl
  · split
    · split <;> rfl
    · rfl
@[simp] theorem Lane.advance_preds (l : Lane) (i : Issue) : (l.advance i).preds = l.preds := by
  unfold Lane.advance; split
  · rfl
  · split
    · split <;> rfl
    · rfl
@[simp] theorem Lane.advance_rstack (l : Lane) (i : Issue) : (l.advance i).rstack = l.rstack := by
  unfold Lane.advance; split
  · rfl
  · split
    · split <;> rfl
    · rfl
@[simp] theorem Lane.advance_spilled (l : Lane) (i : Issue) : (l.advance i).spilled = l.spilled := by
  unfold Lane.advance; split
  · rfl
  · split
    · split <;> rfl
    · rfl
@[simp] theorem Lane.advance_helper (l : Lane) (i : Issue) : (l.advance i).helper = l.helper := by
  unfold Lane.advance; split
  · rfl
  · split
    · split <;> rfl
    · rfl
@[simp] theorem Lane.advance_w (l : Lane) (i : Issue) : (l.advance i).w = l.w := by
  unfold Lane.advance; split
  · rfl
  · split
    · split <;> rfl
    · rfl
@[simp] theorem Lane.advance_park (l : Lane) (i : Issue) : (l.advance i).park = l.park := by
  unfold Lane.advance; split
  · rfl
  · split
    · split <;> rfl
    · rfl
@[simp] theorem Lane.advance_cause (l : Lane) (i : Issue) : (l.advance i).cause = l.cause := by
  unfold Lane.advance; split
  · rfl
  · split
    · split <;> rfl
    · rfl

end Sys2Proof.Machine
end

