-- ==== Sys2Proof/Laws/Lanes.lean ====
section
/-! SUPPORT. Where an update of a group is seen: the team, the group and the lanes that it reaches, and the registers of a
lane after a write, a kill and an advance. -/

namespace Sys2Proof.Machine

/-! ### Teams and groups -/

theorem team?_updTeam {s : State} {u : Nat} {f : Team → Team} (hf : ∀ t, (f t).uid = t.uid) (v : Nat) :
    (s.updTeam u f).team? v = if v = u then (s.team? u).map f else s.team? v := by
  unfold State.team? State.updTeam
  split
  · next h =>
    subst h
    exact find?_updFirst _ _ (fun x hx => by simpa [hf] using hx) _
  · next h =>
    refine find?_updFirst_other _ _ _ (fun x hx => ?_) _
    simp only [beq_iff_eq] at hx
    simp [hf, hx, Ne.symm h]

theorem Team.group?_updGroup {t : Team} {g : Nat} {f : Group → Group} (hf : ∀ x, (f x).idx = x.idx) (k : Nat) :
    (t.updGroup g f).group? k = if k = g then (t.group? g).map f else t.group? k := by
  unfold Team.group? Team.updGroup
  split
  · next h =>
    subst h
    exact find?_updFirst _ _ (fun x hx => by simpa [hf] using hx) _
  · next h =>
    refine find?_updFirst_other _ _ _ (fun x hx => ?_) _
    simp only [beq_iff_eq] at hx
    simp [hf, hx, Ne.symm h]

theorem team?_updGroup (s : State) (u g : Nat) (f : Group → Group) (v : Nat) :
    (s.updGroup u g f).team? v = if v = u then (s.team? u).map (·.updGroup g f) else s.team? v :=
  team?_updTeam (f := (·.updGroup g f)) (fun _ => rfl) v

/-- An update of a group is seen in that group and in no other. -/
theorem group?_updGroup {s : State} {u g : Nat} {f : Group → Group} (hf : ∀ x, (f x).idx = x.idx) (v k : Nat) :
    (s.updGroup u g f).group? v k = if v = u ∧ k = g then (s.group? u g).map f else s.group? v k := by
  unfold State.group?
  rw [team?_updGroup]
  by_cases hv : v = u
  · subst hv
    simp only [if_true, true_and]
    cases s.team? v with
    | none => simp
    | some t =>
      simp only [Option.map_some, Option.bind_some]
      exact Team.group?_updGroup hf k
  · simp [hv]

theorem group?_updGroup_self {s : State} {u g : Nat} {f : Group → Group} (hf : ∀ x, (f x).idx = x.idx) :
    (s.updGroup u g f).group? u g = (s.group? u g).map f := by
  simp [group?_updGroup hf]

/-! ### Lanes of a group -/

theorem Group.lane?_map (g : Group) (f : Lane → Lane) (hf : ∀ l, (f l).idx = l.idx) (L : Nat) :
    ({ g with lanes := g.lanes.map f } : Group).lane? L = (g.lane? L).map f :=
  find?_map _ _ (fun x => by simp [hf]) _

theorem Group.lane?_idx {g : Group} {L : Nat} {l : Lane} (h : g.lane? L = some l) : l.idx = L := by
  have := List.find?_some h
  simpa using this

theorem Group.lane?_updLanes (g : Group) (ls : List Nat) (f : Lane → Lane) (hf : ∀ l, (f l).idx = l.idx) (L : Nat) :
    (g.updLanes ls f).lane? L = (g.lane? L).map fun l => if ls.contains L then f l else l := by
  unfold Group.updLanes
  rw [Group.lane?_map g _ (fun l => by split <;> simp [hf])]
  cases h : g.lane? L with
  | none => rfl
  | some l => simp [Group.lane?_idx h]

/-! ### Registers of a lane -/

@[simp] theorem wordsOf_length (v n : Nat) : (wordsOf v n).length = n := by
  induction n generalizing v with
  | zero => rfl
  | succ n ih => simp [wordsOf, ih]

theorem wordsOf_get (v n k : Nat) (h : k < n) : (wordsOf v n).getD k 0 = word (v / 2 ^ (32 * k)) := by
  induction n generalizing v k with
  | zero => omega
  | succ n ih =>
    cases k with
    | zero => simp [wordsOf]
    | succ k =>
      simp only [wordsOf, List.getD_cons_succ]
      rw [ih _ _ (by omega), Nat.div_div_eq_div_mul, ← Nat.pow_add]
      congr 3; omega

/-- A v-register after a write of consecutive registers. -/
theorem Lane.vreg_writeV (l : Lane) (n : Nat) (ws : List Word) (r : Nat) :
    (l.writeV n ws).vreg r = if n ≤ r ∧ r < n + ws.length then ws.getD (r - n) 0 else l.vreg r := by
  induction ws generalizing l n with
  | nil => simp [Lane.writeV] <;> omega
  | cons w t ih =>
    simp only [Lane.writeV, ih, List.length_cons]
    have hv : ({ l with v := tset l.v n w } : Lane).vreg r = if r = n then w else l.vreg r := by
      simp [Lane.vreg, tgetD_tset]
    rw [hv]
    by_cases hx : r = n
    · subst hx
      rw [if_neg (by omega), if_pos rfl, if_pos ⟨by omega, by omega⟩]; simp
    · by_cases hr : n + 1 ≤ r ∧ r < n + 1 + t.length
      · have e : r - n = (r - (n + 1)) + 1 := by omega
        rw [if_pos hr, if_pos ⟨by omega, by omega⟩, e, List.getD_cons_succ]
      · rw [if_neg hr, if_neg hx, if_neg (by omega)]

theorem Lane.vreg_unmap (l : Lane) (ns : List Nat) (r : Nat) : (l.unmap ns).vreg r = if r ∈ ns then 0 else l.vreg r := by
  simp [Lane.vreg, Lane.unmap, tgetD_foldl_tdel]

theorem Lane.vreg_advance (l : Lane) (iss : Issue) (r : Nat) (h : r ∉ iss.repKill) : (l.advance iss).vreg r = l.vreg r := by
  have hn (x : Lane) : x.repDone.vreg r = x.vreg r := rfl
  unfold Lane.advance
  split
  · rfl
  · split
    · split
      · rfl
      · rw [hn, Lane.vreg_unmap, if_neg h]
    · rfl

/-- An s-register after a write of consecutive registers. -/
theorem Group.sreg_writeS (g : Group) (n : Nat) (ws : List Word) (r : Nat) :
    (g.writeS n ws).sreg r = if n ≤ r ∧ r < n + ws.length then ws.getD (r - n) 0 else g.sreg r := by
  induction ws generalizing g n with
  | nil => simp [Group.writeS] <;> omega
  | cons w t ih =>
    simp only [Group.writeS, ih, List.length_cons]
    have hv : (g.setSreg n w).sreg r = if r = n then w else g.sreg r := by
      simp [Group.sreg, Group.setSreg, tgetD_tput]
    rw [hv]
    by_cases hx : r = n
    · subst hx
      rw [if_neg (by omega), if_pos rfl, if_pos ⟨by omega, by omega⟩]; simp
    · by_cases hr : n + 1 ≤ r ∧ r < n + 1 + t.length
      · have e : r - n = (r - (n + 1)) + 1 := by omega
        rw [if_pos hr, if_pos ⟨by omega, by omega⟩, e, List.getD_cons_succ]
      · rw [if_neg hr, if_neg hx, if_neg (by omega)]

theorem getLsbD_setBit (x : BitVec 7) (n m : Nat) (hn : n < 7) (b : Bool) :
    (if b then x ||| BitVec.twoPow 7 n else x &&& ~~~BitVec.twoPow 7 n).getLsbD m = if m = n then b else x.getLsbD m := by
  by_cases hm : m = n
  · subst hm
    cases b <;> simp [hn]
  · have h' : ¬n = m := fun e => hm e.symm
    by_cases h7 : m < 7
    · cases b <;> simp [hm, h7]
    · have hx : x.getLsbD m = false := BitVec.getLsbD_of_ge _ _ (by omega)
      cases b <;> simp [hm, h7, hx, h', BitVec.getLsbD_twoPow]

/-- A predicate after a write of a predicate; pt takes nothing (R14). -/
theorem Lane.pred_setPred (l : Lane) (n m : BitVec 3) (b : Bool) :
    (l.setPred n b).pred m = if m = n ∧ n ≠ 7 then b else l.pred m := by
  unfold Lane.setPred
  by_cases hn : n = 7
  · simp [hn]
  · have hlt : n.toNat < 7 := by
      have := n.isLt
      have : n.toNat ≠ 7 := fun e => hn (BitVec.eq_of_toNat_eq e)
      omega
    rw [if_neg (by simpa using hn)]
    simp only [Lane.pred, getLsbD_setBit _ _ _ hlt]
    by_cases hm : m = n
    · subst hm
      have h7 : (m == 7) = false := by simpa using hn
      rw [if_pos rfl, if_pos ⟨rfl, hn⟩, h7, Bool.false_or]
    · have hne : ¬m.toNat = n.toNat := fun e => hm (BitVec.eq_of_toNat_eq e)
      rw [if_neg hne, if_neg (fun h => hm h.1)]

/-! ### The packet -/

theorem pk?_group {s : State} {p : Pk} (h : pk? s = some p) : s.group? p.iss.uid p.iss.grp = some p.grp := by
  simp only [pk?] at h
  split at h
  · simp at h
  · split at h
    · simp at h
    · split at h
      · simp at h
      · next hg =>
        simp only [Option.some.injEq] at h; subst h
        simp_all [State.group?]

end Sys2Proof.Machine
end

