-- ==== Sys2Proof/Laws/Alu.lean ====
section
/-! SUPPORT. What an instruction that computes a result per lane does when it issues: its next state, its result, where its
lanes stand after it, and what it leaves alone. -/

namespace Sys2Proof.Machine

/-! ### The state that an issue leaves -/

@[simp] theorem Lane.committed_idx (l : Lane) (iss : Issue) : (l.committed iss).idx = l.idx := by
  unfold Lane.committed; split
  · rfl
  · split <;> rfl

@[simp] theorem Lane.committed_vreg (l : Lane) (iss : Issue) (r : Nat) : (l.committed iss).vreg r = l.vreg r := by
  unfold Lane.committed; split
  · rfl
  · split <;> rfl

/-- The group after the issue, its lanes as `Lane.committed` says. -/
theorem issued_group {s : State} {p : Pk} {h : Hdr} {names : List Nat} (hp : pk? s = some p) :
    ∃ g, (s.issued p h names).group? p.iss.uid p.iss.grp = some g ∧ g.lanes = p.grp.lanes.map (·.committed p.iss)
      ∧ g.s = p.grp.s ∧ g.idx = p.grp.idx ∧ g.fpst = p.grp.fpst ∧ g.inflight = p.grp.inflight ∧ g.cmpsel = p.grp.cmpsel
      ∧ g.floor = p.grp.floor := by
  have hg := pk?_group hp
  have h1 : (s.commit p).group? p.iss.uid p.iss.grp = some
      { p.grp with yielded := [], lastPc := p.iss.pc, lastLanes := (if p.iss.rep.isSome then [] else p.iss.lanes), lanes := p.grp.lanes.map (·.committed p.iss) } := by
    rw [State.commit, group?_updGroup_self (by intro; rfl), hg]; rfl
  unfold State.issued
  simp only
  generalize hs1 : (if p.grp.capacity (p.names h names) == 0 then s.commit p
    else (s.commit p).endClaimWait p.iss.uid p.iss.grp p.place) = s1
  have h2 : ∃ g, s1.group? p.iss.uid p.iss.grp = some g ∧ g.lanes = p.grp.lanes.map (·.committed p.iss)
      ∧ g.s = p.grp.s ∧ g.idx = p.grp.idx ∧ g.fpst = p.grp.fpst ∧ g.inflight = p.grp.inflight ∧ g.cmpsel = p.grp.cmpsel
      ∧ g.floor = p.grp.floor := by
    subst hs1
    split
    · exact ⟨_, h1, rfl, rfl, rfl, rfl, rfl, rfl, rfl⟩
    · rw [State.endClaimWait, group?_updGroup_self (by intro; rfl), h1]
      exact ⟨_, rfl, rfl, rfl, rfl, rfl, rfl, rfl, rfl⟩
  split
  · exact h2
  · split
    · exact h2
    · obtain ⟨g, hg, r⟩ := h2
      rw [group?_updGroup_self (by intro; rfl), hg]
      exact ⟨_, rfl, r⟩

/-! ### Changes within one group -/

theorem updFirst_comp {α : Type} (p : α → Bool) (f g : α → α) (hf : ∀ x, p x = true → p (f x) = true) (l : List α) :
    updFirst p g (updFirst p f l) = updFirst p (g ∘ f) l := by
  induction l with
  | nil => rfl
  | cons h t ih =>
    by_cases hp : p h = true
    · simp [updFirst, hp, hf h hp]
    · simp [updFirst, hp, ih]

theorem updGroup_updGroup (s : State) (u g : Nat) (f f' : Group → Group) (hf : ∀ x, (f x).idx = x.idx) :
    (s.updGroup u g f).updGroup u g f' = s.updGroup u g (f' ∘ f) := by
  simp only [State.updGroup, State.updTeam]
  congr 1
  rw [updFirst_comp _ _ _ (by intro x hx; exact hx)]
  congr 1
  funext t
  simp only [Function.comp, Team.updGroup]
  congr 1
  exact updFirst_comp _ _ _ (fun x hx => by simpa [hf] using hx) _

theorem State.onlyGroup.upd {s t : State} {u g : Nat} (h : s.onlyGroup t u g) {f : Group → Group}
    (hf : ∀ x, (f x).idx = x.idx) : s.onlyGroup (t.updGroup u g f) u g := by
  obtain ⟨f0, h0, rfl⟩ := h
  exact ⟨f ∘ f0, fun x => by simp [hf, h0], updGroup_updGroup _ _ _ _ _ h0⟩

theorem onlyGroup_upd (s : State) (u g : Nat) {f : Group → Group} (hf : ∀ x, (f x).idx = x.idx) :
    s.onlyGroup (s.updGroup u g f) u g := ⟨f, hf, rfl⟩

/-- An issue changes nothing outside its group. -/
theorem issued_onlyGroup (s : State) (p : Pk) (h : Hdr) (names : List Nat) :
    s.onlyGroup (s.issued p h names) p.iss.uid p.iss.grp := by
  have h1 : s.onlyGroup (s.commit p) p.iss.uid p.iss.grp := onlyGroup_upd _ _ _ (by intro; rfl)
  unfold State.issued
  simp only
  split <;> split <;> (try split) <;>
    first
    | exact h1
    | exact h1.upd (by intro; rfl)
    | exact (h1.upd (by intro; rfl)).upd (by intro; rfl)

theorem State.onlyGroup.updPkLanes {s t : State} {p : Pk} (h : s.onlyGroup t p.iss.uid p.iss.grp) (ls : List Nat)
    (f : Lane → Lane) : s.onlyGroup (t.updPkLanes p ls f) p.iss.uid p.iss.grp := h.upd (by intro; rfl)

theorem State.onlyGroup.kill {s t : State} {p : Pk} (h : s.onlyGroup t p.iss.uid p.iss.grp) (ls ns : List Nat) :
    s.onlyGroup (t.kill p ls ns) p.iss.uid p.iss.grp := by
  unfold State.kill; split
  · exact h
  · exact h.updPkLanes ls _

theorem State.onlyGroup.writeDst {s t : State} {p : Pk} (h : s.onlyGroup t p.iss.uid p.iss.grp) (d : Spec) (w : Nat)
    (vals : List (Nat × Nat)) : s.onlyGroup (t.writeDst p d w vals) p.iss.uid p.iss.grp := by
  cases d with
  | v n => exact h.upd (by intro; rfl)
  | s n =>
    cases vals with
    | nil => exact h
    | cons a r => exact h.upd (by intro; simp)
  | _ => exact h

/-! ### What a group sees of the pieces of an effect -/

/-- What a group is after an effect: its lanes, its s-registers and its sticky floating-point flags; its place stays. -/
structure Group.Is (g : Group) (idx : Nat) (lanes : List Lane) (sr : NMap Word) (fp : BitVec 5) : Prop where
  idx : g.idx = idx
  lanes : g.lanes = lanes
  s : g.s = sr
  fpst : g.fpst = fp

/-- A state whose group k of team u is as told. -/
def State.Shows (s : State) (u k : Nat) (lanes : List Lane) (sr : NMap Word) (fp : BitVec 5) : Prop :=
  ∃ g, s.group? u k = some g ∧ g.Is k lanes sr fp

theorem State.Shows.upd {s : State} {u k : Nat} {ls ls' : List Lane} {sr sr' : NMap Word} {fp fp' : BitVec 5}
    (h : s.Shows u k ls sr fp) {f : Group → Group} (hf : ∀ x, (f x).idx = x.idx)
    (hl : ∀ g : Group, g.Is k ls sr fp → (f g).Is k ls' sr' fp') : (s.updGroup u k f).Shows u k ls' sr' fp' := by
  obtain ⟨g, hg, hi⟩ := h
  exact ⟨f g, by rw [group?_updGroup_self hf, hg]; rfl, hl g hi⟩

theorem issued_shows {s : State} {p : Pk} {h : Hdr} {names : List Nat} (hp : pk? s = some p) :
    (s.issued p h names).Shows p.iss.uid p.iss.grp (p.grp.lanes.map (·.committed p.iss)) p.grp.s p.grp.fpst := by
  obtain ⟨g, hg, hl, hs, hi, hf, -⟩ := issued_group (h := h) (names := names) hp
  refine ⟨g, hg, ?_, hl, hs, hf⟩
  have := pk?_group hp
  simp only [State.group?, Option.bind_eq_some_iff] at this
  obtain ⟨t, -, ht⟩ := this
  rw [hi]
  simpa using List.find?_some ht

theorem State.Shows.updPkLanes {s : State} {p : Pk} {ls : List Lane} {sr : NMap Word} {fp : BitVec 5}
    (h : s.Shows p.iss.uid p.iss.grp ls sr fp) (is : List Nat) (f : Lane → Lane) :
    (s.updPkLanes p is f).Shows p.iss.uid p.iss.grp (ls.map fun l => if is.contains l.idx then f l else l) sr fp :=
  h.upd (by intro; rfl) fun g hg => ⟨hg.idx, by rw [Group.updLanes, hg.lanes], hg.s, hg.fpst⟩

theorem Lane.unmap_nil (l : Lane) : l.unmap [] = l := rfl

theorem State.Shows.kill {s : State} {p : Pk} {ls : List Lane} {sr : NMap Word} {fp : BitVec 5}
    (h : s.Shows p.iss.uid p.iss.grp ls sr fp) (is names : List Nat) :
    (s.kill p is names).Shows p.iss.uid p.iss.grp (ls.map fun l => if is.contains l.idx then l.unmap names else l) sr fp := by
  unfold State.kill
  split
  · next hn =>
    have : names = [] := by simpa using hn
    subst this
    simpa [Lane.unmap_nil] using h
  · exact h.updPkLanes is _

theorem State.Shows.orFpst {s : State} {u k : Nat} {ls : List Lane} {sr : NMap Word} {fp : BitVec 5}
    (h : s.Shows u k ls sr fp) (b : BitVec 5) : (s.updGroup u k (·.orFpst b)).Shows u k ls sr (fp ||| b) :=
  h.upd (by intro; rfl) fun g hg => ⟨hg.idx, hg.lanes, hg.s, by rw [← hg.fpst]; rfl⟩

/-- A lane after a write of the results to a destination. -/
def Lane.given (l : Lane) (d : Spec) (w : Nat) (vals : List (Nat × Nat)) : Lane :=
  match d with
  | .v n =>
    match vals.find? (·.1 == l.idx) with
    | some (_, v) => l.writeV n.toNat (wordsOf v w)
    | none => l
  | _ => l

/-- The s-registers of a group after a write of the results to a destination. -/
def Group.given (sr : NMap Word) (d : Spec) (w : Nat) (vals : List (Nat × Nat)) : NMap Word :=
  match d, vals with
  | .s n, (_, v) :: _ => (({ idx := 0, s := sr } : Group).writeS n.toNat (wordsOf v w)).s
  | _, _ => sr

theorem Group.writeS_s (g : Group) (n : Nat) (ws : List Word) :
    (g.writeS n ws).s = (({ idx := 0, s := g.s } : Group).writeS n ws).s := by
  induction ws generalizing g n with
  | nil => rfl
  | cons w r ih =>
    simp only [Group.writeS]
    rw [ih, ih (({ idx := 0, s := g.s } : Group).setSreg n w)]
    rfl

theorem State.Shows.writeDst {s : State} {p : Pk} {ls : List Lane} {sr : NMap Word} {fp : BitVec 5}
    (h : s.Shows p.iss.uid p.iss.grp ls sr fp) (d : Spec) (w : Nat) (vals : List (Nat × Nat)) :
    (s.writeDst p d w vals).Shows p.iss.uid p.iss.grp (ls.map (·.given d w vals)) (Group.given sr d w vals) fp := by
  cases d with
  | v n =>
    refine h.upd (by intro; rfl) fun g hg => ⟨hg.idx, ?_, hg.s, hg.fpst⟩
    simp only [Group.supersede_lanes, hg.lanes]
    rfl
  | s n =>
    have e : ls.map (·.given (.s n) w vals) = ls := by simp [Lane.given]
    rw [e]
    cases vals with
    | nil => exact h
    | cons a r =>
      refine h.upd (by intro; simp) fun g hg => ⟨by simp [hg.idx], by simp [hg.lanes], ?_, by simp [hg.fpst]⟩
      rw [Group.writeS_s, hg.s]; rfl
  | _ => simpa [State.writeDst, Lane.given, Group.given] using h

/-! ### The instruction -/

/-- The results of an instruction that computes one per active lane, one in all on the scalar path (R41). -/
def aluVals (i : Instr) (h : Hdr) (imm : Word) (f : Pk → Lane → List Nat → Res) (p : Pk) : List (Nat × Res) :=
  (if i.scalarDst then (p.active h).take 1 else p.active h).map fun l => (l.idx, f p l (p.sources l imm i.shape))

/-- A lane after the instruction: its issue counted, killed names unmapped, its result written, gone on. -/
def Lane.afterAlu (l : Lane) (i : Instr) (h : Hdr) (p : Pk) (vals : List (Nat × Res)) : Lane :=
  let d := i.shape.dst.getD ⟨.zero, 1, false⟩
  let l1 := l.committed p.iss
  let l2 := if ((p.active h).map (·.idx)).contains l.idx then l1.unmap (shapeKills i.shape) else l1
  let l3 := l2.given d.spec d.w (vals.map fun r => (r.1, r.2.val))
  if p.iss.lanes.contains l.idx then l3.advance p.iss else l3

@[simp] theorem Lane.given_idx (l : Lane) (d : Spec) (w : Nat) (vals : List (Nat × Nat)) : (l.given d w vals).idx = l.idx := by
  unfold Lane.given; split
  · split <;> simp
  · rfl

@[simp] theorem Lane.afterAlu_idx (l : Lane) (i : Instr) (h : Hdr) (p : Pk) (vals : List (Nat × Res)) :
    (l.afterAlu i h p vals).idx = l.idx := by
  unfold Lane.afterAlu; dsimp only; split <;> split <;> simp

/-- The next state of an instruction that computes a result per lane, when nothing holds it back. -/
theorem alu_of_issues {i : Instr} {h : Hdr} {imm : Word} {f : Pk → Lane → List Nat → Res} {s : State}
    {chk : Pk → List Trap} {p : Pk} (hp : pk? s = some p) (hi : p.issues i h (instrDst i) s = true) (hc : chk p = []) :
    ∃ t, alu i h imm f s chk = .next t ∧ s.onlyGroup t p.iss.uid p.iss.grp
      ∧ t.Shows p.iss.uid p.iss.grp (p.grp.lanes.map (·.afterAlu i h p (aluVals i h imm f p)))
          (Group.given p.grp.s (i.shape.dst.getD ⟨.zero, 1, false⟩).spec (i.shape.dst.getD ⟨.zero, 1, false⟩).w
            ((aluVals i h imm f p).map fun r => (r.1, r.2.val)))
          (p.grp.fpst ||| (aluVals i h imm f p).foldl (fun a r => a ||| r.2.fp) 0) := by
  unfold alu issue
  rw [issueWith_of_issues (names := fun _ => instrDst i) hp hi hc rfl]
  refine ⟨_, rfl, ?_, ?_⟩
  · rw [trapPk_nil hp]
    exact ((((issued_onlyGroup s p h _).kill _ _).upd (by intro; rfl)).writeDst _ _ _).updPkLanes _ _
  · rw [trapPk_nil hp]
    have h1 := issued_shows (h := h) (names := instrDst i) hp
    have h2 := h1.kill ((p.active h).map (·.idx)) (shapeKills i.shape)
    have h3 := h2.orFpst ((aluVals i h imm f p).foldl (fun a r => a ||| r.2.fp) 0)
    have h4 := h3.writeDst (i.shape.dst.getD ⟨.zero, 1, false⟩).spec (i.shape.dst.getD ⟨.zero, 1, false⟩).w
      ((aluVals i h imm f p).map fun r => (r.1, r.2.val))
    have h5 := h4.updPkLanes p.iss.lanes (·.advance p.iss)
    refine cast ?_ h5
    congr 1
    simp only [List.map_map]
    congr 1
    funext l
    simp only [Function.comp, Lane.afterAlu, Lane.given_idx, apply_ite Lane.idx, Lane.unmap_idx, Lane.committed_idx,
      ite_self]

/-! ### What the next state shows -/

theorem Shows.lane {s : State} {u k : Nat} {ls : List Lane} {sr : NMap Word} {fp : BitVec 5} (h : s.Shows u k ls sr fp)
    (L : Nat) : s.lane? u k L = ls.find? (·.idx == L) := by
  obtain ⟨g, hg, hi⟩ := h
  simp [State.lane?, hg, Group.lane?, hi.lanes]

theorem Shows.lane_map {s : State} {u k : Nat} {ls : List Lane} {sr : NMap Word} {fp : BitVec 5} {f : Lane → Lane}
    (h : s.Shows u k (ls.map f) sr fp) (hf : ∀ l, (f l).idx = l.idx) (L : Nat) :
    s.lane? u k L = (ls.find? (·.idx == L)).map f := by
  rw [Shows.lane h]
  exact find?_map _ _ (fun x => by simp [hf]) _

theorem find?_map_idx (ls : List Lane) (f : Lane → Nat) (l : Lane) (hl : ls.find? (·.idx == l.idx) = some l) :
    (ls.map fun x => (x.idx, f x)).find? (·.1 == l.idx) = some (l.idx, f l) := by
  induction ls with
  | nil => simp at hl
  | cons a r ih =>
    simp only [List.map_cons, List.find?_cons] at hl ⊢
    by_cases h : a.idx == l.idx
    · simp only [h] at hl ⊢
      simp only [Option.some.injEq] at hl
      subst hl; rfl
    · simp only [h] at hl ⊢
      exact ih hl

/-- The first active lane with a number is the group's lane with that number. -/
theorem active_find {p : Pk} {h : Hdr} {l : Lane} (hl : p.actsOn h l) :
    (p.active h).find? (·.idx == l.idx) = some l ∧ p.iss.lanes.contains l.idx = true := by
  obtain ⟨hm, hf⟩ := hl
  have hm' := hm
  simp only [Pk.active, Pk.lanes, List.mem_filter] at hm'
  refine ⟨?_, hm'.1.2⟩
  unfold Group.lane? at hf
  unfold Pk.active Pk.lanes
  have hg := hm'.2
  have hc := hm'.1.2
  clear hm hm'
  generalize p.grp.lanes = ls at hf
  induction ls with
  | nil => simp at hf
  | cons a r ih =>
    by_cases ha : a.idx == l.idx
    · simp only [List.find?_cons, ha, Option.some.injEq] at hf
      subst hf
      rw [List.filter_cons, if_pos hc, List.filter_cons, if_pos hg, List.find?_cons]
      simp
    · simp only [List.find?_cons, ha] at hf
      have := ih hf
      simp only [List.filter_cons]
      split
      · simp only [List.filter_cons]; split
        · rw [List.find?_cons]; simp only [ha]; exact this
        · exact this
      · exact this

theorem mem_active_idx {p : Pk} {h : Hdr} {l : Lane} (hl : p.actsOn h l) :
    ((p.active h).map (·.idx)).contains l.idx = true := by
  simp only [List.contains_eq_mem, List.mem_map, decide_eq_true_eq]
  exact ⟨l, hl.1, rfl⟩

theorem Lane.advance_pc_congr {l l' : Lane} (iss : Issue) (h1 : l'.pc = l.pc) (h2 : l'.rep = l.rep) (h3 : l'.repN = l.repN) :
    (l'.advance iss).pc = (l.advance iss).pc := by
  unfold Lane.advance
  cases iss.rep with
  | none => simp [Lane.next, h1]
  | some r =>
    simp only [h3, h2]
    cases l.repN with
    | none => simp [Lane.repDone, Lane.next, h1]
    | some n => simp only; split <;> simp [Lane.repDone, Lane.next, Lane.unmap, h1]

theorem Lane.committed_same (l : Lane) (iss : Issue) :
    (l.committed iss).pc = l.pc ∧ (l.committed iss).rep = l.rep ∧ (l.committed iss).repN = l.repN
      ∧ (l.committed iss).preds = l.preds ∧ (l.committed iss).rstack = l.rstack ∧ (l.committed iss).spilled = l.spilled := by
  unfold Lane.committed; split
  · simp
  · split <;> simp

/-- The results of an instruction that computes one per active lane stand in its destination, and its lanes have gone on. -/
theorem alu_gives {i : Instr} {h : Hdr} {imm : Word} {f : Pk → Lane → List Nat → Res} {s : State} {chk : Pk → List Trap}
    {p : Pk} {d : Spec} {w : Nat} {vo : Bool} (hp : pk? s = some p) (hi : p.issues i h (instrDst i) s = true) (hc : chk p = [])
    (hd : i.shape.dst = some ⟨d, w, vo⟩) :
    ∃ t, alu i h imm f s chk = .next t ∧ p.wrote t h d w (fun l => (f p l (p.sources l imm i.shape)).val) ∧ p.wentOn t := by
  obtain ⟨t, ht, -, hs⟩ := alu_of_issues (imm := imm) (f := f) hp hi hc
  refine ⟨t, ht, ?_, ?_⟩
  · simp only [hd, Option.getD_some] at hs
    cases d with
    | v n =>
      intro l hl k hk hr
      have hsc : i.scalarDst = false := by simp [Instr.scalarDst, hd, Spec.isS]
      have hv : (aluVals i h imm f p).map (fun r => (r.1, r.2.val))
          = (p.active h).map fun x => (x.idx, (f p x (p.sources x imm i.shape)).val) := by
        simp [aluVals, hsc]
      simp only [State.vregOf, Shows.lane_map hs (by simp)]
      have hf := hl.2
      unfold Group.lane? at hf
      rw [hf]
      obtain ⟨ha, hin⟩ := active_find hl
      simp only [Option.map_some, Option.getD_some, Lane.afterAlu, hd, hin, if_true, hv]
      rw [Lane.vreg_advance _ _ _ hr]
      have hi' : ∀ x : Lane, (if ((p.active h).map (·.idx)).contains l.idx then x.unmap (shapeKills i.shape) else x).idx = x.idx := by
        intro x; split <;> rfl
      simp only [Lane.given, hi', Lane.committed_idx, find?_map_idx _ _ _ ha]
      rw [Lane.vreg_writeV, if_pos ⟨by omega, by simp; omega⟩]
      have e : n.toNat + k - n.toNat = k := by omega
      rw [e, wordsOf_get _ _ _ hk]
    | s n =>
      intro l hl k hk
      have hsc : i.scalarDst = true := by simp [Instr.scalarDst, hd, Spec.isS]
      obtain ⟨g, hg, his⟩ := hs
      simp only [State.sregOf, hg, Option.map_some, Option.getD_some, Group.sreg, his.s]
      have hv : (aluVals i h imm f p).map (fun r => (r.1, r.2.val)) = [(l.idx, (f p l (p.sources l imm i.shape)).val)] := by
        cases ha : p.active h with
        | nil => simp [ha] at hl
        | cons a r =>
          simp only [ha, List.head?_cons, Option.some.injEq] at hl
          subst hl
          simp [aluVals, hsc, ha]
      rw [hv]
      have := Group.sreg_writeS ({ idx := 0, s := p.grp.s } : Group) n.toNat (wordsOf (f p l (p.sources l imm i.shape)).val w) (n.toNat + k)
      rw [if_pos ⟨by omega, by simp; omega⟩] at this
      have e : n.toNat + k - n.toNat = k := by omega
      rw [e, wordsOf_get _ _ _ hk] at this
      exact this
    | _ => trivial
  · intro l hl
    simp only [State.pcOf, Shows.lane_map hs (by simp)]
    simp only [Pk.lanes, List.mem_filter] at hl
    unfold Group.lane?
    cases hfl : p.grp.lanes.find? (·.idx == l.idx) with
    | none => rfl
    | some x =>
      have hx : x.idx = l.idx := by simpa using List.find?_some hfl
      simp only [Option.map_some, Option.some.injEq, Lane.afterAlu, hx, hl.2, if_true]
      refine Lane.advance_pc_congr _ ?_ ?_ ?_
      all_goals
        unfold Lane.given
        split
        · split
          · simp only [Lane.writeV_pc, Lane.writeV_rep, Lane.writeV_repN]
            split <;> simp [Lane.committed_same]
          · split <;> simp [Lane.committed_same]
        · split <;> simp [Lane.committed_same]

end Sys2Proof.Machine
end

