-- ==== Sys2Proof/Laws/Dispatch.lean ====
section
/-! SUPPORT. The arm of every constructor, one equation each. -/

namespace Sys2Proof.Machine

theorem exec_nop (h : Hdr) (s : State) : exec (.nop h) s = execNop h s := rfl
theorem exec_bra (h : Hdr) (loff : BitVec 29) (tslot : BitVec 3) (s : State) : exec (.bra h loff tslot) s = execBra h loff tslot s := rfl
theorem exec_brx (h : Hdr) (t : Src) (s : State) : exec (.brx h t) s = execBrx h t s := rfl
theorem exec_call (h : Hdr) (loff : BitVec 29) (tslot : BitVec 3) (s : State) : exec (.call h loff tslot) s = execCall h loff tslot s := rfl
theorem exec_callx (h : Hdr) (t : Src) (s : State) : exec (.callx h t) s = execCallx h t s := rfl
theorem exec_ret (h : Hdr) (s : State) : exec (.ret h) s = execRet h s := rfl
theorem exec_exit (h : Hdr) (s : State) : exec (.exit h) s = execExit h s := rfl
theorem exec_conv (h : Hdr) (s : State) : exec (.conv h) s = execConv h s := rfl
theorem exec_yield (h : Hdr) (s : State) : exec (.yield h) s = execYield h s := rfl
theorem exec_rep (h : Hdr) (n : Src) (stride : BitVec 3) (mask : BitVec 4) (s : State) : exec (.rep h n stride mask) s = execRep h n stride mask s := rfl
theorem exec_trap (h : Hdr) (code : BitVec 16) (s : State) : exec (.trap h code) s = execTrap h code s := rfl
theorem exec_bkpt (h : Hdr) (s : State) : exec (.bkpt h) s = execBkpt h s := rfl
theorem exec_iadd (sat : Sat) (o : Op2) (s : State) : exec (.iadd sat o) s = execIadd sat o s := rfl
theorem exec_isub (sat : Sat) (o : Op2) (s : State) : exec (.isub sat o) s = execIsub sat o s := rfl
theorem exec_iaddc (po : BitVec 3) (h : Hdr) (d : Spec) (a b : Src) (pi : PSrc) (imm : Word) (s : State) : exec (.iaddc po h d a b pi imm) s = execIaddc po h d a b pi imm s := rfl
theorem exec_imul (o : Op2) (s : State) : exec (.imul o) s = execImul o s := rfl
theorem exec_imulh (u : Bool) (o : Op2) (s : State) : exec (.imulh u o) s = execImulh u o s := rfl
theorem exec_imad (o : Op3) (s : State) : exec (.imad o) s = execImad o s := rfl
theorem exec_imadw (u : Bool) (o : Op3) (s : State) : exec (.imadw u o) s = execImadw u o s := rfl
theorem exec_imin (u : Bool) (o : Op2) (s : State) : exec (.imin u o) s = execImin u o s := rfl
theorem exec_imax (u : Bool) (o : Op2) (s : State) : exec (.imax u o) s = execImax u o s := rfl
theorem exec_iabs (sat : Bool) (o : Op1) (s : State) : exec (.iabs sat o) s = execIabs sat o s := rfl
theorem exec_tern (lut : BitVec 8) (o : Op3) (s : State) : exec (.tern lut o) s = execTern lut o s := rfl
theorem exec_shl (w : Bool) (o : Op2) (s : State) : exec (.shl w o) s = execShl w o s := rfl
theorem exec_shr (w : Bool) (o : Op2) (s : State) : exec (.shr w o) s = execShr w o s := rfl
theorem exec_sar (w : Bool) (o : Op2) (s : State) : exec (.sar w o) s = execSar w o s := rfl
theorem exec_shf (l w : Bool) (o : Op3) (s : State) : exec (.shf l w o) s = execShf l w o s := rfl
theorem exec_bfe (sg : Bool) (o : Op2) (s : State) : exec (.bfe sg o) s = execBfe sg o s := rfl
theorem exec_bfi (o : Op3) (s : State) : exec (.bfi o) s = execBfi o s := rfl
theorem exec_popc (o : Op1) (s : State) : exec (.popc o) s = execPopc o s := rfl
theorem exec_clz (o : Op1) (s : State) : exec (.clz o) s = execClz o s := rfl
theorem exec_brev (o : Op1) (s : State) : exec (.brev o) s = execBrev o s := rfl
theorem exec_byperm (o : Op3) (s : State) : exec (.byperm o) s = execByperm o s := rfl
theorem exec_iset (u : Bool) (cmp : ICmp) (bop : BOp) (o : OpCmp) (s : State) : exec (.iset u cmp bop o) s = execIset u cmp bop o s := rfl
theorem exec_isetv (u : Bool) (cmp : ICmp) (o : Op2) (s : State) : exec (.isetv u cmp o) s = execIsetv u cmp o s := rfl
theorem exec_iadd64 (o : Op2) (s : State) : exec (.iadd64 o) s = execIadd64 o s := rfl
theorem exec_isub64 (o : Op2) (s : State) : exec (.isub64 o) s = execIsub64 o s := rfl
theorem exec_lea (k : BitVec 5) (o : Op2) (s : State) : exec (.lea k o) s = execLea k o s := rfl
theorem exec_lea64 (u : Bool) (k : BitVec 5) (o : Op2) (s : State) : exec (.lea64 u k o) s = execLea64 u k o s := rfl
theorem exec_idp4 (sat ua ub : Bool) (o : Op3) (s : State) : exec (.idp4 sat ua ub o) s = execIdp4 sat ua ub o s := rfl
theorem exec_isad (u : Bool) (o : Op3) (s : State) : exec (.isad u o) s = execIsad u o s := rfl
theorem exec_shl64 (o : Op2) (s : State) : exec (.shl64 o) s = execShl64 o s := rfl
theorem exec_shr64 (ar : Bool) (o : Op2) (s : State) : exec (.shr64 ar o) s = execShr64 ar o s := rfl
theorem exec_mov (p : Bool) (o : Op1) (s : State) : exec (.mov p o) s = execMov p o s := rfl
theorem exec_sel (h : Hdr) (d : Spec) (a b : Src) (pc : PSrc) (imm : Word) (s : State) : exec (.sel h d a b pc imm) s = execSel h d a b pc imm s := rfl
theorem exec_ptern (lut : BitVec 8) (h : Hdr) (pd : BitVec 3) (pa pb pc : PSrc) (s : State) : exec (.ptern lut h pd pa pb pc) s = execPtern lut h pd pa pb pc s := rfl
theorem exec_p2v (h : Hdr) (d : Spec) (s : State) : exec (.p2v h d) s = execP2v h d s := rfl
theorem exec_v2p (h : Hdr) (a b : Src) (imm : Word) (s : State) : exec (.v2p h a b imm) s = execV2p h a b imm s := rfl
theorem exec_fadd (m : FMod) (o : Op2) (s : State) : exec (.fadd m o) s = execFadd m o s := rfl
theorem exec_fmul (m : FMod) (o : Op2) (s : State) : exec (.fmul m o) s = execFmul m o s := rfl
theorem exec_ffma (m : FMod) (o : Op3) (s : State) : exec (.ffma m o) s = execFfma m o s := rfl
theorem exec_fmin (m : FMod) (o : Op2) (s : State) : exec (.fmin m o) s = execFmin m o s := rfl
theorem exec_fmax (m : FMod) (o : Op2) (s : State) : exec (.fmax m o) s = execFmax m o s := rfl
theorem exec_fset (cmp : FCmp) (bop : BOp) (m : FMod) (o : OpCmp) (s : State) : exec (.fset cmp bop m o) s = execFset cmp bop m o s := rfl
theorem exec_fsetv (cmp : FCmp) (m : FMod) (o : Op2) (s : State) : exec (.fsetv cmp m o) s = execFsetv cmp m o s := rfl
theorem exec_frnd (m : FMod) (o : Op1) (s : State) : exec (.frnd m o) s = execFrnd m o s := rfl
theorem exec_fclass (fmt : FFmt) (o : Op1) (s : State) : exec (.fclass fmt o) s = execFclass fmt o s := rfl
theorem exec_fspec (fn : FFn) (m : FMod) (o : Op1) (s : State) : exec (.fspec fn m o) s = execFspec fn m o s := rfl
theorem exec_fscale (m : FMod) (o : Op2) (s : State) : exec (.fscale m o) s = execFscale m o s := rfl
theorem exec_hadd2 (m : FMod) (o : Op2) (s : State) : exec (.hadd2 m o) s = execHadd2 m o s := rfl
theorem exec_hmul2 (m : FMod) (o : Op2) (s : State) : exec (.hmul2 m o) s = execHmul2 m o s := rfl
theorem exec_hfma2 (m : FMod) (o : Op3) (s : State) : exec (.hfma2 m o) s = execHfma2 m o s := rfl
theorem exec_hmin2 (m : FMod) (o : Op2) (s : State) : exec (.hmin2 m o) s = execHmin2 m o s := rfl
theorem exec_hmax2 (m : FMod) (o : Op2) (s : State) : exec (.hmax2 m o) s = execHmax2 m o s := rfl
theorem exec_hset2 (cmp : FCmp) (m : FMod) (o : Op2) (s : State) : exec (.hset2 cmp m o) s = execHset2 cmp m o s := rfl
theorem exec_hdot2 (m : FMod) (o : Op3) (s : State) : exec (.hdot2 m o) s = execHdot2 m o s := rfl
theorem exec_dadd (m : FMod) (o : Op2) (s : State) : exec (.dadd m o) s = execDadd m o s := rfl
theorem exec_dmul (m : FMod) (o : Op2) (s : State) : exec (.dmul m o) s = execDmul m o s := rfl
theorem exec_dfma (m : FMod) (o : Op3) (s : State) : exec (.dfma m o) s = execDfma m o s := rfl
theorem exec_dmin (m : FMod) (o : Op2) (s : State) : exec (.dmin m o) s = execDmin m o s := rfl
theorem exec_dmax (m : FMod) (o : Op2) (s : State) : exec (.dmax m o) s = execDmax m o s := rfl
theorem exec_dset (cmp : FCmp) (bop : BOp) (m : FMod) (o : OpCmp) (s : State) : exec (.dset cmp bop m o) s = execDset cmp bop m o s := rfl
theorem exec_f2i (rnd : Rnd) (sf : FFmt) (dt : ITy) (hi : Bool) (o : Op1) (s : State) : exec (.f2i rnd sf dt hi o) s = execF2i rnd sf dt hi o s := rfl
theorem exec_i2f (rnd : Rnd) (st : ITy) (df : FFmt) (o : Op1) (s : State) : exec (.i2f rnd st df o) s = execI2f rnd st df o s := rfl
theorem exec_f2f (rnd : Rnd) (sf df : FFmt) (hi : Bool) (o : Op1) (s : State) : exec (.f2f rnd sf df hi o) s = execF2f rnd sf df hi o s := rfl
theorem exec_i2i (st dt : ITy) (sat : Bool) (o : Op1) (s : State) : exec (.i2i st dt sat o) s = execI2i st dt sat o s := rfl
theorem exec_qpack (fmt : SxFmt) (sr pk : Bool) (ct : CtSel) (o : Op1) (s : State) : exec (.qpack fmt sr pk ct o) s = execQpack fmt sr pk ct o s := rfl
theorem exec_qunpk (fmt : SxFmt) (ct : CtSel) (o : Op3) (s : State) : exec (.qunpk fmt ct o) s = execQunpk fmt ct o s := rfl
theorem exec_qscal (mu : Bool) (sel : BitVec 2) (o : Op2) (s : State) : exec (.qscal mu sel o) s = execQscal mu sel o s := rfl
theorem exec_cmpld (kind : CmpKind) (tbl : BitVec 3) (h : Hdr) (a b : Src) (s : State) : exec (.cmpld kind tbl h a b) s = execCmpld kind tbl h a b s := rfl
theorem exec_ld (m : MemOp) (s : State) : exec (.ld m) s = execLd m s := rfl
theorem exec_st (m : MemOp) (s : State) : exec (.st m) s = execSt m s := rfl
theorem exec_atom (m : MemOp) (s : State) : exec (.atom m) s = execAtom m s := rfl
theorem exec_atomf (m : MemOp) (s : State) : exec (.atomf m) s = execAtomf m s := rfl
theorem exec_cas (m : MemOp) (s : State) : exec (.cas m) s = execCas m s := rfl
theorem exec_red (m : MemOp) (s : State) : exec (.red m) s = execRed m s := rfl
theorem exec_fence (m : MemOp) (s : State) : exec (.fence m) s = execFence m s := rfl
theorem exec_pref (m : MemOp) (s : State) : exec (.pref m) s = execPref m s := rfl
theorem exec_fewait (m : MemOp) (s : State) : exec (.fewait m) s = execFewait m s := rfl
theorem exec_feset (m : MemOp) (s : State) : exec (.feset m) s = execFeset m s := rfl
theorem exec_cctlL1 (m : MemOp) (s : State) : exec (.cctlL1 m) s = execCctlL1 m s := rfl
theorem exec_cctlL1all (m : MemOp) (s : State) : exec (.cctlL1all m) s = execCctlL1all m s := rfl
theorem exec_cctlIc (m : MemOp) (s : State) : exec (.cctlIc m) s = execCctlIc m s := rfl
theorem exec_cctlMap (m : MemOp) (s : State) : exec (.cctlMap m) s = execCctlMap m s := rfl
theorem exec_lodld (m : MemOp) (s : State) : exec (.lodld m) s = execLodld m s := rfl
theorem exec_vote (f : VoteForm) (h : Hdr) (pa : PSrc) (s : State) : exec (.vote f h pa) s = execVote f h pa s := rfl
theorem exec_xlane (mode : XMode) (seg : Fin 7) (o : Op2) (s : State) : exec (.xlane mode seg o) s = execXlane mode seg o s := rfl
theorem exec_qdiff (rnd : Rnd) (y crs : Bool) (o : Op1) (s : State) : exec (.qdiff rnd y crs o) s = execQdiff rnd y crs o s := rfl
theorem exec_gfold (op : FoldOp) (ty : FoldTy) (o : Op1) (s : State) : exec (.gfold op ty o) s = execGfold op ty o s := rfl
theorem exec_scan (op : FoldOp) (ty : FoldTy) (exc : Bool) (o : Op1) (s : State) : exec (.scan op ty exc o) s = execScan op ty exc o s := rfl
theorem exec_rdlane (o : Op2) (s : State) : exec (.rdlane o) s = execRdlane o s := rfl
theorem exec_matchLanes (cnt w : Bool) (o : Op1) (s : State) : exec (.matchLanes cnt w o) s = execMatchLanes cnt w o s := rfl
theorem exec_elect (h : Hdr) (pd : BitVec 3) (s : State) : exec (.elect h pd) s = execElect h pd s := rfl
theorem exec_barSync (h : Hdr) (a b : Src) (imm : Word) (s : State) : exec (.barSync h a b imm) s = execBarSync h a b imm s := rfl
theorem exec_barArrive (h : Hdr) (a b : Src) (imm : Word) (s : State) : exec (.barArrive h a b imm) s = execBarArrive h a b imm s := rfl
theorem exec_barWait (h : Hdr) (a : Src) (imm : Word) (s : State) : exec (.barWait h a imm) s = execBarWait h a imm s := rfl
theorem exec_trset (h : Hdr) (d : Spec) (a : Src) (recN : BitVec 6) (s : State) : exec (.trset h d a recN) s = execTrset h d a recN s := rfl
theorem exec_cpy (kind : CpyKind) (tr : Fin 3) (side : Bool) (o : CpyOp) (s : State) : exec (.cpy kind tr side o) s = execCpy kind tr side o s := rfl
theorem exec_cpys (kind : CpyKind) (tr : Fin 3) (side : Bool) (o : CpyOp) (s : State) : exec (.cpys kind tr side o) s = execCpys kind tr side o s := rfl
theorem exec_cpyg (kind : CpyKind) (o : CpyOp) (s : State) : exec (.cpyg kind o) s = execCpyg kind o s := rfl
theorem exec_coll (op : CollOp) (ty : FoldTy) (o : CpyOp) (s : State) : exec (.coll op ty o) s = execColl op ty o s := rfl
theorem exec_fillScr (o : CpyOp) (s : State) : exec (.fillScr o) s = execFillScr o s := rfl
theorem exec_fillMem (o : CpyOp) (s : State) : exec (.fillMem o) s = execFillMem o s := rfl
theorem exec_tclaim (acc : Bool) (h : Hdr) (pd : BitVec 3) (first : BitVec 8) (n : BitVec 9) (s : State) : exec (.tclaim acc h pd first n) s = execTclaim acc h pd first n s := rfl
theorem exec_trel (acc : Bool) (h : Hdr) (first : BitVec 8) (n : BitVec 9) (s : State) : exec (.trel acc h first n) s = execTrel acc h first n s := rfl
theorem exec_mslot (fmt : SlotFmt) (sp : Bool) (ct : CtSel) (h : Hdr) (a : Src) (slot : BitVec 8) (s : State) : exec (.mslot fmt sp ct h a slot) s = execMslot fmt sp ct h a slot s := rfl
theorem exec_mma (o : MmaOp) (s : State) : exec (.mma o) s = execMma o s := rfl
theorem exec_mmas (o : MmaOp) (s : State) : exec (.mmas o) s = execMmas o s := rfl
theorem exec_mzero (h : Hdr) (acc : BitVec 6) (s : State) : exec (.mzero h acc) s = execMzero h acc s := rfl
theorem exec_mrd (h : Hdr) (d : Spec) (b : Src) (acc : BitVec 6) (s : State) : exec (.mrd h d b acc) s = execMrd h d b acc s := rfl
theorem exec_mwr (h : Hdr) (a b : Src) (acc : BitVec 6) (s : State) : exec (.mwr h a b acc) s = execMwr h a b acc s := rfl
theorem exec_bnew (h : Hdr) (d : Spec) (a : Src) (s : State) : exec (.bnew h d a) s = execBnew h d a s := rfl
theorem exec_btrace (h : Hdr) (d : Spec) (a b c : Src) (mask : BitVec 8) (s : State) : exec (.btrace h d a b c mask) s = execBtrace h d a b c mask s := rfl
theorem exec_bfree (h : Hdr) (d : Spec) (a : Src) (s : State) : exec (.bfree h d a) s = execBfree h d a s := rfl
theorem exec_rtrace (first : Bool) (mask : BitVec 8) (h : Hdr) (d : Spec) (a b c : Src) (root : BitVec 8) (s : State) : exec (.rtrace first mask h d a b c root) s = execRtrace first mask h d a b c root s := rfl
theorem exec_rresume (sh cm : Bool) (h : Hdr) (d : Spec) (a b c : Src) (s : State) : exec (.rresume sh cm h d a b c) s = execRresume sh cm h d a b c s := rfl
theorem exec_tex (flt : TexFlt) (lodm : LodMode) (st : Bool) (o : TexOp) (s : State) : exec (.tex flt lodm st o) s = execTex flt lodm st o s := rfl
theorem exec_texg (comp : BitVec 2) (lodm : LodMode) (st : Bool) (o : TexOp) (s : State) : exec (.texg comp lodm st o) s = execTexg comp lodm st o s := rfl
theorem exec_texq (flt : TexFlt) (lodm : LodMode) (o : TexOp) (s : State) : exec (.texq flt lodm o) s = execTexq flt lodm o s := rfl
theorem exec_post (h : Hdr) (a : Src) (port : PortRef) (s : State) : exec (.post h a port) s = execPost h a port s := rfl
theorem exec_postn (h : Hdr) (d : Spec) (a : Src) (port : PortRef) (s : State) : exec (.postn h d a port) s = execPostn h d a port s := rfl
theorem exec_wait (pri : BitVec 3) (h : Hdr) (ports : WaitPorts) (s : State) : exec (.wait pri h ports) s = execWait pri h ports s := rfl
theorem exec_take (h : Hdr) (d : Spec) (pc : BitVec 3) (port : PortRef) (s : State) : exec (.take h d pc port) s = execTake h d pc port s := rfl
theorem exec_patset (h : Hdr) (d : Spec) (a b c : Src) (s : State) : exec (.patset h d a b c) s = execPatset h d a b c s := rfl
theorem exec_patclr (h : Hdr) (d : Spec) (a : Src) (s : State) : exec (.patclr h d a) s = execPatclr h d a s := rfl
theorem exec_portcfg (h : Hdr) (d : Spec) (a : Src) (port : PortRef) (c : Src) (s : State) : exec (.portcfg h d a port c) s = execPortcfg h d a port c s := rfl
theorem exec_launchCard (h : Hdr) (d : Spec) (a : Src) (s : State) : exec (.launchCard h d a) s = execLaunchCard h d a s := rfl
theorem exec_launchArm (h : Hdr) (d : Spec) (a b c : Src) (s : State) : exec (.launchArm h d a b c) s = execLaunchArm h d a b c s := rfl
theorem exec_launchSeal (h : Hdr) (d : Spec) (a : Src) (s : State) : exec (.launchSeal h d a) s = execLaunchSeal h d a s := rfl
theorem exec_cancel (cnt kill : Bool) (h : Hdr) (d : Spec) (a : Src) (s : State) : exec (.cancel cnt kill h d a) s = execCancel cnt kill h d a s := rfl
theorem exec_cntrd (cnt : Bool) (h : Hdr) (d : Spec) (a : Src) (s : State) : exec (.cntrd cnt h d a) s = execCntrd cnt h d a s := rfl
theorem exec_resumeRec (h : Hdr) (d : Spec) (a : Src) (s : State) : exec (.resumeRec h d a) s = execResumeRec h d a s := rfl
theorem exec_resumeLaunch (h : Hdr) (d : Spec) (a : Src) (s : State) : exec (.resumeLaunch h d a) s = execResumeLaunch h d a s := rfl
theorem exec_mfs (h : Hdr) (d : Spec) (num : BitVec 16) (s : State) : exec (.mfs h d num) s = execMfs h d num s := rfl
theorem exec_mts (h : Hdr) (a : Src) (num : BitVec 16) (s : State) : exec (.mts h a num) s = execMts h a num s := rfl
theorem exec_regclaim (h : Hdr) (n : BitVec 16) (s : State) : exec (.regclaim h n) s = execRegclaim h n s := rfl
theorem exec_reggive (h : Hdr) (n : BitVec 16) (s : State) : exec (.reggive h n) s = execReggive h n s := rfl
theorem exec_keyset (h : Hdr) (a : Src) (k : BitVec 5) (s : State) : exec (.keyset h a k) s = execKeyset h a k s := rfl
theorem exec_lineWaitRelease (uid grp lane : Nat) (s : State) : exec (.lineWaitRelease uid grp lane) s = execLineWaitRelease uid grp lane s := rfl
theorem exec_longLatencyComplete (uid grp k : Nat) (s : State) : exec (.longLatencyComplete uid grp k) s = execLongLatencyComplete uid grp k s := rfl
theorem exec_claimWaitServed (quad : Nat) (s : State) : exec (.claimWaitServed quad) s = execClaimWaitServed quad s := rfl
theorem exec_registerShortage (quad : Nat) (s : State) : exec (.registerShortage quad) s = execRegisterShortage quad s := rfl
theorem exec_teamSaveComplete (uid : Nat) (s : State) : exec (.teamSaveComplete uid) s = execTeamSaveComplete uid s := rfl
theorem exec_teamRestore (uid cluster : Nat) (s : State) : exec (.teamRestore uid cluster) s = execTeamRestore uid cluster s := rfl
theorem exec_convParklimit (uid grp lane : Nat) (s : State) : exec (.convParklimit uid grp lane) s = execConvParklimit uid grp lane s := rfl
theorem exec_barParklimit (uid grp : Nat) (s : State) : exec (.barParklimit uid grp) s = execBarParklimit uid grp s := rfl
theorem exec_fullEmptyParklimit (uid grp lane : Nat) (s : State) : exec (.fullEmptyParklimit uid grp lane) s = execFullEmptyParklimit uid grp lane s := rfl
theorem exec_postParklimit (uid grp lane : Nat) (s : State) : exec (.postParklimit uid grp lane) s = execPostParklimit uid grp lane s := rfl
theorem exec_waitParklimit (uid grp : Nat) (s : State) : exec (.waitParklimit uid grp) s = execWaitParklimit uid grp s := rfl
theorem exec_fullEmptySetServed (uid grp lane : Nat) (s : State) : exec (.fullEmptySetServed uid grp lane) s = execFullEmptySetServed uid grp lane s := rfl
theorem exec_postRetry (uid grp lane : Nat) (s : State) : exec (.postRetry uid grp lane) s = execPostRetry uid grp lane s := rfl
theorem exec_chunkDeal (stack : Nat) (s : State) : exec (.chunkDeal stack) s = execChunkDeal stack s := rfl
theorem exec_launchBlocking (stack launch : Nat) (s : State) : exec (.launchBlocking stack launch) s = execLaunchBlocking stack launch s := rfl
theorem exec_declaredOperandWalk (launch : Nat) (s : State) : exec (.declaredOperandWalk launch) s = execDeclaredOperandWalk launch s := rfl
theorem exec_levelCompletion (cnt : Bool) (id : Nat) (s : State) : exec (.levelCompletion cnt id) s = execLevelCompletion cnt id s := rfl
theorem exec_copyLineArrival (cmd line : Nat) (s : State) : exec (.copyLineArrival cmd line) s = execCopyLineArrival cmd line s := rfl
theorem exec_copyPageFault (cmd : Nat) (s : State) : exec (.copyPageFault cmd) s = execCopyPageFault cmd s := rfl
theorem exec_copyComplete (cmd : Nat) (s : State) : exec (.copyComplete cmd) s = execCopyComplete cmd s := rfl
theorem exec_collectiveStart (ctx cid : Nat) (s : State) : exec (.collectiveStart ctx cid) s = execCollectiveStart ctx cid s := rfl
theorem exec_collectiveTimeout (ctx cid : Nat) (s : State) : exec (.collectiveTimeout ctx cid) s = execCollectiveTimeout ctx cid s := rfl
theorem exec_collectiveComplete (cmd : Nat) (s : State) : exec (.collectiveComplete cmd) s = execCollectiveComplete cmd s := rfl
theorem exec_matrixEntryGrant (cluster : Nat) (s : State) : exec (.matrixEntryGrant cluster) s = execMatrixEntryGrant cluster s := rfl
theorem exec_matrixEntryAged (entry : Nat) (s : State) : exec (.matrixEntryAged entry) s = execMatrixEntryAged entry s := rfl
theorem exec_matrixEntryEnd (cluster : Nat) (s : State) : exec (.matrixEntryEnd cluster) s = execMatrixEntryEnd cluster s := rfl
theorem exec_governorWindow (cluster : Nat) (s : State) : exec (.governorWindow cluster) s = execGovernorWindow cluster s := rfl
theorem exec_governorAllowanceReached (cluster : Nat) (s : State) : exec (.governorAllowanceReached cluster) s = execGovernorAllowanceReached cluster s := rfl
theorem exec_beamRingLineWrite (trace : Nat) (s : State) : exec (.beamRingLineWrite trace) s = execBeamRingLineWrite trace s := rfl
theorem exec_beamTraceEnd (trace : Nat) (s : State) : exec (.beamTraceEnd trace) s = execBeamTraceEnd trace s := rfl
theorem exec_beamTracePagef (trace : Nat) (s : State) : exec (.beamTracePagef trace) s = execBeamTracePagef trace s := rfl
theorem exec_beamRingTimeout (trace : Nat) (s : State) : exec (.beamRingTimeout trace) s = execBeamRingTimeout trace s := rfl
theorem exec_rayTraversalEnd (trav : Nat) (s : State) : exec (.rayTraversalEnd trav) s = execRayTraversalEnd trav s := rfl
theorem exec_rayTraversalPagef (trav : Nat) (s : State) : exec (.rayTraversalPagef trav) s = execRayTraversalPagef trav s := rfl
theorem exec_mapLineExpiry (line : Nat) (s : State) : exec (.mapLineExpiry line) s = execMapLineExpiry line s := rfl
theorem exec_portArrival (k : Nat) (s : State) : exec (.portArrival k) s = execPortArrival k s := rfl
theorem exec_hostPortWrite (off size : Nat) (data : Dword) (s : State) : exec (.hostPortWrite off size data) s = execHostPortWrite off size data s := rfl
theorem exec_hostPortRead (off size : Nat) (s : State) : exec (.hostPortRead off size) s = execHostPortRead off size s := rfl
theorem exec_peerPostArrival (ctx : Nat) (port : BitVec 16) (msg : Dword) (s : State) : exec (.peerPostArrival ctx port msg) s = execPeerPostArrival ctx port msg s := rfl
theorem exec_hostBar4Read (off n : Nat) (s : State) : exec (.hostBar4Read off n) s = execHostBar4Read off n s := rfl
theorem exec_hostBar4Write (off : Nat) (data : Bytes) (s : State) : exec (.hostBar4Write off data) s = execHostBar4Write off data s := rfl
theorem exec_peerMemoryAccess (write : Bool) (pa n : Nat) (data : Bytes) (s : State) : exec (.peerMemoryAccess write pa n data) s = execPeerMemoryAccess write pa n data s := rfl
theorem exec_vsplitWrite (data : Word) (s : State) : exec (.vsplitWrite data) s = execVsplitWrite data s := rfl
theorem exec_vsplitResizeComplete (s : State) : exec .vsplitResizeComplete s = execVsplitResizeComplete s := rfl
theorem exec_mgovWrite (data : Word) (s : State) : exec (.mgovWrite data) s = execMgovWrite data s := rfl
theorem exec_mgovClearStalls (data : Word) (s : State) : exec (.mgovClearStalls data) s = execMgovClearStalls data s := rfl
theorem exec_pwstatClear (data : Word) (s : State) : exec (.pwstatClear data) s = execPwstatClear data s := rfl
theorem exec_tlbShootdownPage (data : Word) (s : State) : exec (.tlbShootdownPage data) s = execTlbShootdownPage data s := rfl
theorem exec_tlbShootdownRange (data : Word) (s : State) : exec (.tlbShootdownRange data) s = execTlbShootdownRange data s := rfl
theorem exec_tlbShootdownContext (data : Word) (s : State) : exec (.tlbShootdownContext data) s = execTlbShootdownContext data s := rfl
theorem exec_tlbShootdownAll (data : Word) (s : State) : exec (.tlbShootdownAll data) s = execTlbShootdownAll data s := rfl
theorem exec_tlbShootdownComplete (s : State) : exec .tlbShootdownComplete s = execTlbShootdownComplete s := rfl
theorem exec_hostResumeRec (data : Word) (s : State) : exec (.hostResumeRec data) s = execHostResumeRec data s := rfl
theorem exec_hostResumeLaunch (data : Word) (s : State) : exec (.hostResumeLaunch data) s = execHostResumeLaunch data s := rfl
theorem exec_contextCreate (data : Word) (s : State) : exec (.contextCreate data) s = execContextCreate data s := rfl
theorem exec_contextDestroy (data : Word) (s : State) : exec (.contextDestroy data) s = execContextDestroy data s := rfl
theorem exec_channelPreempt (chan : Nat) (data : Word) (s : State) : exec (.channelPreempt chan data) s = execChannelPreempt chan data s := rfl
theorem exec_preemptArrivalAtStack (chan stack : Nat) (s : State) : exec (.preemptArrivalAtStack chan stack) s = execPreemptArrivalAtStack chan stack s := rfl
theorem exec_drainLimitExpiry (chan stack : Nat) (s : State) : exec (.drainLimitExpiry chan stack) s = execDrainLimitExpiry chan stack s := rfl
theorem exec_channelRelease (chan : Nat) (data : Word) (s : State) : exec (.channelRelease chan data) s = execChannelRelease chan data s := rfl
theorem exec_feedbackClearDrops (ring : Nat) (data : Word) (s : State) : exec (.feedbackClearDrops ring data) s = execFeedbackClearDrops ring data s := rfl
theorem exec_headEnable (head : Nat) (data : Word) (s : State) : exec (.headEnable head data) s = execHeadEnable head data s := rfl
theorem exec_headLinkTrained (head : Nat) (s : State) : exec (.headLinkTrained head) s = execHeadLinkTrained head s := rfl
theorem exec_hbaseWrite (head : Nat) (data : Dword) (s : State) : exec (.hbaseWrite head data) s = execHbaseWrite head data s := rfl
theorem exec_verticalBlank (head : Nat) (s : State) : exec (.verticalBlank head) s = execVerticalBlank head s := rfl
theorem exec_hstatClear (head : Nat) (data : Word) (s : State) : exec (.hstatClear head data) s = execHstatClear head data s := rfl
theorem exec_cntclrGddr (s : State) : exec .cntclrGddr s = execCntclrGddr s := rfl
theorem exec_cntclrCore (s : State) : exec .cntclrCore s = execCntclrCore s := rfl
theorem exec_cntclrInteg (s : State) : exec .cntclrInteg s = execCntclrInteg s := rfl
theorem exec_vfPointWrite (domain point : Nat) (data : Word) (s : State) : exec (.vfPointWrite domain point data) s = execVfPointWrite domain point data s := rfl
theorem exec_soundingClear (unit : Nat) (data : Word) (s : State) : exec (.soundingClear unit data) s = execSoundingClear unit data s := rfl
theorem exec_soundingRun (unit : Nat) (data : Word) (s : State) : exec (.soundingRun unit data) s = execSoundingRun unit data s := rfl
theorem exec_soundingSample (unit : Nat) (x : Word) (s : State) : exec (.soundingSample unit x) s = execSoundingSample unit x s := rfl
theorem exec_registerWrite (off size : Nat) (data : Dword) (s : State) : exec (.registerWrite off size data) s = execRegisterWrite off size data s := rfl
theorem exec_powerOnReset (s : State) : exec .powerOnReset s = execPowerOnReset s := rfl
theorem exec_attestationRequest (nonce : Bytes) (s : State) : exec (.attestationRequest nonce) s = execAttestationRequest nonce s := rfl
theorem exec_doeDiscovery (index : Nat) (s : State) : exec (.doeDiscovery index) s = execDoeDiscovery index s := rfl
theorem exec_hostLinkTraining (cxl : Bool) (width rate : Nat) (s : State) : exec (.hostLinkTraining cxl width rate) s = execHostLinkTraining cxl width rate s := rfl
theorem exec_sensorRefresh (sensor : Nat) (value : BitVec 16) (s : State) : exec (.sensorRefresh sensor value) s = execSensorRefresh sensor value s := rfl
theorem exec_supplyDroop (s : State) : exec .supplyDroop s = execSupplyDroop s := rfl
theorem exec_powerGovernorUpdate (points : List Nat) (pcap power : Nat) (s : State) : exec (.powerGovernorUpdate points pcap power) s = execPowerGovernorUpdate points pcap power s := rfl
theorem exec_zwilerFlitCrcFail (link : Nat) (retrained : Bool) (s : State) : exec (.zwilerFlitCrcFail link retrained) s = execZwilerFlitCrcFail link retrained s := rfl
theorem exec_gddrTransferRetry (dev chan : Nat) (write : Bool) (failed : Option Nat) (s : State) : exec (.gddrTransferRetry dev chan write failed) s = execGddrTransferRetry dev chan write failed s := rfl
theorem exec_unassignedOpcodeIssue (h : Hdr) (op : BitVec 9) (s : State) : exec (.unassignedOpcodeIssue h op) s = execUnassignedOpcodeIssue h op s := rfl
theorem exec_commandAddressParityError (dev chan : Nat) (retrain : Bool) (s : State) : exec (.commandAddressParityError dev chan retrain) s = execCommandAddressParityError dev chan retrain s := rfl
theorem exec_scanOutRead (head x y : Nat) (late : Bool) (s : State) : exec (.scanOutRead head x y late) s = execScanOutRead head x y late s := rfl
theorem exec_hostManagedMemoryAccess (write : Bool) (pa n : Nat) (data : Bytes) (s : State) : exec (.hostManagedMemoryAccess write pa n data) s = execHostManagedMemoryAccess write pa n data s := rfl
theorem exec_contextDestroyComplete (s : State) : exec .contextDestroyComplete s = execContextDestroyComplete s := rfl
theorem exec_droopPassed (s : State) : exec .droopPassed s = execDroopPassed s := rfl

end Sys2Proof.Machine
end

