-- ==== Sys2Proof/Tests/Slice0.lean ====
section
/-! SUPPORT. Tests of the model: ill-formed terms that the checks refuse, words written out from the encoding tables, steps on
small states, and for each statement with hypotheses a state and operands that meet them. -/

set_option Elab.async false

namespace Sys2Proof.Tests

open Sys2Proof Sys2Proof.Machine

/-! ### A small machine: one team of one group with lanes 0 and 1 at a code line, its context and its page tables -/

def h0 : Hdr := ⟨7, false, .none⟩

def v (n : BitVec 7) : Src := ⟨.v n, false⟩
def sr (n : BitVec 6) : Src := ⟨.s n, false⟩
def k (n : Fin 31) : Src := ⟨.small n, false⟩
def z : Src := ⟨.zero, false⟩

/-- Lane n: v2 = 6, v3 = 5, v6:v7 = 0x10000, v8:v9 = 0x40000, v10 = 1.0, v12 = 128, v14:v15 = 0x6000. -/
def lane (n : Nat) : Lane :=
  { idx := n, pc := 0x10000, entry := .none, preds := 1
    v := [(2, 6), (3, 5), (6, 0x10000), (7, 0), (8, 0x40000), (9, 0), (10, 0x3F800000), (12, 128), (14, 0x6000), (15, 0)] }

def grp : Group := { idx := 0, lanes := [lane 0, lane 1], s := [(3, 1), (4, 3), (6, 0x8000)] }

def card : Card := { placedCard with scratch := 4, scrCols := 1, beamRec := 8 }

def team : Team := { placedTeam with card := card, groups := [grp] }

def iss : Issue := { uid := 1, grp := 0, pc := 0x10000, lanes := [0, 1], fa := 2, fb := 3, next := some nopWord }

def st0 : State :=
  { State.reset with
    dev := { ready := true, stage := 5 }
    mem := mwrite (mwriteN (placedTables.foldl (fun m e => mwriteN m e.1 (leBytes e.2 8)) []) placedPc (placedLine nopWord)) 0x6011 1
    ctxs := [(0, placedCtx)]
    ports := [(0, { depth := 4, act := .fault, hvis := true })]
    launches := [{ id := 1, ctx := 0, card := card, state := .running }]
    units := [team]
    nextUid := 2
    nextLaunch := 2
    cur := some iss }

def pk0 : Pk := { iss := iss, team := team, grp := grp }

/-- The instruction issues with its own effect in the packet of a state. -/
def issuesIn (s : State) (i : Instr) : Bool :=
  match pk? s, i.hdr with
  | some p, some h => p.issues i h (instrDst i) s
  | _, _ => false

theorem pk_st0 : pk? st0 = some pk0 := rfl

/-- The small machine with other lanes, and its packet. -/
def stL (ls : List Lane) (f : Team → Team := id) : State :=
  { st0 with units := [f { team with groups := [{ grp with lanes := ls }] }] }

def pkL (ls : List Lane) (f : Team → Team := id) : Pk := { iss := iss, team := f { team with groups := [{ grp with lanes := ls }] }, grp := { grp with lanes := ls } }

/-! ### Instructions that compute a result per lane -/

def o1 : Op1 := ⟨h0, .v 1, v 2, 0⟩
def o2 : Op2 := ⟨h0, .v 1, v 2, v 3, 0⟩
def o3 : Op3 := ⟨h0, .v 1, v 2, v 3, v 10, 0⟩
def d1 : Op1 := ⟨h0, .v 4, v 8, 0⟩
def d2 : Op2 := ⟨h0, .v 4, v 8, v 8, 0⟩
def d3 : Op3 := ⟨h0, .v 4, v 8, v 8, v 8, 0⟩
def w2 : Op2 := ⟨h0, .v 4, v 8, v 3, 0⟩
def w3 : Op3 := ⟨h0, .v 4, v 2, v 3, v 8, 0⟩
def oc : OpCmp := ⟨h0, 0, v 2, v 3, none, 0⟩
def dc : OpCmp := ⟨h0, 0, v 8, v 8, none, 0⟩
def fm : FMod := FMod.none

theorem witness_integer : ([.iadd .wrap o2, .iadd .unsigned o2, .iadd .signed o2, .isub .wrap o2, .isub .unsigned o2,
    .isub .signed o2, .iaddc 1 h0 (.v 1) (v 2) (v 3) ⟨false, 0⟩ 0, .imul o2, .imulh true o2, .imulh false o2, .imad o3,
    .imadw true w3, .imadw false w3, .imin true o2, .imax true o2, .imin false o2, .imax false o2, .iabs false o1, .iabs true o1,
    .idp4 false true false o3, .isad true o3, .isad false o3, .iadd64 d2, .isub64 d2, .lea 4 o2, .lea64 true 4 w2,
    .lea64 false 4 w2] : List Instr).all (issuesIn st0) = true := by decide +kernel

theorem witness_shift : ([.tern 0x96 o3, .shl false o2, .shr true o2, .sar false o2, .shf true false o3, .shf false true o3,
    .bfe true o2, .bfi o3, .popc o1, .clz o1, .brev o1, .byperm o3, .shl64 w2, .shr64 false w2, .shr64 true w2, .mov false o1,
    .mov true d1, .sel h0 (.v 1) (v 2) (v 3) ⟨false, 0⟩ 0] : List Instr).all (issuesIn st0) = true := by decide +kernel

theorem witness_lane_numbers : ∀ l ∈ pk0.grp.lanes, l.idx < 256 := by decide +kernel

theorem witness_predicate : ([.iset true .lt .and oc, .isetv true .lt o2, .fset .lt .and fm oc, .dset .lt .and fm dc,
    .ptern 0x80 h0 1 ⟨false, 0⟩ ⟨true, 0⟩ ⟨false, 7⟩, .p2v h0 (.v 1), .v2p h0 (v 2) (v 3) 0,
    .iaddc 1 h0 (.v 1) (v 2) (v 3) ⟨false, 0⟩ 0] : List Instr).all (issuesIn st0) = true := by decide +kernel

theorem witness_binary32 : ([.fadd fm o2, .fmul fm o2, .ffma fm o3, .fmin fm o2, .fmax fm o2, .fsetv .lt fm o2, .frnd fm o1,
    .fclass .f32 o1, .fclass .f64 ⟨h0, .v 1, v 8, 0⟩, .fscale fm o2] : List Instr).all (issuesIn st0) = true := by decide +kernel

theorem witness_half_double : ([.hadd2 fm o2, .hmul2 fm o2, .hfma2 fm o3, .hmin2 fm o2, .hmax2 fm o2, .hset2 .lt fm o2,
    .hdot2 fm o3, .dadd fm d2, .dmul fm d2, .dfma fm d3, .dmin fm d2, .dmax fm d2] : List Instr).all (issuesIn st0) = true := by
  decide +kernel

theorem witness_conversion : ([.f2i .rz .f32 .s32 false o1, .i2f .rn .s32 .f32 o1, .f2f .rn .f32 .f16 false o1,
    .i2i .s32 .s8 true o1] : List Instr).all (issuesIn st0) = true := by decide +kernel

theorem witness_group : ([.vote (.all 1) h0 ⟨false, 0⟩, .vote (.any 1) h0 ⟨false, 0⟩, .vote (.eq 1) h0 ⟨false, 0⟩,
    .vote (.ballot (.v 1) z 0) h0 ⟨false, 0⟩, .xlane .xor 0 o2, .qdiff .rn false false o1, .gfold .add .s32 o1,
    .scan .add .u32 false o1, .rdlane ⟨h0, .v 1, v 2, k 16, 0⟩, .matchLanes true false o1, .matchLanes false true ⟨h0, .v 1, v 8, 0⟩, .elect h0 1]
    : List Instr).all (issuesIn st0) = true := by decide +kernel

/-! ### Rounding and block formats -/

theorem witness_rounding : 0x3F800000 < 2 * fp32.signBit ∧ fp32.val 0x3F800000 = .fin false 0x800000 (-23) ∧ 0 < 1 := by
  decide +kernel

theorem witness_block : (st0.compander 0 (ctNum (.table 0) grp)).serves .sx7 = true
    ∧ ([.qpack .sx7 false false (.table 0) o1, .qpack .sx7 true false (.table 0) o1, .qunpk .sx7 (.table 0) o3,
      .qscal false 1 ⟨h0, .v 1, v 2, k 15, 0⟩, .cmpld .lin 0 h0 z z] : List Instr).all (issuesIn st0) = true
    ∧ pk0.lanes.head? = some (lane 0) ∧ pk0.x32 (lane 0) 0 (k 15) = 0 ∧ pk0.active h0 ≠ [] ∧ cmpldChk h0 .lin z z pk0 = [] := by
  decide +kernel

/-! ### Control -/

def jumps (i : Instr) (f : LaneAct) (ls : List Lane) (g : Team → Team := id) : Bool :=
  issuesIn (stL ls g) i && ((pkL ls g).transferTraps (stL ls g) h0 f).isEmpty

/-- Lanes with on-chip return entries and spilled ones. -/
def ret (n : Nat) (r : List Dword) (sp : Nat) : Lane := { lane n with rstack := r, spilled := sp }

def spillCard (t : Team) : Team := { t with card := { t.card with rsBase := 0x50000, rsSize := 64, rsTeams := 4 } }

theorem witness_transfers :
    jumps (.bra h0 0 1) (jumpTo fun p _ => directTarget p.iss.pc 0 1) [lane 0, lane 1] = true
    ∧ jumps (.brx h0 (v 6)) (jumpTo fun p l => p.read64 l 0 (.v 6)) [lane 0, lane 1] = true
    ∧ jumps (.call h0 0 4) (callTo (.call h0 0 4) fun p _ => directTarget p.iss.pc 0 4) [lane 0, lane 1] = true
    ∧ jumps (.callx h0 (v 6)) (callTo (.callx h0 (v 6)) fun p l => p.read64 l 0 (.v 6)) [ret 0 [1, 2, 3, 4] 7, lane 1] spillCard = true
    ∧ jumps (.ret h0) retLane [ret 0 [0x10001, 1] 0, ret 1 [0x10001] 0] = true := by decide +kernel

/-- A lane whose entries are all spilled: the spill area holds the PC 0x10001 in entry 0. -/
def stSpill : State :=
  let s := stL [ret 0 [] 1, ret 1 [0x10002] 1] spillCard
  { s with mem := mwriteN (mwriteN s.mem 0x50000 (leBytes 0x10001 8)) 0x50040 (leBytes 0x10003 8) }

theorem witness_ret_spilled : issuesIn stSpill (.ret h0) = true
    ∧ (pkL [ret 0 [] 1, ret 1 [0x10002] 1] spillCard).transferTraps stSpill h0 retLane = [] := by decide +kernel

theorem witness_transfer_check : pcMalformed 5 = true ∧ pcMalformed 4 = false ∧ pcMalformed 0x10000 = false
    ∧ (match (enterLine st0 0 0 0x10000).2 with
      | .ok _ => true
      | .error _ => false) = true
    ∧ (ret 0 [1, 2, 3, 4] 0).rstack.length ≥ 4 ∧ pk0.spillMisaligned = false ∧ pk0.spillCap ≤ (ret 0 [1, 2, 3, 4] 0).spilled
    ∧ canonical (nextPc pk0.iss.pc) = true
    ∧ (match (st0.target pk0 0 0x10001).2 with
      | .ok _ => true
      | .error _ => false) = true := by decide +kernel

def entryFault (s : State) (pc : Dword) : Option Cause :=
  match (enterLine s 0 0 pc).2 with
  | .ok _ => none
  | .error c => some c

/-- A line of odd parity, and a line in a page that is not there. -/
theorem witness_bad_lines : entryFault { st0 with mem := mwrite st0.mem 0x10000 1 } 0x10000 = some cILLINE
    ∧ entryFault st0 0x80000000 = some cPAGEF ∧ pcMalformed 0x80000000 = false := by decide +kernel

theorem witness_control : ([.nop h0, .yield h0, .exit h0, .conv h0, .trap h0 5, .bkpt h0] : List Instr).all (issuesIn st0) = true
    ∧ pk0.active ⟨7, true, .none⟩ = [] ∧ issuesIn st0 (.exit ⟨7, true, .none⟩) = true
    ∧ (∀ l ∈ pk0.grp.lanes, l ∈ pk0.active h0 ∧ l.pc = pk0.iss.pc) := by decide +kernel

theorem witness_conv_gathers : ∀ l ∈ pk0.grp.lanes, pk0.atConv h0 l ∧ l.pc = pk0.iss.pc := fun l hl =>
  ⟨.inl ((by decide +kernel : ∀ l ∈ pk0.grp.lanes, l ∈ pk0.active h0) l hl), (by decide +kernel : ∀ l ∈ pk0.grp.lanes, l.pc = pk0.iss.pc) l hl⟩

/-- Lane 1 stands elsewhere and is not in the packet. -/
def stOne : State := { st0 with cur := some { iss with lanes := [0] } }

theorem witness_conv_waits : issuesIn stOne (.conv h0) = true
    ∧ ∃ j ∈ grp.lanes, (∀ l ∈ ({ pk0 with iss := { iss with lanes := [0] } } : Pk).active h0, l.idx ≠ j.idx) ∧ j.park = none := by
  decide +kernel

theorem witness_conv_unparked : ∀ c, (lane 1).park ≠ some (.conv, c) := fun _ h => nomatch h

/-- Lane 1 has parked at a CONV in an earlier packet: at this one, or at another (R153, R154). -/
def convs (pc : Dword) : List Lane := [lane 0, { lane 1 with park := some (.conv, 0), pc := pc }]
def stConv (pc : Dword) : State := { stL (convs pc) with cur := some { iss with lanes := [0] } }
def pkConv (pc : Dword) : Pk := { pkL (convs pc) with iss := { iss with lanes := [0] } }

theorem witness_conv_joins : issuesIn (stConv 0x10000) (.conv h0) = true
    ∧ ∀ l ∈ (pkConv 0x10000).grp.lanes, (pkConv 0x10000).atConv h0 l ∧ l.pc = (pkConv 0x10000).iss.pc := by
  refine ⟨by decide +kernel, fun l hl => ?_⟩
  rcases List.mem_cons.mp hl with rfl | hl
  · exact ⟨.inl (by decide +kernel), rfl⟩
  · rw [List.mem_singleton.mp hl]; exact ⟨.inr ⟨by decide +kernel, 0, rfl⟩, rfl⟩

theorem witness_conv_differs : issuesIn (stConv 0x10002) (.conv h0) = true
    ∧ (∀ l ∈ (pkConv 0x10002).grp.lanes, (pkConv 0x10002).atConv h0 l) ∧ (pkConv 0x10002).grp.lanes.head? = some (lane 0)
    ∧ ∃ l ∈ (pkConv 0x10002).grp.lanes, l.pc ≠ (lane 0).pc := by
  refine ⟨by decide +kernel, fun l hl => ?_, rfl, by decide +kernel⟩
  rcases List.mem_cons.mp hl with rfl | hl
  · exact .inl (by decide +kernel)
  · rw [List.mem_singleton.mp hl]; exact .inr ⟨by decide +kernel, 0, rfl⟩

/-- IADD v1, v2, v3 as the next slot. -/
def addWord : BitVec 96 := 0x000000000000C00302010E20

def pkRep : Pk := { pk0 with iss := { iss with next := some addWord } }

def repMeets (n : Src) (N k : Nat) : Bool :=
  encFault (.rep h0 n 1 1) pkRep.iss == none && opGoverned (Raw.unpack addWord).op.toNat && repOk addWord 1 1 N
    && pkRep.lanes.all (fun l => l.inRep h0 && pkRep.repCount l n == N && l.rep == 0)
    && (match decode (repShift addWord 1 (k * 1)) with
      | .ok _ => true
      | .error _ => false)

theorem witness_rep : repMeets (k 17) 2 0 = true ∧ repMeets (k 15) 0 0 = true ∧ repOk addWord 1 1 127 = true
    ∧ repOk addWord 1 1 128 = false := by decide +kernel

/-! ### Barriers and special registers -/

/-- A team of two groups. -/
def team2 (b : Barrier) : Team :=
  { team with card := { card with groups := 2 }, groups := [grp, { grp with idx := 1, quad := 1 }], bars := [(1, b)] }

def stBar (b : Barrier) : State := { st0 with units := [team2 b] }
def pkBar (b : Barrier) : Pk := { pk0 with team := team2 b }

theorem witness_barrier :
    issuesIn st0 (.barSync h0 (k 16) (k 16) 0) = true ∧ pk0.active h0 ≠ [] ∧ barChk st0 h0 (k 16) (k 16) 0 pk0 = []
    ∧ pk0.uni 0 (.small 16) = 1 ∧ (st0.barrier 1 1).arr + 1 = pk0.uni 0 (.small 16) ∧ (st0.barrier 1 1).pend.contains 0 = false
    ∧ issuesIn (stBar {}) (.barSync h0 (k 16) (k 17) 0) = true ∧ barChk (stBar {}) h0 (k 16) (k 17) 0 (pkBar {}) = []
    ∧ issuesIn st0 (.barArrive h0 (k 16) (k 16) 0) = true ∧ issuesIn (stBar {}) (.barArrive h0 (k 16) (k 17) 0) = true := by
  decide +kernel

theorem witness_barrier_pending : let b : Barrier := { arr := 1, cnt := 2, pend := [0] }
    issuesIn (stBar b) (.barArrive h0 (k 16) (k 17) 0) = true ∧ barChk (stBar b) h0 (k 16) (k 17) 0 (pkBar b) = []
    ∧ ((stBar b).barrier 1 1).pend.contains 0 = true ∧ issuesIn (stBar b) (.barWait h0 (k 16) 0) = true
    ∧ issuesIn st0 (.barWait h0 (k 30) 0) = true ∧ pk0.uni 0 (.small 30) = 15 := by decide +kernel

/-- The counts 0, the first and the last of the groups, and the second of two; a `.sync` again. -/
theorem witness_barrier_counts : issuesIn (stBar {}) (.barSync h0 (k 16) z 0) = true ∧ issuesIn (stBar {}) (.barArrive h0 (k 16) z 0) = true
    ∧ barChk (stBar {}) h0 (k 16) z 0 (pkBar {}) = [] ∧ (pkBar {}).uni 0 .zero = 0
    ∧ (∃ g ∈ (pkBar {}).team.groups, g.lanes ≠ [] ∧ g.idx ≠ 0 ∧ ((stBar {}).barrier 1 1).pend.contains g.idx = false)
    ∧ (let b : Barrier := { arr := 1, cnt := 0, pend := [1] }
      issuesIn (stBar b) (.barSync h0 (k 16) z 0) = true ∧ barChk (stBar b) h0 (k 16) z 0 (pkBar b) = []
      ∧ ((stBar b).barrier 1 1).pend.contains 0 = false ∧ (∀ g ∈ (pkBar b).team.groups, g.idx = 0 ∨ g.idx ∈ ((stBar b).barrier 1 1).pend))
    ∧ (let b : Barrier := { arr := 1, cnt := 2, pend := [1] }
      issuesIn (stBar b) (.barSync h0 (k 16) (k 17) 0) = true ∧ (pkBar b).uni 0 (.small 17) = 2 ∧ ((stBar b).barrier 1 1).arr + 1 = 2
      ∧ barChk (stBar b) h0 (k 16) (k 17) 0 (pkBar b) = [])
    ∧ (let b : Barrier := { arr := 1, cnt := 2, pend := [0] }
      issuesIn (stBar b) (.barSync h0 (k 16) (k 17) 0) = true ∧ ((pkBar b).team.checkBarrier 1).2 = false) := by decide +kernel

def stFloor : State := stL [lane 0, lane 1] fun t => { t with groups := t.groups.map fun g => { g with floor := 2 } }

theorem witness_system :
    ([.mfs h0 (.v 1) 0, .mts h0 (sr 4) 0x10, .mts h0 (sr 4) 0x11, .mts h0 (sr 4) 0x18, .reggive h0 1, .regclaim h0 2,
      .keyset h0 (sr 4) 31] : List Instr).all (issuesIn stFloor) = true
    ∧ pk0.x32 (lane 0) 0 (sr 4) = 3 ∧ pk0.workers h0 ≠ [] ∧ stFloor.ctx? 0 ≠ none ∧ st0.canClaim grp pk0.place (claimSplit team grp 127).2 = true
    ∧ grp.floor + 127 ≤ card.regPeak ∧ (stFloor.group? 1 0).map (·.floor) = some 2 := by decide +kernel

theorem witness_frame : computes (.iadd .wrap o2) = true ∧ (Instr.iadd .wrap o2).hdr = some h0 ∧ issuesIn st0 (.iadd .wrap o2) = true
    ∧ (match exec (.iadd .wrap o2) st0 with
      | .next _ => true
      | _ => false) = true := by decide +kernel

theorem witness_fspec : issuesIn st0 (.fspec .rcp fm o1) = true := by decide +kernel

/-! ### Memory -/

/-- An access of each lane to its own word, in global memory from v8 up, in scratch from v12 up. -/
def mo (sp : Space) (d : Spec) (x : Src) : MemOp :=
  { h := h0, space := sp, width := .b32, order := .weak, scope := .grp, inv := false, fe := false, cache := 0, scale := 2, off := 0
    d := d, adr := if sp == .glb then v 8 else v 12, idx := ⟨.lane, false⟩, x := x }

/-- The bare form of R254. -/
def mBare (sp : Space) (c : BitVec 2) : MemOp := { mo sp .zero z with cache := c }

def mLod : MemOp := { mo .glb (.v 20) (v 16) with width := .b8, scale := 0, adr := v 14, idx := v 16 }

/-- An access issues, and no lane of it traps, whether it is performed at its issue or put off. -/
def accMeets (i : Instr) (m : MemOp) : Bool :=
  let off : State := { st0 with putOff := true }
  issuesIn st0 i && issuesIn off i && (pk0.accRuns st0 i m).2.2.isEmpty && (pk0.accPutOff off i m).2.2.isEmpty
    && (pk0.accPutOff off i m).2.1.length == 2

def mLd := mo .glb (.v 1) z
def mSt := mo .glb (.v 2) z
def mAt := mo .glb (.v 1) (v 2)

theorem witness_memory : accMeets (.ld mLd) mLd = true ∧ accMeets (.st mSt) mSt = true ∧ accMeets (.atom mAt) mAt = true
    ∧ accMeets (.atomf mAt) mAt = true := by decide +kernel

def mCas : MemOp := { mo .glb (.v 4) (v 2) with d := .v 4 }
def mRed := mo .glb (.v 2) z

theorem witness_memory_2 : accMeets (.cas mCas) mCas = true ∧ accMeets (.red mRed) mRed = true
    ∧ issuesIn st0 (.lodld mLod) = true ∧ (pk0.runs st0 (.lodld mLod) h0 (lodldLookup mLod).turn (pk0.active h0)).2.2 = []
    ∧ st0.hostLines = [] := by decide +kernel

theorem witness_memory_3 : ([.fence { mBare .glb 0 with adr := z, idx := z, scale := 0 }, .pref (mBare .glb 0), .cctlL1 (mBare .glb 0),
    .cctlL1all { mBare .glb 1 with adr := z, idx := z }, .cctlIc (mBare .glb 2), .cctlMap { mBare .glb 3 with scope := .dev }]
    : List Instr).all (issuesIn st0) = true := by decide +kernel

def isLoc (x : State × Except Trap Loc) (l : Loc) : Bool :=
  match x.2 with
  | .ok a => a == l
  | .error _ => false

theorem witness_location : isLoc (st0.locate pk0 0 .scr 0x3FFC 4 .store) (.scr 0x3FFC 4) = true
    ∧ team.scrOk 0x3FFC 4 = true ∧ team.scrOk 0x4000 4 = false ∧ (0x3FFD : Nat) % 4 ≠ 0
    ∧ canonical 0x0100000000000000 = false ∧ canonical 0x00FFFFFFFFFFFFFF = true
    ∧ card.lBase.toNat % 4 = 0 ∧ card.lSize.toNat % 4 = 0 ∧ card.lTeams.toNat ≤ team.team := by decide +kernel

theorem witness_root : st0.hostLines = [] ∧ st0.rootOk pk0.team.ctx := ⟨rfl, fun x h => by
  have e : st0.ctx? pk0.team.ctx = some placedCtx := rfl
  rw [e] at h; injection h with h; subst h; rfl⟩

/-- A local area of 64 bytes a lane, which an access at 56 of 16 bytes leaves. -/
theorem witness_local : (let c : Card := { card with lBase := 0x50000, lSize := 64, lTeams := 1 }
      c.lBase.toNat % 4 = 0 ∧ c.lSize.toNat % 4 = 0 ∧ c.lSize.toNat < 64 + 16 ∧ c.lSize.toNat ≤ 64 ∧ ({ c with lSize := 56 } : Card).lSize.toNat < 48 + 16)
    ∧ 48 % 16 = 0 ∧ (16 : Nat) ∈ [1, 2, 4, 8, 16] := by decide +kernel

/-- A lane's effect succeeds, at the place that the access names. -/
def laneRuns (i : Instr) (m : MemOp) (l : Lane) : Bool :=
  (match (st0.locate pk0 l.idx m.space (pk0.ea l m) m.width.bytes (accKindOf i)).2 with
    | .ok (.mem ps) => ps.length == 1
    | _ => false)
  && (match (accLane i m st0 pk0 l).2 with
    | .ok _ => true
    | .error _ => false)

theorem witness_loads_and_stores : laneRuns (.ld mLd) mLd (lane 0) = true ∧ mLd.inv = false ∧ mLd.cache = 0
    ∧ laneRuns (.ld { mLd with cache := 2 }) { mLd with cache := 2 } (lane 0) = true
    ∧ laneRuns (.st mSt) mSt (lane 1) = true ∧ laneRuns (.st mSt) mSt { lane 1 with helper := true } = true := by decide +kernel

/-- Lane 1 has written a word in its second region, and lane 0 has seen only its first. -/
def racer : Thread := { tid := .lane 1 0 1, num := 1, region := 2 }
def wrote : Acc := { word := .mem 0x10000, tid := .lane 1 0 1, num := 1, region := 2, write := true, strong := none }
def raceR : Race := { threads := [{ tid := .lane 1 0 0, num := 2, clk := [(1, 1)] }, racer], nextNum := 3, log := [wrote] }
def locR : Loc := .mem [({ pa := 0x40000, mt := 0, poi := false }, 4, 0x40000)]
def loadR : AccKind := { read := true, write := false }

theorem witness_conflict : raceR.conflict (.mem 0x10000) (pk0.tid 0) false none wrote :=
  ⟨by decide, by decide, .inl rfl, (fun _ _ h _ => by cases h), by decide, racer, by decide, by decide⟩

theorem witness_race : (({ st0 with race := raceR } : State).raceAdmit pk0 0 locR loadR).2.map (·.cause) = some cMMX
    ∧ (st0.raceAdmit pk0 0 locR loadR).2 = none ∧ loadR.strong = none ∧ ((locR.covered 1).map (·.1)).eraseDups = [.mem 0x10000]
    ∧ wrote.region ≤ (raceR.thread (.lane 1 0 1)).region ∧ inHolds none (.lane 1 0 0) = true
    ∧ (raceR.engine [.mem 0x10000] (.engine 9 1 0) false).2 = [(.mem 0x10000, wrote)] := by decide +kernel

theorem witness_atomic : laneRuns (.atom mAt) mAt (lane 0) = true
    ∧ (atomFn (.atom mAt) 6 0 7).1 = some 13 ∧ (atomFn (.cas mCas) 6 5 7).1 = none
    ∧ laneRuns (.cas mCas) mCas (lane 0) = true
    ∧ laneRuns (.atom mAt) mAt { lane 0 with helper := true } = true := by decide +kernel

theorem test_atomic_max_signed : atomOp 3 4 0xFFFFFFFF 1 = 1 ∧ atomOp 5 4 0xFFFFFFFF 1 = 0xFFFFFFFF := by decide +kernel

def mScr (d : Spec) (x : Src) (fe : Bool) : MemOp := { mo .scr d x with fe := fe }

def feMeets (s : State) (i : Instr) (m : MemOp) (kd : AKind) : Bool :=
  issuesIn s i && ((s.issued pk0 m.h (instrDst i)).feLocate pk0 m kd (pk0.active m.h)).2.2.isEmpty
    && (pk0.feRuns s i m kd (pk0.active m.h)).2.1.traps.isEmpty && (pk0.feRuns s i m kd (pk0.active m.h)).2.2.isEmpty

/-- Line 1 of the team's scratch is empty. -/
def teamE : Team := { team with scr := { emptyLines := [1] } }
def stE : State := { st0 with units := [teamE] }
def pkE : Pk := { pk0 with team := teamE }

theorem witness_full_empty : feMeets st0 (.ld (mScr (.v 1) z false)) (mScr (.v 1) z false) .load = true
    ∧ feMeets st0 (.fewait (mScr .zero z false)) (mScr .zero z false) .load = true
    ∧ feMeets st0 (.feset (mScr .zero z false)) (mScr .zero z false) .store = true
    ∧ (issuesIn stE (.st (mScr (.v 2) z true)) && (pkE.feRuns stE (.st (mScr (.v 2) z true)) (mScr (.v 2) z true) .store
        (pkE.active h0)).2.2.isEmpty) = true := by decide +kernel

def feOk (x : State × Option FeOut) : Bool :=
  match x.2 with
  | some o => o.served != []
  | none => false

theorem witness_full_empty_sets : (feOpOf (.ld (mScr (.v 1) z true))).need = some true ∧ stE.lineFull 1 (128 / 128) = false
    ∧ (feOpOf (.ld (mScr (.v 1) z true))).leaves = some false ∧ (feOpOf (.fewait (mScr .zero z false))).leaves = none
    ∧ feOk (st0.feSet pk0 (.ld (mScr (.v 1) z true)) (mScr (.v 1) z true) [(0, 128, 0)]) = true
    ∧ feOk (st0.feSet pk0 (.fewait (mScr .zero z false)) (mScr .zero z false) [(0, 128, 0)]) = true := by decide +kernel

/-- Five tables that map page 0 to page 0. -/
def stWalk : State :=
  let tables : List (Nat × Nat) := [(0x1000, 0x2009), (0x2000, 0x3009), (0x3000, 0x4009), (0x4000, 0x5009), (0x5000, 0x1F)]
  { st0 with mem := tables.foldl (fun m e => mwriteN m e.1 (leBytes e.2 8)) [] }

theorem witness_walk : stWalk.ctx? 0 = some placedCtx
    ∧ [placedCtx.root, 0x2000, 0x3000, 0x4000, 0x5000].map (fun a => leNat (stWalk.readPa (a + 8 * 0) 8))
      = [0x2009, 0x3009, 0x4009, 0x5009, 0x1F]
    ∧ (∀ e ∈ [0x2009, 0x3009, 0x4009, 0x5009], ptV e = true ∧ ptL e = false ∧ ptA e = true)
    ∧ ptV 0x1F = true ∧ ptA 0x1F = true ∧ leafOk 0x1F 0 = true
    ∧ paKey stWalk (ptPPN 0x2009 * 4096) = some 0x2000 ∧ paKey stWalk (ptPPN 0x5009 * 4096) = some 0x5000
    ∧ (∀ t ∈ [0x5000, 0x4000, 0x3000, 0x2000], paLocal t = true) := by decide +kernel

/-- What a walk finds: 0 no page, 1 a denied one, 2 a leaf. -/
def found (w : Walk) : Nat :=
  match w with
  | .absent _ => 0
  | .prot => 1
  | .leaf .. => 2

/-- The entries of the small machine: the first three tables and the leaf of a GiB; an entry with V = 0 beside them; one with a set
reserved bit; one that names no memory of this device. -/
def stEnts : State := { st0 with mem := [(0x5000, 0x81F), (0x5008, 0x1E00000009)].foldl (fun m e => mwriteN m e.1 (leBytes e.2 8)) st0.mem }

def entAt (a : Nat) : Nat := leNat (stEnts.readPa a 8)

theorem witness_walk_entries : stEnts.flaw = [] ∧ ptV (entAt (0x1000 + 8 * vaIndex (2 ^ 48) 4)) = false
    ∧ (ptV (entAt (0x3000 + 8 * vaIndex 0 2)) = true ∧ ptL (entAt (0x3000 + 8 * vaIndex 0 2)) = true
      ∧ leafOk (entAt (0x3000 + 8 * vaIndex 0 2)) 2 = true)
    ∧ (ptV (entAt (0x5000 + 8 * vaIndex 0 0)) = true ∧ ptL (entAt (0x5000 + 8 * vaIndex 0 0)) = false
      ∧ nbits (entAt (0x5000 + 8 * vaIndex 0 0)) 11 9 ≠ 0)
    ∧ (ptV (entAt (0x1000 + 8 * vaIndex 0 4)) = true ∧ ptL (entAt (0x1000 + 8 * vaIndex 0 4)) = false
      ∧ paKey stEnts (ptPPN (entAt (0x1000 + 8 * vaIndex 0 4)) * 4096) = some 0x2000 ∧ paLocal 0x2000 = true)
    ∧ (ptV (entAt (0x5000 + 8 * vaIndex 4096 0)) = true ∧ ptL (entAt (0x5000 + 8 * vaIndex 4096 0)) = false
      ∧ vaIndex 4096 0 = vaIndex (2 ^ 21) 1 ∧ ownPa stEnts (ptPPN (entAt (0x5000 + 8 * vaIndex (2 ^ 21) 1)) * 4096) = false) := by
  decide +kernel

/-- A leaf of page 0x40 stands in the cache of user 0, one of page 0x50 with W = 1 and D = 0. -/
def stHit : State := { st0 with tlb := [⟨0, 0, 0, 0x40, true, 0x1F⟩, ⟨0, 0, 0, 0x50, true, 0x0F⟩] }

def hits (va : Nat) (x : TlbE) : Bool := x.user == 0 && x.leaf && (x.ctx == 0 || ptG x.ent.toNat) && x.tag == vaTag va x.level

theorem witness_cached_leaf : stHit.tlb.filter (hits 0x40000) = [⟨0, 0, 0, 0x40, true, 0x1F⟩]
    ∧ stHit.tlb.filter (hits 0x50000) = [⟨0, 0, 0, 0x50, true, 0x0F⟩] ∧ ptD 0x1F = true ∧ ptW 0x0F = true ∧ ptD 0x0F = false := by
  decide +kernel

/-- Where an access of the small machine leads: 0 to a place, else to a cause. -/
def leads (s : State) (keys : Dword) (k : AKind) (va : Dword) : Nat :=
  match (place s none 0 keys k va).2 with
  | .ok _ => 0
  | .error c => c

/-- Page 0x5000 may be read only; the context's keys 0 deny reads. -/
theorem witness_place : leads st0 0 .load 0x40000 = 0 ∧ leads st0 1 .load 0x40000 = cPKEYF
    ∧ leads st0 0 .load 0x80000000 = cPAGEF ∧ leads st0 0 .load 0x0100000000000000 = cPROT
    ∧ leads { stWalk with mem := mwrite stWalk.mem 0x5000 0x0D } 0 .store 0 = cPROT
    ∧ found (translate st0 none 0 0x40000 false).2 = 2 ∧ found (translate st0 none 0 0x80000000 false).2 = 0
    ∧ found (translate { stWalk with mem := mwrite stWalk.mem 0x5001 8 } none 0 0 false).2 = 1
    ∧ (translate st0 none 0 0x40000 false).1.hostLines = [] := by decide +kernel

/-! ### Copies and collectives -/

/-- A record of four 1-byte elements at 0x40000. -/
def rec1 : Bytes := leBytes 0x40000 8 ++ leBytes 0x100 4 ++ leBytes 0xAB 4 ++ leBytes 4 4 ++ leBytes 1 4 ++ leBytes 1 4 ++ leBytes 1 4
  ++ leBytes 1 4 ++ leBytes 3 8 ++ leBytes 0 20

/-- Collective 7 of two participants: 4 bytes from 0x40000 to 0x50000. -/
def coll1 (rank : Nat) : Bytes := leBytes 7 4 ++ leBytes 2 2 ++ leBytes rank 2 ++ leBytes 0x40000 8 ++ leBytes 0x50000 8 ++ leBytes 4 4
  ++ leBytes 0 36

/-- The team holds the record, an operand slot and an accumulator; memory holds the descriptors at 0x6040 and 0x6080. -/
def teamR : Team := { team with recs := [(0, rec1)], ops := [(0, {}), (1, { gid := 1, sp := true }), (2, {})], accs := [(0, {})] }

def laneR (n : Nat) : Lane := { lane n with v := [(4, 0), (5, 0), (6, 0), (7, 0), (14, 0x6040), (15, 0), (16, 0x6080), (17, 0)] }

def grpR : Group := { grp with lanes := [laneR 0, laneR 1], s := [(3, 1), (10, 0x6040), (11, 0), (12, 0x6080), (13, 0)] }

def stR : State :=
  { st0 with
    units := [{ teamR with groups := [grpR] }]
    mem := mwriteN (mwriteN st0.mem 0x6040 rec1) 0x6080 (coll1 0) }

def pkR : Pk := { iss := iss, team := { teamR with groups := [grpR] }, grp := grpR }

def co (a b c : Src) : CpyOp := ⟨h0, .zero, a, b, c, ⟨true, 3, 0⟩⟩

def queuesIn (i : Instr) (o : CpyOp) (chk : Pk → CmdCheck) : Bool :=
  issuesIn stR i && (pkR.workers o.h).length == 2 && (cmdTraps o.h o.im.recN.toNat chk true pkR).isEmpty
    && (cmdTraps o.h o.im.recN.toNat chk false pkR).isEmpty

/-- A box to the last 16 bytes of the scratch window; boxes to a slot and from an accumulator; rows; fills of no byte and of
2 ^ 14 bytes. -/
theorem witness_copy : pk? stR = some pkR
    ∧ (let o : CpyOp := co (sr 20) z z
      queuesIn (.cpy .scr 1 false o) o (fun p => { opd := trBad p o 1, spots := [(cpySpot .scr false (p.uniform o.c), p.boxOf o)] }) = true
      ∧ queuesIn (.cpy .slot 0 true o) o (fun p => { opd := trBad p o 0, spots := [(cpySpot .slot true (p.uniform o.c), p.boxOf o)] }) = true
      ∧ queuesIn (.cpys .acc 0 false o) o (fun p => { opd := trBad p o 0, spots := [(cpySpot .acc false (p.uniform o.c), p.boxOf o)] }) = true
      ∧ queuesIn (.fillMem o) o (fun _ => {}) = true) := by decide +kernel

def rows (p : Pk) (o : CpyOp) : Nat :=
  if (tget p.team.recs o.im.recN.toNat).isSome then p.uniform o.b * at5 (p.trec o).box 0 * (p.trec o).n else 0

def rowChk (o : CpyOp) (p : Pk) : CmdCheck :=
  { opd := p.uniform o.b > 4096, spots := [(.scr (p.uniform o.a), 4 * p.uniform o.b), (cpySpot .scr false (p.uniform o.c), rows p o)] }

def fillChk (o : CpyOp) (p : Pk) : CmdCheck :=
  { opd := p.uniform o.b > 2 ^ 22, spots := [(.scr (p.uniform o.c), p.uniform o.b)], needRec := false }

theorem witness_copy_rows : (let o : CpyOp := co z (k 16) z
      queuesIn (.cpyg .scr o) o (rowChk o) = true ∧ queuesIn (.fillScr o) o (fillChk o) = true) := by decide +kernel

def readOf (a : Src) (s : State) : ReadOut := ((s.issued pkR h0 []).laneRead pkR 0 (pkR.read64 (laneR 0) 0 a.spec) 64 64).2

def readBytes (a : Src) : Bytes :=
  match readOf a stR with
  | .ok b => b
  | _ => []

theorem witness_trset : ([.trset h0 (.v 1) (sr 10) 63, .trset h0 .zero (sr 12) 0, .trset h0 (.v 1) (k 16) 0] : List Instr).all
      (issuesIn stR) = true
    ∧ readBytes (sr 10) = rec1 ∧ recValid rec1 = true ∧ readBytes (sr 12) = coll1 0 ∧ recValid (coll1 0) = false := by
  decide +kernel

theorem witness_coll : issuesIn stR (.coll .sum .u32 (co (sr 12) z z)) = true ∧ collValid (coll1 0) = true ∧ coll1 0 ≠ []
    ∧ readBytes (sr 12) = coll1 0 ∧ grpR.idx = card.producer ∧ stR.collsFull 0 (stackOf grpR.core) 7 = false := by decide +kernel

theorem test_box : (TRec.of rec1).box = [4, 1, 1, 1, 1] ∧ elemVa (TRec.of rec1) [-1, 0, 0, 0, 0] [0, 0, 0, 0, 0] = none
    ∧ elemVa (TRec.of rec1) [-1, 0, 0, 0, 0] [1, 0, 0, 0, 0] = some 0x40000
    ∧ elemVa (TRec.of rec1) [1, 0, 0, 0, 0] [3, 0, 0, 0, 0] = none
    ∧ elemVa (TRec.of rec1) [-1, 0, 0, 0, 0] (boxIndex (TRec.of rec1) 0 0) = none ∧ 0 < (TRec.of rec1).n := by decide +kernel

/-- Commands of the team: a box to scratch line 0, a scratch fill of bytes 16 to 47, and the participants of a collective. -/
def cmd (n : Nat) (kind : CmdKind) : Cmd :=
  { id := n, uid := 1, grp := 0, lane := 0, pc := 0x10000, core := 0, kind := kind, desc := rec1 }

def cCpy : Cmd := { cmd 5 (.cpy .scr 0 false [0, 0, 0, 0, 0] 0) with port := some 3 }
def cAway : Cmd := { cmd 6 (.cpy .scr 0 false [0, 0, 0, 0, 0] 0) with desc := leBytes 0x80000000 8 ++ rec1.drop 8 }
def cFill : Cmd := cmd 7 (.fillScr 0x04030201 32 16)
def cColl (n : Nat) (op : CollOp) (rank : Nat) : Cmd := { cmd n (.coll op .u32 (coll1 rank)) with state := .collWait, since := 0 }

def stC (l : List Cmd) : State := { stR with cmds := l, nextId := 20, svc := 10, mem := mwriteN stR.mem 0x40000 [1, 2, 3, 4] }

def pieceOk (s : State) (c : Cmd) (line : Nat) : Bool := (runPiece s c line).2.isNone

theorem witness_copy_events : (let s : State := stC [cCpy, cAway]
      s.cmd? 5 = some cCpy ∧ 0 ∈ cCpy.left
      ∧ (s.moving cCpy).map (fun s₁ => (pieceOk s₁ cCpy 0, (runPieces s₁ 5 cCpy.left).2)) = some (true, none)
      ∧ (s.moving cAway).map (fun s₁ => (runPieces s₁ 6 cAway.left).2) = some (some (cPAGEF, 0x80000000))
      ∧ (s.cmds.filter fun o => o.state == .parked && clusterOf o.core == clusterOf cAway.core).length < 256
      ∧ (s.team? cAway.uid).map (·.kill) = some false)
    ∧ cCpy.kind.dst = some (.scr 0) ∧ cCpy.port = some 3 ∧ cFill.port = none := by decide +kernel

theorem witness_scratch_fill : (let s : State := stC [cFill]
      s.team? 1 = some pkR.team ∧ pkR.team.state = .running ∧ 0 ∈ scrLines 16 32 ∧ pieceOk s cFill 0 = true
      ∧ max (0 * 128) 16 + 31 < min ((0 + 1) * 128) (16 + 32)) := by decide +kernel

theorem test_scratch_fill : ((runPiece (stC [cFill]) cFill 0).1.team? 1).map (fun t => mreadN t.scr.bytes 15 6)
    = some [0, 1, 2, 3, 4, 1] := by decide +kernel

def partsOf (s : State) : Option (List Part × Bool) := startSet (s.parts 0 7)

def agree (s : State) : Option Bool := (partsOf s).map (·.2)

def readsOk (s : State) : Bool :=
  match partsOf s with
  | some (ps, true) => match (readParts s ps).2 with
    | .ok l => (l.filterMap (·.cmd)).map (·.id) == [8, 9] && l.all (·.data.isSome) && (ps.filterMap (·.cmd)).all (·.state != .parked)
    | .error _ => false
  | _ => false

theorem witness_collective : agree (stC [cColl 8 .sum 0, cColl 9 .sum 1]) = some true
    ∧ readsOk (stC [cColl 8 .sum 0, cColl 9 .sum 1]) = true
    ∧ agree (stC [cColl 8 .sum 0, cColl 9 .max 1]) = some false ∧ agree (stC [cColl 8 .sum 0, cColl 9 .sum 0]) = some false
    ∧ agree (stC [cColl 8 .sum 0]) = none := by decide +kernel

def cDone : Cmd := { cColl 8 .sum 0 with result := some [(1, false), (2, false), (3, false), (4, false)] }

theorem witness_collective_end : (stC [cDone]).cmd? 8 = some cDone ∧ cDone.status.getLsbD 4 = false
    ∧ (collWrite (stC [cDone]) cDone (CollDesc.of (coll1 0)) [(1, false), (2, false), (3, false), (4, false)]).2 = none
    ∧ ({ cDone with status := 16 } : Cmd).status.getLsbD 4 = true := by decide +kernel

/-- A context whose park limit is 5 (its descriptor stands at 0x8000). -/
def stLim (s : State) : State := { s with mem := mwrite s.mem 0x802C 5 }

theorem witness_collective_timeout : agree (stLim (stC [cColl 8 .sum 0])) = none
    ∧ ((stLim (stC [cColl 8 .sum 0])).parts 0 7).length = 1 ∧ (stLim (stC [cColl 8 .sum 0])).pastLimit 0 ((stLim (stC [cColl 8 .sum 0])).stackCyc (stackOf (cColl 8 .sum 0).core) - 0) = true := by
  decide +kernel

/-! ### The matrix engine -/

theorem witness_slots : ([.tclaim false h0 0 16 240, .tclaim true h0 7 1 63, .trel false h0 0 3, .trel true h0 0 1,
      .mslot .sx7 false (.table 0) h0 (k 15) 0] : List Instr).all (issuesIn stR) = true
    ∧ pkR.workers h0 ≠ [] ∧ (∀ j, j < 240 → pkR.team.claimed false (16 + j) = false) ∧ (∀ j, j < 63 → pkR.team.claimed true (1 + j) = false)
    ∧ (∀ j, j < 3 → pkR.team.claimed false j = true) ∧ pkR.team.claimed true 0 = true
    ∧ (stR.compander 0 (ctNum (.table 0) grpR)).serves .sx7 = true ∧ tget pkR.team.ops 0 = some {}
    ∧ pkR.lanes.head? = some (laneR 0) := by decide +kernel

def mo1 : MmaOp := ⟨h0, v 4, v 8, 0, 0, 2, 0, 0⟩
def mo2 : MmaOp := { mo1 with aslot := 1, bslot := 2 }

def teamS : Team := { pkR.team with ops := [(0, {}), (1, { sp := true }), (2, {}), (3, {})] }
def stS : State := { stR with units := [teamS] }

theorem witness_matrix : ([.mma mo1, .mmas mo2, .mzero h0 0, .mrd h0 (.v 4) (k 30) 0, .mwr h0 (v 4) (k 30) 0]
      : List Instr).all (issuesIn stS) = true
    ∧ mmaScaleBad false mo1 teamS = false ∧ mmaBad false mo1 teamS = false ∧ mmaScaleBad true mo2 teamS = false
    ∧ mmaBad true mo2 teamS = false ∧ ({ pkR with team := teamS } : Pk).uniform (k 30) = 15 ∧ teamS.claimed true 0 = true := by
  decide +kernel

def ent (kind : MatKind) (granted : Bool) (left : Nat) : MatEntry :=
  { id := 11, uid := 1, grp := 0, lane := 0, pc := 0x10000, flag := none, kind := kind, posted := 0, granted := granted, left := left }

def stM (e : MatEntry) : State := { stR with matrix := [e], svc := 5000 }

def pass : MatKind := .mma false 0 2 0 .sx7 0 0 0 0 [] []

theorem witness_accumulator : (let e := ent (.write 0 15 [(255, 3, 0x3F800000)]) false 0
      (stM e).team? e.uid = some pkR.team ∧ pkR.team.slotFor true 0 e.id = some {})
    ∧ bandWord 15 255 3 = 128 * 127 + 127
    ∧ (let e := ent (.read 0 0 (some 4) [0, 1] []) false 0
      (stM e).matrix.find? (·.id == e.id) = some e) := by decide +kernel

theorem test_accumulator_write : (((stM (ent (.zero 0) false 0)).runEntry pkR.team (ent (.write 0 1 [(2, 1, 0x3F800000)]) true 1)).team? 1).map
    (fun t => ((t.slotFor true 0 11).map fun x => mreadN x.bytes (4 * (128 * 10 + 2)) 4)) = some (some [0, 0, 0x80, 0x3F]) := by
  decide +kernel

theorem witness_matrix_events : (let s := stM (ent (.zero 0) false 0)
      s.granted 0 = none ∧ (s.govSync 0).pickEntry 0 = some (ent (.zero 0) false 0) ∧ (s.govSync 0).team? 1 = some pkR.team
      ∧ 4096 < s.unitCyc 1 - (ent (.zero 0) false 0).posted)
    ∧ (let s := stM (ent (.zero 0) true 0)
      (s.govSync 0).granted 0 = some (ent (.zero 0) true 0)) := by decide +kernel

/-- The allowance of window 0 is used up. -/
def stUp (e : MatEntry) : State := { stM e with govs := [(0, { u := 64, e := 64 })] }

theorem witness_governor : (let s' := (stUp (ent pass true 9)).govSync 0
      (s'.gov 0).e ≤ (s'.gov 0).u ∧ (s'.gov 0).stalled = false ∧ s'.granted 0 = some (ent pass true 9) ∧ pass.isPass = true)
    ∧ (let s' := (stUp (ent pass false 9)).govSync 0
      (s'.gov 0).e ≤ (s'.gov 0).u ∧ (s'.gov 0).stalled = false ∧ s'.granted 0 = none ∧ s'.passWaits 0 = true) := by decide +kernel

/-! ### Textures, beams and rays -/

def f1 : Nat := 0x3F800000

/-- A parallel beam along z over pixel (0, 0), depths 0 to 1, with its root at an address. -/
def beamImg (root : Nat) : Bytes :=
  leBytes 0x00010001 4 ++ leBytes 0 12 ++ [0, 0, f1, 0, 0, 0, f1, 0, 0, 0, f1, 0].flatMap (leBytes · 4) ++ leBytes 0 16
    ++ leBytes 0 4 ++ leBytes f1 4 ++ leBytes root 8 ++ leBytes 0 4 ++ leBytes 0x00010001 4 ++ leBytes 0 24
    ++ leBytes 1 16 ++ leBytes 0 112

/-- v14:v15 = 0x7000, where the image stands; v16 = 1, the handle of record 0; v17 = 0x100, a ring and a state area; v18 = 1. -/
def laneB (n : Nat) : Lane :=
  { lane n with v := [(14, 0x7000), (15, 0), (16, 1), (17, 256 * (1 + BitVec.ofNat 32 n)), (18, 1), (20, 0), (21, 0), (22, 0), (23, 0),
      (24, 0), (25, 0), (26, 0x3F800000), (27, 0x3F800000)] }

def grpB : Group := { grp with lanes := [laneB 0, laneB 1], s := [(3, 1), (10, 0x41000), (11, 0)] }
def teamB (l : NMap BeamRec) (f : Team → Team := id) : Team := f { team with groups := [grpB], beams := l }
def stB (l : NMap BeamRec) (f : Team → Team := id) : State :=
  { st0 with units := [teamB l f], mem := mwriteN st0.mem 0x7000 (beamImg 0x41000), nextId := 30 }
def pkB (l : NMap BeamRec) (f : Team → Team := id) : Pk := { iss := iss, team := teamB l f, grp := grpB }
def img : BeamRec := { image := beamImg 0x41000 }

theorem witness_beam_image : (Beam.of (beamImg 0x41000)).isSome = true ∧ Beam.of (leBytes 0 256) = none := by decide +kernel

/-- Every lane of an instruction does what it does without a trap. -/
def doesIn (s : State) (p : Pk) (i : Instr) (f : State → Pk → Lane → State × Except Trap (List (Nat × Nat))) : Bool :=
  issuesIn s i && (p.runs s i h0 f (p.active h0)).2.2.isEmpty

def startsIn (s : State) (p : Pk) (i : Instr) (f : Nat → State → Pk → Lane → State × Except Trap (List (Nat × Nat))) : Bool :=
  issuesIn s i && (p.startRuns s i h0 f (p.active h0)).2.2.isEmpty

def tx : TexOp := ⟨h0, .v 20, v 8, v 14, z⟩

theorem witness_textures : doesIn st0 pk0 (.tex .pt .level false tx) (texLookup .sample .pt .level tx (pk0.active h0)).turn = true
    ∧ doesIn st0 pk0 (.texg 3 .level false tx) (texLookup (.gather 3) .bil .level tx (pk0.active h0)).turn = true
    ∧ doesIn st0 pk0 (.texq .bil .level tx) (texLookup .query .bil .level tx (pk0.active h0)).turn = true := by decide +kernel


/-- A descriptor at 0x6400: one texel of four bytes at 0x40000, and, with `res`, a map at 0x6480. -/
def texDesc (res : Bool) : Bytes :=
  leBytes 0x40000 8 ++ leBytes 0 6 ++ [1, 0, 0, 1, 0, if res then 1 else 0] ++ leBytes 0 12 ++ leBytes (if res then 0x6480 else 0) 8
    ++ leBytes 0 4 ++ [0xFF, 0, 0, 0] ++ leBytes 0 16

def laneT (n : Nat) : Lane := { lane n with v := [(8, 0), (9, 0), (10, 0), (11, 0), (14, 0x6400), (15, 0)] }
def grpT : Group := { grp with lanes := [laneT 0, laneT 1] }
def stX (res : Bool) : State := { st0 with units := [{ team with groups := [grpT] }], mem := mwriteN st0.mem 0x6400 (texDesc res) }
def pkX : Pk := { iss := iss, team := { team with groups := [grpT] }, grp := grpT }

def descOf (s : State) : Option (TexDesc × State) :=
  match (s.texDesc pkX 0 0x6400).2 with
  | .ok d => some (d, (s.texDesc pkX 0 0x6400).1)
  | .error _ => none

/-- Lookups that the device puts off: each active lane's is in flight, with the place of its texel. -/
theorem witness_lookups_off : let s : State := { stX false with putOff := true }
    issuesIn s (.tex .pt .level false tx) = true ∧ (Instr.tex .pt .level false tx).scalarDst = false
    ∧ (pkX.looksOff s (.tex .pt .level false tx) h0 (texLookup .sample .pt .level tx (pkX.active h0))).2.2 = []
    ∧ (pkX.looksOff s (.tex .pt .level false tx) h0 (texLookup .sample .pt .level tx (pkX.active h0))).2.1.map
        (fun e => (e.lane, e.look.isSome)) = [(0, true), (1, true)] := by decide +kernel

/-- The texel that a point sample at (0, 0) of level 0 takes, and what its read gives. -/
def sampled (s : State) : Option (Bool × Nat × Option Nat) :=
  (descOf s).map fun x =>
    let place := texPlace x.1.umode (texIndex (coord 0) (x.1.wAt 0) true).1 (x.1.wAt 0)
    let a := x.2.absentPage pkX [x.1.addr 0 0 0 0]
    (x.1.lodres, if a.2.isSome then 1 else 0, match a.1.texAt pkX 0 (x.1.addr 0 0 0 0) with
      | (s, .ok pl) => (match s.texBytes pl 4 with
        | some b => place.map (· + b.length)
        | none => some 100)
      | (_, .error _) => some 200)

theorem witness_samples : sampled (stX false) = some (false, 0, some 4)
    ∧ sampled { stX false with poison := [0x40000 / 32] } = some (false, 0, some 100)
    ∧ sampled { stX false with mem := mwriteN (stX false).mem 0x6400 (leBytes 0x80000000 8) } = some (false, 1, some 200)
    ∧ sampled (stX true) = some (true, 0, some 4)
    ∧ texPlace 3 (-1) 1 = none := by decide +kernel

theorem witness_residency : (descOf (stX true)).map (fun x => match (x.2.mapByte pkX 0 (dword x.1.map)).2 with
      | .ok m => m
      | .error _ => none) = some (some 0)
    ∧ (descOf (stX false)).map (fun x => (texTile x.1.fmt).2.2) = some 4
    ∧ (16 : Nat) / 2 ^ 4 % 2 ^ 12 ≠ 0 ∧ mLod.width.bytes ≠ 4 := by decide +kernel

/-- Two records, so that each lane has one of its own (lane 1 has handle 1 too, so BTRACE runs in lane 0 alone). -/
def laneAlone : Team → Team := fun t => { t with groups := [{ grpB with lanes := [laneB 0] }] }
def pkB1 (l : NMap BeamRec) : Pk := { iss := { iss with lanes := [0] }, team := teamB l laneAlone, grp := { grpB with lanes := [laneB 0] } }
def stB1 (l : NMap BeamRec) : State := { stB l laneAlone with cur := some { iss with lanes := [0] } }

theorem witness_beams : doesIn (stB []) (pkB []) (.bnew h0 (.v 1) (v 14)) (cmdLanes (bnewLane (v 14))) = true
    ∧ doesIn (stB [(0, img)]) (pkB [(0, img)]) (.bfree h0 (.v 1) (v 16)) (cmdLanes (bfreeLane (v 16))) = true
    ∧ startsIn (stB1 [(0, img)]) (pkB1 [(0, img)]) (.btrace h0 (.v 1) (v 16) (v 17) (v 18) 255)
        (btraceLane (.btrace h0 (.v 1) (v 16) (v 17) (v 18) 255) h0 (.v 1) (v 16) (v 17) (v 18) 255) = true := by decide +kernel

/-- The team's scratch holds a suspended state area at 0x100 and 0x200. -/
def areas (t : Team) : Team := { t with scr := { bytes := [(0x182, 1), (0x282, 1)] } }

theorem witness_rays :
    startsIn (stB []) (pkB []) (.rtrace false 255 h0 (.v 40) (v 20) (v 24) (v 17) 0x8A)
        (rtraceLane (.rtrace false 255 h0 (.v 40) (v 20) (v 24) (v 17) 0x8A) false 255 h0 (.v 40) (v 20) (v 24) (v 17) 0x8A) = true
    ∧ startsIn (stB [] areas) (pkB [] areas) (.rresume true true h0 (.v 40) (v 26) (v 20) (v 17))
        (rresumeLane (.rresume true true h0 (.v 40) (v 26) (v 20) (v 17)) true true h0 (.v 40) (v 26) (v 20) (v 17)) = true
    ∧ (match rayChecks false (.v 40) (v 17) (stB []) (pkB []) (laneB 0) with
      | .ok a => a == 256
      | .error _ => false) = true := by decide +kernel

def imgOf (s : State) (p : Pk) (a : Src) : Option Bytes :=
  match (s.laneRead p 0 (p.read64 (laneB 0) 0 a.spec) 256 64).2 with
  | .ok b => some b
  | _ => none

def full : NMap BeamRec := (List.range 8).map fun n => (n, img)

theorem witness_beam_records : imgOf (stB []) (pkB []) (v 14) = some (beamImg 0x41000) ∧ (stB []).freeBeams (teamB []) = [0, 1, 2, 3, 4, 5, 6, 7]
    ∧ (imgOf (stB []) (pkB []) (v 20)).map Beam.of = some none
    ∧ (stB full).freeBeams (teamB full) = [] ∧ imgOf (stB full) (pkB full) (v 14) = some (beamImg 0x41000)
    ∧ (pkB []).x32 (laneB 0) 0 (v 16) = 0 + 1 ∧ (pkB []).x32 (laneB 0) 0 (v 17) = 256 ∧ (pkB []).x32 (laneB 0) 0 (v 18) = 1
    ∧ (pkB []).team.scrOk 256 128 = true ∧ (pkB []).x32 (laneB 0) 0 z = 0 ∧ tget (teamB []).beams 0 = none
    ∧ tget (teamB [(0, { img with traced := true })]).beams 0 = some { img with traced := true } := by decide +kernel

def trace (f : Trace → Trace) : Trace :=
  f { id := 9, uid := 1, grp := 0, lane := 0, pc := 0x10000, d := some 1, flag := none, pkt := 8, recIdx := 0, ring := 0x100, n := 1,
      mask := 255, keys := 0, out := some (List.replicate 9 7) }

def stT (t : Trace) (l : List Nat) (r : Nat := 0x41000) : State :=
  let tm : Team := teamB [(0, { image := beamImg r, traced := true })] fun t => { t with scr := { emptyLines := l } }
  { stB [] with units := [tm], traces := [t], svc := 10 }

def beamStop (s : State) (t : Trace) : Nat :=
  match (s.beamOut t).2 with
  | some (.ok l) => l.length
  | some (.error (.pagef _)) => 100
  | some (.error (.poison _)) => 101
  | some (.error (.format _)) => 102
  | some (.error (.denied ..)) => 103
  | none => 104

def walks : Trace := trace fun t => { t with out := none }

/-- A walk with more nodes left than one event visits. -/
def longWalk : Trace := trace fun t => { t with
  out := none
  walk := some ({ free := 0 }, List.replicate 4097 { ty := 2, cnt := 0, va := 0x41000, n := none, inst := 0, depth := 3 }) }

theorem witness_beam_root : (Beam.of img.image).map (fun g => g.rootPoly.isEmpty) = some false
    ∧ (stB [(0, img)]).freeBeams (teamB [(0, img)]) ≠ [] ∧ ∀ x ∈ (stB [(0, img)]).traces, x.id ≠ (stB [(0, img)]).nextId := by
  decide +kernel

theorem witness_beam_events : (let t := trace id
      let s := stT t [2]
      s.trace? 9 = some t ∧ s.traceRuns t = true ∧ beamStop s t = 9 ∧ s.lineFull 1 (0x100 / 128 + 0) = false)
    ∧ (let t := trace fun t => { t with lines := 1 }
      let s := stLim (stT t [])
      beamStop s t = 9 ∧ 8 * t.lines < 9 ∧ s.lineFull 1 (0x100 / 128 + 1 % 1) = true ∧ s.pastLimit (s.ctxOf 1) (s.unitCyc 1 - t.waitSince) = true)
    ∧ (let t := trace fun t => { t with lines := 2 }
      beamStop (stT t []) t = 9 ∧ 9 ≤ 8 * t.lines) := by decide +kernel

theorem witness_beam_stops : beamStop (stT walks [] 0x80000000) walks = 100
    ∧ beamStop { stT walks [] with poison := [0x41000 / 32] } walks = 101 ∧ beamStop (stT walks [] 0x7000) walks = 102 := by
  decide +kernel

/-- A trace whose context's keys deny reads of key 0. -/
theorem witness_beam_denied : beamStop (stT { walks with keys := 1 } []) { walks with keys := 1 } = 103 := by decide +kernel

theorem witness_beam_goes_on : beamStop (stT longWalk []) longWalk = 104 := by decide +kernel

/-- A ray along x from the origin, TMIN 0, TMAX 1. -/
def ray1 (root : Nat) : RayState :=
  { world := [0, 0, 0, 0, f1, 0, 0, f1], object := [0, 0, 0, 0, f1, 0, 0, f1], com := [0, 0, 0, 0, 0, 255], root := root
    cand := [0, 0, 0, 0, 0, 0], stack := [rootEnt root] }

theorem witness_ray_at_once : (ray1 0x41000).atOnce = none ∧ (ray1 0x41001).atOnce = some rayFORMAT
    ∧ ({ ray1 0x41000 with world := [0, 0, 0, f1, f1, 0, 0, f1] } : RayState).atOnce = some rayMISS
    ∧ ({ ray1 0x41000 with world := [0, 0, 0, 0, 0, 0, 0, f1] } : RayState).atOnce = some rayMISS := by decide +kernel

def trav (root : Nat) : Traversal :=
  { id := 9, uid := 1, grp := 0, lane := 0, pc := 0x10000, d := some 40, flag := none, pkt := 8, area := 0x100, ray := ray1 root, keys := 0 }

def stV (t : Traversal) (f : Team → Team := id) : State := { stB [] f with traversals := [t], svc := 10 }

def rayStop (s : State) (t : Traversal) : Nat :=
  match (s.runRay t).out with
  | some (.ok st) => st
  | some (.error (.pagef _)) => 100
  | some (.error (.poison _)) => 101
  | some (.error (.format _)) => 102
  | some (.error (.denied ..)) => 103
  | none => 104

theorem witness_ray_events : (stV (trav 0x41000)).trav? 9 = some (trav 0x41000) ∧ (stV (trav 0x41000)).rayRuns (trav 0x41000) = true
    ∧ rayStop (stV (trav 0x41000)) (trav 0x41000) = rayMISS ∧ rayStop (stV (trav 0x7000)) (trav 0x7000) = 102
    ∧ rayStop (stV (trav 0x80000000)) (trav 0x80000000) = 100 ∧ (stV (trav 0x80000000)).team? 1 = some (teamB [])
    ∧ (stV (trav 0x80000000) fun t => { t with kill := true }).rayRuns (trav 0x80000000) = true
    ∧ rayStop (stV (trav 0x80000000) fun t => { t with kill := true }) (trav 0x80000000) = 100 := by decide +kernel

theorem witness_ray_hits : (ray1 0).world.length = 8 ∧ (ray1 0).betters 0x3F000000 3 2 = true ∧ (ray1 0).betters 0 3 2 = false
    ∧ (let q : Pending := { regs := [(0, 40, 0)], preds := [], flag := none, owner := some 9 }
      let g : Group := { grpB with inflight := [q] }
      g.lane? 0 = some (laneB 0) ∧ q.owner = some 9 ∧ (0, 40, (0 : Word)) ∈ q.regs
        ∧ [(0, 40, (5 : Word))].find? (fun x => x.1 == 0 && x.2.1 == 40) = some (0, 40, 5)
        ∧ ∀ q' ∈ g.inflight, q'.owner = some 9 → (0, 41, (0 : Word)) ∉ q'.regs) := by decide +kernel

/-- A triangle in the plane x = 1/2 hit by the ray at t = 1/2. -/
theorem test_triangle : (triHit ⟨⟨0, 0, 0⟩, ⟨1, 0, 0⟩⟩ ⟨⟨1/2, -1, -1⟩, ⟨1/2, 3, -1⟩, ⟨1/2, -1, 3⟩, 0, false⟩)
    = some (0x3F000000, 0x3E800000, 0x3E800000) := by decide +kernel

/-! ### The join unit -/

def msg1 : Msg := { val := 0x1122334455667788 }

/-- Port 3 is open with one message and room for another, port 4 full and stalling, port 5 full and faulting, port 6 open and empty. -/
def portsJ : NMap Port :=
  [(0, { depth := 4, act := .fault, hvis := true }), (3, { depth := 2, msgs := [msg1] }), (4, { depth := 1, msgs := [msg1] }),
   (5, { depth := 1, act := .fault, msgs := [msg1] }), (6, { depth := 1 }), (9, { depth := 8, hvis := true, msgs := [msg1] })]

def grpJ : Group := { grp with s := [(3, 1), (4, 6), (5, 0), (6, 0x8000), (7, 0), (10, 0x7000), (11, 0), (12, 16)] }

def teamJ : Team := { team with groups := [grpJ] }
def stJ : State := { st0 with units := [teamJ], ports := portsJ }
def pkJ : Pk := { iss := iss, team := teamJ, grp := grpJ }

def pimm (n : BitVec 16) : PortRef := .imm false 0 n

def postsIn (i : Instr) (status : Bool) (a : Src) (ref : PortRef) : Bool :=
  let r := postLanes status a ref pkJ false (stJ.issued pkJ h0 (instrDst i)) (if i.scalarDst then (pkJ.workers h0).take 1 else pkJ.workers h0)
  issuesIn stJ i && r.2.traps.isEmpty && r.2.wait.isEmpty

theorem witness_posts : postsIn (.post h0 (v 8) (pimm 9)) false (v 8) (pimm 9) = true
    ∧ postsIn (.postn h0 (.v 1) (v 8) (pimm 5)) true (v 8) (pimm 5) = true
    ∧ postsIn (.postn h0 (.s 20) (sr 6) (pimm 5)) true (sr 6) (pimm 5) = true
    ∧ postsIn (.postn h0 .zero (v 8) (pimm 77)) true (v 8) (pimm 77) = true := by decide +kernel

theorem witness_take : issuesIn stJ (.take h0 (.v 4) 1 (pimm 3)) = true
    ∧ (takeLanes 1 (pimm 3) pkJ (stJ.issued pkJ h0 (instrDst (.take h0 (.v 4) 1 (pimm 3)))) (pkJ.active h0)).2.traps = []
    ∧ (takeLanes 1 (pimm 3) pkJ (stJ.issued pkJ h0 (instrDst (.take h0 (.v 4) 1 (pimm 3)))) (pkJ.active h0)).2.preds
      = [(0, 1, true), (1, 1, false)] := by decide +kernel

def answersOk (x : State × Except (List Trap) Nat) : Option Nat :=
  match x.2 with
  | .ok n => some n
  | .error _ => none

theorem witness_packet_commands : ([.patset h0 (.v 1) (sr 4) z (sr 10), .patclr h0 (.v 1) (sr 6), .portcfg h0 (.v 1) (sr 12) (pimm 7) z]
      : List Instr).all (issuesIn stJ) = true
    ∧ pkJ.workers h0 ≠ [] ∧ answersOk (patset h0 (sr 4) z (sr 10) (stJ.issued pkJ h0 [1]) pkJ) = some 0x80000033
    ∧ pkJ.lanes.head?.bind (fun l => pkJ.portOf l (pimm 7) false) = some ⟨false, 0, 7⟩ := by decide +kernel

theorem witness_config_put_off : let i := Instr.portcfg h0 (.v 1) (sr 12) (pimm 7) z
    stJ.putOff = false ∧ issuesIn { stJ with putOff := true } i = true ∧ i.scalarDst = false
    ∧ (Instr.portcfg h0 (.s 20) (sr 12) (pimm 7) z).scalarDst = true := by decide +kernel

theorem witness_wait : issuesIn stJ (.wait 3 h0 (.imm 6)) = true ∧ pkJ.waitPorts (.imm 6) = some [6] ∧ portsOk [6] = true
    ∧ stJ.port? 0 6 ≠ none ∧ stJ.patRoom 0 (portStack 6) false = some false
    ∧ (∃ n ∈ [6], ∀ x, stJ.port? 0 n = some x → x.msgs = []) ∧ pkJ.sole (lane 0) := by
  refine ⟨by decide +kernel, by decide +kernel, by decide +kernel, by decide +kernel, by decide +kernel, ⟨6, by decide, ?_⟩,
    by unfold Pk.sole; decide +kernel⟩
  intro x h
  have e : stJ.port? 0 6 = some { depth := 1 } := by decide +kernel
  rw [e] at h; injection h with h; subst h; rfl

theorem witness_port_stores : stJ.port? 0 77 = none ∧ (∃ p, stJ.port? 0 3 = some p ∧ p.ringCount = 0 ∧ p.msgs.length < p.depth)
    ∧ (∃ p, stJ.port? 0 4 = some p ∧ p.depth ≤ p.msgs.length ∧ p.act = .stall)
    ∧ (∃ p, stJ.port? 0 5 = some p ∧ p.depth ≤ p.msgs.length ∧ p.ringCount = 0 ∧ p.act = .fault)
    ∧ (∃ p, stJ.port? 0 3 = some p ∧ p.msgs = msg1 :: []) := by
  refine ⟨by decide +kernel, ⟨_, rfl, ?_⟩, ⟨_, rfl, ?_⟩, ⟨_, rfl, ?_⟩, ⟨_, rfl, ?_⟩⟩ <;> decide +kernel

theorem witness_port_config : 64 < (65 : Nat) % 128 ∧ (0 : Nat) < 64 % 128 ∧ stJ.storeUsed (portStack 77) + 64 ≤ 16384
    ∧ (stJ.ctx? 0).map (·.faultPort) ≠ some 6 ∧ (∃ p, stJ.port? 0 6 = some p ∧ p.msgs = [] ∧ p.ringCount = 0 ∧ p.pats = [])
    ∧ (∃ p, stJ.port? 0 4 = some p ∧ p.msgs ≠ []) := by
  refine ⟨by decide, by decide, by decide +kernel, by decide +kernel, ⟨_, rfl, ?_⟩, ⟨_, rfl, ?_⟩⟩ <;> decide +kernel

/-- Lane 0 waits with a message for port 4, which is full, or for port 6, which has room. -/
def waitPost (port : BitVec 16) : FeWait := ⟨iss, .post h0 (v 8) (pimm port), [(0, port.toNat, 5)], none, 0⟩

def stPost (port : BitVec 16) : State :=
  let g : Group := { grpJ with lanes := [{ lane 0 with park := some (.post, 0) }, lane 1], fes := [waitPost port] }
  { stJ with units := [{ team with groups := [g] }], arith := 10, joinQ := [{ ctx := 0, port := 6, val := 9 }] }

def outOf (x : State × PostOut) : PostOut := x.2

theorem witness_join_events : (stPost 6).joinQ.drop 0 = { ctx := 0, port := 6, val := 9 } :: []
    ∧ ((stPost 6).group? 1 0).map (fun g => g.fes.find? fun w => w.isPost && w.lanes.any (·.1 == 0)) = some (some (waitPost 6))
    ∧ (waitPost 6).lanes.find? (·.1 == 0) = some (0, 6, 5) ∧ (∀ x ∈ (waitPost 6).lanes, 0 ≤ x.1) ∧ (waitPost 6).instr.hdr = some h0 ∧ (waitPost 6).iss.uid = 1
    ∧ (waitPost 6).iss.grp = 0 ∧ outOf ((stPost 6).threadPost (.lane 1 0 0) 0 false 0 6 (dword 5)) = .placed
    ∧ ((stPost 4).lane? 1 0 0).map (·.park) = some (some (.post, 0)) ∧ (stLim (stPost 4)).pastLimit 0 ((stLim (stPost 4)).grpCyc 1 0 - 0) = true
    := by decide +kernel

def stWaits : State :=
  let ls := [{ lane 0 with park := some (.wait, 0) }, { lane 1 with park := some (.wait, 0) }]
  stLim { stL ls with arith := 10 }

theorem witness_wait_parklimit : ((stWaits.group? 1 0).map fun g => g.lanes.map fun l => l.park) = some [some (.wait, 0), some (.wait, 0)]
    ∧ stWaits.pastLimit 0 (stWaits.grpCyc 1 0 - 0) = true := by decide +kernel

theorem witness_host_window : stJ.up = true ∧ stJ.window (8 * 9) 8 = (stJ, some (0, 9)) ∧ ((stJ.port? 0 9).map (·.hvis)) = some true
    ∧ (stJ.takeMsg 0 9).2 = some msg1 ∧ stJ.window (8 * 3) 8 = (stJ, some (0, 3)) ∧ ((stJ.port? 0 3).map (·.hvis)) = some false := by
  decide +kernel

/-! ### Launches and counters -/

theorem witness_launch_instructions : doesIn stJ pkJ (.launchCard h0 (.v 1) (v 14)) (cmdLanes (launchCardLane (v 14))) = true
    ∧ doesIn stJ pkJ (.launchArm h0 (.v 1) (v 2) (v 3) z) (cmdLanes (launchArmLane (v 2) (v 3) z)) = true
    ∧ doesIn stJ pkJ (.launchSeal h0 (.v 1) (v 2)) (cmdLanes (launchSealLane (v 2))) = true
    ∧ doesIn stJ pkJ (.cancel false true h0 (.v 1) (v 2)) (cmdLanes (cancelLane false true (v 2))) = true
    ∧ doesIn stJ pkJ (.cancel true false h0 (.v 1) (v 2)) (cmdLanes (cancelLane true false (v 2))) = true
    ∧ doesIn stJ pkJ (.cntrd true h0 (.v 4) (v 2)) (cmdLanes (cntrdLane true (v 2))) = true := by decide +kernel

def cnt (st : CntState) (n : Nat) : Counter := { state := st, pending := n, level := 1 }

/-- Launch 2 waits for its walk, 3 is ready on stack 0, 1 has run. -/
def stN : State :=
  { st0 with
    units := []
    counters := [(1, cnt .opened 1), (2, cnt .sealed 0), (4, cnt .opened 1)]
    launches := [{ id := 1, ctx := 0, card := { card with parent := some 4 }, state := .running },
      { id := 2, ctx := 0, card := { card with decl := [0, 255, 255, 255], recTab := 0x6040 }, state := .waitOp, walkDue := true },
      { id := 3, ctx := 0, card := card, state := .ready, ranges := [(0, 0, 4)], passed := [(0, 0, false)] }]
    svc := 1048577
    mem := mwriteN st0.mem 0x6040 rec1 }

/-- The same with a declared record in a page that is not there. -/
def stAway : State := { stN with mem := mwriteN stN.mem 0x6040 (leBytes 0x80000000 8) }

def walkOf (s : State) : Option Dword := (walkRecs 0 0x6040 s (([0, 255, 255, 255] : List Nat).filter (· < 64))).2

theorem witness_launch_events : (stN.counter 2).done = true ∧ (stN.counter 2).parent = none
    ∧ (stN.launch? 1).map (fun l => stN.reap.launchDone l) = some true ∧ (stN.launch? 1).map (·.card.parent) = some (some 4)
    ∧ (stN.launch? 3).map (fun l => tget l.passed 0) = some (some (0, false)) ∧ 1048576 < stN.stackCyc 0 - 0
    ∧ (stN.launch? 2).map (fun l => (l.state, l.walkDue)) = some (.waitOp, true) ∧ walkOf stN = none ∧ walkOf stAway = some 0x80000000
    ∧ (stN.launch? 3).bind (fun l => (stackClusters 0).findSome? fun k =>
        if ([] : List Nat).contains k then none else (stN.fitNew l.card k).map fun c => (k, c)) = some (0, [0]) := by decide +kernel

theorem witness_counters : (stN.counter 8191).state = .idle ∧ (stN.counter 1).state = .opened ∧ (stN.counter 1).owner = 0
    ∧ (stN.counter 2).state = .sealed ∧ (stN.counter 2).owner = 0 ∧ (stN.counter 1).owner ≠ 5 ∧ 1 * 2 ^ 20 / 2 ^ 22 = 0
    ∧ 1 * 2 ^ 20 / 2 ^ 20 % 4 ≠ 0 ∧ (1 * 2 ^ 20 : Nat).testBit 19 = false ∧ (2 ^ 19 : Nat).testBit 19 = true ∧ stN.refuseChild 0 (some 9) ≠ 0 ∧ stN.refuseChild 0 (some 4) = 0 ∧ stN.launches.length < 16384
    ∧ stN.launch? stN.freshLaunch = none := by decide +kernel

/-- Counters under counter 4: 5 is open, 6 is done and posts to port 9 of this device; 7 counts as many children as it can. -/
def stKid : State :=
  { stN with
    counters := stN.counters ++ [(5, { cnt .opened 1 with parent := some 4 }), (6, { cnt .sealed 0 with parent := some 4, donePort := 9 }),
      (7, cnt .opened (2 ^ 24 - 1)), (8, { cnt .sealed 0 with donePort := 0xFFFF })] }

theorem witness_cancel : (stKid.launch? 1).map (·.ctx) = some 0 ∧ stKid.launch? 77 = none ∧ (4 : Nat) ≤ 8191 ∧ (stKid.counter 4).owner = 0
    ∧ (stKid.counter 4).state = .opened ∧ (stKid.counter 5).parent = some 4 ∧ (stKid.counter 5).state ≠ .idle
    ∧ (∀ e ∈ stKid.counters, e.1 = 2 → e.2.parent = none) ∧ (∃ l ∈ stKid.launches, l.card.parent = some 4)
    ∧ st0.team? 1 = some team ∧ team.state ≠ .exited ∧ team.kill = false
    ∧ ({ st0 with units := [{ team with state := .exited }] } : State).team? 1 = some { team with state := .exited } := by decide +kernel

/-- Launch 2 waits for its operands; without it, launch 1 has a message to post and launch 3 has records to deal. -/
theorem witness_waitop : (stKid.launch? 2).map (fun l => (l.state, l.ctx)) = some (.waitOp, 0)
    ∧ (∀ l ∈ stKid.launches.filter (·.state != .waitOp), l.state ≠ .waitOp) ∧ ({ card with argCount := 0 } : Card).argCount = 0
    ∧ (let c : Card := { card with donePort := 9 }
      let s : State := { stN with launches := [{ id := 1, ctx := 0, card := c, state := .running }] }
      (s.launch? 1).map (fun l => s.reap.launchDone l) = some true ∧ c.donePort ≠ 0xFFFF ∧ c.doneDev = s.bar0.devNum)
    ∧ (stN.launch? 3).map (fun l => tget l.ranges 0) = some (some (0, 4)) ∧ (∀ t ∈ stN.units, t.uid ≠ stN.nextUid) := by decide +kernel

theorem witness_counter_word : (stKid.counter 5).pending < 2 ^ 24 ∧ (stKid.counter 5).status < 4 ∧ (stKid.counter 5).level < 4
    ∧ ((stKid.counter 5).parent.all fun q => decide (q < 8192)) = true ∧ (stKid.counter 5).state = .opened ∧ (stKid.counter 2).parent = none
    ∧ (stKid.counter 2).state = .sealed := by decide +kernel

theorem witness_counter_done : (stKid.counter 6).done = true ∧ (stKid.counter 6).parent ≠ some 6 ∧ (stKid.counter 6).donePort ≠ 0xFFFF
    ∧ (stKid.counter 6).doneDev = stKid.bar0.devNum ∧ (stKid.counter 8).done = true ∧ (stKid.counter 8).donePort = 0xFFFF := by decide +kernel

/-- The parent words 4, 7 and 9 with their bit 31, and one with a reserved bit. -/
theorem witness_arm_parent : (2 ^ 31 + 4 : Nat).testBit 31 = true ∧ (2 ^ 31 + 4) / 2 ^ 13 % 2 ^ 18 = 0 ∧ (2 ^ 31 + 4) % 8192 = 4
    ∧ (stKid.counter 8191).state = .idle ∧ (stKid.counter 4).state = .opened ∧ (stKid.counter 4).owner = 0
    ∧ (stKid.counter 4).pending < 2 ^ 24 - 1 ∧ 2 ^ 24 - 1 ≤ (stKid.counter ((2 ^ 31 + 7) % 8192)).pending
    ∧ (stKid.counter ((2 ^ 31 + 7) % 8192)).state = .opened ∧ (stKid.counter ((2 ^ 31 + 9) % 8192)).state ≠ .opened
    ∧ (2 ^ 13 : Nat) / 2 ^ 13 % 2 ^ 18 ≠ 0 := by decide +kernel

def stFull : State := { stN with launches := List.replicate 16384 { id := 1, ctx := 0, card := {}, state := .ready } }

theorem witness_table_full : stFull.refuseChild 0 none = 0 ∧ 16384 ≤ stFull.launches.length :=
  ⟨rfl, Nat.le_of_eq List.length_replicate.symm⟩

theorem test_ranges : dealRanges 0b1011 5 = [(0, 0, 2), (1, 2, 4), (3, 4, 5)] ∧ chunkLen { card with chunkMin := 3, chunkDiv := 2 } 2 8 = 2
    ∧ chunkLen { card with chunkMin := 3, chunkDiv := 2 } 100 8 = 7 := by decide +kernel

/-! ### Traps, waits, saves -/

theorem witness_encoding_fault : pk0.iss.seqBad = false ∧ (Instr.shl false { o2 with imm := 5 }).hdr = some h0
    ∧ encFault (.shl false { o2 with a := ⟨.v 2, true⟩, d := .s 4 }) iss = some cILLOPD
    ∧ pkRep.iss.repPlaced = true ∧ pk0.iss.repPlaced = false
    ∧ encFault (.rep ⟨7, false, .a⟩ (k 17) 1 1) { iss with fa := 15, next := some addWord } = some cILLOP
    ∧ (Raw.unpack addWord).cf = 0 ∧ (Raw.unpack addWord).op ≠ 0x009 ∧ (Raw.unpack 0x0000000000C80000F3C00E09).op = 0x009
    ∧ (Raw.unpack 0x000000000000C00302012E20).cf = 1 ∧ (Raw.unpack 0x000000000000C00302014E20).cf = 2
    ∧ 12 ≤ ({ iss with fa := 15, fb := 15 } : Issue).fa.toNat ∧ 12 ≤ ({ iss with fa := 15, fb := 15 } : Issue).fb.toNat := by
  decide +kernel

def stMask (s : State) : State := { s with mem := mwrite s.mem 0x8028 0xFF }

theorem witness_traps : st0.team? 1 = some team ∧ team.group? 0 = some grp ∧ team.state = .running ∧ team.kill = false ∧ team.frame = none
    ∧ st0.ctx? team.ctx ≠ none ∧ (st0.dispMask 0).testBit cILLOP = false ∧ ((stMask st0).dispMask 0).testBit cILLOP = true
    ∧ st0.ctx? 0 = some placedCtx := by decide +kernel

/-- A save that begins finds a place, none, or a page that is not mapped. -/
def poolAt (c : Context) : Option (Nat × Bool) :=
  let s : State := { st0 with ctxs := [(0, c)] }
  let units := cdiv (team.frameSize (s.entriesOf 1) (s.travOf 1)) 0x10000
  (poolFit c.fpSize (s.poolUsed 0) units).map fun k => (k, (badPage s 0 (c.fpBase + dword (k * 0x10000)) (units * 0x10000)).isSome)

theorem witness_save_place : poolAt placedCtx = some (0, false) ∧ poolAt { placedCtx with fpSize := 0 } = none
    ∧ poolAt { placedCtx with fpBase := 0x80000000 } = some (0, true) ∧ team.frame = none := by decide +kernel

/-- The line that `placedLine` makes. -/
def codeLine (w : BitVec 96) : BitVec 512 := BitVec.ofNat 512 (leNat (placedLine w))

/-- A group whose lane 0 waits at its line, with a result on its way to v1 of lane 0. -/
def grpW : Group :=
  { grp with
    lanes := [{ lane 0 with entry := .waiting true, line := some (codeLine nopWord) }, { lane 1 with park := some (.conv, 0) }]
    flags := [(2, 1)]
    inflight := [{ regs := [(0, 1, 7)], preds := [], flag := some 2 }] }

def stW : State := stLim { st0 with units := [{ team with groups := [grpW] }], arith := 2000, svc := 0x200000, mapLines := [⟨0, 5, 0, []⟩] }

theorem witness_group_events : ((stW.group? 1 0).bind (·.lane? 0)).map (fun l => (l.entry, waitClear grpW l)) = some (.waiting true, true)
    ∧ grpW.results[0]? = some { regs := [(0, 1, 7)], preds := [], flag := some 2 }
    ∧ stW.mapLines.drop 0 = ⟨0, 5, 0, []⟩ :: [] ∧ 0x100000 ≤ stW.stackCyc (stackOf 0) - 0
    ∧ ((stW.lane? 1 0 1).map (·.park)) = some (some (.conv, 0)) ∧ stW.pastLimit 0 (stW.grpCyc 1 0 - 0) = true := by decide +kernel

/-- A group that waits for a register for its next instruction, which writes v1; its team's credit leaves the quadrant some
capacity, or none. -/
def grpC : Group :=
  { grp with lanes := [{ lane 0 with line := some (codeLine addWord) }], waits := [{ rank := 4, place := (0x10000, 0), need := 9 }] }

def teamC (credit : Nat) : Team := { team with groups := [grpC], credit := [(0, credit)] }

def stClaim (credit : Nat) : State := ({ st0 with units := [teamC credit], arith := 2000 } : State).refreshClaims 0

theorem witness_claim_waits : (stClaim 0).claimWaiters 0 = { rank := 4, place := (0x10000, 0), need := 1 } :: []
    ∧ 1 ≤ (stClaim 0).freeCount 0 + 0
    ∧ (stClaim 1024).claimWaiters 0 = { rank := 4, place := (0x10000, 0), need := 1 } :: [] ∧ (stClaim 1024).freeCount 0 + 0 < 1
    ∧ (stClaim 1024).shortage 0 = true ∧ ((stClaim 1024).youngestOn 0).map (·.kill) = some false
    ∧ ∀ u ∈ (stClaim 1024).units, u.state ≠ .saving := by decide +kernel

def waitFe : FeWait := ⟨iss, .ld (mScr (.v 1) z true), [(0, 0, 0)], none, 0⟩

def grpF : Group :=
  { grp with lanes := [{ lane 0 with park := some (.fullEmpty, 0) }, { lane 1 with park := some (.bar 1 false, 0) }], fes := [waitFe] }

def stF : State := stLim { st0 with units := [{ team with groups := [grpF] }], arith := 10 }
def pkF : Pk := { iss := iss, team := { team with groups := [grpF] }, grp := grpF }

theorem witness_full_empty_waits : ((stF.lane? 1 0 0).map (·.park)) = some (some (.fullEmpty, 0)) ∧ stF.pastLimit 0 (stF.grpCyc 1 0 - 0) = true
    ∧ (grpF.fes.find? fun w => w.lanes.any (·.1 == 0)) = some waitFe ∧ memOpOf waitFe.instr = some (mScr (.v 1) z true)
    ∧ waitFe.lanes.find? (·.1 == 0) = some (0, 0, 0) ∧ waitFe.iss.uid = 1 ∧ waitFe.iss.grp = 0
    ∧ feOk (stF.feSet pkF waitFe.instr (mScr (.v 1) z true) (waitFe.lanes.filter fun x => x.2.1 / 128 == 0 / 128)) = true := by
  decide +kernel

theorem witness_bar_parklimit : (let g : Group := { grp with lanes := [{ lane 0 with park := some (.bar 1 false, 0) }] }
      let s := stLim { st0 with units := [{ team with groups := [g] }], arith := 10 }
      s.group? 1 0 = some g ∧ g.lanes = { lane 0 with park := some (.bar 1 false, 0) } :: [] ∧ s.pastLimit 0 (s.coreCyc g.core - 0) = true) := by
  decide +kernel

/-! ### Saves and restores -/

theorem witness_resume : doesIn stJ pkJ (.resumeRec h0 (.v 1) (v 14)) (cmdLanes (resumeRecLane (v 14))) = true
    ∧ doesIn stJ pkJ (.resumeLaunch h0 (.v 1) (v 2)) (cmdLanes (resumeLaunchLane (v 2))) = true
    ∧ leAt (leBytes 0 64) 3 1 = 0 ∧ (stN.launches.any fun l => l.id == 3 && l.ctx == 0) = true := by decide +kernel

/-- A record of KIND 1 and handle 5, and a state in which context 0 has it but nothing waits with it. -/
theorem witness_resume_gone : (let b := leBytes 0x01000000 4 ++ leBytes 0 28 ++ leBytes 5 8 ++ leBytes 0 24
      let s : State := { st0 with handles := [(5, 0)] }
      leAt b 3 1 ≠ 0 ∧ tget s.handles (leAt b 0x20 8) = some 0 ∧ (s.waiters 0).length = 0) := by decide +kernel

def saveTeam (r : Reason) (f : Frame → Frame := id) : Team :=
  { team with state := .saving, card := { card with scratch := 0, beamRec := 0 }, groups := [{ grp with lanes := [{ lane 0 with v := [] }] }],
              frame := some (f { handle := 3, va := 0x100000, size := 0x10000, reason := r }) }

def stSave (r : Reason) : State := { st0 with units := [saveTeam r] }

theorem witness_save : (stSave .trap).team? 1 = some (saveTeam .trap) ∧ (stSave .trap).openCmds 1 = [] ∧ (stSave .trap).repNext = none
    ∧ (stSave .trap).travOf 1 = [] ∧ (stSave .trap).matrix = [] ∧ (stSave .trap).mapsHeld (saveTeam .trap) = false
    ∧ (stSave .trap).granting 1 = false := by decide +kernel

/-- A saved team without groups: its frame is its header, which stands at 0x100000 (or, when `img` is false, zeros do). -/
def backTeam : Team :=
  { team with state := .parked, card := { card with scratch := 0, beamRec := 0 }, groups := [],
              frame := some { handle := 3, va := 0x100000, size := 512, reason := .trap, fstate := 3 } }

def stBack (img : Bool) : State :=
  { st0 with units := [backTeam], mem := if img then mwriteN st0.mem 0x100000 (backTeam.frameHeader 512 3 1 0) else st0.mem }

def restores (img : Bool) : Bool :=
  let s := stBack img
  let s₁ := s.reap.serveWaits.setFstate 1 4
  s.reap.serveWaits.nextRestore 0 == some (backTeam, [0]) && match (devRead s₁ none 0 0 0x100000 512).2 with
    | .ok (_, b) => frameOk backTeam { handle := 3, va := 0x100000, size := 512, reason := .trap, fstate := 3 } (s₁.travOf 1)
        (s₁.entriesOf 1) b
    | .error _ => false

theorem witness_restore : restores true = true ∧ (stBack false).reap.serveWaits.nextRestore 0 = some (backTeam, [0]) ∧ restores false = false := by
  decide +kernel

/-! ### Drains, removals, the host -/

def chanOn (n : Nat) : Channel := { pre := 1, drainLim := n, arrived := [(1, 5)] }

def stDrain (n : Nat) : State :=
  { st0 with chans := [(0, chanOn n)], svc := 5 + 256 * n, units := [{ team with stack := 1 }] }

theorem witness_drains : (stDrain 3).units.filter (drainable 0 1) = [{ team with stack := 1 }]
    ∧ tget ((stDrain 3).chan 0).arrived 1 = some 5 ∧ tget ((stDrain 3).chan 0).arrived 0 = none ∧ ((stDrain 3).chan 0).pre ≠ 0
    ∧ ((stDrain 3).chan 0).drainLim * 256 ≤ (stDrain 3).stackCyc 1 - 5 ∧ (stDrain 0xFFFFFF).stackCyc 1 - 5 = 0xFFFFFF * 256
    ∧ ((stDrain 0xFFFFFF).chan 0).drainLim = 0xFFFFFF := by decide +kernel

/-- Two teams of the channel on the stack, and one that is not. -/
theorem witness_drain_teams : let s : State :=
      { stDrain 3 with units := [{ team with stack := 1 }, { team with uid := 2, stack := 1 }, { team with uid := 3 }] }
    (s.units.filter (drainable 0 1)).map (·.uid) = [1, 2] ∧ (∀ x ∈ s.units, s.team? x.uid = some x ∧ s.ctx? x.ctx ≠ none) := by
  decide +kernel

def stTlb : State :=
  { st0 with
    tlb := [⟨0, 0, 0, 0x40, true, 0x1F⟩, ⟨0, 0, 0, 0x50, true, 0x1F⟩, ⟨0, 1, 1, 0, false, 9⟩]
    bar0 := { st0.bar0 with tlbiOp := some (1, 0, 0x40000, 1), ctxBusy := some 0, vsPend := some (16, 8), ctxBase := 0xC000 } }

theorem witness_removals : stTlb.bar0.tlbiOp = some (1, 0, 0x40000, 1) ∧ stTlb.bar0.ctxBusy = some 0
    ∧ stTlb.bar0.vsPend = some (16, 8) := by decide +kernel

/-- The page of the range has left the cache, its neighbour has not. -/
theorem test_shootdown : (match exec .tlbShootdownComplete stTlb with
    | .next t => t.tlb == [⟨0, 0, 0, 0x50, true, 0x1F⟩, ⟨0, 1, 1, 0, false, 9⟩]
    | _ => false) = true := by decide +kernel

theorem witness_host_writes : hostWrite (.vsplitWrite 0x0110) = some (.vsplit, 0x0110) ∧ hostWrite (.tlbShootdownAll 0xB0000000) = some (.tlbictl, 0xB0000000)
    ∧ hostWrite (.channelPreempt 15 0x80000000) = some (.chpre 15, 0x80000000) ∧ hostWrite (.channelPreempt 16 0x80000000) = none
    ∧ st0.up = true ∧ st0.holders ≠ [] ∧ ({ st0 with units := [] } : State).holders = [] ∧ st0.bar0.tlbiOp = none
    ∧ (st0.chan 3).pre = 0 ∧ ((stDrain 3).chan 0).pre ≠ 0 := by decide +kernel

/-- A context descriptor at 0xC080, for context 1: its root at 0x1000, its fault port 7 of depth 4. -/
def ctxDesc : Bytes := leBytes 0x1000 8 ++ leBytes 0x20000 8 ++ leBytes 0x100000 8 ++ leBytes 0 8 ++ leBytes 16 4 ++ leBytes 0 12
  ++ leBytes 7 2 ++ [4, 4] ++ leBytes 0 76

def stCtx : State := { st0 with mem := mwriteN st0.mem 0xC080 ctxDesc, bar0 := { st0.bar0 with ctxBase := 0xC000 } }

theorem witness_context_place : paKey stCtx (stCtx.bar0.ctxBase.toNat + 128 * 1) = some 0xC080 ∧ paLocal 0xC080 = true
    ∧ (stCtx.verifyN 0xC080 128).poisonedPa 0xC080 128 = false ∧ (stCtx.verifyN 0xC080 128).readPa 0xC080 128 = ctxDesc
    ∧ ({ stCtx with poison := [0xC080 / 32] } : State).poisonedPa 0xC080 128 = true
    ∧ ownPa { stCtx with bar0 := { stCtx.bar0 with ctxBase := 0x1E00000000 } } (0x1E00000000 + 128) = false
    ∧ (let s : State := { stCtx with ports := (List.range 300).map fun n => (n, { depth := 64 }) }
      16384 < s.storeUsed (portStack 7) + 4 + 64) := by decide +kernel

theorem witness_contexts : stCtx.ctx? 0 ≠ none ∧ stCtx.ctx? 1 = none ∧ stCtx.readPa (stCtx.bar0.ctxBase.toNat + 128 * 1) 128 = ctxDesc
    ∧ stCtx.bar0.ctxBase.toNat + 128 * 1 + 128 ≤ devBytes ∧ stCtx.poisonedPa (stCtx.bar0.ctxBase.toNat + 128 * 1) 128 = false
    ∧ descOk ctxDesc = true ∧ stCtx.storeUsed (portStack (leAt ctxDesc 0x30 2)) + leAt ctxDesc 0x32 1 + 64 ≤ 16384
    ∧ stCtx.reap.ctx? 1 = none := by decide +kernel

/-- Points 0 and 1 of domain 0 may be used. -/
def stPoints : State := { st0 with bar0 := { st0.bar0 with vf := [(0, (1, 1, true)), (1, (2, 2, true))], resAddr := 0x6000 } }

theorem witness_register_controls : (0xD0000000 : Nat).testBit 30 = true ∧ (0xD0000000 : Nat).testBit 28 = true
    ∧ (0xB8000000 : Nat).testBit 31 = true ∧ 2 < nbits 0xB8000000 29 27 ∧ nbits 0x80800000 29 27 ≤ 2 ∧ nbits 0x80800000 26 24 ≠ 7
    ∧ nbits 0x80800000 23 22 ≠ 3 ∧ (st0.head 0).base < devBytes
    ∧ (st0.head 0).pclk.toNat * 24 * 132 ≤ lanePayload (nbits 0x80800000 26 24) * 2 ^ nbits 0x80800000 23 22
    ∧ st0.lim 0 2 < nbits 0xFFFF0001 31 16 ∧ (0xFFFF0001 : Nat).testBit 0 = true
    ∧ stPoints.vfEnabled 0 = [0, 1] ∧ vfRising ((stPoints.vfEnabled 0).map (stPoints.vfPoint 0)) = true ∧ stPoints.vfNow 0 ≠ 2
    ∧ nbits 0x90000000 29 28 = 1 ∧ 2 ≤ nbits 0xB0000000 29 28 ∧ nbits 0x80000000 29 28 = 0 ∧ stPoints.ctx? 0 ≠ none
    ∧ stPoints.bar0.resAddr.toNat % 64 = 0 ∧ stPoints.bar0.ctxBusy = none
    ∧ (match (devRead stPoints none 0 0 stPoints.bar0.resAddr 64).2 with
      | .ok _ => true
      | .error _ => false) = true
    ∧ ((({ stPoints with units := [], launches := [] } : State)).destroyContext 0).2 = none := by decide +kernel

theorem witness_windows : (8 : Nat) + 8 ≤ st0.bar4Size ∧ st0.up = true ∧ st0.bar0.cxl = true
    ∧ 64 + 64 ≤ ({ st0.bar0 with hdmSize := 1 } : Bar0).hdmSize * 2 ^ 30 ∧ devBytes - 64 + 64 ≤ devBytes ∧ (1 : Nat) ≠ st0.bar0.devNum
    ∧ (tget ({ st0 with flaw := [(2, 1)] } : State).flaw 2).isSome = true ∧ 32 * 2 < 64 + 8 ∧ (64 : Nat) < 32 * 2 + 32 := by decide +kernel

def stHead : State :=
  { st0 with heads := [(0, { en := true, link := true, fmt := 0, hact := 0x00010002, active := 0x40000, pitch := 64 })] }

theorem witness_board : 2 ≤ st0.dev.stage ∧ st0.tjMax ≤ (2000 : BitVec 16).toInt ∧ ((10 : BitVec 16).toInt < st0.tjMax + 80)
    ∧ st0.tjMax + 80 ≤ (32000 : BitVec 16).toInt ∧ (stHead.head 0).en = true ∧ (stHead.head 0).link = true
    ∧ 1 < (stHead.head 0).hact.toNat % 65536 ∧ 0 < (stHead.head 0).hact.toNat / 65536 ∧ stHead.poisonedPa 0x40004 4 = false
    ∧ paKey stHead ((stHead.head 0).active + 0 * (stHead.head 0).pitch.toNat + 1 * 4) = some 0x40004 ∧ paLocal 0x40004 = true
    ∧ (stHead.verifyN 0x40004 4).poisonedPa 0x40004 4 = false ∧ ({ stHead with poison := [0x40004 / 32] } : State).poisonedPa 0x40004 4 = true
    ∧ ownPa stHead 0x800000000000 = false ∧ 1300000 ≤ ({ st0 with svc := 1300000 } : State).svc - 0
    ∧ (0 : Nat) ≤ st0.pwrBound ∧ st0.bar0.pwrHist = [] := by
  decide +kernel

/-- The points that a record enables, with every point enabled. -/
def stVf : State := { st0 with bar0 := { st0.bar0 with vf := (List.range 64).map fun k => (k, 100, 700, true) } }

theorem witness_governor_update : (∀ d, d < 4 → ([0, 0, 0, 0] : List Nat).getD d 0 ∈ stVf.vfEnabled d) ∧ stVf.up = true := by
  decide +kernel

theorem witness_identity : 3 ≤ st0.dev.stage ∧ State.reset.dev.stage < 3 := by decide +kernel

theorem witness_rdlane : (∀ l ∈ pk0.active h0, pk0.x32 l 0 (k 16) = 1) ∧ issuesIn st0 (.rdlane ⟨h0, .v 1, v 2, k 16, 0⟩) = true := by
  decide +kernel

/-- The lanes whose p1 is set by ELECT, helpers marked. -/
def elected (ls : List Lane) : Option (List Bool) :=
  match exec (.elect h0 1) (stL ls) with
  | .next t => (t.group? 1 0).map fun g => g.lanes.map fun l => l.pred 1
  | _ => none

theorem witness_elect : issuesIn (stL [{ lane 0 with helper := true }, lane 1]) (.elect h0 1) = true
    ∧ ((pkL [{ lane 0 with helper := true }, lane 1]).active h0).map (·.idx) = [0, 1]
    ∧ elected [{ lane 0 with helper := true }, lane 1] = some [false, true]
    ∧ elected [{ lane 0 with helper := true }, { lane 1 with helper := true }] = some [true, false] := by decide +kernel

theorem witness_elect_lanes : (pk0.active h0).Pairwise (fun a b => a.idx < b.idx) ∧ pk0.active h0 ≠ []
    ∧ ∀ l ∈ pk0.active h0, l ∈ pk0.active h0 ∧ pk0.grp.lane? l.idx = some l := by decide +kernel

/-! ### Words, checks and steps -/

/-- A word from the fields of its format, the most significant first: (value, width). -/
def fields (l : List (Nat × Nat)) : BitVec 96 := BitVec.ofNat 96 (l.foldl (fun a f => a * 2 ^ f.2 + f.1 % 2 ^ f.2) 0)


/-- FFMA.rz.nc v5, v1, 0.5, v3^ field by field (R33, R48, R104), as the example of R115's chapter gives its bits. -/
theorem test_decode_float : fields [(0x3F000000, 32), (0b0000000010001, 13), (1, 1), (0, 1), (0, 1), (3, 8), (0xFF, 8), (1, 8), (5, 8), (0, 1),
      (0, 2), (0, 1), (7, 3), (0x082, 9)] = 0x3F000000008C03FF01050E82
    ∧ decode 0x3F000000008C03FF01050E82 = .ok (.ffma { FMod.none with rnd := .rz, nc := true }
        ⟨h0, .v 5, v 1, ⟨.imm, false⟩, ⟨.v 3, true⟩, 0x3F000000⟩) := ⟨rfl, rfl⟩

/-- The words of the examples in chapters 02, 03 and 09. -/
theorem test_decode_integer_and_control :
    decode 0x000000640001C0FF040A0E20 = .ok (.iadd .wrap ⟨h0, .v 10, ⟨.v 4, true⟩, ⟨.imm, false⟩, 100⟩)
    ∧ decode 0x000000000000C0F00A0B0E21 = .ok (.isub .wrap ⟨h0, .v 11, v 10, k 16, 0⟩)
    ∧ decode 0x0000000000000000C0C01201 = .ok (.bra ⟨1, true, .none⟩ 0 0)
    ∧ decode 0xFFFFFFF800000000C0C00E03 = .ok (.call h0 0x1FFFFFFF 0)
    ∧ decode 0x0000000000010000C0080E04 = .ok (.callx h0 ⟨.v 8, true⟩)
    ∧ decode 0x0000000000000000C0C00005 = .ok (.ret ⟨0, false, .none⟩)
    ∧ decode 0x0000000000C80000F3C00E09 = .ok (.rep h0 (k 19) 1 3)
    ∧ decode 0x000000002010C0C1C6060E3A = .ok (.lea64 true 4 ⟨h0, .v 6, ⟨.argpLo, false⟩, ⟨.lane, false⟩, 0⟩)
    ∧ decode 0x0000011C0000C0FF0B0C0E2F = .ok (.bfe false ⟨h0, .v 12, v 11, ⟨.imm, false⟩, 0x11C⟩) :=
  ⟨rfl, rfl, rfl, rfl, rfl, rfl, rfl, rfl, rfl⟩

/-- The words of the examples in chapters 02, 12, 18 and 19. -/
theorem test_decode_memory :
    decode 0x00000040A080C00208144F00 = .ok (.ld ⟨⟨7, false, .b⟩, .glb, .b32, .weak, .dev, false, false, 0, 2, 0x40, .v 20, v 8, v 2, z⟩)
    ∧ decode 0x000000002080_06C0040C0F02 = .ok (.atom ⟨h0, .glb, .b32, .weak, .dev, false, false, 0, 0, 0, .v 12, v 4, z, v 6⟩)
    ∧ decode 0x0000000826C008C0040A2F04 = .ok (.cas ⟨⟨7, false, .a⟩, .glb, .b64, .ar, .dev, false, false, 0, 0, 8, .v 10, v 4, z, v 8⟩)
    ∧ decode 0x010000002080C0C004070F05 = .ok (.red ⟨h0, .glb, .b32, .weak, .dev, true, false, 0, 0, 0, .v 7, v 4, z, z⟩)
    ∧ decode 0x020000002088C0C00B140F00 = .ok (.ld ⟨h0, .scr, .b32, .weak, .dev, false, true, 0, 0, 0, .v 20, v 11, z, z⟩)
    ∧ decode 0x000000002880C0C0C0C00F06 = .ok (.fence ⟨h0, .glb, .b32, .weak, .sys, false, false, 0, 0, 0, .zero, z, z, z⟩) :=
  ⟨rfl, rfl, rfl, rfl, rfl, rfl⟩

/-- The words of the examples in chapters 06, 07, 12, 18 and 19. -/
theorem test_decode_groups_and_blocks :
    decode 0x000000000081C0C0030A0F43 = .ok (.gfold .add .f32 ⟨h0, .v 10, ⟨.v 3, true⟩, 0⟩)
    ∧ decode 0x000000000008C0C009040F40 = .ok (.vote (.any 4) h0 ⟨true, 1⟩)
    ∧ decode 0x000000000000C0EFEFC00F48 = .ok (.barSync h0 (k 15) (k 15) 0)
    ∧ decode 0x000000000008C0C008090EE0 = .ok (.qpack .sx4 false false .cmpsel ⟨h0, .v 9, v 8, 0⟩)
    ∧ decode 0x000000000048C0C0080A0EE0 = .ok (.qpack .sx4 false true .cmpsel ⟨h0, .v 10, v 8, 0⟩)
    ∧ decode 0x00000000000809C0090B0EE1 = .ok (.qunpk .sx4 .cmpsel ⟨h0, .v 11, v 9, z, v 9, 0⟩)
    ∧ decode 0x000000050000C0C084C00FE4 = .ok (.keyset h0 (sr 4) 5) :=
  ⟨rfl, rfl, rfl, rfl, rfl, rfl, rfl⟩

/-- The words of the examples in chapters 08, 13, 14, 15, 16, 17 and 19. -/
theorem test_decode_engines :
    decode 0x0100400300008CC088842F61 = .ok (.cpy .scr 0 false ⟨⟨7, false, .a⟩, .s 4, sr 8, z, sr 12, ⟨true, 0x40, 3⟩⟩)
    ∧ decode 0x000C0A020000C01810C00F83 = .ok (.mma ⟨h0, v 16, v 24, 0, 0, 12, 10, 2⟩)
    ∧ decode 0x000001000008C0C0C0020F80 = .ok (.tclaim true h0 2 0 1)
    ∧ decode 0x000000000000C0C0040A0FA0 = .ok (.bnew h0 (.v 10) (v 4))
    ∧ decode 0x000000FF0000F7940A0C2FA1 = .ok (.btrace ⟨7, false, .a⟩ (.v 12) (v 10) (sr 20) (k 23) 255)
    ∧ decode 0x000000000000C0C00AC00FA3 = .ok (.bfree h0 .zero (v 10))
    ∧ decode 0x0000009007F8140C08282FA8 = .ok (.rtrace false 255 ⟨7, false, .a⟩ (.v 40) (v 8) (v 12) (v 20) 0x90)
    ∧ decode 0x0000000000100C8804104FB0 = .ok (.tex .tri .grad false ⟨⟨7, false, .b⟩, .v 16, v 4, sr 8, v 12⟩) :=
  ⟨rfl, rfl, rfl, rfl, rfl, rfl, rfl, rfl⟩

theorem test_decode_joins_and_launches :
    decode 0x000000000018C0F094C00FC2 = .ok (.wait 3 h0 (.list (sr 20) (k 16)))
    ∧ decode 0x001000100000C0C004C02FC0 = .ok (.post ⟨7, false, .a⟩ (v 4) (.imm false 0 0x10))
    ∧ decode 0x000000000000C01228C00DC0 = .ok (.post ⟨6, false, .none⟩ (v 40) (.reg (v 18)))
    ∧ decode 0x001001000000C0C0F0012FC6 = .ok (.portcfg ⟨7, false, .a⟩ (.v 1) (k 16) (.imm false 0 0x100) z)
    ∧ decode 0x000000000000C6F294062FC4 = .ok (.patset ⟨7, false, .a⟩ (.v 6) (sr 20) (k 18) ⟨.argpLo, false⟩)
    ∧ decode 0x000000000000C0C008042FC8 = .ok (.launchCard ⟨7, false, .a⟩ (.v 4) (v 8)) := ⟨rfl, rfl, rfl, rfl, rfl, rfl⟩

/-- R33 to R61: what the decoder refuses: header bit 15, CF 11, an operand specifier between 0xC8 and 0xDF, a field that must hold 0,
a pair at an odd register. -/
theorem test_decode_refuses : decode 0x0000000000000000C0C08E00 = .error .illop ∧ decode 0x0000000000000000C0C06E00 = .error .illop
    ∧ decode 0x000000000000C0030200C820 = .error .illop ∧ decode 0x000000010000C0C0C0C00E00 = .error .illop
    ∧ decode 0x000000002010C0C107060E3A = .error .illopd := ⟨rfl, rfl, rfl, rfl, rfl⟩

/-- Ill-formed terms, one for each check: an event; a field that must be 0; a pair at an odd register; a term that says more than its
word (a combination without its predicate). -/
theorem test_ill_formed : Instr.wellFormed (.supplyDroop) = false ∧ Instr.wellFormed (.wait 0 h0 (.imm 3)) = true
    ∧ Instr.wellFormed (.fspec .rcp { FMod.none with rnd := .rz } o1) = false ∧ Instr.wellFormed (.fspec .sqrt { FMod.none with rnd := .rz } o1) = true
    ∧ Instr.wellFormed (.iadd64 ⟨h0, .v 5, v 8, v 8, 0⟩) = false ∧ Instr.wellFormed (.iadd64 d2) = true
    ∧ Instr.wellFormed (.iset true .lt .or oc) = false ∧ Instr.wellFormed (.iset true .lt .or { oc with pc := some ⟨false, 1⟩ }) = true := by
  decide +kernel

/-- The class, the fields, the shape and the term, each refused by its own check. -/
theorem test_checks : Instr.cls .supplyDroop = .event ∧ (Instr.fspec .rcp { FMod.none with rnd := .rz } o1).legal = false
    ∧ (Instr.iadd64 ⟨h0, .v 5, v 8, v 8, 0⟩).shapeOk = false ∧ (Instr.iset true .lt .or oc).plain = false := by decide +kernel

theorem witness_round_trip : Instr.wellFormed (.ld mLd) = true ∧ (match decode 0x000000640001C0FF040A0E20 with
    | .ok i => i.wellFormed && encode i == some 0x000000640001C0FF040A0E20
    | .error _ => false) = true := by decide +kernel

/-! ### Results -/

/-- The conversions of the table after R114. -/
theorem test_conversions : (f2f .rn .f32 .f16 0x3F800001).val = 0x3C00 ∧ (f2f .rn .f32 .f16 0x477FF000).val = 0x7C00
    ∧ (f2f .rz .f32 .f16 0x477FF000).val = 0x7BFF ∧ (f2f .rn .f32 .f16 0x33000000).val = 0 ∧ (f2f .rn .f32 .f16 0x33400000).val = 1
    ∧ (f2f .rn .f32 .bf16 0x3F808000).val = 0x3F80 ∧ (f2f .rn .f32 .bf16 0x3F818000).val = 0x3F82
    ∧ (f2i .rz .f32 .s32 0xC0300000).val = 0xFFFFFFFE ∧ (f2i .rn .f32 .s32 0x4F32D05E).val = 0x7FFFFFFF
    ∧ (f2i .rn .f32 .u32 0x4F32D05E).val = 0xB2D05E00 ∧ (f2i .rn .f32 .u8 0x7FC00000).val = 0
    ∧ i2i .s32 .s8 true 0xFFFFFF00 = 0xFFFFFF80 ∧ i2i .s32 .u8 false 0xFFFFFF00 = 0 := by decide +kernel

/-- The arithmetic of the same table, with its `fpst` bits (R17: NV, DZ, OF, UF, NX from bit 0 up). -/
theorem test_arithmetic : (fp32.add .rn (fp32.val 0x3F800000) (fp32.val 0x33800000)).val = 0x3F800000
    ∧ (fp32.add .ru (fp32.val 0x3F800000) (fp32.val 0x33800000)).val = 0x3F800001
    ∧ (fp32.minMax false 0x80000000 0).val = 0x80000000 ∧ (fp32.minMax false 0x7F800001 0x40000000).val = 0x40000000
    ∧ (fp32.scale .rn 0x3FC00000 (-149)).val = 2 ∧ (fp32.scale .rn 0x3FC00000 (-149)).fp ≠ 0 := by decide +kernel

/-! ### Steps -/

/-- IADD v1, 5, 7. -/
def sumWord : Nat := 0x000000000000C0F6F4010E20

def placed : State := State.reset.withFetchWord 96 sumWord

def stateOf (a : Answer) : Option State :=
  match a with
  | .next s => some s
  | _ => none

theorem test_step : (stateOf (step placed)).map (fun t => (t.vregOf 1 0 0 1, t.pcOf 1 0 0, t.cur)) = some (12, some 0x10001, none) := by
  decide +kernel

def ticked : State := ({ placed with agenda := [] } : State).tick 1 1

def settled (q : Nat) : State := settleQuad { ticked.flushKilled with repNext := none } q

/-- The lanes of the packet that quadrant q issues, and its word. -/
def firstPacket (q : Nat) : Option (List Nat × Option (BitVec 96)) :=
  (choosePk (settled q) q).map fun x => (x.2.lanes, (x.1.lineAt x.2).map fun line => slotWord line (x.2.pc.toNat % 8))

def dueOk (s : State) (pc : Dword) (d : Due) : Bool :=
  match s.team? 1, s.group? 1 0 with
  | some t, some g => (match (dueLine s t g pc d).2 with
    | .ok l => l == codeLine sumWord
    | .error _ => false)
  | _, _ => false

theorem witness_step : repLive ticked = none ∧ firstPacket 0 = some ([0], some (BitVec.ofNat 96 sumWord)) ∧ firstPacket 5 = none
    ∧ ((settled 0).team? 1).isSome = true ∧ dueOk ticked 0x10000 (.entry false) = true
    ∧ decode (BitVec.ofNat 96 sumWord) = .ok (.iadd .wrap ⟨h0, .v 1, k 20, k 22, 0⟩) :=
  ⟨by decide +kernel, by decide +kernel, by decide +kernel, by decide +kernel, by decide +kernel, rfl⟩

/-- A REP has left its governed instruction for the packet of lane 0. -/
def stRepLeft : State := { st0 with repNext := some ({ iss with rep := some 0x10000 }, .iadd .wrap o2), agenda := [{ act := .issue 0 }] }

/-- Lane 1 holds the line that lane 0 enters. -/
theorem witness_line_shared : (let s := stL [{ lane 0 with entry := .fresh true }, { lane 1 with line := some (codeLine nopWord) }]
      (s.lane? 1 0 1).map (fun l => l.line.isSome && l.pc.toNat / 64 == (0x10000 : Dword).toNat / 64) = some true
      ∧ ((s.lane? 1 0 0).map (·.entry)) = some (.fresh true) ∧ dueOk placed 0x10000 (.entry true) = true) := by decide +kernel

theorem witness_step_rep : (repLive (({ stRepLeft with agenda := [] } : State).tick 1 1)).isSome = true := by decide +kernel

theorem witness_invariant : placed.memOk ∧ placed.cur = none ∧ (stateOf (step placed)).isSome = true := by
  refine ⟨?_, ?_, ?_⟩ <;> first | (unfold State.memOk; decide +kernel) | decide +kernel

end Sys2Proof.Tests
end

section
/-! SUPPORT. What a data exchange of a group does when it issues (R145 to R152): the state that it leaves, where its results stand, and
that its lanes go on. -/

namespace Sys2Proof.Machine

/-! ### Lanes that have gone on -/

theorem Lane.given_place (l : Lane) (d : Spec) (w : Nat) (vals : List (Nat × Nat)) :
    (l.given d w vals).pc = l.pc ∧ (l.given d w vals).rep = l.rep ∧ (l.given d w vals).repN = l.repN := by
  unfold Lane.given
  split
  · split <;> simp
  · simp

/-- The lanes of a packet have gone on when each is changed in its own place, its PC as `Lane.advance` says. -/
theorem State.Shows.wentOn {t : State} {p : Pk} {f : Lane → Lane} {sr : NMap Word} {fp : BitVec 5}
    (ht : t.Shows p.iss.uid p.iss.grp (p.grp.lanes.map f) sr fp) (hidx : ∀ l, (f l).idx = l.idx)
    (hpc : ∀ l, p.iss.lanes.contains l.idx = true → (f l).pc = (l.advance p.iss).pc) : p.wentOn t := by
  intro l hl
  simp only [Pk.lanes, List.mem_filter] at hl
  rw [State.pcOf, Shows.lane_map ht hidx, Option.map_map]
  refine Option.map_congr fun x hx => hpc x ?_
  have hx : x.idx = l.idx := Group.lane?_idx hx
  rw [hx]
  exact hl.2

/-- What a state shows of an active lane when each lane of its group is changed in its own place. -/
theorem State.Shows.lane_actsOn {t : State} {p : Pk} {h : Hdr} {f : Lane → Lane} {sr : NMap Word} {fp : BitVec 5}
    (ht : t.Shows p.iss.uid p.iss.grp (p.grp.lanes.map f) sr fp) (hidx : ∀ l, (f l).idx = l.idx) {l : Lane} (hl : p.actsOn h l) :
    t.lane? p.iss.uid p.iss.grp l.idx = some (f l) := by
  obtain ⟨-, hl⟩ := hl
  unfold Group.lane? at hl
  rw [Shows.lane_map ht hidx, hl]
  rfl

/-! ### Results in a register -/

/-- The results, by lane, of an exchange whose value is `val`: each active lane finds its own, and the lowest one's comes first, for
the scalar path (R41). -/
def Pk.answers (p : Pk) (h : Hdr) (vals : List (Nat × Nat)) (val : Lane → Nat) : Prop :=
  (∀ l, p.actsOn h l → vals.find? (·.1 == l.idx) = some (l.idx, val l))
    ∧ ∀ l, (p.active h).head? = some l → vals.head? = some (l.idx, val l)

theorem Pk.answers_map (p : Pk) (h : Hdr) (val : Lane → Nat) : p.answers h ((p.active h).map fun l => (l.idx, val l)) val :=
  ⟨fun l hl => find?_map_idx _ val l (active_find hl).1, fun l hl => by simp [hl]⟩

/-- Each active lane finds its result where the results name the active lanes in their order. -/
theorem Pk.answers_find {p : Pk} {h : Hdr} {vals : List (Nat × Nat)} (hv : vals.map (·.1) = (p.active h).map (·.idx)) :
    p.answers h vals fun l => ((vals.find? (·.1 == l.idx)).map (·.2)).getD 0 := by
  refine ⟨fun l hl => ?_, fun l hl => ?_⟩
  · have hmem : l.idx ∈ vals.map (·.1) := hv ▸ List.mem_map_of_mem hl.1
    obtain ⟨e, he, hidx⟩ := List.mem_map.1 hmem
    dsimp only
    cases hx : vals.find? (·.1 == l.idx) with
    | none => exact absurd hidx (by simpa using List.find?_eq_none.1 hx e he)
    | some x =>
      have hidx : x.1 = l.idx := by simpa using List.find?_some hx
      simp [← hidx]
  · have hhead := congrArg List.head? hv
    rw [List.head?_map, List.head?_map, hl] at hhead
    obtain ⟨e, he, hidx⟩ := Option.map_eq_some_iff.1 hhead
    obtain ⟨r, rfl⟩ := List.head?_eq_some_iff.1 he
    simp [← hidx]

/-- The results of an exchange as those of an instruction that computes one per lane. -/
def plainRes (vals : List (Nat × Nat)) : List (Nat × Res) := vals.map fun e => (e.1, Res.of e.2)

@[simp] theorem plainRes_vals (vals : List (Nat × Nat)) : (plainRes vals).map (fun r => (r.1, r.2.val)) = vals := by
  simp [plainRes, Res.of, Function.comp_def]

/-- A data exchange that computes values, when nothing holds it back, runs its effect on the state that its issue leaves. -/
theorem groupAlu_of_issues {i : Instr} {h : Hdr} {f : Pk → List Lane → List (Nat × Nat) × BitVec 5} {s : State} {p : Pk}
    (hp : pk? s = some p) (hi : p.issues i h (instrDst i) s = true) :
    groupAlu i h f s = .next (((((s.issued p h (instrDst i)).updGroup p.iss.uid p.iss.grp
      (·.orFpst (f p (p.active h)).2)).kill p ((p.active h).map (·.idx)) (shapeKills i.shape)).writeDst p
        (i.shape.dst.getD ⟨.zero, 1, false⟩).spec (i.shape.dst.getD ⟨.zero, 1, false⟩).w (f p (p.active h)).1).advance p
          p.iss.lanes) := by
  unfold groupAlu issue
  rw [issueWith_of_issues (names := fun _ => instrDst i) hp hi rfl rfl]
  simp only [trapPk_nil hp]

/-- What it leaves: lanes and s-registers with its results, and the exception bits that it raises. -/
theorem groupAlu_shows {i : Instr} {h : Hdr} {f : Pk → List Lane → List (Nat × Nat) × BitVec 5} {s : State} {p : Pk} {d : Spec}
    {w : Nat} {vo : Bool} (hp : pk? s = some p) (hi : p.issues i h (instrDst i) s = true) (hd : i.shape.dst = some ⟨d, w, vo⟩) :
    ∃ t, groupAlu i h f s = .next t ∧ t.Shows p.iss.uid p.iss.grp
      (p.grp.lanes.map (·.afterAlu i h p (plainRes (f p (p.active h)).1))) (Group.given p.grp.s d w (f p (p.active h)).1)
      (p.grp.fpst ||| (f p (p.active h)).2) := by
  refine ⟨_, groupAlu_of_issues hp hi, ?_⟩
  have hs := ((((issued_shows (h := h) (names := instrDst i) hp).orFpst (f p (p.active h)).2).kill ((p.active h).map (·.idx))
    (shapeKills i.shape)).writeDst d w (f p (p.active h)).1).updPkLanes p.iss.lanes (·.advance p.iss)
  simp only [hd, Option.getD_some]
  refine cast ?_ hs
  congr 1
  simp only [List.map_map]
  congr 1
  funext l
  simp only [Function.comp, Lane.afterAlu, hd, Option.getD_some, plainRes_vals, Lane.given_idx, apply_ite Lane.idx,
    Lane.unmap_idx, Lane.committed_idx, ite_self]

theorem Lane.afterAlu_pc (l : Lane) (i : Instr) (h : Hdr) (p : Pk) (vals : List (Nat × Res))
    (hl : p.iss.lanes.contains l.idx = true) : (l.afterAlu i h p vals).pc = (l.advance p.iss).pc := by
  obtain ⟨hpc, hrep, hrepN, -⟩ := l.committed_same p.iss
  simp only [Lane.afterAlu, hl, if_true]
  refine Lane.advance_pc_congr _ ?_ ?_ ?_ <;> simp only [Lane.given_place] <;> split <;> simp [hpc, hrep, hrepN]

/-- A destination register of an active lane after the instruction. -/
theorem Lane.afterAlu_vreg {l : Lane} {i : Instr} {h : Hdr} {p : Pk} {vals : List (Nat × Nat)} {n : BitVec 7} {w k x : Nat}
    {vo : Bool} (hd : i.shape.dst = some ⟨.v n, w, vo⟩) (hl : p.actsOn h l)
    (hx : vals.find? (·.1 == l.idx) = some (l.idx, x)) (hk : k < w) (hr : n.toNat + k ∉ p.iss.repKill) :
    (l.afterAlu i h p (plainRes vals)).vreg (n.toNat + k) = word (x / 2 ^ (32 * k)) := by
  simp only [Lane.afterAlu, (active_find hl).2, mem_active_idx hl, if_true, hd, Option.getD_some, plainRes_vals]
  rw [Lane.vreg_advance _ _ _ hr]
  simp only [Lane.given, Lane.unmap_idx, Lane.committed_idx, hx]
  rw [Lane.vreg_writeV, if_pos ⟨by omega, by simp; omega⟩, Nat.add_sub_cancel_left, wordsOf_get _ _ _ hk]

/-- A destination s-register of a group after a write of results. -/
theorem Group.given_sreg {sr : NMap Word} {n : BitVec 6} {w k x : Nat} {vals : List (Nat × Nat)} {a : Nat}
    (hx : vals.head? = some (a, x)) (hk : k < w) :
    tgetD (Group.given sr (.s n) w vals) (n.toNat + k) 0 = word (x / 2 ^ (32 * k)) := by
  obtain ⟨r, rfl⟩ := List.head?_eq_some_iff.1 hx
  have h := Group.sreg_writeS ({ idx := 0, s := sr } : Group) n.toNat (wordsOf x w) (n.toNat + k)
  rwa [if_pos ⟨by omega, by simp; omega⟩, Nat.add_sub_cancel_left, wordsOf_get _ _ _ hk] at h

/-- The results stand in the destination. -/
theorem State.Shows.wrote {t : State} {i : Instr} {h : Hdr} {p : Pk} {vals : List (Nat × Nat)} {val : Lane → Nat} {d : Spec}
    {w : Nat} {vo : Bool} {fp : BitVec 5} (hd : i.shape.dst = some ⟨d, w, vo⟩) (hv : p.answers h vals val)
    (ht : t.Shows p.iss.uid p.iss.grp (p.grp.lanes.map (·.afterAlu i h p (plainRes vals))) (Group.given p.grp.s d w vals) fp) :
    p.wrote t h d w val := by
  obtain ⟨hfind, hhead⟩ := hv
  cases d with
  | v n =>
    intro l hl k hk hr
    rw [State.vregOf, ht.lane_actsOn (fun _ => Lane.afterAlu_idx ..) hl]
    exact Lane.afterAlu_vreg hd hl (hfind l hl) hk hr
  | s n =>
    intro l hl k hk
    obtain ⟨g, hg, his⟩ := ht
    rw [State.sregOf, hg, Option.map_some, Option.getD_some, Group.sreg, his.s]
    exact Group.given_sreg (hhead l hl) hk
  | _ => trivial

/-- A data exchange that computes values completes: its results stand in its destination, its lanes have gone on, and its exception
bits have joined `fpst`. -/
theorem groupAlu_completes {i : Instr} {h : Hdr} {f : Pk → List Lane → List (Nat × Nat) × BitVec 5} {s : State} {p : Pk} {d : Spec}
    {w : Nat} {vo : Bool} {val : Lane → Nat} (hp : pk? s = some p) (hi : p.issues i h (instrDst i) s = true)
    (hd : i.shape.dst = some ⟨d, w, vo⟩) (hv : p.answers h (f p (p.active h)).1 val) :
    ∃ t, groupAlu i h f s = .next t ∧ p.wrote t h d w val ∧ p.wentOn t
      ∧ t.fpstOf p.iss.uid p.iss.grp = p.grp.fpst ||| (f p (p.active h)).2 := by
  obtain ⟨t, ht, hs⟩ := groupAlu_shows (f := f) hp hi hd
  refine ⟨t, ht, hs.wrote hd hv, hs.wentOn (fun _ => Lane.afterAlu_idx ..) fun l hl => l.afterAlu_pc i h p _ hl, ?_⟩
  obtain ⟨g, hg, his⟩ := hs
  rw [State.fpstOf, hg, Option.map_some, Option.getD_some, his.fpst]

/-- The same of an exchange that raises nothing. -/
theorem groupAlu_gives {i : Instr} {h : Hdr} {f : Pk → List Lane → List (Nat × Nat) × BitVec 5} {s : State} {p : Pk} {d : Spec}
    {w : Nat} {vo : Bool} {val : Lane → Nat} (hp : pk? s = some p) (he : exec i s = groupAlu i h f s)
    (hd : i.shape.dst = some ⟨d, w, vo⟩) (hv : (f p (p.active h)).1 = (p.active h).map fun l => (l.idx, val l)) :
    p.gives s i h d w val := by
  intro hi
  obtain ⟨t, ht, hw, hon, -⟩ := groupAlu_completes (f := f) hp hi hd (hv ▸ p.answers_map h val)
  exact ⟨t, he.trans ht, hw, hon⟩

/-- The same of an exchange that raises the exception bits of its results. -/
theorem groupAlu_givesFp {i : Instr} {h : Hdr} {f : Pk → List Lane → List (Nat × Nat) × BitVec 5} {s : State} {p : Pk} {d : Spec}
    {w : Nat} {vo : Bool} {res : Lane → Res} (hp : pk? s = some p) (he : exec i s = groupAlu i h f s)
    (hd : i.shape.dst = some ⟨d, w, vo⟩) (hv : p.answers h (f p (p.active h)).1 fun l => (res l).val)
    (hfp : p.grp.fpst ||| (f p (p.active h)).2
      = ((if d.isS then (p.active h).take 1 else p.active h).map res).foldl (fun a r => a ||| r.fp) p.grp.fpst) :
    p.givesFp s i h d w res := by
  intro hi
  obtain ⟨t, ht, hw, hon, hf⟩ := groupAlu_completes (f := f) hp hi hd hv
  exact ⟨t, he.trans ht, hw, hon, hf.trans hfp⟩

/-! ### Results in a predicate -/

/-- A lane after a write of results to a predicate. -/
def Lane.givenPred (l : Lane) (pd : BitVec 3) (vals : List (Nat × Bool)) : Lane :=
  match vals.find? (·.1 == l.idx) with
  | some (_, b) => l.setPred pd b
  | none => l

@[simp] theorem Lane.givenPred_idx (l : Lane) (pd : BitVec 3) (vals : List (Nat × Bool)) : (l.givenPred pd vals).idx = l.idx := by
  unfold Lane.givenPred; split <;> simp

theorem Lane.givenPred_place (l : Lane) (pd : BitVec 3) (vals : List (Nat × Bool)) :
    (l.givenPred pd vals).pc = l.pc ∧ (l.givenPred pd vals).rep = l.rep ∧ (l.givenPred pd vals).repN = l.repN := by
  unfold Lane.givenPred; split <;> simp

/-- A lane after a data exchange that writes a predicate: its issue counted, its result written, gone on. -/
def Lane.afterPred (l : Lane) (h : Hdr) (p : Pk) (pd : BitVec 3) (vals : List (Nat × Bool)) : Lane :=
  let l1 := l.committed p.iss
  let l2 := if ((p.active h).map (·.idx)).contains l.idx then l1.givenPred pd vals else l1
  if p.iss.lanes.contains l.idx then l2.advance p.iss else l2

@[simp] theorem Lane.afterPred_idx (l : Lane) (h : Hdr) (p : Pk) (pd : BitVec 3) (vals : List (Nat × Bool)) :
    (l.afterPred h p pd vals).idx = l.idx := by
  unfold Lane.afterPred; dsimp only; split <;> split <;> simp

theorem Lane.afterPred_pc (l : Lane) (h : Hdr) (p : Pk) (pd : BitVec 3) (vals : List (Nat × Bool))
    (hl : p.iss.lanes.contains l.idx = true) : (l.afterPred h p pd vals).pc = (l.advance p.iss).pc := by
  obtain ⟨hpc, hrep, hrepN, -⟩ := l.committed_same p.iss
  simp only [Lane.afterPred, hl, if_true]
  refine Lane.advance_pc_congr _ ?_ ?_ ?_ <;> split <;> simp [Lane.givenPred_place, hpc, hrep, hrepN]

/-- The written predicate of an active lane after the exchange; pt takes nothing (R14). -/
theorem Lane.afterPred_pred {l : Lane} {h : Hdr} {p : Pk} {pd : BitVec 3} {vals : List (Nat × Bool)} {b : Bool} (hl : p.actsOn h l)
    (hb : vals.find? (·.1 == l.idx) = some (l.idx, b)) : (l.afterPred h p pd vals).pred pd = (pd == 7 || b) := by
  have hpred (x : Lane) (iss : Issue) : (x.advance iss).pred pd = x.pred pd := by simp [Lane.pred]
  simp only [Lane.afterPred, (active_find hl).2, mem_active_idx hl, if_true, hpred, Lane.givenPred, Lane.committed_idx, hb,
    Lane.pred_setPred]
  by_cases h7 : pd = 7#3
  · simp [h7, Lane.pred]
  · simp [h7]

/-- A data exchange that writes a predicate, when nothing holds it back, runs its effect on the state that its issue leaves. -/
theorem groupPred_of_issues {i : Instr} {h : Hdr} {pd : BitVec 3} {f : List Lane → Lane → Bool} {s : State} {p : Pk}
    (hp : pk? s = some p) (hi : p.issues i h (instrDst i) s = true) :
    groupPred i h pd f s = .next ((((s.issued p h (instrDst i)).updGroup p.iss.uid p.iss.grp
      (·.supersedeP ((p.active h).map (·.idx)) [pd.toNat])).updPkLanes p ((p.active h).map (·.idx))
        (·.givenPred pd ((p.active h).map fun l => (l.idx, f (p.active h) l)))).advance p p.iss.lanes) := by
  unfold groupPred issue
  rw [issueWith_of_issues (names := fun _ => instrDst i) hp hi rfl rfl]
  simp only [trapPk_nil hp]
  rfl

theorem State.Shows.supersedeP {s : State} {u k : Nat} {ls : List Lane} {sr : NMap Word} {fp : BitVec 5}
    (h : s.Shows u k ls sr fp) (is ns : List Nat) : (s.updGroup u k (·.supersedeP is ns)).Shows u k ls sr fp :=
  h.upd (by intro; rfl) fun g hg => ⟨hg.idx, hg.lanes, hg.s, hg.fpst⟩

theorem groupPred_shows {i : Instr} {h : Hdr} {pd : BitVec 3} {f : List Lane → Lane → Bool} {s : State} {p : Pk}
    (hp : pk? s = some p) (hi : p.issues i h (instrDst i) s = true) :
    ∃ t, groupPred i h pd f s = .next t ∧ t.Shows p.iss.uid p.iss.grp
      (p.grp.lanes.map (·.afterPred h p pd ((p.active h).map fun l => (l.idx, f (p.active h) l)))) p.grp.s p.grp.fpst := by
  refine ⟨_, groupPred_of_issues hp hi, ?_⟩
  have hs := (((issued_shows (h := h) (names := instrDst i) hp).supersedeP ((p.active h).map (·.idx)) [pd.toNat]).updPkLanes
    ((p.active h).map (·.idx)) (·.givenPred pd ((p.active h).map fun l => (l.idx, f (p.active h) l)))).updPkLanes
      p.iss.lanes (·.advance p.iss)
  refine cast ?_ hs
  congr 1
  simp only [List.map_map]
  congr 1
  funext l
  simp only [Function.comp, Lane.afterPred, Lane.givenPred_idx, apply_ite Lane.idx, Lane.committed_idx, ite_self]

/-- A data exchange that writes a predicate completes, and each active lane has its result. -/
theorem groupPred_givesPred {i : Instr} {h : Hdr} {pd : BitVec 3} {f : List Lane → Lane → Bool} {s : State} {p : Pk}
    {val : Lane → Bool} (hp : pk? s = some p) (he : exec i s = groupPred i h pd f s)
    (hv : ∀ l ∈ p.active h, f (p.active h) l = val l) : p.givesPred s i h pd val := by
  intro hi
  obtain ⟨t, ht, hs⟩ := groupPred_shows (pd := pd) (f := f) hp hi
  refine ⟨t, he.trans ht, hs.wentOn (by simp) fun l hl => l.afterPred_pc h p pd _ hl, fun l hl => ?_⟩
  have hfind : ((p.active h).map fun x => (x.idx, f (p.active h) x)).find? (·.1 == l.idx) = some (l.idx, val l) := by
    rw [List.find?_map]
    simp only [Function.comp_def, (active_find hl).1, Option.map_some, hv l hl.1]
  rw [State.predOf, hs.lane_actsOn (by simp) hl]
  exact Lane.afterPred_pred hl hfind

/-! ### Folds and scans -/

theorem comb_isSome (op : FoldOp) (ty : FoldTy) (x y : Option Res) : (comb op ty x y).isSome = (x.isSome || y.isSome) := by
  cases x <;> cases y <;> rfl

/-- One level of the tree has a value where one of the two positions below it has one. -/
theorem foldPairs_isSome (op : FoldOp) (ty : FoldTy) (v : List (Option Res)) (m : Nat) :
    ((foldPairs op ty v).getD m none).isSome = ((v.getD (2 * m) none).isSome || (v.getD (2 * m + 1) none).isSome) := by
  induction v using foldPairs.induct generalizing m with
  | case1 a b r ih =>
    cases m with
    | zero => simp [foldPairs, comb_isSome]
    | succ m => simpa [foldPairs, Nat.mul_succ] using ih m
  | case2 v hv =>
    match v, m with
    | [], _ => simp [foldPairs]
    | [a], 0 => simp [foldPairs]
    | [a], m + 1 => simp [foldPairs, Nat.mul_succ]
    | a :: b :: r, _ => exact absurd rfl (hv a b r)

/-- R151: the tree over 2^n positions has a value when one of them has one. -/
theorem foldTree_isSome (op : FoldOp) (ty : FoldTy) (n : Nat) (v : List (Option Res)) :
    (foldTree op ty v n).isSome = true ↔ ∃ k, k < 2 ^ n ∧ (v.getD k none).isSome = true := by
  induction n generalizing v with
  | zero => simp [foldTree]
  | succ n ih =>
    rw [foldTree, ih]
    simp only [foldPairs_isSome, Bool.or_eq_true]
    constructor
    · rintro ⟨m, hm, h | h⟩
      · exact ⟨2 * m, by omega, h⟩
      · exact ⟨2 * m + 1, by omega, h⟩
    · rintro ⟨k, hk, h⟩
      refine ⟨k / 2, by omega, ?_⟩
      obtain hk | hk : k = 2 * (k / 2) ∨ k = 2 * (k / 2) + 1 := by omega
      · exact .inl (hk ▸ h)
      · exact .inr (hk ▸ h)

/-- The lane positions of a GFOLD, an active lane's value at its number (R151). -/
def Pk.foldLeaves (p : Pk) (o : Op1) : List (Option Res) :=
  (List.range 256).map fun k => ((p.active o.h).find? (·.idx == k)).map fun l => Res.of (p.x32 l o.imm o.a)

theorem Pk.foldLeaves_getD (p : Pk) (o : Op1) {k : Nat} (hk : k < 256) : (p.foldLeaves o).getD k none
    = ((p.active o.h).find? (·.idx == k)).map fun l => Res.of (p.x32 l o.imm o.a) := by
  rw [Pk.foldLeaves, List.getD_eq_getElem?_getD, List.getElem?_map, List.getElem?_range hk]
  rfl

/-- A GFOLD has a value exactly when a lane is active. -/
theorem foldLeaves_isSome {p : Pk} (op : FoldOp) (ty : FoldTy) (o : Op1) (hlt : ∀ l ∈ p.grp.lanes, l.idx < 256) :
    (foldTree op ty (p.foldLeaves o) 8).isSome = true ↔ p.active o.h ≠ [] := by
  rw [foldTree_isSome]
  constructor
  · rintro ⟨k, hk, hs⟩ hnil
    rw [p.foldLeaves_getD o hk, hnil] at hs
    exact absurd hs (by simp)
  · intro hne
    obtain ⟨l, hl⟩ := List.exists_mem_of_ne_nil _ hne
    have hidx : l.idx < 256 := hlt l (List.mem_filter.1 (List.mem_filter.1 hl).1).1
    refine ⟨l.idx, hidx, ?_⟩
    rw [p.foldLeaves_getD o hidx, Option.isSome_map, List.find?_isSome]
    exact ⟨l, hl, by simp⟩

/-- ORing the same bits for each of some lanes is ORing them once. -/
theorem foldl_or_const {α : Type} (ls : List α) (hne : ls ≠ []) (c b : BitVec 5) : ls.foldl (fun a _ => a ||| b) c = c ||| b := by
  induction ls generalizing c with
  | nil => exact absurd rfl hne
  | cons x r ih =>
    rw [List.foldl_cons]
    cases r with
    | nil => rfl
    | cons y r => rw [ih (by simp), BitVec.or_assoc, BitVec.or_self]

/-- The exception bits of some lanes, ORed together first. -/
theorem foldl_or_start {α : Type} (ls : List α) (f : α → BitVec 5) (c : BitVec 5) :
    c ||| ls.foldl (fun a x => a ||| f x) 0 = ls.foldl (fun a x => a ||| f x) c := by
  have h := List.foldl_assoc (op := fun (x y : BitVec 5) => x ||| y) (l := ls.map f) (a₁ := c) (a₂ := 0)
  simpa [List.foldl_map] using h.symm

/-- A scan has one result for each value, in the values' order. -/
theorem scanLanes_lanes (op : FoldOp) (ty : FoldTy) (exc : Bool) (acc : Option Res) (xs : List (Nat × Nat)) :
    (scanLanes op ty exc acc xs).1.map (·.1) = xs.map (·.1) := by
  induction xs generalizing acc with
  | nil => rfl
  | cons x r ih => simp [scanLanes, ih]

/-! ### The exchanges -/

theorem exec_vote_all (pd : BitVec 3) (h : Hdr) (pa : PSrc) (s : State) : exec (.vote (.all pd) h pa) s
    = groupPred (.vote (.all pd) h pa) h pd (fun act _ => act.all (·.psrc pa)) s := rfl

theorem exec_vote_any (pd : BitVec 3) (h : Hdr) (pa : PSrc) (s : State) : exec (.vote (.any pd) h pa) s
    = groupPred (.vote (.any pd) h pa) h pd (fun act _ => act.any (·.psrc pa)) s := rfl

theorem exec_vote_eq (pd : BitVec 3) (h : Hdr) (pa : PSrc) (s : State) : exec (.vote (.eq pd) h pa) s
    = groupPred (.vote (.eq pd) h pa) h pd (fun act l => act.all fun j => j.psrc pa == l.psrc pa) s := rfl

theorem exec_vote_ballot (d : Spec) (b : Src) (imm : Word) (h : Hdr) (pa : PSrc) (s : State) :
    exec (.vote (.ballot d b imm) h pa) s = groupAlu (.vote (.ballot d b imm) h pa) h (fun p act => (act.map fun l =>
      let k := (p.read32 l imm b.spec).toNat % 8
      (l.idx, bitsNat (fun n => act.any fun j => j.idx == 32 * k + n && j.psrc pa) 32), 0)) s := rfl

/-- R145: all the lanes agree with one of them when all have 1 or all have 0. -/
theorem vote_eq_agrees (ls : List Lane) (pa : PSrc) {l : Lane} (hl : l ∈ ls) :
    (ls.all fun j => j.psrc pa == l.psrc pa) = (ls.all (·.psrc pa) || ls.all (! ·.psrc pa)) := by
  rw [Bool.eq_iff_iff]
  simp only [List.all_eq_true, Bool.or_eq_true, beq_iff_eq, Bool.not_eq_true']
  cases hx : l.psrc pa with
  | true => exact ⟨.inl, fun h => h.resolve_right fun h => by simp [h l hl] at hx⟩
  | false => exact ⟨.inr, fun h => h.resolve_left fun h => by simp [h l hl] at hx⟩

/-- R149: what QDIFF gives a lane, of lanes that take part: the rounded difference of its pair, 0 when one of them takes no part. -/
def Pk.qdiffRes (p : Pk) (act : List Lane) (rnd : Rnd) (y crs : Bool) (o : Op1) (l : Lane) : Res :=
  match act.find? (·.idx == (qdiffPair y crs l.idx).1), act.find? (·.idx == (qdiffPair y crs l.idx).2) with
  | some a, some b => fp32.add rnd (fp32.val (p.x32 b o.imm o.a)) (fp32.val (fp32.mods false true (p.x32 a o.imm o.a)))
  | _, _ => .of 0

theorem execQdiff_eq (rnd : Rnd) (y crs : Bool) (o : Op1) (s : State) : execQdiff rnd y crs o s
    = groupAlu (.qdiff rnd y crs o) o.h (fun p act =>
        let rs := act.map fun l => (l.idx, p.qdiffRes act rnd y crs o l)
        (rs.map fun r => (r.1, r.2.val), (if o.d.isS then rs.take 1 else rs).foldl (fun a r => a ||| r.2.fp) 0)) s := by
  unfold execQdiff
  congr 1
  funext p act
  have hrs (l : Lane) : (match act.find? (·.idx == (qdiffPair y crs l.idx).1), act.find? (·.idx == (qdiffPair y crs l.idx).2) with
      | some a, some b => (l.idx, fp32.add rnd (fp32.val (p.x32 b o.imm o.a)) (fp32.val (fp32.mods false true (p.x32 a o.imm o.a))))
      | _, _ => (l.idx, Res.of 0)) = (l.idx, p.qdiffRes act rnd y crs o l) := by
    unfold Pk.qdiffRes
    split <;> rfl
  simp only [← hrs]
  rfl

theorem qdiff_givesFp {s : State} {p : Pk} (hp : pk? s = some p) (rnd : Rnd) (y crs : Bool) (o : Op1) :
    p.givesFp s (.qdiff rnd y crs o) o.h o.d 1 (p.qdiffRes (p.active o.h) rnd y crs o) := by
  refine groupAlu_givesFp hp ((exec_qdiff ..).trans (execQdiff_eq ..)) rfl ?_ ?_
  · dsimp only
    rw [List.map_map]
    exact p.answers_map o.h fun l => (p.qdiffRes (p.active o.h) rnd y crs o l).val
  · dsimp only
    rw [foldl_or_start, List.foldl_map]
    cases o.d.isS <;> simp [List.foldl_map, ← List.map_take]

/-- Each result of a GFOLD is the value of its tree, and its exception bits are the tree's. -/
theorem gfold_givesFp {s : State} {p : Pk} (hp : pk? s = some p) (op : FoldOp) (ty : FoldTy) (o : Op1)
    (hlt : ∀ l ∈ p.grp.lanes, l.idx < 256) :
    p.givesFp s (.gfold op ty o) o.h o.d 1 fun _ => (foldTree op ty (p.foldLeaves o) 8).getD (.of 0) := by
  have hsome := foldLeaves_isSome op ty o hlt
  have hleaves : (List.range 256).map (fun k => ((p.active o.h).find? (·.idx == k)).map fun l =>
    Res.of (p.read32 l o.imm o.a.spec).toNat) = p.foldLeaves o := rfl
  cases hr : foldTree op ty (p.foldLeaves o) 8 with
  | some r =>
    have hne : p.active o.h ≠ [] := by simpa [hr] using hsome
    refine groupAlu_givesFp hp (exec_gfold ..) rfl ?_ ?_ <;> dsimp only <;> rw [hleaves, hr]
    · exact p.answers_map o.h fun _ => r.val
    · rw [List.foldl_map, foldl_or_const _ (by split <;> simp [hne])]
      rfl
  | none =>
    have hnil : p.active o.h = [] := by simpa [hr] using hsome
    refine groupAlu_givesFp hp (exec_gfold ..) rfl ?_ ?_ <;> dsimp only <;> rw [hleaves, hr]
    · simp [Pk.answers, Pk.actsOn, hnil]
    · simp [hnil]

theorem scan_completes {s : State} {p : Pk} (hp : pk? s = some p) (op : FoldOp) (ty : FoldTy) (exc : Bool) (o : Op1)
    (hi : p.issues (.scan op ty exc o) o.h (instrDst (.scan op ty exc o)) s = true) :
    let r := scanLanes op ty exc none ((p.active o.h).map fun j => (j.idx, p.x32 j o.imm o.a))
    ∃ t, exec (.scan op ty exc o) s = .next t ∧ p.wentOn t
      ∧ p.wrote t o.h o.d 1 (fun l => ((r.1.find? (·.1 == l.idx)).map (·.2)).getD 0)
      ∧ t.fpstOf p.iss.uid p.iss.grp = p.grp.fpst ||| (r.2.map (·.fp)).getD 0 := by
  intro r
  have hv : r.1.map (·.1) = (p.active o.h).map (·.idx) := by simp [r, scanLanes_lanes]
  obtain ⟨t, ht, hw, hon, hf⟩ := groupAlu_completes (i := .scan op ty exc o) (f := fun p act =>
    let r := scanLanes op ty exc none (act.map fun j => (j.idx, p.x32 j o.imm o.a))
    (r.1, (r.2.map (·.fp)).getD 0)) hp hi rfl (Pk.answers_find hv)
  exact ⟨t, (exec_scan ..).trans ht, hon, hw, hf⟩

theorem matched_filter {α : Type} [BEq α] (ls : List Lane) (f : Lane → α) (x : α) :
    (ls.map fun l => (l.idx, f l)).filter (·.2 == x) = (ls.filter (f · == x)).map fun l => (l.idx, f l) := by
  rw [List.filter_map]; rfl

theorem Pk.readN_width (p : Pk) (l : Lane) (imm : Word) (a : Src) (w : Bool) :
    p.readN l imm a.spec (if w then 2 else 1) = if w then p.x64 l imm a else p.x32 l imm a := by
  cases w <;> rfl

/-- Settles O9: each exchange is one of results in a register or one of results in a predicate, and what it computes is what the
statement says; a fold has a value because a lane is active. -/
theorem groupExchangeResults : Obligations.GroupExchangeResults := by
  unfold Obligations.GroupExchangeResults
  intro s p hp
  refine ⟨fun pd h pa => groupPred_givesPred hp (exec_vote_all ..) fun _ _ => rfl,
    fun pd h pa => groupPred_givesPred hp (exec_vote_any ..) fun _ _ => rfl,
    fun pd h pa => groupPred_givesPred hp (exec_vote_eq ..) fun l hl => vote_eq_agrees _ pa hl,
    fun d b imm h pa => groupAlu_gives hp (exec_vote_ballot ..) rfl rfl,
    fun mode seg o => groupAlu_gives hp (exec_xlane ..) rfl ?_,
    fun rnd y crs o => qdiff_givesFp hp rnd y crs o,
    fun op ty o hlt => by simpa only [Pk.foldLeaves] using gfold_givesFp hp op ty o hlt,
    fun op ty exc o hi => scan_completes hp op ty exc o hi,
    fun o => groupAlu_gives hp (exec_rdlane ..) rfl rfl,
    fun w o => groupAlu_gives hp (exec_matchLanes ..) rfl ?_,
    fun w o => groupAlu_gives hp (exec_matchLanes ..) rfl ?_,
    fun h pd => groupPred_givesPred hp (exec_elect ..) fun l _ => ?_⟩
  · cases mode <;> rfl
  · simp [Pk.readN_width, matched_filter]
  · simp only [Pk.readN_width, matched_filter, List.map_map, List.head?_map, Option.map_map]
    rfl
  · cases (p.active h).find? (! ·.helper) <;> rfl

end Sys2Proof.Machine
end

section
/-! SUPPORT. A QSCAL whose operand check fails: it issues in the sense of `Pk.issues`, which says nothing of the checks on operand
values, and traps. -/

namespace Sys2Proof.Machine

/-- A QSCAL.x whose B is 1, no multiple of 16, so that it raises ILLOPD (R177). -/
def misplacedQscal : Instr := .qscal false 0 ⟨⟨7, false, .none⟩, .zero, ⟨.zero, false⟩, ⟨.small 16, false⟩, 0⟩

/-- The one lane of the group that issues it. -/
def misplacedLane : Lane := { idx := 0, pc := 0x10000 }

/-- The packet of that lane, in a team of one group. -/
def misplacedPk : Pk where
  iss := { uid := 1, grp := 0, pc := 0x10000, lanes := [0] }
  team := { uid := 1, ctx := 0, launch := 1, team := 0, card := {}, groups := [{ idx := 0, lanes := [misplacedLane] }] }
  grp := { idx := 0, lanes := [misplacedLane] }

/-- The device after reset, but for that team and its packet. -/
def misplacedState : State := { State.reset with units := [misplacedPk.team], cur := some misplacedPk.iss }

/-- The trap cause that the lane holds after an answer. -/
def causeAfter (a : Answer) : Option Cause :=
  match a with
  | .next t => (t.lane? 1 0 0).map (·.cause)
  | _ => none

theorem misplacedQscal_issues :
    misplacedPk.issues misplacedQscal ⟨7, false, .none⟩ (instrDst misplacedQscal) misplacedState = true := by decide +kernel

theorem misplacedQscal_traps : causeAfter (exec misplacedQscal misplacedState) = some cILLOPD := by decide +kernel

/-- Refutes O15: its hypotheses allow a QSCAL whose B is no multiple of 16. Such a QSCAL traps (R177), and a lane that traps takes the
trap's cause (R418), which the frame says it keeps. -/
theorem not_computingInstructionFrame : ¬ Obligations.ComputingInstructionFrame := by
  unfold Obligations.ComputingInstructionFrame
  rintro ⟨hframe, -⟩
  have htrap := misplacedQscal_traps
  cases ht : exec misplacedQscal misplacedState with
  | fault r => simp [ht, causeAfter] at htrap
  | refused r => simp [ht, causeAfter] at htrap
  | next t =>
    obtain ⟨-, g, hg, -, -, -, -, -, -, -, -, -, -, -, -, hlanes⟩ := hframe misplacedState misplacedPk misplacedQscal
      ⟨7, false, .none⟩ t rfl rfl (.inr (.inr ⟨_, _, _, rfl⟩)) misplacedQscal_issues ht
    obtain ⟨l, hl, -, -, -, -, hcause, -⟩ := hlanes 0 misplacedLane rfl
    have hlane : t.lane? 1 0 0 = some l := (congrArg (·.bind (·.lane? 0)) hg).trans hl
    rw [ht, causeAfter, hlane, Option.map_some, hcause] at htrap
    exact absurd htrap (by decide)

end Sys2Proof.Machine
end

section
/-! SUPPORT. The fields of a slot written back: the bits that a decoder reads from a word, put together again, are the
word (R48 to R58). -/

namespace Sys2Proof

/-! ### A word is the concatenation of its fields -/

/-- Two neighbouring fields of a word, concatenated, are one field of it. -/
theorem append_bitsOf {w n k lo : Nat} {x : BitVec w} {hi : BitVec n} {tail : BitVec k}
    (hhi : hi = bitsOf x (lo + k) n) (htail : tail = bitsOf x lo k) : hi ++ tail = bitsOf x lo (n + k) := by
  subst hhi htail
  exact BitVec.extractLsb'_append_extractLsb'_eq_extractLsb' rfl

/-- The field that is all of the word. -/
theorem eq_of_bitsOf {w : Nat} {x y : BitVec w} (h : y = bitsOf x 0 w) : y = x :=
  h.trans BitVec.extractLsb'_eq_self

theorem bit1_getLsbD {w : Nat} (x : BitVec w) (k : Nat) : bit1 (x.getLsbD k) = bitsOf x k 1 := by
  ext i hi
  obtain rfl : i = 0 := by omega
  simp [bit1, bitsOf]

theorem zero_of_getLsbD {w k : Nat} {x : BitVec w} (h : x.getLsbD k = false) : 0#1 = bitsOf x k 1 := by
  rw [← bit1_getLsbD, h]
  rfl

theorem one_of_getLsbD {w k : Nat} {x : BitVec w} (h : x.getLsbD k = true) : 1#1 = bitsOf x k 1 := by
  rw [← bit1_getLsbD, h]
  rfl

/-- A field that is tested to hold one value. -/
theorem const_of_beq {n : Nat} {x c : BitVec n} (h : (x == c) = true) : c = x := (eq_of_beq h).symm

/-- A word whose upper bits are 0 is its low field, widened. -/
theorem setWidth_bitsOf {n k : Nat} {x : BitVec (n + k)} (h : (bitsOf x n k == 0) = true) :
    (bitsOf x 0 n).setWidth (n + k) = x := by
  refine BitVec.eq_of_getLsbD_eq fun i hi => ?_
  have hz : (bitsOf x n k).getLsbD (i - n) = false := by simp [eq_of_beq h]
  simp only [bitsOf, BitVec.getLsbD_extractLsb', BitVec.getLsbD_setWidth, Nat.zero_add, hi, decide_true, Bool.true_and]
    at hz ⊢
  by_cases hin : i < n
  · simp [hin]
  · rw [show n + (i - n) = i by omega, decide_eq_true (by omega), Bool.true_and] at hz
    simp [hin, hz]

/-! ### Modifier bits -/

/-- The `len` bits from `lo` up of the modifier field. -/
def fieldMask (lo len : Nat) : BitVec 13 := BitVec.ofNat 13 ((2 ^ len - 1) <<< lo)

theorem getLsbD_fieldMask (lo len i : Nat) :
    (fieldMask lo len).getLsbD i = (decide (i < 13) && decide (lo ≤ i) && decide (i < lo + len)) := by
  rw [fieldMask, BitVec.getLsbD_ofNat, Nat.testBit_shiftLeft, Nat.testBit_two_pow_sub_one, ← Bool.and_assoc]
  by_cases h : lo ≤ i
  · simp [h, show i - lo < len ↔ i < lo + len by omega]
  · simp [h]

/-- `x` holds the bits of the modifier field `m` that stand in `mask`, and no other. -/
def HoldsBits (m x mask : BitVec 13) : Prop := x = m &&& mask

theorem HoldsBits.at {m : BitVec 13} {len k : Nat} {x : BitVec len} (h : x = bitsOf m k len) :
    HoldsBits m (mAt x k) (fieldMask k len) := by
  subst h
  refine BitVec.eq_of_getLsbD_eq fun i hi => ?_
  simp only [mAt, bitsOf, BitVec.getLsbD_shiftLeft, BitVec.getLsbD_setWidth, BitVec.getLsbD_extractLsb', BitVec.getLsbD_and,
    getLsbD_fieldMask, hi, decide_true, Bool.true_and]
  by_cases hk : k ≤ i
  · simp [hk, show k + (i - k) = i by omega, show i - k < 13 by omega, show i - k < len ↔ i < k + len by omega, Bool.and_comm]
  · simp [hk, show i < k by omega]

theorem HoldsBits.low {m : BitVec 13} {len : Nat} {x : BitVec len} (h : x = bitsOf m 0 len) :
    HoldsBits m (mLow x) (fieldMask 0 len) := by
  have hat := HoldsBits.at h
  rwa [mAt, BitVec.shiftLeft_zero] at hat

theorem HoldsBits.bit (m : BitVec 13) (k : Nat) : HoldsBits m (mBit (m.getLsbD k) k) (BitVec.twoPow 13 k) :=
  (BitVec.and_twoPow m k).symm

theorem HoldsBits.or {m x y a b : BitVec 13} (hx : HoldsBits m x a) (hy : HoldsBits m y b) :
    HoldsBits m (x ||| y) (a ||| b) := by
  rw [HoldsBits, BitVec.and_or_distrib_left, hx, hy]

/-- Fields that cover the bits an opcode may set are the whole modifier field (R49). -/
theorem HoldsBits.all {r : Raw} {x mask cover : BitVec 13} (hx : HoldsBits r.m x cover) (hm : r.mOnly mask = true)
    (hcover : cover = mask := by decide) : x = r.m := by
  subst hcover
  refine hx.trans (BitVec.eq_of_getLsbD_eq fun i hi => ?_)
  have hz : (r.m &&& ~~~cover).getLsbD i = false := by simp [eq_of_beq hm]
  simp only [BitVec.getLsbD_and, BitVec.getLsbD_not, hi, decide_true, Bool.true_and] at hz ⊢
  cases hr : r.m.getLsbD i <;> simp_all

/-! ### Field codes: what a code means has that code -/

/-- A code table is faithful when each of its codes is. -/
theorem code_of_forall {n : Nat} {α : Type} {dec : BitVec n → Option α} {enc : α → BitVec n}
    (hall : ∀ y, (dec y).all (enc · == y) = true) {x : BitVec n} {a : α} (h : dec x = some a) : enc a = x := by
  simpa [h] using hall x

theorem Cf.enc_of_dec {x : BitVec 2} {c : Cf} (h : Cf.dec x = some c) : c.enc = x :=
  code_of_forall (by decide) h

theorem Sat.enc_of_dec {x : BitVec 2} {c : Sat} (h : Sat.dec x = some c) : c.enc = x :=
  code_of_forall (by decide) h

theorem ICmp.enc_of_dec {x : BitVec 3} {c : ICmp} (h : ICmp.dec x = some c) : c.enc = x :=
  code_of_forall (by decide) h

theorem SxFmt.enc_of_dec {x : BitVec 2} {c : SxFmt} (h : SxFmt.dec x = some c) : c.enc = x :=
  code_of_forall (by decide) h

theorem CmpKind.enc_of_dec {x : BitVec 2} {c : CmpKind} (h : CmpKind.dec x = some c) : c.enc = x :=
  code_of_forall (by decide) h

theorem CtSel.enc_of_dec {x : BitVec 4} {c : CtSel} (h : CtSel.dec x = some c) : c.enc = x :=
  code_of_forall (by decide) h

theorem Space.enc_of_dec {x : BitVec 3} {c : Space} (h : Space.dec x = some c) : c.enc = x :=
  code_of_forall (by decide) h

theorem Width.enc_of_dec {x : BitVec 3} {c : Width} (h : Width.dec x = some c) : c.enc = x :=
  code_of_forall (by decide) h

theorem Scope.enc_of_dec {x : BitVec 3} {c : Scope} (h : Scope.dec x = some c) : c.enc = x :=
  code_of_forall (by decide) h

theorem FoldOp.enc_of_dec {x : BitVec 3} {c : FoldOp} (h : FoldOp.dec x = some c) : c.enc = x :=
  code_of_forall (by decide) h

theorem FoldTy.enc_of_dec {x : BitVec 2} {c : FoldTy} (h : FoldTy.dec x = some c) : c.enc = x :=
  code_of_forall (by decide) h

theorem CollOp.enc_of_dec {x : BitVec 3} {c : CollOp} (h : CollOp.dec x = some c) : c.enc = x :=
  code_of_forall (by decide) h

theorem CpyKind.enc_of_dec {x : BitVec 2} {c : CpyKind} (h : CpyKind.dec x = some c) : c.enc = x :=
  code_of_forall (by decide) h

theorem collTyEnc_of_dec {x : BitVec 2} {c : FoldTy} (h : collTyDec x = some c) : collTyEnc c = x :=
  code_of_forall (by decide) h

theorem ofNat_of_segDec {x : BitVec 3} {k : Fin 7} (h : segDec x = some k) : BitVec.ofNat 3 k.val = x :=
  code_of_forall (enc := fun k : Fin 7 => BitVec.ofNat 3 k.val) (by decide) h

theorem ofNat_of_trDec {x : BitVec 2} {k : Fin 3} (h : trDec x = some k) : BitVec.ofNat 2 k.val = x :=
  code_of_forall (enc := fun k : Fin 3 => BitVec.ofNat 2 k.val) (by decide) h

/-- R38, over the 256 codes. -/
theorem Spec.enc_of_dec {x : BitVec 8} {c : Spec} (h : Spec.dec x = some c) : c.enc = x :=
  code_of_forall (by decide +kernel) h

/-- R51: the upper half of a predicate source is 0. -/
theorem PSrc.enc_of_dec {x : BitVec 8} {p : PSrc} (h : PSrc.dec x = some p) : p.enc = x := by
  unfold PSrc.dec at h
  split at h
  · next hz =>
    cases h
    exact eq_of_bitsOf (append_bitsOf (const_of_beq hz) (append_bitsOf (bit1_getLsbD x 3) rfl))
  · cases h

/-- R51: the five bits above a predicate destination are 0. -/
theorem pdEnc_of_dec {x : BitVec 8} {p : BitVec 3} (h : pdDec x = some p) : pdEnc p = x := by
  unfold pdDec at h
  split at h
  · next hz =>
    cases h
    exact eq_of_bitsOf (append_bitsOf (const_of_beq hz) rfl)
  · cases h

theorem FCmp.enc_dec (x : BitVec 3) : (FCmp.dec x).enc = x := by decide +revert

theorem FFn.enc_dec (x : BitVec 3) : (FFn.dec x).enc = x := by decide +revert

theorem Rnd.enc_dec (x : BitVec 2) : (Rnd.dec x).enc = x := by decide +revert

theorem FFmt.enc_dec (x : BitVec 2) : (FFmt.dec x).enc = x := by decide +revert

theorem ITy.enc_dec (x : BitVec 3) : (ITy.dec x).enc = x := by decide +revert

theorem SlotFmt.enc_dec (x : BitVec 2) : (SlotFmt.dec x).enc = x := by decide +revert

theorem Order.enc_dec (x : BitVec 2) : (Order.dec x).enc = x := by decide +revert

theorem XMode.enc_dec (x : BitVec 2) : (XMode.dec x).enc = x := by decide +revert

theorem TexFlt.enc_dec (x : BitVec 2) : (TexFlt.dec x).enc = x := by decide +revert

theorem LodMode.enc_dec (x : BitVec 2) : (LodMode.dec x).enc = x := by decide +revert

/-- The combining operations; code 0 is none of them. -/
theorem BOp.enc_dec {x : BitVec 2} (h : x ≠ 0) : (BOp.dec x).enc = x := by decide +revert

/-- R104: the modifier fields with bits 62:60 are all of the modifier field. -/
theorem FMod.enc_dec {m : BitVec 13} {sub : BitVec 3} (hsub : sub = bitsOf m 9 3) : (FMod.dec m).enc sub = m :=
  eq_of_bitsOf <| append_bitsOf (bit1_getLsbD m 12) <| append_bitsOf hsub <| append_bitsOf (bit1_getLsbD m 8) <|
    append_bitsOf (bit1_getLsbD m 7) <| append_bitsOf (bit1_getLsbD m 6) <| append_bitsOf (bit1_getLsbD m 5) <|
    append_bitsOf (bit1_getLsbD m 4) <| append_bitsOf (bit1_getLsbD m 3) <| append_bitsOf (bit1_getLsbD m 2) (Rnd.enc_dec _)

end Sys2Proof
end

section
/-! SUPPORT. What the decoder reads from a slot's fields, written back by the encoder, are those fields (R33, R48, R49,
R54 to R58). -/

namespace Sys2Proof

/-- R48: no bit of a word lies outside the fields of its slot. -/
theorem Raw.pack_unpack (w : BitVec 96) : (Raw.unpack w).pack = w :=
  eq_of_bitsOf <| append_bitsOf rfl <| append_bitsOf rfl <| append_bitsOf (bit1_getLsbD w 50) <|
    append_bitsOf (bit1_getLsbD w 49) <| append_bitsOf (bit1_getLsbD w 48) <| append_bitsOf rfl <| append_bitsOf rfl <|
    append_bitsOf rfl <| append_bitsOf rfl <| append_bitsOf (bit1_getLsbD w 15) <| append_bitsOf rfl <|
    append_bitsOf (bit1_getLsbD w 12) <| append_bitsOf rfl rfl

/-! ### One field -/

theorem clear_of_not {b : Bool} (h : (!b) = true) : false = b := by simpa using h.symm

/-- A test of two fields is one of each. -/
theorem both {a b : Bool} {P : Prop} (h : a = true → b = true → P) (hab : (a && b) = true) : P :=
  h (Bool.and_eq_true_iff.mp hab).1 (Bool.and_eq_true_iff.mp hab).2

/-- R33: bit 15 is 0 and CF has a meaning. -/
theorem Raw.hdr_fields {r : Raw} {h : Hdr} (hh : r.hdr = some h) :
    false = r.top ∧ h.cf.enc = r.cf ∧ h.gn = r.gn ∧ h.g = r.g := by
  unfold Raw.hdr at hh
  split at hh
  · cases hh
  · next htop =>
    split at hh
    · next hcf => cases hh; exact ⟨by simpa using htop, Cf.enc_of_dec hcf, rfl, rfl⟩
    · cases hh

/-- R38, R42: the specifier and the kill bit of a source field (`Raw.srcA`, `srcB`, `srcC`). -/
theorem src_fields {x : BitVec 8} {k : Bool} {a : Src} (h : (Spec.dec x).map (⟨·, k⟩) = some a) :
    a.spec.enc = x ∧ a.kill = k := by
  obtain ⟨sp, hsp, rfl⟩ := Option.map_eq_some_iff.mp h
  exact ⟨Spec.enc_of_dec hsp, rfl⟩

/-- R49: a field that is not used (`Raw.noA`, `noB`, `noC`). -/
theorem unused_fields {x : BitVec 8} {k : Bool} (h : (x == 0xC0 && !k) = true) : 0xC0 = x ∧ false = k :=
  both (fun hx hk => ⟨const_of_beq hx, clear_of_not hk⟩) h

/-- R51: a predicate source has no kill bit (`Raw.psrcA`, `psrcB`, `psrcC`). -/
theorem psrc_fields {x : BitVec 8} {k : Bool} {p : PSrc} (h : (if k then none else PSrc.dec x) = some p) :
    p.enc = x ∧ false = k := by
  cases k
  · exact ⟨PSrc.enc_of_dec h, rfl⟩
  · cases h

/-! ### A slot from its fields -/

/-- A slot is its header, its opcode, the operand fields with their kill bits, the modifiers and IMM. -/
theorem Raw.eq_of_fields {r : Raw} {h : Hdr} {n : Nat} {imm : BitVec 32} {m : BitVec 13} {a b c d : BitVec 8} {ka kb kc : Bool}
    (hh : r.hdr = some h) (hop : r.op.toNat = n) (hd : d = r.d) (ha : a = r.a ∧ ka = r.ka) (hb : b = r.b ∧ kb = r.kb)
    (hc : c = r.c ∧ kc = r.kc) (hm : m = r.m) (himm : imm = r.imm) :
    some (Raw.mk imm m kc kb ka c b a d false h.cf.enc h.gn h.g (BitVec.ofNat 9 n)) = some r := by
  obtain ⟨htop, hcf, hgn, hg⟩ := Raw.hdr_fields hh
  obtain ⟨rfl, rfl⟩ := ha
  obtain ⟨rfl, rfl⟩ := hb
  obtain ⟨rfl, rfl⟩ := hc
  subst hop hd hm himm
  rw [htop, hcf, hgn, hg, BitVec.ofNat_toNat, BitVec.setWidth_eq]

section
variable {r : Raw} {n : Nat} {m : BitVec 13}

theorem Raw.op1_raw {o : Op1} (ho : r.op1 = some o) (hop : r.op.toNat = n) (hm : m = r.m) :
    some (o.raw (BitVec.ofNat 9 n) m) = some r := by
  simp only [Raw.op1, Option.bind_eq_bind, Option.bind_eq_some_iff, Option.ite_none_right_eq_some, Bool.and_eq_true] at ho
  obtain ⟨h, hh, d, hd, a, ha, ⟨hb, hc⟩, ⟨⟩⟩ := ho
  exact Raw.eq_of_fields hh hop (Spec.enc_of_dec hd) (src_fields ha) (unused_fields hb) (unused_fields hc) hm rfl

theorem Raw.op2_raw {o : Op2} (ho : r.op2 = some o) (hop : r.op.toNat = n) (hm : m = r.m) :
    some (o.raw (BitVec.ofNat 9 n) m) = some r := by
  simp only [Raw.op2, Option.bind_eq_bind, Option.bind_eq_some_iff, Option.ite_none_right_eq_some] at ho
  obtain ⟨h, hh, d, hd, a, ha, b, hb, hc, ⟨⟩⟩ := ho
  exact Raw.eq_of_fields hh hop (Spec.enc_of_dec hd) (src_fields ha) (src_fields hb) (unused_fields hc) hm rfl

theorem Raw.op3_raw {o : Op3} (ho : r.op3 = some o) (hop : r.op.toNat = n) (hm : m = r.m) :
    some (o.raw (BitVec.ofNat 9 n) m) = some r := by
  simp only [Raw.op3, Option.bind_eq_bind, Option.bind_eq_some_iff] at ho
  obtain ⟨h, hh, d, hd, a, ha, b, hb, c, hc, ⟨⟩⟩ := ho
  exact Raw.eq_of_fields hh hop (Spec.enc_of_dec hd) (src_fields ha) (src_fields hb) (src_fields hc) hm rfl

/-- R57: Format L has a field for every bit of the modifiers and IMM, but for those that are 0. -/
theorem Raw.memOp_raw {o : MemOp} (ho : r.memOp = some o) (hop : r.op.toNat = n) : some (o.raw (BitVec.ofNat 9 n)) = some r := by
  simp only [Raw.memOp, Option.bind_eq_bind, Option.bind_eq_some_iff, Option.ite_none_right_eq_some, Bool.and_eq_true] at ho
  obtain ⟨h, hh, d, hd, adr, ha, idx, hb, x, hc, space, hspace, width, hwidth, scope, hscope, ⟨hz, hz26⟩, ⟨⟩⟩ := ho
  refine Raw.eq_of_fields hh hop (Spec.enc_of_dec hd) (src_fields ha) (src_fields hb) (src_fields hc) ?_ ?_
  · exact eq_of_bitsOf <| append_bitsOf rfl <| append_bitsOf (Scope.enc_of_dec hscope) <| append_bitsOf (Order.enc_dec _) <|
      append_bitsOf (Width.enc_of_dec hwidth) (Space.enc_of_dec hspace)
  · exact eq_of_bitsOf <| append_bitsOf (const_of_beq hz) <| append_bitsOf rfl <|
      append_bitsOf (zero_of_getLsbD (clear_of_not hz26).symm) <| append_bitsOf (bit1_getLsbD r.imm 25) <|
      append_bitsOf (bit1_getLsbD r.imm 24) rfl

/-- R283: the IMM of a copy command. -/
theorem Raw.cpyOp_raw {o : CpyOp} (ho : r.cpyOp = some o) (hop : r.op.toNat = n) (hm : m = r.m) :
    some (o.raw (BitVec.ofNat 9 n) m) = some r := by
  simp only [Raw.cpyOp, Option.bind_eq_bind, Option.bind_eq_some_iff, Option.ite_none_right_eq_some, Bool.and_eq_true] at ho
  obtain ⟨h, hh, tag, hd, a, ha, b, hb, c, hc, ⟨hhi, hmid⟩, ⟨⟩⟩ := ho
  refine Raw.eq_of_fields hh hop (Spec.enc_of_dec hd) (src_fields ha) (src_fields hb) (src_fields hc) hm ?_
  exact eq_of_bitsOf <| append_bitsOf (const_of_beq hhi) <| append_bitsOf (bit1_getLsbD r.imm 24) <| append_bitsOf rfl <|
    append_bitsOf (const_of_beq hmid) rfl

/-- R300: the IMM of a matrix pass. -/
theorem Raw.mmaOp_raw {o : MmaOp} (ho : r.mmaOp = some o) (hop : r.op.toNat = n) : some (o.raw (BitVec.ofNat 9 n)) = some r := by
  simp only [Raw.mmaOp, Option.bind_eq_bind, Option.bind_eq_some_iff, Option.ite_none_right_eq_some, Bool.and_eq_true] at ho
  obtain ⟨h, hh, a, ha, b, hb, ⟨⟨⟨⟨hc, hd⟩, hm⟩, hhi⟩, hmid⟩, ⟨⟩⟩ := ho
  refine Raw.eq_of_fields hh hop (const_of_beq hd) (src_fields ha) (src_fields hb) (unused_fields hc) (const_of_beq hm) ?_
  exact eq_of_bitsOf <| append_bitsOf (const_of_beq hhi) <| append_bitsOf rfl <| append_bitsOf rfl <| append_bitsOf rfl <|
    append_bitsOf rfl <| append_bitsOf (const_of_beq hmid) rfl

/-- R392: a lookup has no IMM. -/
theorem Raw.texOp_raw {o : TexOp} (ho : r.texOp = some o) (hop : r.op.toNat = n) (hm : m = r.m) :
    some (o.raw (BitVec.ofNat 9 n) m) = some r := by
  simp only [Raw.texOp, Option.bind_eq_bind, Option.bind_eq_some_iff, Option.ite_none_right_eq_some] at ho
  obtain ⟨h, hh, d, hd, a, ha, b, hb, c, hc, himm, ⟨⟩⟩ := ho
  exact Raw.eq_of_fields hh hop (Spec.enc_of_dec hd) (src_fields ha) (src_fields hb) (src_fields hc) hm (const_of_beq himm)

/-- R78: field C is a predicate source or is not used, as the combination says. -/
theorem Raw.opCmp_raw {o : OpCmp} {bop : BitVec 2} (ho : r.opCmp bop = some o) (hop : r.op.toNat = n) (hm : m = r.m) :
    some (o.raw (BitVec.ofNat 9 n) m) = some r := by
  simp only [Raw.opCmp, Option.bind_eq_bind, Option.bind_eq_some_iff] at ho
  obtain ⟨h, hh, pd, hd, a, ha, b, hb, ho⟩ := ho
  split at ho
  · obtain ⟨hc, ⟨⟩⟩ := Option.ite_none_right_eq_some.mp ho
    exact Raw.eq_of_fields hh hop (pdEnc_of_dec hd) (src_fields ha) (src_fields hb) (unused_fields hc) hm rfl
  · obtain ⟨p, hc, ⟨⟩⟩ := Option.bind_eq_some_iff.mp ho
    exact Raw.eq_of_fields hh hop (pdEnc_of_dec hd) (src_fields ha) (src_fields hb) (psrc_fields hc) hm rfl

/-- R78: with no predicate source there is no combination, and its code is 0. -/
theorem Raw.opCmp_combination {o : OpCmp} {bop : BitVec 2} (ho : r.opCmp bop = some o) :
    o.bopBits (BOp.dec bop) = bop ∧ (o.pc.isSome || BOp.dec bop == .and) = true := by
  simp only [Raw.opCmp, Option.bind_eq_bind, Option.bind_eq_some_iff] at ho
  obtain ⟨h, hh, pd, hd, a, ha, b, hb, ho⟩ := ho
  split at ho
  · next hz =>
    obtain ⟨-, ⟨⟩⟩ := Option.ite_none_right_eq_some.mp ho
    obtain rfl := eq_of_beq hz
    exact ⟨rfl, rfl⟩
  · next hz =>
    obtain ⟨p, -, ⟨⟩⟩ := Option.bind_eq_some_iff.mp ho
    exact ⟨BOp.enc_dec (by simpa using hz), rfl⟩

end

/-! ### Ports -/

/-- R333: a port takes field B and IMM, and no other field of the slot. -/
theorem Raw.portRef_fields {r q : Raw} {p : PortRef} (hp : r.portRef = some p) (hb : q.b = 0xC0 ∧ q.kb = false) (himm : q.imm = 0) :
    q.setPort p = { q with b := r.b, kb := r.kb, imm := r.imm } := by
  unfold Raw.portRef at hp
  split at hp
  · cases hp
  next hhi =>
  have hhi : bitsOf r.imm 21 11 = 0#11 := by simpa using hhi
  split at hp
  · next h20 =>
    obtain ⟨hb', ⟨⟩⟩ := Option.ite_none_right_eq_some.mp hp
    obtain ⟨hb', hkb'⟩ := unused_fields hb'
    have himm' : portImm (r.imm.getLsbD 19) (bitsOf r.imm 16 3) (bitsOf r.imm 0 16) = r.imm :=
      eq_of_bitsOf <| append_bitsOf hhi.symm <| append_bitsOf (one_of_getLsbD h20) <| append_bitsOf (bit1_getLsbD r.imm 19) <|
        append_bitsOf rfl rfl
    simp only [Raw.setPort, himm', ← hb', ← hkb', ← hb.1, ← hb.2]
  · next h20 =>
    obtain ⟨hlo, hp⟩ := Option.ite_none_right_eq_some.mp hp
    obtain ⟨b, hsrc, rfl⟩ := Option.map_eq_some_iff.mp hp
    obtain ⟨hbe, hbk⟩ := src_fields hsrc
    have himm' : 0#11 ++ (0#1 ++ 0#20) = r.imm :=
      eq_of_bitsOf <| append_bitsOf hhi.symm <| append_bitsOf (zero_of_getLsbD (by simpa using h20)) (const_of_beq hlo)
    simp only [Raw.setPort, Raw.setB, hbe, hbk, ← himm', himm]
    rfl

end Sys2Proof
end

section
/-! SUPPORT. Every arm of the decoder answers an instruction whose fields, as the encoder writes them, are the slot's own
(R49, R61). -/

namespace Sys2Proof

/-! ### Reading back through the decoder's steps -/

/-- An instruction that the decoder's answer `x` holds, rightly shaped and not the unassigned opcode's, is no event, says no more
than its word, and has the slot's fields. -/
def Raw.ReadsBack (r : Raw) (x : Option Instr) : Prop :=
  ∀ i, x = some i → i.shapeOk = true → (∀ h op, i ≠ .unassignedOpcodeIssue h op) →
    (i.cls != .event && i.plain) = true ∧ i.raw = some r

section
variable {r : Raw} {α : Type} {x : Option α} {c : Bool} {t e : Option Instr} {i : Instr}

theorem Raw.ReadsBack.bind {f : α → Option Instr} (h : ∀ a, x = some a → r.ReadsBack (f a)) : r.ReadsBack (x >>= f) := by
  intro i hi
  obtain ⟨a, ha, hf⟩ := Option.bind_eq_some_iff.mp hi
  exact h a ha i hf

theorem Raw.ReadsBack.map {f : α → Instr} (h : ∀ a, x = some a → r.ReadsBack (some (f a))) : r.ReadsBack (x.map f) := by
  intro i hi
  obtain ⟨a, ha, hf⟩ := Option.map_eq_some_iff.mp hi
  exact h a ha i (congrArg some hf)

theorem Raw.ReadsBack.none : r.ReadsBack Option.none := fun _ hi => nomatch hi

theorem Raw.ReadsBack.ite (ht : c = true → r.ReadsBack t) (he : c = false → r.ReadsBack e) :
    r.ReadsBack (if c then t else e) := by
  cases c
  · exact he rfl
  · exact ht rfl

theorem Raw.ReadsBack.guard (h : c = true → r.ReadsBack t) : r.ReadsBack (if c then t else Option.none) :=
  .ite h fun _ => .none

theorem Raw.ReadsBack.unless (h : c = true → r.ReadsBack e) : r.ReadsBack (if !c then Option.none else e) :=
  .ite (fun _ => .none) fun hc => h (by simpa using hc)

/-- An answer whose shape is needed to have its fields again. -/
theorem Raw.ReadsBack.shaped (hraw : i.shapeOk = true → i.raw = some r) (hterm : (i.cls != .event && i.plain) = true := by rfl) :
    r.ReadsBack (some i) := by
  rintro _ ⟨⟩ hshape -
  exact ⟨hterm, hraw hshape⟩

theorem Raw.ReadsBack.some (hraw : i.raw = some r) (hterm : (i.cls != .event && i.plain) = true := by rfl) :
    r.ReadsBack (some i) := .shaped (fun _ => hraw) hterm

end

/-! ### Operands that several formats share -/

section
variable {r : Raw} {n : Nat}

/-- R54: bits 47:32 and 50 are 0. -/
theorem Raw.fmtB_fields (hB : r.fmtB = true) : 0 = r.b ∧ 0 = r.c ∧ false = r.kc :=
  both (both fun hb hc hkc => ⟨const_of_beq hb, const_of_beq hc, clear_of_not hkc⟩) hB

/-- A modifier field of the two bits that choose an opcode's form. -/
theorem Raw.mode_bits {mode : BitVec 2} (hm : r.mOnly 3 = true) (h : (bitsOf r.m 0 2 == mode) = true) : mLow mode = r.m :=
  (HoldsBits.low (const_of_beq h)).all hm

/-- R55: a Format B slot without operands. -/
theorem Raw.baseB_raw {h : Hdr} {m : BitVec 13} {imm : BitVec 32} (hh : r.hdr = some h) (hop : r.op.toNat = n) (hTN : r.noTN = true)
    (hm : m = r.m) (himm : imm = r.imm) : some { Raw.baseB h (BitVec.ofNat 9 n) with m := m, imm := imm } = some r :=
  both (both <| both <| both fun hd ha hka hkb hB =>
    have ⟨hb, hc, hkc⟩ := Raw.fmtB_fields hB
    Raw.eq_of_fields hh hop (const_of_beq hd) ⟨const_of_beq ha, clear_of_not hka⟩ ⟨hb, clear_of_not hkb⟩ ⟨hc, hkc⟩ hm himm) hTN

theorem Raw.ReadsBack.bare {f : Hdr → Instr} (hop : r.op.toNat = n)
    (hf : ∀ h, (f h).raw = Option.some (Raw.baseB h (BitVec.ofNat 9 n)))
    (hterm : ∀ h, ((f h).cls != .event && (f h).plain) = true) : r.ReadsBack (r.bare f) :=
  .bind fun h hh => .guard <| both <| both fun hTN hm hi =>
    .some ((hf h).trans (Raw.baseB_raw hh hop hTN (const_of_beq hm) (const_of_beq hi))) (hterm h)

/-- R104: a float comparison has its combination in the bits of the rounding. -/
theorem FMod.enc_combination (m : BitVec 13) {cmp : BitVec 3} {bop : BitVec 2} (hcmp : cmp = bitsOf m 9 3)
    (hbop : bop = bitsOf m 0 2) : ({ FMod.dec m with rnd := .rn } : FMod).enc cmp ||| mLow bop = m := by
  have hdec : FMod.dec (m &&& 0x1FFC) = { FMod.dec m with rnd := .rn } := by
    simp [FMod.dec, bitsOf, BitVec.extractLsb'_and, Rnd.dec]
  have henc : HoldsBits m (({ FMod.dec m with rnd := .rn } : FMod).enc cmp) 0x1FFC := by
    rw [← hdec]
    exact FMod.enc_dec (by rw [hcmp, bitsOf, bitsOf, BitVec.extractLsb'_and]; exact BitVec.and_allOnes.symm)
  exact (henc.or (.low hbop)).trans BitVec.and_allOnes

theorem two_of_not {x : BitVec 2} (h0 : (x == 0) = false) (h1 : (x == 1) = false) (h3 : (x == 3) = false) : 2 = x := by
  decide +revert

/-- 0xFF is IMM and nothing else (R38). -/
theorem Spec.eq_imm_of_dec {x : BitVec 8} {s : Spec} (h : Spec.dec x = some s) (hx : (x == 0xFF) = true) : s = .imm := by
  rw [eq_of_beq hx] at h
  exact (Option.some.inj h).symm

theorem src_eq_imm {x : BitVec 8} {k : Bool} {a : Src} (h : (Spec.dec x).map (⟨·, k⟩) = some a) (hx : (x == 0xFF) = true) :
    a.spec = .imm := by
  obtain ⟨sp, hsp, rfl⟩ := Option.map_eq_some_iff.mp h
  exact Spec.eq_imm_of_dec hsp hx

/-- R40: a destination is no immediate. -/
theorem p2v_dst_ne_imm {h : Hdr} {d : Spec} (hs : (Instr.p2v h d).shapeOk = true) : d ≠ .imm := by
  rintro rfl
  cases hs

/-- R174: A and B of CMPLD are s-register quads or `zero`. -/
theorem cmpld_src_ne_imm {k : CmpKind} {t : BitVec 3} {h : Hdr} {a b : Src} (hs : (Instr.cmpld k t h a b).shapeOk = true) :
    a.spec ≠ .imm ∧ b.spec ≠ .imm := by
  obtain ⟨a, ka⟩ := a
  obtain ⟨b, kb⟩ := b
  obtain ⟨-, hown⟩ := Bool.and_eq_true_iff.mp hs
  constructor <;> rintro rfl <;> simp [Spec.isS] at hown

/-- The fields of a join instruction, whatever `f` writes beside its port. -/
theorem Raw.port_raw {q : Raw} {p : PortRef} (hp : r.portRef = some p) (f : Raw → Raw) (hb : q.b = 0xC0 ∧ q.kb = false)
    (himm : q.imm = 0) (hr : some (f { q with b := r.b, kb := r.kb, imm := r.imm }) = some r) :
    some (f (q.setPort p)) = some r := by
  rwa [Raw.portRef_fields hp hb himm]

/-- R333: the port of a WAIT that names one has no device bits. -/
theorem portImm_zero_of_bits {x : BitVec 32} (hlo : (bitsOf x 16 4 == 0) = true) (hhi : (bitsOf x 21 11 == 0) = true)
    (h20 : x.getLsbD 20 = true) : portImm false 0 (bitsOf x 0 16) = x :=
  have hsplit : ∀ (a : BitVec 1) (b : BitVec 3), a ++ b = 0#4 → 0 = a ∧ 0 = b := by decide
  have ⟨h19, h16⟩ := hsplit (bitsOf x 19 1) (bitsOf x 16 3) ((append_bitsOf rfl rfl).trans (eq_of_beq hlo))
  eq_of_bitsOf <| append_bitsOf (const_of_beq hhi) <| append_bitsOf (one_of_getLsbD h20) <| append_bitsOf h19 <|
    append_bitsOf h16 rfl

end

/-! ### The decoder, opcode by opcode (R59) -/

/-- Each arm is read along its steps: what the operand readers and the code tables give back, and that the bits they pass over are
tested. The arms stand in the order of `Raw.parse`. -/
theorem Raw.parse_readsBack (r : Raw) : r.ReadsBack r.parse := by
  unfold Raw.parse
  dsimp only
  split
  next hop => -- nop
    exact .bare hop (fun _ => rfl) (fun _ => rfl)
  next hop => -- bra
    exact .bind fun h hh => .guard <| both fun hTN hm =>
      .some (Raw.baseB_raw hh hop hTN (const_of_beq hm) (eq_of_bitsOf (append_bitsOf rfl rfl)))
  next hop => -- brx
    exact .bind fun h hh => .bind fun t ht => .guard <| both <| both <| both <| both fun ha hkb hB hm hi =>
      have ⟨hb, hc, hkc⟩ := Raw.fmtB_fields hB
      .some (Raw.eq_of_fields hh hop (Spec.enc_of_dec ht) ⟨const_of_beq ha, rfl⟩ ⟨hb, clear_of_not hkb⟩ ⟨hc, hkc⟩
        (const_of_beq hm) (const_of_beq hi))
  next hop => -- call
    exact .bind fun h hh => .guard <| both fun hTN hm =>
      .some (Raw.baseB_raw hh hop hTN (const_of_beq hm) (eq_of_bitsOf (append_bitsOf rfl rfl)))
  next hop => -- callx
    exact .bind fun h hh => .bind fun t ht => .guard <| both <| both <| both <| both fun ha hkb hB hm hi =>
      have ⟨hb, hc, hkc⟩ := Raw.fmtB_fields hB
      .some (Raw.eq_of_fields hh hop (Spec.enc_of_dec ht) ⟨const_of_beq ha, rfl⟩ ⟨hb, clear_of_not hkb⟩ ⟨hc, hkc⟩
        (const_of_beq hm) (const_of_beq hi))
  iterate 4 next hop => -- ret, exit, conv, yield
    exact .bare hop (fun _ => rfl) (fun _ => rfl)
  next hop => -- rep
    exact .bind fun h hh => .bind fun n hn => .guard <| both <| both <| both <| both fun hd hka hB hm hi =>
      have ⟨hb, hc, hkc⟩ := Raw.fmtB_fields hB
      .some (Raw.eq_of_fields hh hop (const_of_beq hd) ⟨Spec.enc_of_dec hn, clear_of_not hka⟩ ⟨hb, rfl⟩ ⟨hc, hkc⟩
        (((HoldsBits.low rfl).or (.at rfl)).all hm) (const_of_beq hi))
  next hop => -- trap
    exact .bind fun h hh => .guard <| both <| both fun hTN hm hi =>
      .some (Raw.baseB_raw hh hop hTN (const_of_beq hm) (setWidth_bitsOf hi))
  next hop => -- bkpt
    exact .bare hop (fun _ => rfl) (fun _ => rfl)
  iterate 2 next hop => -- iadd, isub
    exact .bind fun o ho => .bind fun s hs => .guard fun hm =>
      .some (Raw.op2_raw ho hop ((HoldsBits.low (Sat.enc_of_dec hs)).all hm))
  next hop => -- iaddc
    exact .bind fun h hh => .bind fun d hd => .bind fun a ha => .bind fun b hb => .bind fun p hp => .guard fun hm =>
      .some (Raw.eq_of_fields hh hop (Spec.enc_of_dec hd) (src_fields ha) (src_fields hb) (psrc_fields hp)
        ((HoldsBits.low rfl).all hm) rfl)
  next hop => -- imul
    exact .bind fun o ho => .guard fun hm => .some (Raw.op2_raw ho hop (const_of_beq hm))
  next hop => -- imulh
    exact .bind fun o ho => .guard fun hm => .some (Raw.op2_raw ho hop ((HoldsBits.bit _ 1).all hm))
  next hop => -- imad
    exact .bind fun o ho => .guard fun hm => .some (Raw.op3_raw ho hop (const_of_beq hm))
  next hop => -- imadw
    exact .bind fun o ho => .guard fun hm => .some (Raw.op3_raw ho hop ((HoldsBits.bit _ 1).all hm))
  iterate 2 next hop => -- imin, imax
    exact .bind fun o ho => .guard fun hm => .some (Raw.op2_raw ho hop ((HoldsBits.bit _ 1).all hm))
  next hop => -- iabs
    exact .bind fun o ho => .guard fun hm => .some (Raw.op1_raw ho hop ((HoldsBits.bit _ 0).all hm))
  next hop => -- tern
    exact .bind fun o ho => .guard fun hm => .some (Raw.op3_raw ho hop ((HoldsBits.low rfl).all hm))
  iterate 3 next hop => -- shl, shr, sar
    exact .bind fun o ho => .guard fun hm => .some (Raw.op2_raw ho hop ((HoldsBits.bit _ 2).all hm))
  next hop => -- shf
    exact .bind fun o ho => .guard fun hm => .some (Raw.op3_raw ho hop (((HoldsBits.bit _ 2).or (.bit _ 3)).all hm))
  next hop => -- bfe
    exact .bind fun o ho => .guard fun hm => .some (Raw.op2_raw ho hop ((HoldsBits.bit _ 3).all hm))
  next hop => -- bfi
    exact .bind fun o ho => .guard fun hm => .some (Raw.op3_raw ho hop (const_of_beq hm))
  iterate 3 next hop => -- popc, clz, brev
    exact .bind fun o ho => .guard fun hm => .some (Raw.op1_raw ho hop (const_of_beq hm))
  next hop => -- byperm
    exact .bind fun o ho => .guard fun hm => .some (Raw.op3_raw ho hop (const_of_beq hm))
  next hop => -- iset
    exact .bind fun o ho => .bind fun cmp hcmp => .guard fun hm =>
      have ⟨hbop, hplain⟩ := Raw.opCmp_combination ho
      .some (Raw.opCmp_raw ho hop ((((HoldsBits.bit _ 1).or (.at (ICmp.enc_of_dec hcmp))).or (.at hbop)).all hm)) hplain
  next hop => -- isetv
    exact .bind fun o ho => .bind fun cmp hcmp => .guard fun hm =>
      .some (Raw.op2_raw ho hop (((HoldsBits.bit _ 1).or (.at (ICmp.enc_of_dec hcmp))).all hm))
  iterate 2 next hop => -- iadd64, isub64
    exact .bind fun o ho => .guard fun hm => .some (Raw.op2_raw ho hop (const_of_beq hm))
  next hop => -- lea
    exact .bind fun o ho => .guard fun hm => .some (Raw.op2_raw ho hop ((HoldsBits.at rfl).all hm))
  next hop => -- lea64
    exact .bind fun o ho => .guard fun hm => .some (Raw.op2_raw ho hop (((HoldsBits.bit _ 1).or (.at rfl)).all hm))
  next hop => -- idp4
    exact .bind fun o ho => .guard fun hm =>
      .some (Raw.op3_raw ho hop ((((HoldsBits.bit _ 0).or (.bit _ 2)).or (.bit _ 3)).all hm))
  next hop => -- isad
    exact .bind fun o ho => .guard fun hm => .some (Raw.op3_raw ho hop ((HoldsBits.bit _ 1).all hm))
  next hop => -- shl64
    exact .bind fun o ho => .guard fun hm => .some (Raw.op2_raw ho hop (const_of_beq hm))
  next hop => -- shr64
    exact .bind fun o ho => .guard fun hm => .some (Raw.op2_raw ho hop ((HoldsBits.bit _ 4).all hm))
  next hop => -- mov
    exact .bind fun o ho => .guard fun hm => .some (Raw.op1_raw ho hop ((HoldsBits.bit _ 5).all hm))
  next hop => -- sel
    exact .bind fun h hh => .bind fun d hd => .bind fun a ha => .bind fun b hb => .bind fun p hp => .guard fun hm =>
      .some (Raw.eq_of_fields hh hop (Spec.enc_of_dec hd) (src_fields ha) (src_fields hb) (psrc_fields hp) (const_of_beq hm)
        rfl)
  next hop => -- ptern
    exact .bind fun h hh => .bind fun d hd => .bind fun pa hpa => .bind fun pb hpb => .bind fun pc hpc =>
      .guard <| both fun hm hi =>
        .some (Raw.eq_of_fields hh hop (pdEnc_of_dec hd) (psrc_fields hpa) (psrc_fields hpb) (psrc_fields hpc)
          ((HoldsBits.low rfl).all hm) (const_of_beq hi))
  next hop => -- p2v
    exact .bind fun h hh => .bind fun d hd => .guard <| both <| both <| both <| both fun ha hb hc hm hi =>
      .shaped fun hshape => by
      have hi : (r.imm == 0) = true := (Bool.or_eq_true_iff.mp hi).resolve_right fun hF =>
        p2v_dst_ne_imm hshape (Spec.eq_imm_of_dec hd hF)
      exact Raw.eq_of_fields hh hop (Spec.enc_of_dec hd) (unused_fields ha) (unused_fields hb) (unused_fields hc)
        (const_of_beq hm) (const_of_beq hi)
  next hop => -- v2p
    exact .bind fun h hh => .bind fun a ha => .bind fun b hb => .guard <| both <| both fun hd hc hm =>
      .some (Raw.eq_of_fields hh hop (const_of_beq hd) (src_fields ha) (src_fields hb) (unused_fields hc) (const_of_beq hm) rfl)
  iterate 2 next hop => -- fadd, fmul
    exact .bind fun o ho => .guard fun hm => .some (Raw.op2_raw ho hop (FMod.enc_dec (const_of_beq hm)))
  next hop => -- ffma
    exact .bind fun o ho => .guard fun hm => .some (Raw.op3_raw ho hop (FMod.enc_dec (const_of_beq hm)))
  iterate 2 next hop => -- fmin, fmax
    exact .bind fun o ho => .guard fun hm => .some (Raw.op2_raw ho hop (FMod.enc_dec (const_of_beq hm)))
  next hop => -- fset
    exact .bind fun o ho =>
      have ⟨hbop, hplain⟩ := Raw.opCmp_combination ho
      .some (Raw.opCmp_raw ho hop (FMod.enc_combination r.m (FCmp.enc_dec _) hbop)) hplain
  next hop => -- fsetv
    exact .bind fun o ho => .some (Raw.op2_raw ho hop (FMod.enc_dec (FCmp.enc_dec _)))
  next hop => -- frnd
    exact .bind fun o ho => .guard fun hm => .some (Raw.op1_raw ho hop (FMod.enc_dec (const_of_beq hm)))
  next hop => -- fclass
    exact .bind fun o ho => .guard fun hm => .some (Raw.op1_raw ho hop ((HoldsBits.low (FFmt.enc_dec _)).all hm))
  next hop => -- fspec
    exact .bind fun o ho => .some (Raw.op1_raw ho hop (FMod.enc_dec (FFn.enc_dec _)))
  iterate 3 next hop => -- fscale, hadd2, hmul2
    exact .bind fun o ho => .guard fun hm => .some (Raw.op2_raw ho hop (FMod.enc_dec (const_of_beq hm)))
  next hop => -- hfma2
    exact .bind fun o ho => .guard fun hm => .some (Raw.op3_raw ho hop (FMod.enc_dec (const_of_beq hm)))
  iterate 2 next hop => -- hmin2, hmax2
    exact .bind fun o ho => .guard fun hm => .some (Raw.op2_raw ho hop (FMod.enc_dec (const_of_beq hm)))
  next hop => -- hset2
    exact .bind fun o ho => .some (Raw.op2_raw ho hop (FMod.enc_dec (FCmp.enc_dec _)))
  next hop => -- hdot2
    exact .bind fun o ho => .guard fun hm => .some (Raw.op3_raw ho hop (FMod.enc_dec (const_of_beq hm)))
  iterate 2 next hop => -- dadd, dmul
    exact .bind fun o ho => .guard fun hm => .some (Raw.op2_raw ho hop (FMod.enc_dec (const_of_beq hm)))
  next hop => -- dfma
    exact .bind fun o ho => .guard fun hm => .some (Raw.op3_raw ho hop (FMod.enc_dec (const_of_beq hm)))
  iterate 2 next hop => -- dmin, dmax
    exact .bind fun o ho => .guard fun hm => .some (Raw.op2_raw ho hop (FMod.enc_dec (const_of_beq hm)))
  next hop => -- dset
    exact .bind fun o ho =>
      have ⟨hbop, hplain⟩ := Raw.opCmp_combination ho
      .some (Raw.opCmp_raw ho hop (FMod.enc_combination r.m (FCmp.enc_dec _) hbop)) hplain
  next hop => -- f2i
    exact .bind fun o ho => .guard fun hm =>
      .some (Raw.op1_raw ho hop
        (((((HoldsBits.low (Rnd.enc_dec _)).or (.at (FFmt.enc_dec _))).or (.at (ITy.enc_dec _))).or (.bit _ 9)).all hm))
  next hop => -- i2f
    exact .bind fun o ho => .guard fun hm =>
      .some (Raw.op1_raw ho hop ((((HoldsBits.low (Rnd.enc_dec _)).or (.at (ITy.enc_dec _))).or (.at (FFmt.enc_dec _))).all hm))
  next hop => -- f2f
    exact .bind fun o ho => .guard fun hm =>
      .some (Raw.op1_raw ho hop
        (((((HoldsBits.low (Rnd.enc_dec _)).or (.at (FFmt.enc_dec _))).or (.at (FFmt.enc_dec _))).or (.bit _ 9)).all hm))
  next hop => -- i2i
    exact .bind fun o ho => .guard fun hm =>
      .some (Raw.op1_raw ho hop ((((HoldsBits.at (ITy.enc_dec _)).or (.at (ITy.enc_dec _))).or (.bit _ 8)).all hm))
  next hop => -- qpack
    exact .bind fun o ho => .bind fun f hf => .bind fun ct hct => .guard fun hm =>
      .some (Raw.op1_raw ho hop
        (((((HoldsBits.low (SxFmt.enc_of_dec hf)).or (.bit _ 2)).or (.bit _ 3)).or (.at (CtSel.enc_of_dec hct))).all hm))
  next hop => -- qunpk
    exact .bind fun o ho => .bind fun f hf => .bind fun ct hct => .guard fun hm =>
      .some (Raw.op3_raw ho hop (((HoldsBits.low (SxFmt.enc_of_dec hf)).or (.at (CtSel.enc_of_dec hct))).all hm))
  next hop => -- qscal
    exact .bind fun o ho => .guard fun hm => .some (Raw.op2_raw ho hop (((HoldsBits.bit _ 0).or (.at rfl)).all hm))
  next hop => -- cmpld
    exact .bind fun h hh => .bind fun a ha => .bind fun b hb => .bind fun k hk => .guard <| both <| both <| both fun hd hc hm hi =>
      .shaped fun hshape => by
      have ⟨haImm, hbImm⟩ := cmpld_src_ne_imm hshape
      have hi : (r.imm == 0) = true := by
        rcases Bool.or_eq_true_iff.mp hi with hi | hF
        · exact (Bool.or_eq_true_iff.mp hi).resolve_right fun hF => haImm (src_eq_imm ha hF)
        · exact absurd (src_eq_imm hb hF) hbImm
      exact Raw.eq_of_fields hh hop (const_of_beq hd) (src_fields ha) (src_fields hb) (unused_fields hc)
        (((HoldsBits.low (CmpKind.enc_of_dec hk)).or (.at rfl)).all hm) (const_of_beq hi)
  iterate 10 next hop => -- ld, st, atom, atomf, cas, red, fence, pref, fewait, feset
    exact .map fun o ho => .some (Raw.memOp_raw ho hop)
  next hop => -- cctlL1, cctlL1all, cctlIc, cctlMap
    exact .bind fun o ho => by split <;> exact .some (Raw.memOp_raw ho hop)
  next hop => -- lodld
    exact .map fun o ho => .some (Raw.memOp_raw ho hop)
  next hop => -- vote
    exact .bind fun h hh => .bind fun pa hpa => .unless <| both fun hc hm => .ite
      (fun h3 => .bind fun d hd => .bind fun b hb =>
        .some (Raw.eq_of_fields hh hop (Spec.enc_of_dec hd) (psrc_fields hpa) (src_fields hb) (unused_fields hc)
          (Raw.mode_bits hm h3) rfl))
      fun h3 => .bind fun d hd => .unless <| both fun hb hi => .ite
        (fun h0 =>
          .some (Raw.eq_of_fields hh hop (pdEnc_of_dec hd) (psrc_fields hpa) (unused_fields hb) (unused_fields hc)
            (Raw.mode_bits hm h0) (const_of_beq hi)))
        fun h0 => .ite
          (fun h1 =>
            .some (Raw.eq_of_fields hh hop (pdEnc_of_dec hd) (psrc_fields hpa) (unused_fields hb) (unused_fields hc)
              (Raw.mode_bits hm h1) (const_of_beq hi)))
          fun h1 =>
            .some (Raw.eq_of_fields hh hop (pdEnc_of_dec hd) (psrc_fields hpa) (unused_fields hb) (unused_fields hc)
              ((HoldsBits.low (two_of_not h0 h1 h3)).all hm) (const_of_beq hi))
  next hop => -- xlane
    exact .bind fun o ho => .bind fun k hk => .guard fun hm =>
      .some (Raw.op2_raw ho hop (((HoldsBits.low (XMode.enc_dec _)).or (.at (ofNat_of_segDec hk))).all hm))
  next hop => -- qdiff
    exact .bind fun o ho => .guard fun hm =>
      .some (Raw.op1_raw ho hop ((((HoldsBits.low (Rnd.enc_dec _)).or (.bit _ 2)).or (.bit _ 3)).all hm))
  next hop => -- gfold
    exact .bind fun o ho => .bind fun f hf => .bind fun ty hty => .guard fun hm =>
      .some (Raw.op1_raw ho hop (((HoldsBits.low (FoldOp.enc_of_dec hf)).or (.at (FoldTy.enc_of_dec hty))).all hm))
  next hop => -- scan
    exact .bind fun o ho => .bind fun f hf => .bind fun ty hty => .guard fun hm =>
      .some (Raw.op1_raw ho hop
        ((((HoldsBits.low (FoldOp.enc_of_dec hf)).or (.at (FoldTy.enc_of_dec hty))).or (.bit _ 5)).all hm))
  next hop => -- rdlane
    exact .bind fun o ho => .guard fun hm => .some (Raw.op2_raw ho hop (const_of_beq hm))
  next hop => -- matchLanes
    exact .bind fun o ho => .guard fun hm => .some (Raw.op1_raw ho hop (((HoldsBits.bit _ 0).or (.bit _ 1)).all hm))
  next hop => -- elect
    exact .bind fun h hh => .bind fun d hd => .guard <| both <| both <| both <| both fun ha hb hc hm hi =>
      .some (Raw.eq_of_fields hh hop (pdEnc_of_dec hd) (unused_fields ha) (unused_fields hb) (unused_fields hc)
        (const_of_beq hm) (const_of_beq hi))
  next hop => -- barWait, barSync, barArrive
    exact .bind fun h hh => .bind fun a ha => .unless <| both <| both fun hd hc hm => .ite
      (fun h2 => .guard fun hb =>
        .some (Raw.eq_of_fields hh hop (const_of_beq hd) (src_fields ha) (unused_fields hb) (unused_fields hc)
          (Raw.mode_bits hm h2) rfl))
      fun _ => .bind fun b hb => .ite
        (fun h0 =>
          .some (Raw.eq_of_fields hh hop (const_of_beq hd) (src_fields ha) (src_fields hb) (unused_fields hc)
            (Raw.mode_bits hm h0) rfl))
        fun _ => .guard fun h1 =>
          .some (Raw.eq_of_fields hh hop (const_of_beq hd) (src_fields ha) (src_fields hb) (unused_fields hc)
            (Raw.mode_bits hm h1) rfl)
  next hop => -- trset
    exact .bind fun h hh => .bind fun d hd => .bind fun a ha => .guard <| both <| both <| both fun hb hc hm hi =>
      .some (Raw.eq_of_fields hh hop (Spec.enc_of_dec hd) (src_fields ha) (unused_fields hb) (unused_fields hc)
        (const_of_beq hm) (setWidth_bitsOf hi))
  iterate 2 next hop => -- cpy, cpys
    exact .bind fun o ho => .bind fun k hk => .bind fun tr htr => .guard fun hm =>
      .some (Raw.cpyOp_raw ho hop
        ((((HoldsBits.low (CpyKind.enc_of_dec hk)).or (.at (ofNat_of_trDec htr))).or (.bit _ 4)).all hm))
  next hop => -- cpyg
    exact .bind fun o ho => .bind fun k hk => .guard fun hm =>
      .some (Raw.cpyOp_raw ho hop ((HoldsBits.low (CpyKind.enc_of_dec hk)).all hm))
  next hop => -- coll
    exact .bind fun o ho => .bind fun f hf => .bind fun ty hty => .guard fun hm =>
      .some (Raw.cpyOp_raw ho hop (((HoldsBits.low (CollOp.enc_of_dec hf)).or (.at (collTyEnc_of_dec hty))).all hm))
  next hop => -- fillScr, fillMem
    exact .bind fun o ho => .ite (fun hm => .some (Raw.cpyOp_raw ho hop (const_of_beq hm))) fun _ =>
      .guard fun hm => .some (Raw.cpyOp_raw ho hop (const_of_beq hm))
  next hop => -- tclaim
    exact .bind fun h hh => .bind fun d hd => .guard <| both <| both <| both <| both fun ha hb hc hm hi =>
      .some (Raw.eq_of_fields hh hop (pdEnc_of_dec hd) (unused_fields ha) (unused_fields hb) (unused_fields hc)
        ((HoldsBits.bit _ 0).all hm) (eq_of_bitsOf (append_bitsOf (const_of_beq hi) (append_bitsOf rfl rfl))))
  next hop => -- trel
    exact .bind fun h hh => .guard <| both <| both <| both <| both <| both fun hd ha hb hc hm hi =>
      .some (Raw.eq_of_fields hh hop (const_of_beq hd) (unused_fields ha) (unused_fields hb) (unused_fields hc)
        ((HoldsBits.bit _ 0).all hm) (eq_of_bitsOf (append_bitsOf (const_of_beq hi) (append_bitsOf rfl rfl))))
  next hop => -- mslot
    exact .bind fun h hh => .bind fun a ha => .bind fun ct hct => .guard <| both <| both <| both <| both fun hd hb hc hm hi =>
      .some (Raw.eq_of_fields hh hop (const_of_beq hd) (src_fields ha) (unused_fields hb) (unused_fields hc)
        ((((HoldsBits.low (SlotFmt.enc_dec _)).or (.bit _ 2)).or (.at (CtSel.enc_of_dec hct))).all hm) (setWidth_bitsOf hi))
  iterate 2 next hop => -- mma, mmas
    exact .map fun o ho => .some (Raw.mmaOp_raw ho hop)
  next hop => -- mzero
    exact .bind fun h hh => .guard <| both <| both <| both <| both <| both fun hd ha hb hc hm hi =>
      .some (Raw.eq_of_fields hh hop (const_of_beq hd) (unused_fields ha) (unused_fields hb) (unused_fields hc)
        (const_of_beq hm) (setWidth_bitsOf hi))
  next hop => -- mrd
    exact .bind fun h hh => .bind fun d hd => .bind fun b hb => .guard <| both <| both <| both fun ha hc hm hi =>
      .some (Raw.eq_of_fields hh hop (Spec.enc_of_dec hd) (unused_fields ha) (src_fields hb) (unused_fields hc)
        (const_of_beq hm) (setWidth_bitsOf hi))
  next hop => -- mwr
    exact .bind fun h hh => .bind fun a ha => .bind fun b hb => .guard <| both <| both <| both fun hd hc hm hi =>
      .some (Raw.eq_of_fields hh hop (const_of_beq hd) (src_fields ha) (src_fields hb) (unused_fields hc) (const_of_beq hm)
        (setWidth_bitsOf hi))
  next hop => -- bnew
    exact .bind fun h hh => .bind fun d hd => .bind fun a ha => .guard <| both <| both <| both fun hb hc hm hi =>
      .some (Raw.eq_of_fields hh hop (Spec.enc_of_dec hd) (src_fields ha) (unused_fields hb) (unused_fields hc)
        (const_of_beq hm) (const_of_beq hi))
  next hop => -- btrace
    exact .bind fun h hh => .bind fun d hd => .bind fun a ha => .bind fun b hb => .bind fun c hc => .guard <| both fun hm hi =>
      .some (Raw.eq_of_fields hh hop (Spec.enc_of_dec hd) (src_fields ha) (src_fields hb) (src_fields hc) (const_of_beq hm)
        (setWidth_bitsOf hi))
  next hop => -- bfree
    exact .bind fun h hh => .bind fun d hd => .bind fun a ha => .guard <| both <| both <| both fun hb hc hm hi =>
      .some (Raw.eq_of_fields hh hop (Spec.enc_of_dec hd) (src_fields ha) (unused_fields hb) (unused_fields hc)
        (const_of_beq hm) (const_of_beq hi))
  next hop => -- rtrace
    exact .bind fun h hh => .bind fun d hd => .bind fun a ha => .bind fun b hb => .bind fun c hc => .guard <| both fun hm hi =>
      .some (Raw.eq_of_fields hh hop (Spec.enc_of_dec hd) (src_fields ha) (src_fields hb) (src_fields hc)
        (((HoldsBits.low rfl).or (.bit _ 8)).all hm) (setWidth_bitsOf hi))
  next hop => -- rresume
    exact .bind fun h hh => .bind fun d hd => .bind fun a ha => .bind fun b hb => .bind fun c hc => .guard <| both fun hm hi =>
      .some (Raw.eq_of_fields hh hop (Spec.enc_of_dec hd) (src_fields ha) (src_fields hb) (src_fields hc)
        (((HoldsBits.bit _ 0).or (.bit _ 1)).all hm) (const_of_beq hi))
  next hop => -- tex
    exact .bind fun o ho => .guard fun hm =>
      .some (Raw.texOp_raw ho hop ((((HoldsBits.low (TexFlt.enc_dec _)).or (.at (LodMode.enc_dec _))).or (.bit _ 4)).all hm))
  next hop => -- texg
    exact .bind fun o ho => .guard fun hm =>
      .some (Raw.texOp_raw ho hop ((((HoldsBits.at (LodMode.enc_dec _)).or (.bit _ 4)).or (.at rfl)).all hm))
  next hop => -- texq
    exact .bind fun o ho => .guard fun hm =>
      .some (Raw.texOp_raw ho hop (((HoldsBits.low (TexFlt.enc_dec _)).or (.at (LodMode.enc_dec _))).all hm))
  next hop => -- post
    exact .bind fun h hh => .bind fun a ha => .bind fun p hp => .guard <| both <| both fun hd hc hm =>
      .some (Raw.port_raw hp id ⟨rfl, rfl⟩ rfl
        (Raw.eq_of_fields hh hop (const_of_beq hd) (src_fields ha) ⟨rfl, rfl⟩ (unused_fields hc) (const_of_beq hm) rfl))
  next hop => -- postn
    exact .bind fun h hh => .bind fun d hd => .bind fun a ha => .bind fun p hp => .guard <| both fun hc hm =>
      .some (Raw.port_raw hp id ⟨rfl, rfl⟩ rfl
        (Raw.eq_of_fields hh hop (Spec.enc_of_dec hd) (src_fields ha) ⟨rfl, rfl⟩ (unused_fields hc) (const_of_beq hm) rfl))
  next hop => -- wait
    exact .bind fun h hh => .unless <| both <| both <| both <| both fun hd hc hm hlo hhi =>
      have hm : mLow (bitsOf r.m 0 3) = r.m := (HoldsBits.low rfl).all hm
      .ite (fun h20 => .guard <| both fun ha hb =>
        .some (Raw.eq_of_fields hh hop (const_of_beq hd) (unused_fields ha) (unused_fields hb) (unused_fields hc) hm
          (portImm_zero_of_bits hlo hhi h20)))
      fun _ => .guard fun hi => .bind fun a ha => .bind fun b hb =>
        .some (Raw.eq_of_fields hh hop (const_of_beq hd) (src_fields ha) (src_fields hb) (unused_fields hc) hm
          (const_of_beq hi))
  next hop => -- take
    exact .bind fun h hh => .bind fun d hd => .bind fun p hp => .bind fun pc hpc => .guard <| both <| both fun ha hkc hm =>
      .some (Raw.port_raw hp ({ · with c := pdEnc pc }) ⟨rfl, rfl⟩ rfl
        (Raw.eq_of_fields hh hop (Spec.enc_of_dec hd) (unused_fields ha) ⟨rfl, rfl⟩ ⟨pdEnc_of_dec hpc, clear_of_not hkc⟩
          (const_of_beq hm) rfl))
  next hop => -- patset
    exact .bind fun h hh => .bind fun d hd => .bind fun a ha => .bind fun b hb => .bind fun c hc => .guard <| both fun hm hi =>
      .some (Raw.eq_of_fields hh hop (Spec.enc_of_dec hd) (src_fields ha) (src_fields hb) (src_fields hc) (const_of_beq hm)
        (const_of_beq hi))
  next hop => -- patclr
    exact .bind fun h hh => .bind fun d hd => .bind fun a ha => .guard <| both <| both <| both fun hb hc hm hi =>
      .some (Raw.eq_of_fields hh hop (Spec.enc_of_dec hd) (src_fields ha) (unused_fields hb) (unused_fields hc)
        (const_of_beq hm) (const_of_beq hi))
  next hop => -- portcfg
    exact .bind fun h hh => .bind fun d hd => .bind fun a ha => .bind fun p hp => .bind fun c hc => .guard fun hm =>
      .some (Raw.port_raw hp (·.setC c) ⟨rfl, rfl⟩ rfl
        (Raw.eq_of_fields hh hop (Spec.enc_of_dec hd) (src_fields ha) ⟨rfl, rfl⟩ (src_fields hc) (const_of_beq hm) rfl))
  next hop => -- launchCard, launchArm, launchSeal
    exact .bind fun h hh => .bind fun d hd => .bind fun a ha => .unless <| both fun hm hi => .ite
      (fun h0 => .guard <| both fun hb hc =>
        .some (Raw.eq_of_fields hh hop (Spec.enc_of_dec hd) (src_fields ha) (unused_fields hb) (unused_fields hc)
          (Raw.mode_bits hm h0) (const_of_beq hi)))
      fun _ => .ite
        (fun h1 => .bind fun b hb => .bind fun c hc =>
          .some (Raw.eq_of_fields hh hop (Spec.enc_of_dec hd) (src_fields ha) (src_fields hb) (src_fields hc)
            (Raw.mode_bits hm h1) (const_of_beq hi)))
        fun _ => .guard fun h2 => .guard <| both fun hb hc =>
          .some (Raw.eq_of_fields hh hop (Spec.enc_of_dec hd) (src_fields ha) (unused_fields hb) (unused_fields hc)
            (Raw.mode_bits hm h2) (const_of_beq hi))
  next hop => -- cancel
    exact .bind fun h hh => .bind fun d hd => .bind fun a ha => .guard <| both <| both <| both fun hb hc hm hi =>
      .some (Raw.eq_of_fields hh hop (Spec.enc_of_dec hd) (src_fields ha) (unused_fields hb) (unused_fields hc)
        (((HoldsBits.bit _ 0).or (.bit _ 1)).all hm) (const_of_beq hi))
  next hop => -- cntrd
    exact .bind fun h hh => .bind fun d hd => .bind fun a ha => .guard <| both <| both <| both fun hb hc hm hi =>
      .some (Raw.eq_of_fields hh hop (Spec.enc_of_dec hd) (src_fields ha) (unused_fields hb) (unused_fields hc)
        ((HoldsBits.bit _ 0).all hm) (const_of_beq hi))
  next hop => -- resumeRec, resumeLaunch
    exact .bind fun h hh => .bind fun d hd => .bind fun a ha => .unless <| both <| both <| both fun hb hc hm hi => .ite
      (fun h0 =>
        .some (Raw.eq_of_fields hh hop (Spec.enc_of_dec hd) (src_fields ha) (unused_fields hb) (unused_fields hc)
          (Raw.mode_bits hm h0) (const_of_beq hi)))
      fun _ => .guard fun h1 =>
        .some (Raw.eq_of_fields hh hop (Spec.enc_of_dec hd) (src_fields ha) (unused_fields hb) (unused_fields hc)
          (Raw.mode_bits hm h1) (const_of_beq hi))
  next hop => -- mfs
    exact .bind fun h hh => .bind fun d hd => .guard <| both <| both <| both <| both fun ha hb hc hm hi =>
      .some (Raw.eq_of_fields hh hop (Spec.enc_of_dec hd) (unused_fields ha) (unused_fields hb) (unused_fields hc)
        (const_of_beq hm) (setWidth_bitsOf hi))
  next hop => -- mts
    exact .bind fun h hh => .bind fun a ha => .guard <| both <| both <| both <| both fun hd hb hc hm hi =>
      .some (Raw.eq_of_fields hh hop (const_of_beq hd) (src_fields ha) (unused_fields hb) (unused_fields hc) (const_of_beq hm)
        (setWidth_bitsOf hi))
  iterate 2 next hop => -- regclaim, reggive
    exact .bind fun h hh => .guard <| both <| both <| both <| both <| both fun hd ha hb hc hm hi =>
      .some (Raw.eq_of_fields hh hop (const_of_beq hd) (unused_fields ha) (unused_fields hb) (unused_fields hc)
        (const_of_beq hm) (setWidth_bitsOf hi))
  next hop => -- keyset
    exact .bind fun h hh => .bind fun a ha => .guard <| both <| both <| both <| both fun hd hb hc hm hi =>
      .some (Raw.eq_of_fields hh hop (const_of_beq hd) (src_fields ha) (unused_fields hb) (unused_fields hc) (const_of_beq hm)
        (setWidth_bitsOf hi))
  next => -- an unassigned opcode
    intro i hi _ hun
    obtain ⟨h, -, rfl⟩ := Option.map_eq_some_iff.mp hi
    exact absurd rfl (hun h r.op)

/-! ### The word of a decoded instruction -/

/-- What the decoder accepts is the parsed instruction, without a fault of its fields (R61). -/
theorem parse_of_decode {w : BitVec 96} {i : Instr} (h : decode w = .ok i) (hun : ∀ h op, i ≠ .unassignedOpcodeIssue h op) :
    (Raw.unpack w).parse = some i ∧ i.legal = true ∧ i.shapeOk = true := by
  unfold decode at h
  split at h
  · cases h
  · cases h
    exact absurd rfl (hun _ _)
  · next hparse =>
    split at h
    · cases h
    next hlegal =>
    split at h
    · next hshape =>
      cases h
      exact ⟨hparse, by simpa using hlegal, hshape⟩
    · cases h

/-- Settles O56: the parsed instruction is well formed, and its fields are the slot's own, which packed together are the word. -/
theorem decodeThenEncode : Obligations.DecodeThenEncode := by
  unfold Obligations.DecodeThenEncode
  intro w i hdec hun
  obtain ⟨hparse, hlegal, hshape⟩ := parse_of_decode hdec hun
  obtain ⟨hterm, hraw⟩ := Raw.parse_readsBack _ i hparse hshape hun
  obtain ⟨hcls, hplain⟩ := Bool.and_eq_true_iff.mp hterm
  refine ⟨?_, ?_⟩
  · rw [Instr.wellFormed, hcls, hlegal, hshape, hplain]
    rfl
  · rw [encode, hraw, Option.map_some, Raw.pack_unpack]

end Sys2Proof
end
